-- ==== Sys2Proof/Word.lean ====
section
/-! DEFINITION. The word types of the machine (00 R8): bytes, 64-bit scalars, 96-bit instruction words,
2 KiB vector registers, 512-byte masks and 48-bit accumulator elements, and the names of engines and profiles. -/

namespace Sys2Proof

/-- One byte of memory. -/
abbrev Byte := BitVec 8

/-- A scalar register, an address, a device register (06 R135). -/
abbrev Word := BitVec 64

/-- An instruction word (02, 96 bits). -/
abbrev TextWord := BitVec 96

/-- A vector register: 2 KiB, byte 0 in the least significant bits (08 R187). -/
abbrev Tile := BitVec 16384

/-- A mask register: 512 bytes (06 R135). -/
abbrev Mask := BitVec 4096

/-- The six engines, in the order S, A, V, M, C, B (00 R2, 01 R16). -/
inductive Engine where
  | s | a | v | m | c | b
deriving DecidableEq, Repr

/-- Position of an engine in the order S, A, V, M, C, B. -/
def Engine.num : Engine → Nat
  | .s => 0 | .a => 1 | .v => 2 | .m => 3 | .c => 4 | .b => 5

/-- The engine whose ENG code (01 R15) is `n`; codes 6 and 7 name none. -/
def Engine.ofNum? : Nat → Option Engine
  | 0 => some .s | 1 => some .a | 2 => some .v | 3 => some .m | 4 => some .c | 5 => some .b | _ => none

/-- All engines in engine order. -/
def Engine.all : List Engine := [.s, .a, .v, .m, .c, .b]

/-- The profiles of 00 R2: P, D, crown, and the management controller. -/
inductive Profile where
  | p | d | crown | mc
deriving DecidableEq, Repr

/-- 00 R2, engines by profile. -/
def Profile.has : Profile → Engine → Bool
  | _, .s => true
  | .mc, _ => false
  | _, .a => true
  | _, .v => true
  | .crown, .m => false
  | _, .m => true
  | _, .c => true
  | .d, .b => true
  | _, .b => false

/-- PROF code of 03 R74. -/
def Profile.code : Profile → Nat
  | .p => 0 | .d => 1 | .crown => 2 | .mc => 3

end Sys2Proof
end

