-- ==== Sys2Proof/Machine/Bits.lean ====
section
/-! DEFINITION. Bit fields and small integer helpers shared by every unit (00 R8, R11). -/

namespace Sys2Proof.Machine

/-- Bits `hi` down to `lo` of `x` as a natural number (00 R8, R11). -/
def fld {n : Nat} (x : BitVec n) (hi lo : Nat) : Nat := (x.toNat >>> lo) % 2 ^ (hi + 1 - lo)

/-- Bit `i` of `x`. -/
def bit {n : Nat} (x : BitVec n) (i : Nat) : Bool := x.getLsbD i

/-- `x` with bits `hi` down to `lo` replaced by the low bits of `v`. -/
def setFld {n : Nat} (x : BitVec n) (hi lo v : Nat) : BitVec n :=
  let m := 2 ^ (hi + 1 - lo) - 1
  (x &&& ~~~(BitVec.ofNat n (m <<< lo))) ||| BitVec.ofNat n ((v % (m + 1)) <<< lo)

/-- `x` with bit `i` set to `b`. -/
def setBit {n : Nat} (x : BitVec n) (i : Nat) (b : Bool) : BitVec n := setFld x i i (if b then 1 else 0)

/-- sext(x, 64) of 00 R11. -/
def sx {n : Nat} (x : BitVec n) : Word := x.signExtend 64

/-- zext(x, 64) of 00 R11. -/
def zx {n : Nat} (x : BitVec n) : Word := x.setWidth 64

/-- A natural number as a scalar, modulo 2^64. -/
def w64 (n : Nat) : Word := BitVec.ofNat 64 n

/-- A Bool as 0 or 1. -/
def b2n (b : Bool) : Nat := if b then 1 else 0

/-- The `w`-bit two's-complement value of the low `w` bits of `x`. -/
def sval (w x : Nat) : Int :=
  let y := x % 2 ^ w
  if 2 * y < 2 ^ w then Int.ofNat y else Int.ofNat y - Int.ofNat (2 ^ w)

/-- The `w`-bit two's-complement code of `v`. -/
def scode (w : Nat) (v : Int) : Nat := (v % Int.ofNat (2 ^ w)).toNat

/-- Number of one bits of `x` among its low `n`. -/
def popcount (x : Nat) : Nat → Nat
  | 0 => 0
  | n + 1 => (x >>> n) % 2 + popcount x n

/-- Positions of the one bits of `x` among its low `n`, ascending. -/
def onesOf (x n : Nat) : List Nat := (List.range n).filter (fun i => x.testBit i)

/-- Quotient rounded up. -/
def ceilDiv (a b : Nat) : Nat := (a + b - 1) / b

/-- The natural number whose little-endian digits in base 2^w are `xs`. -/
def packLE (w : Nat) : List Nat → Nat
  | [] => 0
  | x :: r => x % 2 ^ w + 2 ^ w * packLE w r

end Sys2Proof.Machine
end

