-- ==== Sys2Proof/Machine/Float.lean ====
section
/-! DEFINITION. Number formats and exact arithmetic with one rounding (04 R77 to R96). A value is NaN, an infinity or
a signed dyadic number m * 2^e; sums and products are formed exactly and rounded once by `cvt`. Flags are FSTAT's bits. -/

namespace Sys2Proof.Machine

/-- A value of a floating format (04 R78, R79): `fin neg m e` is (-1)^neg * m * 2^e, zeros keeping their sign. -/
inductive Fv where
  | nan
  | inf (neg : Bool)
  | fin (neg : Bool) (m : Nat) (e : Int)
deriving DecidableEq, Repr

/-- The FSTAT bits (04 R82). -/
abbrev Flags := BitVec 7
def fINV : Flags := 1
def fDZ : Flags := 2
def fOVF : Flags := 4
def fUNF : Flags := 8
def fSAT : Flags := 16
def fSCLO : Flags := 32
def fIOVF : Flags := 64

/-- Element formats by type code (02 R44). -/
inductive Fmt where
  | f32 | f16 | bf16 | e4m3 | e5m2 | e2m1 | e8m0
deriving DecidableEq, Repr

/-- Width of the exponent, width of the mantissa, bias (04 R78). -/
def Fmt.ebits : Fmt → Nat
  | .f32 => 8 | .f16 => 5 | .bf16 => 8 | .e4m3 => 4 | .e5m2 => 5 | .e2m1 => 2 | .e8m0 => 8
def Fmt.mbits : Fmt → Nat
  | .f32 => 23 | .f16 => 10 | .bf16 => 7 | .e4m3 => 3 | .e5m2 => 2 | .e2m1 => 1 | .e8m0 => 0
def Fmt.bias : Fmt → Int
  | .f32 => 127 | .f16 => 15 | .bf16 => 127 | .e4m3 => 7 | .e5m2 => 15 | .e2m1 => 1 | .e8m0 => 127
/-- Width of a code in bits. -/
def Fmt.bits : Fmt → Nat
  | .f32 => 32 | .f16 => 16 | .bf16 => 16 | .e4m3 => 8 | .e5m2 => 8 | .e2m1 => 4 | .e8m0 => 8
/-- Canonical NaN code (04 R78); e2m1 has none. -/
def Fmt.nanCode : Fmt → Nat
  | .f32 => 0x7FC00000 | .f16 => 0x7E00 | .bf16 => 0x7FC0 | .e4m3 => 0x7F | .e5m2 => 0x7E | .e2m1 => 0x7 | .e8m0 => 0xFF

/-- The value of a code (04 R79). -/
def Fmt.decode (f : Fmt) (code : Nat) : Fv :=
  let mb := f.mbits
  let m := code % 2 ^ mb
  let ex := (code / 2 ^ mb) % 2 ^ f.ebits
  let top := 2 ^ f.ebits - 1
  let neg := code.testBit (mb + f.ebits)
  match f with
  | .e8m0 => if code % 256 = 255 then .nan else .fin false 1 (Int.ofNat (code % 256) - 127)
  | .e2m1 =>
    if ex = 0 then .fin neg m (1 - f.bias - mb) else .fin neg (2 ^ mb + m) (Int.ofNat ex - f.bias - mb)
  | .e4m3 =>
    if ex = top ∧ m = 7 then .nan
    else if ex = 0 then .fin neg m (1 - f.bias - mb) else .fin neg (2 ^ mb + m) (Int.ofNat ex - f.bias - mb)
  | _ =>
    if ex = top then (if m = 0 then .inf neg else .nan)
    else if ex = 0 then .fin neg m (1 - f.bias - mb) else .fin neg (2 ^ mb + m) (Int.ofNat ex - f.bias - mb)

/-- m * 2^e rounded to a multiple of 2^q, to nearest with ties to even: the multiple, and whether it is inexact. -/
def roundAt (m : Nat) (e q : Int) : Nat × Bool :=
  if q ≤ e then (m * 2 ^ (e - q).toNat, false)
  else
    let d := (q - e).toNat
    let r := m / 2 ^ d
    let rem := m % 2 ^ d
    let half := 2 ^ (d - 1)
    (if rem > half ∨ (rem = half ∧ r % 2 = 1) then r + 1 else r, rem != 0)

/-- The sign bit of format `f` over a magnitude code. -/
def Fmt.signed (f : Fmt) (neg : Bool) (mag : Nat) : Nat := if neg then 2 ^ (f.bits - 1) + mag else mag

/-- cvt(x, f) for a floating destination, with flags (04 R85 to R89). -/
def Fmt.cvt (f : Fmt) (x : Fv) : Nat × Flags :=
  let mb := f.mbits
  let emin := 1 - f.bias
  match x with
  | .nan => if f = .e2m1 then (7, fINV) else (f.nanCode, 0)
  | .inf neg =>
    match f with
    | .e4m3 => (f.signed neg 0x7E, fSAT)
    | .e2m1 => (f.signed neg 7, fSAT)
    | _ => (f.signed neg ((2 ^ f.ebits - 1) * 2 ^ mb), 0)
  | .fin neg m e =>
    if m = 0 then (f.signed neg 0, 0)
    else
      let q := max (Int.ofNat (Nat.log2 m) + e - mb) (emin - mb)
      let (r0, inexact) := roundAt m e q
      let (r, q) := if r0 = 2 ^ (mb + 1) then (2 ^ mb, q + 1) else (r0, q)
      if r < 2 ^ mb then (f.signed neg r, if inexact then fUNF else 0)
      else
        let mag := (q + mb + f.bias).toNat * 2 ^ mb + (r - 2 ^ mb)
        match f with
        | .e4m3 => if mag > 0x7E then (f.signed neg 0x7E, fSAT) else (f.signed neg mag, 0)
        | .e2m1 => if mag > 7 then (f.signed neg 7, fSAT) else (f.signed neg mag, 0)
        | _ =>
          if mag ≥ (2 ^ f.ebits - 1) * 2 ^ mb then (f.signed neg ((2 ^ f.ebits - 1) * 2 ^ mb), fOVF)
          else (f.signed neg mag, 0)

/-- rne(x, f) as a value, flags dropped (04 R100: internal steps set no flag). -/
def Fmt.rnd (f : Fmt) (x : Fv) : Fv := f.decode (f.cvt x).1

/-- rni(x): the nearest integer, ties to even, of a finite value. -/
def roundInt (neg : Bool) (m : Nat) (e : Int) : Int :=
  let r := Int.ofNat (roundAt m e 0).1
  if neg then -r else r

/-- Clamping an exact integer to a `w`-bit type: its code, and SAT when clamped (04 R89). -/
def clampInt (signed : Bool) (w : Nat) (v : Int) : Nat × Flags :=
  let lo : Int := if signed then -(2 ^ (w - 1) : Int) else 0
  let hi : Int := if signed then 2 ^ (w - 1) - 1 else 2 ^ w - 1
  if v < lo then (scode w lo, fSAT) else if v > hi then (scode w hi, fSAT) else (scode w v, 0)

/-- cvt(x, integer type) from a floating value (04 R89). -/
def cvtToInt (signed : Bool) (w : Nat) (x : Fv) : Nat × Flags :=
  match x with
  | .nan => (0, fINV)
  | .inf neg => ((clampInt signed w (if neg then -(2 ^ 80 : Int) else 2 ^ 80)).1, fSAT)
  | .fin neg m e => clampInt signed w (roundInt neg m e)

/-- An integer as a value. -/
def Fv.ofInt (v : Int) : Fv := .fin (decide (v < 0)) v.natAbs 0

/-- Negation and magnitude. -/
def Fv.neg : Fv → Fv
  | .nan => .nan | .inf n => .inf (!n) | .fin n m e => .fin (!n) m e
def Fv.abs : Fv → Fv
  | .nan => .nan | .inf _ => .inf false | .fin _ m e => .fin false m e
def Fv.isNan : Fv → Bool
  | .nan => true | _ => false
def Fv.isInf : Fv → Bool
  | .inf _ => true | _ => false
def Fv.isZero : Fv → Bool
  | .fin _ 0 _ => true | _ => false
def Fv.isNeg : Fv → Bool
  | .nan => false | .inf n => n | .fin n _ _ => n
/-- +0. -/
def Fv.zero : Fv := .fin false 0 0
/-- 1.0. -/
def Fv.one : Fv := .fin false 1 0

/-- The integer of a finite value scaled by 2^-k, for k at or below its exponent. -/
def Fv.scaled (k : Int) : Fv → Int
  | .fin n m e => let v := Int.ofNat (m * 2 ^ (e - k).toNat); if n then -v else v
  | _ => 0

/-- Exponent of the least significant digit; zero values count as exponent `k0`. -/
def Fv.exp (k0 : Int) : Fv → Int
  | .fin _ 0 _ => k0 | .fin _ _ e => e | _ => k0

/-- Exact sum with the zero signs of 04 R88 and the special values of R87; the Bool tells that INV is set. -/
def Fv.add (x y : Fv) : Fv × Bool :=
  match x, y with
  | .nan, _ => (.nan, false)
  | _, .nan => (.nan, false)
  | .inf a, .inf b => if a = b then (.inf a, false) else (.nan, true)
  | .inf a, _ => (.inf a, false)
  | _, .inf b => (.inf b, false)
  | .fin a m e, .fin b n g =>
    if m = 0 ∧ n = 0 then (.fin (a && b) 0 0, false)
    else
      let k := min (Fv.exp g (.fin a m e)) (Fv.exp e (.fin b n g))
      let v := Fv.scaled k (.fin a m e) + Fv.scaled k (.fin b n g)
      (.fin (decide (v < 0)) v.natAbs k, false)

/-- Exact product with the special values of 04 R87; the Bool tells that INV is set. -/
def Fv.mul (x y : Fv) : Fv × Bool :=
  match x, y with
  | .nan, _ => (.nan, false)
  | _, .nan => (.nan, false)
  | .inf a, y => if y.isZero then (.nan, true) else (.inf (a != y.isNeg), false)
  | x, .inf b => if x.isZero then (.nan, true) else (.inf (x.isNeg != b), false)
  | .fin a m e, .fin b n g => (.fin (a != b) (m * n) (e + g), false)

/-- INV as a flag. -/
def inv (b : Bool) : Flags := if b then fINV else 0

/-- Exact sum of products of one group (04 R94, R95): a zero sum is +0. -/
def groupSum (ps : List (Fv × Fv)) : Fv × Flags :=
  let prods := ps.map (fun p => (Fv.mul p.1 p.2, p.1.isNan || p.2.isNan))
  let invp := prods.any (fun p => p.1.2)
  let hasNan := prods.any (fun p => p.1.1.isNan)
  let pinf := prods.any (fun p => p.1.1 == Fv.inf false)
  let ninf := prods.any (fun p => p.1.1 == Fv.inf true)
  if hasNan || (pinf && ninf) then (.nan, inv (invp || (pinf && ninf)))
  else if pinf then (.inf false, 0)
  else if ninf then (.inf true, 0)
  else
    let s := prods.foldl (fun acc p => (Fv.add acc p.1.1).1) Fv.zero
    (if s.isZero then Fv.zero else s, 0)

/-- Comparison of finite or infinite values: the sign of x - y. -/
def Fv.cmp (x y : Fv) : Int :=
  match x, y with
  | .inf a, .inf b => (if a then -1 else 1) - (if b then -1 else 1)
  | .inf a, _ => if a then -1 else 1
  | _, .inf b => if b then 1 else -1
  | x, y => let k := min (Fv.exp 0 x) (Fv.exp 0 y); Fv.scaled k x - Fv.scaled k y

/-- Minimum and maximum of 04 R88: -0 orders below +0, a NaN operand gives NaN. -/
def Fv.min (x y : Fv) : Fv :=
  if x.isNan || y.isNan then .nan
  else if Fv.cmp x y < 0 then x else if Fv.cmp y x < 0 then y else if x.isNeg then x else y
def Fv.max (x y : Fv) : Fv :=
  if x.isNan || y.isNan then .nan
  else if Fv.cmp x y > 0 then x else if Fv.cmp y x > 0 then y else if x.isNeg then y else x

/-- The f32 code and value of an exact value. -/
def f32c (x : Fv) : Nat × Flags := Fmt.f32.cvt x
def f32r (x : Fv) : Fv := Fmt.f32.rnd x
def f32d (c : Nat) : Fv := Fmt.f32.decode c

end Sys2Proof.Machine
end

