-- ==== Sys2Proof/Machine/Special.lean ====
section
/-! DEFINITION. The three 64-entry tables of 04 R101, each entry the correctly rounded f32 code of the exact real, and the
reference algorithms for special functions (04 R99 to R105), quantisation and scales (R90 to R93), and the scan of a
key-value block (R106). -/

namespace Sys2Proof.Machine

def tabT0 : List Nat :=
  [0x3F800000, 0x3F8164D2, 0x3F82CD87, 0x3F843A29, 0x3F85AAC3, 0x3F871F62, 0x3F88980F, 0x3F8A14D5,
   0x3F8B95C2, 0x3F8D1ADF, 0x3F8EA43A, 0x3F9031DC, 0x3F91C3D3, 0x3F935A2B, 0x3F94F4F0, 0x3F96942D]
def tabT1 : List Nat :=
  [0x3F9837F0, 0x3F99E046, 0x3F9B8D3A, 0x3F9D3EDA, 0x3F9EF532, 0x3FA0B051, 0x3FA27043, 0x3FA43516,
   0x3FA5FED7, 0x3FA7CD94, 0x3FA9A15B, 0x3FAB7A3A, 0x3FAD583F, 0x3FAF3B79, 0x3FB123F6, 0x3FB311C4]
def tabT2 : List Nat :=
  [0x3FB504F3, 0x3FB6FD92, 0x3FB8FBAF, 0x3FBAFF5B, 0x3FBD08A4, 0x3FBF179A, 0x3FC12C4D, 0x3FC346CD,
   0x3FC5672A, 0x3FC78D75, 0x3FC9B9BE, 0x3FCBEC15, 0x3FCE248C, 0x3FD06334, 0x3FD2A81E, 0x3FD4F35B]
def tabT3 : List Nat :=
  [0x3FD744FD, 0x3FD99D16, 0x3FDBFBB8, 0x3FDE60F5, 0x3FE0CCDF, 0x3FE33F89, 0x3FE5B907, 0x3FE8396A,
   0x3FEAC0C7, 0x3FED4F30, 0x3FEFE4BA, 0x3FF28177, 0x3FF5257D, 0x3FF7D0DF, 0x3FFA83B3, 0x3FFD3E0C]
/-- T[j] = rne(2^(j/64), f32) (04 R101). -/
def tabT : List Nat := tabT0 ++ tabT1 ++ tabT2 ++ tabT3

def tabL0 : List Nat :=
  [0x00000000, 0x3CB73CB4, 0x3D35D69C, 0x3D8759C5, 0x3DB31FB8, 0x3DDE4212, 0x3E0462C4, 0x3E19574F,
   0x3E2E00D2, 0x3E42615F, 0x3E567AF1, 0x3E6A4F72, 0x3E7DE0B6, 0x3E88983F, 0x3E92203D, 0x3E9B8926]
def tabL1 : List Nat :=
  [0x3EA4D3C2, 0x3EAE00D2, 0x3EB7110E, 0x3EC0052B, 0x3EC8DDD4, 0x3ED19BB0, 0x3EDA3F60, 0x3EE2C97D,
   0x3EEB3A9F, 0x3EF39355, 0x3EFBD42B, 0x3F01FED4, 0x3F060828, 0x3F0A0650, 0x3F0DF989, 0x3F11E20F]
def tabL2 : List Nat :=
  [0x3F15C01A, 0x3F1993E3, 0x3F1D5DA0, 0x3F211D84, 0x3F24D3C2, 0x3F28808C, 0x3F2C2411, 0x3F2FBE80,
   0x3F335004, 0x3F36D8CB, 0x3F3A58FF, 0x3F3DD0C8, 0x3F41404F, 0x3F44A7BA, 0x3F480731, 0x3F4B5ED7]
def tabL3 : List Nat :=
  [0x3F4EAED0, 0x3F51F740, 0x3F553848, 0x3F587209, 0x3F5BA4A4, 0x3F5ED039, 0x3F61F4E5, 0x3F6512C7,
   0x3F6829FB, 0x3F6B3A9F, 0x3F6E44CD, 0x3F7148A1, 0x3F744636, 0x3F773DA4, 0x3F7A2F04, 0x3F7D1A71]
/-- L[j] = rne(log2(1 + j/64), f32) (04 R101). -/
def tabL : List Nat := tabL0 ++ tabL1 ++ tabL2 ++ tabL3

def tabRC0 : List Nat :=
  [0x3F800000, 0x3F7C0FC1, 0x3F783E10, 0x3F74898D, 0x3F70F0F1, 0x3F6D7304, 0x3F6A0EA1, 0x3F66C2B4,
   0x3F638E39, 0x3F607038, 0x3F5D67C9, 0x3F5A740E, 0x3F579436, 0x3F54C77B, 0x3F520D21, 0x3F4F6475]
def tabRC1 : List Nat :=
  [0x3F4CCCCD, 0x3F4A4588, 0x3F47CE0C, 0x3F4565C8, 0x3F430C31, 0x3F40C0C1, 0x3F3E82FA, 0x3F3C5264,
   0x3F3A2E8C, 0x3F381703, 0x3F360B61, 0x3F340B41, 0x3F321643, 0x3F302C0B, 0x3F2E4C41, 0x3F2C7692]
def tabRC2 : List Nat :=
  [0x3F2AAAAB, 0x3F28E83F, 0x3F272F05, 0x3F257EB5, 0x3F23D70A, 0x3F2237C3, 0x3F20A0A1, 0x3F1F1166,
   0x3F1D89D9, 0x3F1C09C1, 0x3F1A90E8, 0x3F191F1A, 0x3F17B426, 0x3F164FDA, 0x3F14F209, 0x3F139A86]
def tabRC3 : List Nat :=
  [0x3F124925, 0x3F10FDBC, 0x3F0FB824, 0x3F0E7835, 0x3F0D3DCB, 0x3F0C08C1, 0x3F0AD8F3, 0x3F09AE41,
   0x3F088889, 0x3F0767AB, 0x3F064B8A, 0x3F053408, 0x3F042108, 0x3F03126F, 0x3F020821, 0x3F010204]
/-- RC[j] = rne(1 / (1 + j/64), f32) (04 R101). -/
def tabRC : List Nat := tabRC0 ++ tabRC1 ++ tabRC2 ++ tabRC3

/-- Constants of 04 R100 as values. -/
def kC1 : Fv := f32d 0x3F317218
def kC2 : Fv := f32d 0x3E75FDF0
def kC3 : Fv := f32d 0x3D635847
def kD1 : Fv := f32d 0x3FB8AA3B
def kD2 : Fv := f32d 0xBF38AA3B
def kD3 : Fv := f32d 0x3EF6384F
def kH : Fv := f32d 0x4038AA3B
def kG3 : Fv := f32d 0xBEAAAAAB
def kG5 : Fv := f32d 0x3E088889

/-- Exact sum and product, special values included, INV dropped. -/
def fadd (x y : Fv) : Fv := (Fv.add x y).1
def fmul (x y : Fv) : Fv := (Fv.mul x y).1

/-- A finite value as an integer multiple of 2^k, rounded down. -/
def floorAt (k : Int) : Fv → Int
  | .fin n m e =>
    if k ≤ e then Fv.scaled k (.fin n m e)
    else
      let d := 2 ^ (k - e).toNat
      if n then -(Int.ofNat (ceilDiv m d)) else Int.ofNat (m / d)
  | _ => 0

/-- exp2ref (04 R102): f32 code and flags. -/
def exp2ref (x : Fv) : Nat × Flags :=
  match x with
  | .nan => (0x7FC00000, 0)
  | .inf true => (0, 0)
  | .inf false => (0x7F800000, 0)
  | .fin _ _ _ =>
    if Fv.cmp x (.fin false 128 0) ≥ 0 then (0x7F800000, fOVF)
    else if Fv.cmp x (.fin true 150 0) < 0 then (0, fUNF)
    else
      let k := floorAt (-6) x
      let j := k % 64
      let e := (k - j) / 64
      let t := f32r (fadd x (.fin (decide (k > 0)) k.natAbs (-6)))
      let p := f32r (fadd (fmul kC3 t) kC2)
      let p := f32r (fadd (fmul p t) kC1)
      let p := f32r (fadd (fmul p t) Fv.one)
      match fmul (f32d (tabT.getD j.toNat 0)) p with
      | .fin n m g => f32c (.fin n m (g + e))
      | y => f32c y

/-- log2ref (04 R103): f32 code and flags. -/
def log2ref (x : Fv) : Nat × Flags :=
  match x with
  | .nan => (0x7FC00000, 0)
  | .inf true => (0x7FC00000, fINV)
  | .inf false => (0x7F800000, 0)
  | .fin neg m e =>
    if m = 0 then (0xFF800000, fDZ)
    else if neg then (0x7FC00000, fINV)
    else
      let lg := Nat.log2 m
      -- mantissa m / 2^lg in [1, 2); (m - 2^lg) * 64 / 2^lg
      let j := (m - 2 ^ lg) * 64 / 2 ^ lg
      let ex := e + lg
      -- f = m / 2^lg - (64 + j) / 64, exact over 2^(lg + 6)
      let f := Fv.fin false (m * 64 - (64 + j) * 2 ^ lg) (-(Int.ofNat lg) - 6)
      let u := f32r (fmul f (f32d (tabRC.getD j 0)))
      let q := f32r (fadd (fmul kD3 u) kD2)
      let q := f32r (fadd (fmul q u) kD1)
      let q := f32r (fmul q u)
      ((f32c (fadd (fadd (Fv.ofInt ex) (f32d (tabL.getD j 0))) q)).1, 0)

/-- Integer square root by bits: the greatest r with r * r ≤ n, from bit `k - 1` down. -/
def isqrtFrom (n : Nat) : Nat → Nat → Nat
  | 0, r => r
  | k + 1, r => let r' := r + 2 ^ k; isqrtFrom n k (if r' * r' ≤ n then r' else r)
def isqrt (n : Nat) : Nat := isqrtFrom n (Nat.log2 n / 2 + 1) 0

/-- 1/x as a dyadic value whose one rounding to f32 is that of the exact reciprocal (a sticky last bit), 04 R99. -/
def recipV (m : Nat) (e : Int) : Fv :=
  let k := Nat.log2 m + 64
  let q := 2 ^ k / m
  .fin false (2 * q + (if 2 ^ k % m = 0 then 0 else 1)) (-(Int.ofNat k) - e - 1)

/-- 1/√x likewise, 04 R99. -/
def rsqrtV (m : Nat) (e : Int) : Fv :=
  let (m, e) := if e % 2 = 0 then (m, e) else (2 * m, e - 1)
  let k := Nat.log2 m / 2 + 64
  let q := isqrt (2 ^ (2 * k) / m)
  .fin false (2 * q + (if q * q * m = 2 ^ (2 * k) then 0 else 1)) (-(Int.ofNat k) - e / 2 - 1)

/-- The correctly rounded f32 reciprocal (04 R99): code and flags. -/
def rcpref (x : Fv) : Nat × Flags :=
  match x with
  | .nan => (0x7FC00000, 0)
  | .inf n => (Fmt.f32.signed n 0, 0)
  | .fin n m e =>
    if m = 0 then (Fmt.f32.signed n 0x7F800000, fDZ)
    else match recipV m e with
      | .fin _ q g => f32c (.fin n q g)
      | y => f32c y

/-- The correctly rounded f32 reciprocal square root (04 R99). -/
def rsqref (x : Fv) : Nat × Flags :=
  match x with
  | .nan => (0x7FC00000, 0)
  | .inf n => if n then (0x7FC00000, fINV) else (0, 0)
  | .fin n m e =>
    if m = 0 then (Fmt.f32.signed n 0x7F800000, fDZ)
    else if n then (0x7FC00000, fINV)
    else f32c (rsqrtV m e)

/-- tanhref (04 R104): no flag is set. -/
def tanhref (x : Fv) : Nat × Flags :=
  if x.isNan then (0x7FC00000, 0)
  else
    let a := x.abs
    let y : Nat :=
      if Fv.cmp a (.fin false 9 0) ≥ 0 then 0x3F800000
      else if Fv.cmp a (.fin false 1 (-3)) < 0 then
        let w := f32r (fmul a a)
        let p := f32r (fadd (fmul w kG5) kG3)
        let p := f32r (fadd (fmul w p) Fv.one)
        (f32c (fmul a p)).1
      else
        let g := f32d (exp2ref (Fv.neg (f32r (fmul a kH)))).1
        let num := f32r (fadd Fv.one g.neg)
        let den := f32d (rcpref (f32r (fadd Fv.one g))).1
        (f32c (fmul num den)).1
    (Fmt.f32.signed x.isNeg (y % 2 ^ 31), 0)

/-- Targets of quantisation (04 R90). -/
inductive QFmt where
  | fl (f : Fmt) | i4 | i8 | q4 | q8
deriving DecidableEq, Repr

/-- quant(x, rs, fmt, z) (04 R90): code and flags. The NaN of its first branch has sign 0 (log 22). -/
def quant (x rs : Fv) (f : QFmt) (z : Nat) : Nat × Flags :=
  let bad := (x.isInf && rs.isZero) || (x.isZero && rs.isInf)
  let y := if x.isNan || rs.isNan || bad then .nan else fmul x rs
  let fl0 : Flags := inv (bad && !(x.isNan || rs.isNan))
  let neg := bad && (x.isNeg != rs.isNeg)
  let uns (n : Nat) : Nat × Flags :=
    match y with
    | .nan => (z, fINV)
    | .inf ng => if ng then (0, fSAT) else (2 ^ n - 1, fSAT)
    | .fin ng m e =>
      let c := roundInt ng m e + Int.ofNat z
      if c < 0 then (0, fSAT) else if c > 2 ^ n - 1 then (2 ^ n - 1, fSAT) else (c.toNat, 0)
  let (code, fl) :=
    match f with
    | .q4 => uns 4
    | .q8 => uns 8
    | .i4 => cvtToInt true 4 y
    | .i8 => cvtToInt true 8 y
    | .fl .e5m2 =>
      let (c, g) := Fmt.e5m2.cvt y
      if y.isNan then (c, g) else if c % 128 ≥ 0x7C then (Fmt.e5m2.signed y.isNeg 0x7B, fSAT) else (c, g)
    | .fl .e2m1 => if y.isNan then (Fmt.e2m1.signed neg 7, fINV) else Fmt.e2m1.cvt y
    | .fl g => g.cvt y
  (code, fl ||| fl0)

/-- scexp(a, fmt) with emax (04 R92): e8m0 code and flags. -/
def scexp (a : Fv) (emax : Int) : Nat × Flags :=
  match a with
  | .nan => (0xFF, fINV)
  | .inf _ => (0xFF, fINV)
  | .fin _ m e =>
    if m = 0 then (0, 0)
    else
      let x := Int.ofNat (Nat.log2 m) + e - emax
      if x < -127 then (0, fSCLO) else ((x + 127).toNat, 0)

/-- scacc(acc, part, a, b) (04 R93): the exact three-factor product added to acc, one rounding to f32. -/
def scacc (acc part a b : Fv) : Nat × Flags :=
  let (p1, i1) := Fv.mul part a
  let (p2, i2) := Fv.mul p1 b
  let (s, i3) := Fv.add acc p2
  let anyNan := acc.isNan || part.isNan || a.isNan || b.isNan
  let (c, fl) := f32c s
  (c, fl ||| inv (!anyNan && (i1 || i2 || i3)))

/-- a * b + c with one rounding to `f` (04 R85): INV only where no operand is a NaN (04 R82, log 23). -/
def fma (f : Fmt) (a b c : Fv) : Nat × Flags :=
  let (p, i1) := Fv.mul a b
  let (s, i2) := Fv.add p c
  let (code, fl) := f.cvt s
  (code, fl ||| inv (!(a.isNan || b.isNan || c.isNan) && (i1 || i2)))

/-- Consecutive groups of `n` (n > 0) of a list, in order; `fuel` bounds their number. -/
def groupsOf {α : Type} (n : Nat) : Nat → List α → List (List α)
  | 0, _ => []
  | _, [] => []
  | fuel + 1, x :: r => (x :: r).take n :: groupsOf n fuel ((x :: r).drop n)

/-- Groups of `n` of a whole list. -/
def groups {α : Type} (n : Nat) (xs : List α) : List (List α) := groupsOf n xs.length xs

/-- A floating dot product of 04 R94: group sums added to `acc` with one rounding to f32 each. -/
def dotF (g : Nat) (acc : Fv) (ps : List (Fv × Fv)) : Fv × Flags :=
  (groups g ps).foldl (fun (z, fl) grp =>
    let (gs, f1) := groupSum grp
    let (s, i) := Fv.add z gs
    let (c, f2) := f32c s
    (f32d c, fl ||| f1 ||| f2 ||| inv i)) (acc, 0)

/-- An integer dot product of 04 R96: 48-bit saturating accumulation in groups of 32. -/
def dotI (acc : Int) (ps : List (Int × Int)) : Int × Flags :=
  (groups 32 ps).foldl (fun (z, fl) grp =>
    let s := grp.foldl (fun t p => t + p.1 * p.2) z
    if s > 2 ^ 47 - 1 then (2 ^ 47 - 1, fl ||| fIOVF)
    else if s < -(2 ^ 47) then (-(2 ^ 47), fl ||| fIOVF) else (s, fl)) (acc, 0)

/-- A key-value block as a bank unit sees it (04 R106): tokens, head dimension, element codes, scales. -/
structure Block where
  n   : Nat
  d   : Nat
  k   : Nat → Nat → Fv
  v   : Nat → Nat → Fv
  ksc : Fv
  vsc : Fv

/-- f32 value of an exact sum of one group added to `acc` (04 R106): IEEE special values, no flag. -/
def addGroup (acc : Fv) (ps : List (Fv × Fv)) : Fv := f32r (fadd acc (groupSum ps).1)

/-- The triple of one scan (04 R106): m, s and the 128 elements of acc, as f32 codes. Elements of acc from D on are +0 for a NaN score too (DESIGN CHOICE, log 97). -/
def scan (q : Nat → Fv) (blk : Block) (ssc : Fv) (mask : Nat → Bool) : Nat × Nat × List Nat :=
  let toks := (List.range blk.n).filter mask
  if toks.isEmpty then (0xFF800000, 0, List.replicate 128 0)
  else
    let score (t : Nat) : Fv :=
      let dot := (groups 16 ((List.range blk.d).map (fun d => (q d, blk.k t d)))).foldl addGroup Fv.zero
      f32r (fmul (f32r (fmul dot blk.ksc)) ssc)
    let scs := toks.map (fun t => (t, score t))
    let mx := scs.foldl (fun m p => Fv.max m p.2) (match scs with | p :: _ => p.2 | [] => .nan)
    let ws := scs.map (fun p => (p.1, f32d (exp2ref (f32r (fmul (f32r (fadd p.2 mx.neg)) kD1))).1))
    let hs := (List.range (ceilDiv blk.n 16)).map (fun h => ws.filter (fun p => p.1 / 16 == h))
    let sm := hs.foldl (fun a grp => addGroup a (grp.map (fun p => (p.2, Fv.one)))) Fv.zero
    let accOf (d : Nat) : Nat :=
      if d < blk.d then
        let a := hs.foldl (fun a grp => addGroup a (grp.map (fun p => (p.2, blk.v p.1 d)))) Fv.zero
        (f32c (fmul a blk.vsc)).1
      else 0
    ((f32c mx).1, (f32c sm).1, (List.range 128).map accOf)

end Sys2Proof.Machine
end

