-- ==== Sys2Proof/Syntax.lean ====
section
/-! DEFINITION. The instructions and events of the machine: the six word formats of 02 R45 to R51 with their fields by
name, and `Instr`, one constructor for each row of spec/opcode_table.json. A word's meaning stands in Machine alone. -/

namespace Sys2Proof

/-- Bits [87:80] of every word: predicate register, its negate bit and the latency-bound code (01 R29, R34). -/
structure Head where
  pr : BitVec 4
  pn : Bool
  lb : BitVec 3
deriving DecidableEq, Repr

/-- Format W1, register (02 R45). -/
structure W1 where
  d   : BitVec 7
  a   : BitVec 7
  b   : BitVec 7
  c   : BitVec 7
  fn  : BitVec 12
  imm : BitVec 40
deriving DecidableEq, Repr

/-- Format W2, memory (02 R47). `rsv` is bit [48]. -/
structure W2 where
  d     : BitVec 7
  base  : BitVec 7
  idx   : BitVec 7
  sz    : BitVec 3
  ord   : BitVec 2
  scope : BitVec 2
  x     : Bool
  pi    : Bool
  sc    : Bool
  rsv   : Bool
  off   : BitVec 48
deriving DecidableEq, Repr

/-- Format W3, control (02 R48). -/
structure W3 where
  a    : BitVec 7
  b    : BitVec 7
  k    : Bool
  cond : BitVec 5
  fn   : BitVec 12
  tgt  : BitVec 48
deriving DecidableEq, Repr

/-- Format W4, stream binding (02 R49). `rsv` is bits [53:40]. -/
structure W4 where
  q     : BitVec 4
  dir   : BitVec 2
  ety   : BitVec 4
  base  : BitVec 7
  pat   : BitVec 7
  scope : BitVec 2
  rsv   : BitVec 14
  imm   : BitVec 40
deriving DecidableEq, Repr

/-- Format W5, matrix (02 R50). `rsv` is bits [15:0]. -/
structure W5 where
  zd   : BitVec 2
  zs   : BitVec 2
  qa   : BitVec 4
  bv   : BitVec 7
  ms   : BitVec 7
  ks   : BitVec 12
  ty   : BitVec 5
  acc  : Bool
  gz   : BitVec 2
  voff : BitVec 22
  rsv  : BitVec 16
deriving DecidableEq, Repr

/-- Format W6, command (02 R51). -/
structure W6 where
  a   : BitVec 7
  b   : BitVec 7
  c   : BitVec 7
  fn  : BitVec 11
  imm : BitVec 48
deriving DecidableEq, Repr

/-- What a bank unit meets when it reads a block (16 R339, R340): every read good, some read corrected by ECC,
or an uncorrectable read. -/
inductive BankRead where
  | ok | corrected
  | uncorrectable (token : Nat)
deriving DecidableEq, Repr

/-- What the boot ROM finds of a firmware image (21 R426): whether the digest and signature verify, and its security
version. The signature scheme is outside the machine, so its verdict is part of the event. -/
structure FirmwareImage where
  present : Bool
  authOk  : Bool
  svn     : BitVec 16
deriving DecidableEq, Repr

/-- One constructor for each row of spec/opcode_table.json, in the table's order. Instruction words carry their common
head and the fields of their format; events carry what distinguishes one occurrence from another: a context key
(`ck` = (die * 64 + core) * 8 + context), an engine, an operation number, a register value. -/
inductive Instr where
  /-- R109. Sequencer adds two scalar operands modulo 2^64. -/
  | add (h : Head) (w : W1)
  /-- R109. Sequencer subtracts two scalar operands modulo 2^64. -/
  | sub (h : Head) (w : W1)
  /-- R109. Sequencer writes the low 64 bits of the product. -/
  | mul (h : Head) (w : W1)
  /-- R109. Sequencer writes the high 64 bits of the signed product. -/
  | mulh (h : Head) (w : W1)
  /-- R109. Sequencer writes the high 64 bits of the unsigned product. -/
  | mulhn (h : Head) (w : W1)
  /-- R110. Signed division toward zero that never traps. -/
  | div (h : Head) (w : W1)
  /-- R110. Unsigned division that never traps. -/
  | divn (h : Head) (w : W1)
  /-- R110. Signed remainder that never traps. -/
  | rem (h : Head) (w : W1)
  /-- R109. Bitwise AND of two scalars. -/
  | andS (h : Head) (w : W1)
  /-- R109. Bitwise OR of two scalars. -/
  | orS (h : Head) (w : W1)
  /-- R109. Bitwise XOR of two scalars. -/
  | xorS (h : Head) (w : W1)
  /-- R109. a AND NOT b. -/
  | andn (h : Head) (w : W1)
  /-- R109. Logical shift left by b[5:0]. -/
  | shl (h : Head) (w : W1)
  /-- R109. Logical shift right by b[5:0]. -/
  | shr (h : Head) (w : W1)
  /-- R109. Arithmetic shift right by b[5:0]. -/
  | sar (h : Head) (w : W1)
  /-- R109. Rotate left by b[5:0]. -/
  | rot (h : Head) (w : W1)
  /-- R109. Signed minimum. -/
  | minS (h : Head) (w : W1)
  /-- R109. Signed maximum. -/
  | maxS (h : Head) (w : W1)
  /-- R109. Unsigned minimum. -/
  | minn (h : Head) (w : W1)
  /-- R109. Unsigned maximum. -/
  | maxn (h : Head) (w : W1)
  /-- R111. Count leading zero bits. -/
  | clz (h : Head) (w : W1)
  /-- R111. Count trailing zero bits. -/
  | ctz (h : Head) (w : W1)
  /-- R111. Count one bits. -/
  | popc (h : Head) (w : W1)
  /-- R112. Extract a bit field, zero- or sign-extended. -/
  | bfx (h : Head) (w : W1)
  /-- R112. Insert a bit field into b. -/
  | bfi (h : Head) (w : W1)
  /-- R113. Select a or b by an S predicate. -/
  | sel (h : Head) (w : W1)
  /-- R114. Load a sign-extended 40-bit immediate. -/
  | li (h : Head) (w : W1)
  /-- R114. Place a 24-bit immediate above a[39:0]. -/
  | lih (h : Head) (w : W1)
  /-- R116. Write an S predicate from a condition code. -/
  | cmp (h : Head) (w : W1)
  /-- R119. Conditional junction: append a taken or fall-through decision. -/
  | jct (h : Head) (w : W3)
  /-- R120. Append a taken decision, optionally with stage predicates. -/
  | jmp (h : Head) (w : W3)
  /-- R121. Decrement a counter and append a loop-back or fall-through with rotation and stage predicates. -/
  | loop (h : Head) (w : W3)
  /-- R123. Push the return address and append a call decision. -/
  | call (h : Head) (w : W3)
  /-- R123. Pop the return stack and append a return decision. -/
  | ret (h : Head) (w : W3)
  /-- R125. Append an end decision. -/
  | endWord (h : Head) (w : W3)
  /-- R126. Mark a yield point with live register masks. -/
  | yieldWord (h : Head) (w : W6)
  /-- R127. Raise the software trap, or return from a handler with 0xFFFF or 0xFFFE. -/
  | trapWord (h : Head) (w : W6)
  /-- R128. No effect. -/
  | nop (h : Head) (w : W1)
  /-- R129. Set the strand's own priority class clamped to MAX. -/
  | prio (h : Head) (w : W6)
  /-- R130. Read a system register into an s register. -/
  | sysrd (h : Head) (w : W6)
  /-- R130. Write a system register. -/
  | syswr (h : Head) (w : W6)
  /-- R251. Read one dword of a trap control block or save area. -/
  | snaprd (h : Head) (w : W6)
  /-- R252. Write one dword of a stopped context's save area or handler descriptor. -/
  | snapwr (h : Head) (w : W6)
  /-- R269. Join a group at its object's home. -/
  | join (h : Head) (w : W6)
  /-- R269. Leave a group, possibly flipping or dissolving it. -/
  | leave (h : Head) (w : W6)
  /-- R269. Arrive at a group barrier and park until it flips. -/
  | gbar (h : Head) (w : W6)
  /-- R266. Park until a barrier object's generation changes. -/
  | barw (h : Head) (w : W6)
  /-- R273. Enqueue a launch record into a stage queue. -/
  | launch (h : Head) (w : W6)
  /-- R273. Enqueue a tile-task record into a cluster task pool. -/
  | task (h : Head) (w : W6)
  /-- R292. Collective boundary: publish at G and arrive at a group barrier. -/
  | phaseG (h : Head) (w : W6)
  /-- R291. Solo boundary at D, P or S: wait, publish the phase buffer, and at S test CERR. -/
  | phaseSolo (h : Head) (w : W6)
  /-- R321. Request the crown power gate off. -/
  | cgateOff (h : Head) (w : W6)
  /-- R321. Request the crown power gate on. -/
  | cgateOn (h : Head) (w : W6)
  /-- R325. Request a current grant of a declared level. -/
  | pwracq (h : Head) (w : W6)
  /-- R327. End the strand's grant region. -/
  | pwrrel (h : Head) (w : W6)
  /-- R359. Start invalidation of translations of a die. -/
  | tlbinv (h : Head) (w : W6)
  /-- R356. Set a die's L2 shared or split mode after flushing. -/
  | l2mode (h : Head) (w : W6)
  /-- R365. Queue a page migration to a new frame. -/
  | mpage (h : Head) (w : W6)
  /-- R369. Register a sequence-table root at a reclaimer. -/
  | kvrootAdd (h : Head) (w : W6)
  /-- R369. Unregister a sequence-table root. -/
  | kvrootDel (h : Head) (w : W6)
  /-- R373. Start a referrer scan for a block word. -/
  | kvfind (h : Head) (w : W6)
  /-- R411. Send a hand-off event for a request to Columbine. -/
  | rqhand (h : Head) (w : W6)
  /-- R411. Send a cancellation event for a request. -/
  | rqcan (h : Head) (w : W6)
  /-- R412. Read dword 0 of a request record. -/
  | rqstat (h : Head) (w : W6)
  /-- R413. Finish a request as its owner and write its completion. -/
  | rqdone (h : Head) (w : W6)
  /-- R419. Advance a host window's version counter. -/
  | publish (h : Head) (w : W6)
  /-- R451. Bind the strand's global sends to a topology generation. -/
  | tbind (h : Head) (w : W6)
  /-- R454. Submit a circuit plan to replace optical circuits. -/
  | recirc (h : Head) (w : W6)
  /-- R161. Access-engine add. -/
  | aadd (h : Head) (w : W1)
  /-- R161. Access-engine subtract. -/
  | asub (h : Head) (w : W1)
  /-- R161. Access-engine multiply, low 64 bits. -/
  | amul (h : Head) (w : W1)
  /-- R161. Access-engine shift left. -/
  | ashl (h : Head) (w : W1)
  /-- R161. Access-engine logical shift right. -/
  | ashr (h : Head) (w : W1)
  /-- R161. Access-engine AND. -/
  | aand (h : Head) (w : W1)
  /-- R161. Access-engine OR. -/
  | aor (h : Head) (w : W1)
  /-- R161. Access-engine load immediate. -/
  | ali (h : Head) (w : W1)
  /-- R165. Scalar load through the phase buffer. -/
  | ld (h : Head) (w : W2)
  /-- R165. Scalar store into the phase buffer. -/
  | st (h : Head) (w : W2)
  /-- R172. Bind a stream register to an affine pattern after reading the pattern block. -/
  | qbind (h : Head) (w : W4)
  /-- R175. Release a stream binding, draining an OUT binding first. -/
  | qfree (h : Head) (w : W4)
  /-- R176. Test the mapping of bytes, faulting to system software if unmapped. -/
  | probe (h : Head) (w : W2)
  /-- R178. Atomic swap. -/
  | aswap (h : Head) (w : W2)
  /-- R178. Atomic compare and swap. -/
  | acas (h : Head) (w : W2)
  /-- R178. Atomic f32 add. -/
  | afadd (h : Head) (w : W2)
  /-- R178. Atomic integer add. -/
  | aiadd (h : Head) (w : W2)
  /-- R178. Atomic minimum. -/
  | amin (h : Head) (w : W2)
  /-- R178. Atomic maximum. -/
  | amax (h : Head) (w : W2)
  /-- R178. Atomic AND. -/
  | aandm (h : Head) (w : W2)
  /-- R178. Atomic OR. -/
  | aorm (h : Head) (w : W2)
  /-- R178. Atomic XOR. -/
  | axorm (h : Head) (w : W2)
  /-- R183. Acquire load after publishing the line. -/
  | aldacq (h : Head) (w : W2)
  /-- R184. Release store after publishing every buffered store. -/
  | astrel (h : Head) (w : W2)
  /-- R185. Wait on an address until its value differs. -/
  | waita (h : Head) (w : W2)
  /-- R185. A parked waita returns on a change, a spurious return or an error response. -/
  | waitaWake (ck : Nat)
  /-- R185. A parked waita returns 0 after 65,536 fabric-time ticks. -/
  | waitaTimeout (ck : Nat) (spurious : Bool)
  /-- R193. Lane-wise add. -/
  | vadd (h : Head) (w : W1)
  /-- R193. Lane-wise subtract. -/
  | vsub (h : Head) (w : W1)
  /-- R193. Lane-wise multiply. -/
  | vmul (h : Head) (w : W1)
  /-- R193. Lane-wise fused multiply-add. -/
  | vfma (h : Head) (w : W1)
  /-- R193. Lane-wise minimum. -/
  | vmin (h : Head) (w : W1)
  /-- R193. Lane-wise maximum. -/
  | vmax (h : Head) (w : W1)
  /-- R193. Lane-wise absolute value. -/
  | vabs (h : Head) (w : W1)
  /-- R193. Lane-wise negation. -/
  | vneg (h : Head) (w : W1)
  /-- R195. Lane-wise clamp to immediate bounds. -/
  | vclamp (h : Head) (w : W1)
  /-- R195. Lane-wise comparison into a mask. -/
  | vcmp (h : Head) (w : W1)
  /-- R193. Lane-wise select by mask. -/
  | vsel (h : Head) (w : W1)
  /-- R193. Lane-wise AND. -/
  | vand (h : Head) (w : W1)
  /-- R193. Lane-wise OR. -/
  | vor (h : Head) (w : W1)
  /-- R193. Lane-wise XOR. -/
  | vxor (h : Head) (w : W1)
  /-- R193. Lane-wise NOT. -/
  | vnot (h : Head) (w : W1)
  /-- R195. Lane-wise shift left. -/
  | vshl (h : Head) (w : W1)
  /-- R195. Lane-wise logical shift right. -/
  | vshr (h : Head) (w : W1)
  /-- R195. Lane-wise arithmetic shift right. -/
  | vsar (h : Head) (w : W1)
  /-- R196. Row or column sum reduction. -/
  | vredsum (h : Head) (w : W1)
  /-- R196. Row or column maximum reduction. -/
  | vredmax (h : Head) (w : W1)
  /-- R196. Row or column minimum reduction. -/
  | vredmin (h : Head) (w : W1)
  /-- R196. Row or column absolute-maximum reduction. -/
  | vamax (h : Head) (w : W1)
  /-- R197. Lane-wise base-2 exponential by exp2ref. -/
  | vexp2 (h : Head) (w : W1)
  /-- R197. Lane-wise base-2 logarithm by log2ref. -/
  | vlog2 (h : Head) (w : W1)
  /-- R197. Lane-wise correctly rounded reciprocal. -/
  | vrcp (h : Head) (w : W1)
  /-- R197. Lane-wise reciprocal square root. -/
  | vrsq (h : Head) (w : W1)
  /-- R197. Lane-wise tanh by tanhref. -/
  | vtanh (h : Head) (w : W1)
  /-- R198. Lane-wise type conversion. -/
  | vcvt (h : Head) (w : W1)
  /-- R199. Lane-wise quantisation with reciprocal scale. -/
  | vqnt (h : Head) (w : W1)
  /-- R199. Lane-wise dequantisation. -/
  | vdq (h : Head) (w : W1)
  /-- R199. Lane-wise e8m0 scale exponent. -/
  | vscexp (h : Head) (w : W1)
  /-- R200. Scaled accumulation of partial sums. -/
  | vscacc (h : Head) (w : W1)
  /-- R201. Copy lanes or broadcast a scalar. -/
  | vmov (h : Head) (w : W1)
  /-- R201. Spread column 0 along each row. -/
  | vbcast (h : Head) (w : W1)
  /-- R201. Permute lanes by index, row or column. -/
  | vperm (h : Head) (w : W1)
  /-- R201. Transpose square blocks. -/
  | vtrans (h : Head) (w : W1)
  /-- R202. Take one row of a tile or accumulator. -/
  | vrow (h : Head) (w : W1)
  /-- R202. Take one column of a tile or accumulator. -/
  | vcol (h : Head) (w : W1)
  /-- R202. Put row 0 into a row of a tile or accumulator. -/
  | vrowput (h : Head) (w : W1)
  /-- R202. Put column 0 into a column of a tile or accumulator. -/
  | vcolput (h : Head) (w : W1)
  /-- R204. Load a row or tile from the vault. -/
  | vld (h : Head) (w : W2)
  /-- R205. An LB 7 vld completes, writing D and emptying its tile. -/
  | vldAsyncComplete (op : Nat)
  /-- R204. Store a row or tile to the vault. -/
  | vst (h : Head) (w : W2)
  /-- R206. Push one stream entry per active lane. -/
  | vcpush (h : Head) (w : W1)
  /-- R206. Pop one stream entry into each active lane. -/
  | vcpop (h : Head) (w : W1)
  /-- R207. Write a mask of the k head entries of an IN binding. -/
  | vcbal (h : Head) (w : W1)
  /-- R209. Fold one bank-query result record into a running attention state. -/
  | vacomb (h : Head) (w : W1)
  /-- R320. Push one 512-byte entry into the vertical FIFO. -/
  | vfput (h : Head) (w : W1)
  /-- R320. Pop one entry from the vertical FIFO. -/
  | vfget (h : Head) (w : W1)
  /-- R188. Write VSHAPE from an immediate or a register. -/
  | vshape (h : Head) (w : W6)
  /-- R213. Write ASHAPE once its row bands are powered. -/
  | mshape (h : Head) (w : W6)
  /-- R216. Zero an accumulator. -/
  | mzero (h : Head) (w : W5)
  /-- R219. Array matrix multiply-accumulate. -/
  | mma (h : Head) (w : W5)
  /-- R219. Asymmetric q4/q8 array operation with zero points. -/
  | mmaz (h : Head) (w : W5)
  /-- R221. Block-sparse array operation. -/
  | msp (h : Head) (w : W5)
  /-- R224. Scale-and-accumulate between accumulators. -/
  | mscacc (h : Head) (w : W5)
  /-- R217. Drain accumulator elements to the vault. -/
  | mdrain (h : Head) (w : W5)
  /-- R217. Load accumulator elements from the vault. -/
  | mload (h : Head) (w : W5)
  /-- R227. Report covered LB 7 matrix operations and arrive at a barrier. -/
  | mstat (h : Head) (w : W6)
  /-- R223. D-core matrix-vector operation into row 0. -/
  | mmv (h : Head) (w : W5)
  /-- R225. An array operation finishes or stops on poison at a group boundary. -/
  | matrixOpComplete (op : Nat)
  /-- R229. Copy L bytes. -/
  | cpy (h : Head) (w : W6)
  /-- R229. Gather indexed elements. -/
  | cgath (h : Head) (w : W6)
  /-- R229. Scatter elements by index. -/
  | cscat (h : Head) (w : W6)
  /-- R229. Perform a list of copies. -/
  | clist (h : Head) (w : W6)
  /-- R229. Fill with an 8-byte pattern. -/
  | cfill (h : Head) (w : W6)
  /-- R232. A copy completes: counter, tile and semaphore effects. -/
  | copyComplete (op : Nat)
  /-- R233. Wait until a copy counter falls to a limit. -/
  | cwait (h : Head) (w : W6)
  /-- R234. Set a tile table entry. -/
  | tset (h : Head) (w : W6)
  /-- R447. Issue a scheduled send of a tile to a remote tile. -/
  | xsend (h : Head) (w : W6)
  /-- R339. Post an in-bank attention query over listed blocks. -/
  | bqry (h : Head) (w : W6)
  /-- R341. Post an append of rows to a block. -/
  | bapp (h : Head) (w : W6)
  /-- R344. Post a matrix-vector product over weight tiles in banks. -/
  | bmv (h : Head) (w : W6)
  /-- R345. Wait until outstanding bank commands fall to a limit. -/
  | bwait (h : Head) (w : W6)
  /-- R343. Score block sketches and select survivors. -/
  | bflt (h : Head) (w : W6)
  /-- R342. Write token sketches into a vault sketch record. -/
  | bsk (h : Head) (w : W6)
  /-- R346. Write the die's bank availability record. -/
  | bmap (h : Head) (w : W6)
  /-- R347. Write and zero the bank error record. -/
  | berr (h : Head) (w : W6)
  /-- R332. A bank command completes: BOUT decrement and post. -/
  | bankCmdComplete (op : Nat)
  /-- R235. Initialise a semaphore value and ceiling. -/
  | semi (h : Head) (w : W6)
  /-- R235. Wait on a semaphore. -/
  | semw (h : Head) (w : W6)
  /-- R235. Post a semaphore, trapping at the ceiling. -/
  | semp (h : Head) (w : W6)
  /-- R237. Cross-path fence at a scope. -/
  | fencex (h : Head) (w : W6)
  /-- R19. An engine stream walks one section header. -/
  | headerWalk (ck : Nat) (e : Engine)
  /-- R26. An engine stream takes a decision from the decision queue. -/
  | takeDecision (ck : Nat) (e : Engine)
  /-- R30. An in-flight result lands on its destination. -/
  | resultLands (ck : Nat) (e : Engine) (i : Nat)
  /-- R149. A held completion post is applied once the value is below the ceiling. -/
  | heldPostApplied (ck : Nat) (h : Nat)
  /-- R174. An IN binding fetches and delivers an entry. -/
  | streamFetch (ck : Nat) (q : Nat)
  /-- R174. An OUT binding stores a pushed entry. -/
  | streamStore (ck : Nat) (q : Nat)
  /-- R181. A request is performed at its home in the line's total order. -/
  | homeRequest (op : Nat)
  /-- R269. A strand parked in gbar, barw or phase.g is woken. -/
  | barrierWake (ck : Nat)
  /-- R125. After its waits a strand publishes, leaves groups, arrives and frees its context. -/
  | strandEnd (ck : Nat)
  /-- R243. A trap is captured, recorded and delivered to a handler or system software. -/
  | trapDelivery (ck : Nat)
  /-- R248. A pending request is taken at a yield point with a compact save. -/
  | preemptYield (ck : Nat)
  /-- R248. A request's deadline expires and a full save begins. -/
  | preemptDeadline (ck : Nat)
  /-- R248. A full save completes once results have landed. -/
  | fullSave (ck : Nat)
  /-- R247. A write posts a pre-emption request. -/
  | cstopReq (ck : Nat) (dline : BitVec 24)
  /-- R247. A write withdraws a request not yet taken. -/
  | cstopWithdraw (ck : Nat)
  /-- R247. A write kills the strand bound to a context. -/
  | cstopKill (ck : Nat)
  /-- R250. A write of VALID 1 STOP 0 resumes a strand from its save area. -/
  | ctxBindResume (ck : Nat) (v : Word)
  /-- R134. A write of VALID 0 to a stopped context releases it. -/
  | ctxRelease (ck : Nat)
  /-- R239. An uncontained hardware error kills a strand. -/
  | machineCheck (ck : Nat)
  /-- R274. The launch unit binds a stage record to a free context. -/
  | launchBind (ck : Nat)
  /-- R279. The cluster scheduler issues a ready tile task on an idle matrix engine. -/
  | taskIssue (die core : Nat)
  /-- R281. After 64 idle aclk an engine steals a task from the next cluster. -/
  | taskSteal (die core : Nat)
  /-- R279. A task finishes, copies out and arrives at DONE. -/
  | taskComplete (die core : Nat)
  /-- R322. The gating crown core becomes quiet and is powered off. -/
  | gateQuiet (die core : Nat)
  /-- R322. The waking crown core reaches power good and reopens its FIFOs. -/
  | gatePowerGood (die core : Nat)
  /-- R325. The governor grants the head waiting current request. -/
  | powerGrant (die : Nat)
  /-- R314. A row band unnamed for BOFFT µs is turned off. -/
  | bandOff (die core band : Nat)
  /-- R314. A named row band is woken. -/
  | bandWake (die core band : Nat)
  /-- R317. A write to VFCTL empties and opens a pair's FIFOs. -/
  | vfctlWrite (die core : Nat) (v : Word)
  /-- R339. A bank scans one block for a query and writes its record. -/
  | bankQueryItem (op item : Nat) (rd : BankRead)
  /-- R341. A bank performs an append item. -/
  | bankAppendItem (op item : Nat)
  /-- R344. A bank computes one weight tile of bmv. -/
  | bankMvItem (op item : Nat) (rd : BankRead)
  /-- R336. A bank refresh falls due every 3.9 µs. -/
  | bankRefresh (die bank : Nat)
  /-- R367. An uncorrectable error poisons data and posts kind 0x03. -/
  | uncorrectableError (addr : Nat)
  /-- R373. A referrer scan runs and posts kinds 0x04 and 0x05. -/
  | referrerScan (die : Nat)
  /-- R348. Repair or a thermal limit moves a bank to retiring and posts kind 0x06. -/
  | bankRetiring (die bank : Nat)
  /-- R348. An uncontained failure or critical temperature retires a bank at once. -/
  | forcedRetirement (die bank : Nat)
  /-- R351. A BCMD write retires a retiring bank. -/
  | bcmdRetire (die bank : Nat)
  /-- R349. A BCMD write starts a remapping step. -/
  | bcmdRemap (die : Nat)
  /-- R349. The remapping step completes and EPOCH advances. -/
  | remapComplete (die : Nat)
  /-- R350. A write of BMCTL.GO starts a block move. -/
  | bmctlGo (die : Nat) (v : Word)
  /-- R350. A block move freezes, finishes and sets MOVED. -/
  | blockMoveDone (die : Nat)
  /-- R370. The first KVBOUND write fixes KVB and fills the free lists. -/
  | kvboundWrite (die : Nat) (v : Word)
  /-- R370. A read of FLPOP pops a column's free list. -/
  | flpopRead (die col : Nat)
  /-- R371. A write of RCCTL.GO starts a reclaim cycle. -/
  | rcctlGo (die : Nat) (v : Word)
  /-- R371. The AUTO period expires and starts a reclaim cycle. -/
  | reclaimPeriod (die : Nat)
  /-- R371. Marking finishes and the sweep frees unmarked slots. -/
  | reclaimCycleEnd (die : Nat)
  /-- R372. The gray buffer overflows, restarting or ending the cycle. -/
  | grayOverflow (die : Nat)
  /-- R363. A held notification is written once the queue has room. -/
  | heldNotificationPost (die : Nat)
  /-- R359. A TLB invalidation completes and posts. -/
  | tlbinvComplete (op : Nat)
  /-- R366. A page move finishes its freeze and writes its status word. -/
  | mpageComplete (op : Nat)
  /-- R373. A kvfind scan writes its result area and posts. -/
  | kvfindComplete (op : Nat)
  /-- R397. Columbine takes a submit entry from a submission ring. -/
  | submissionSubmit (part : Nat)
  /-- R398. Columbine takes a host cancel entry. -/
  | submissionCancel (part : Nat)
  /-- R420. A held completion entry is written when the ring has room. -/
  | completionEntryWrite (part : Nat)
  /-- R398. A prefill record binds and the request enters PREFILL. -/
  | prefillBound (rq die : Nat)
  /-- R396. A kill report of the current launch fails the request. -/
  | killReport (rq lnum : Nat) (power : Bool)
  /-- R401. Columbine and Hollyhock take an rqhand event and reserve resources. -/
  | handoffEvent (op : Nat)
  /-- R407. Columbine takes an rqcan event. -/
  | cancelEvent (op : Nat)
  /-- R413. Columbine takes an rqdone event and writes the completion. -/
  | rqdoneEvent (op : Nat)
  /-- R401. A waiting hand-off starts when one of the 64 in progress ends. -/
  | handoffStart (rq : Nat)
  /-- R404. A destination block is performed and MOVED advances. -/
  | handoffBlock (rq : Nat)
  /-- R408. Hollyhock stops at a block boundary on cancellation. -/
  | handoffCancelStop (rq : Nat)
  /-- R406. Columbine commits a hand-off and enqueues the next launch. -/
  | commit (rq : Nat)
  /-- R391. A UCIe module goes down and lines reroute. -/
  | moduleDown (die m : Nat)
  /-- R417. A write of EN from 0 to 1 draws partition keys. -/
  | partctlEnable (part : Nat) (v : Word)
  /-- R417. A write of REKEY draws new partition keys. -/
  | partctlRekey (part : Nat) (v : Word)
  /-- R418. A write to HWIN resets the window version. -/
  | hwinWrite (w : Nat) (v : BitVec 256)
  /-- R419. A publish writes its version to host memory and posts. -/
  | publishComplete (op : Nat)
  /-- R421. The supply monitor declares an emergency. -/
  | supplyEmergency
  /-- R421. Every 100 ns of an emergency one victim strand is killed. -/
  | victimKill
  /-- R421. The monitor clears the emergency. -/
  | emergencyClear
  /-- R425. A write setting EN clears a monitor unit and starts counting. -/
  | monitorEnable (die u : Nat) (v : Word)
  /-- R425. A monitor unit takes one value of its source. -/
  | monitorValue (die u : Nat) (v : BitVec 32)
  /-- R426. The management controller ROM loads and authenticates firmware. -/
  | packageReset (img : FirmwareImage)
  /-- R426. A host write of RELOAD has the ROM check a recovery image. -/
  | firmwareReload (img : FirmwareImage)
  /-- R427. The firmware signs an attestation report. -/
  | attestationReport (nonce : Word)
  /-- R436. The first FID write after reset fixes the package identity. -/
  | fidWrite (v : Word)
  /-- R440. A local link or optical port goes down. -/
  | linkDown (port : Bool) (i : Nat)
  /-- R443. Every 1 µs a hub exchanges timing flits and slews FTIME. -/
  | timingFlit (slew : Int)
  /-- R447. A scheduled send departs at its fabric time. -/
  | sendDepart (op : Nat)
  /-- R448. The receiving hub writes a scheduled send into its tile and acknowledges. -/
  | sendArrive (op : Nat)
  /-- R448. The acknowledgement completes the send at the sender. -/
  | sendComplete (op : Nat)
  /-- R448. A destination tile still not empty after 100 µs fails the send. -/
  | sendDtTimeout (op : Nat)
  /-- R454. The switches take a circuit plan, freezing affected pods. -/
  | planTaken (op : Nat)
  /-- R454. After 1 ms of drain the remaining accesses receive error responses. -/
  | freezeDrainTimeout (op : Nat)
  /-- R454. New circuits train or time out at 25 µs and generations advance. -/
  | circuitsTrained (op : Nat) (down : List Nat) (settle : BitVec 16)
  /-- R163. A write to a device register with no row of its own. -/
  | registerWrite (addr : Nat) (four : Bool) (v : Word)
  /-- R53. An engine stream decodes a word whose opcode is unassigned in its engine, or absent from its profile, and raises the illegal-instruction trap. -/
  | unassignedOpcode (e : Engine) (raw : BitVec 96)
  /-- R424. The hub or the management controller suffers an uncontained error, HSTATE goes to failed, every running strand is killed and every live request fails with DIE-LOST. -/
  | hubUncontainedError
  /-- R424. The firmware requests replacement, raising HSTATE.ST to replace-requested and signalling MSI-X vector 1. -/
  | firmwareReplaceRequest
deriving DecidableEq, Repr

end Sys2Proof
end

