-- ==== Sys2Proof/Machine/Legal.lean ====
section
/-! DEFINITION. Which instruction words are legal, whatever the state holds: the decode checks of 02 R62 that the word alone
decides (steps 1, 2, 4, 5, 6 and 7). Placement in a section (step 3), bypass rules and privilege (step 8) need the section
and the context and stand in Machine. -/

namespace Sys2Proof

/-- Why a word does not decode (02 R62). All but `engineAbsent` raise illegal-instruction. `truncated` is fewer than twelve
bytes offered to the decoder, which no fetch does. -/
inductive Reject where
  | truncated
  | unassigned
  | notInProfile
  | latency
  | field
  | engineAbsent
deriving DecidableEq, Repr

namespace Legal

/-- Scalar view (02 R40). -/
def sv (x : BitVec 7) : Bool := decide (x.toNat < 0x60)
/-- s0 to s63. -/
def sreg (x : BitVec 7) : Bool := decide (x.toNat < 0x40)
/-- a0 to a31. -/
def areg (x : BitVec 7) : Bool := decide (0x40 ≤ x.toNat) && decide (x.toNat < 0x60)
/-- A predicate of the executing engine, 0x60 to 0x6F. -/
def pred (x : BitVec 7) : Bool := decide (0x60 ≤ x.toNat) && decide (x.toNat < 0x70)
/-- An unused specifier. -/
def none7 (x : BitVec 7) : Bool := x == 0

/-- v0 to v63. -/
def vreg (x : BitVec 7) : Bool := decide (x.toNat < 0x40)
/-- q0 to q15 in the V space (02 R41). -/
def qreg (x : BitVec 7) : Bool := decide (0x40 ≤ x.toNat) && decide (x.toNat < 0x50)
/-- m0 to m7 in the V space. -/
def mreg (x : BitVec 7) : Bool := decide (0x50 ≤ x.toNat) && decide (x.toNat < 0x58)
/-- b1 to b4 in the V space. -/
def breg (x : BitVec 7) : Bool := decide (0x58 ≤ x.toNat) && decide (x.toNat < 0x5C)
/-- z0 and z1 in the V space. -/
def zreg (x : BitVec 7) : Bool := decide (0x5C ≤ x.toNat) && decide (x.toNat < 0x5E)
/-- A tile source: vector register, stream or bypass name (08 R190). -/
def vsrc (x : BitVec 7) : Bool := vreg x || qreg x || breg x
/-- A tile destination: vector register or stream. -/
def vdst (x : BitVec 7) : Bool := vreg x || qreg x
/-- A mask operand: 0x00, every lane active, or a mask register (08 R190). -/
def mask (x : BitVec 7) : Bool := x == 0 || mreg x

/-- Fields of FN in sequencer and access words (02 R46). -/
def fnI (f : BitVec 12) : Bool := f.getLsbD 11
def fnCC (f : BitVec 12) : Nat := f.toNat / 64 % 32
def fnLow (f : BitVec 12) : Nat := f.toNat % 64
/-- Fields of FN in vector words (02 R46). -/
def fnTD (f : BitVec 12) : Nat := f.toNat / 128
def fnTS (f : BitVec 12) : Nat := f.toNat / 4 % 32
def fnX (f : BitVec 12) : Bool := f.getLsbD 1
def fnRC (f : BitVec 12) : Bool := f.getLsbD 0

/-- Type classes by type code (02 R44, 08 R194). -/
def tFL (t : Nat) : Bool := t == 1 || t == 2 || t == 3
def tIS (t : Nat) : Bool := t == 9 || t == 10 || t == 11
def tIN (t : Nat) : Bool := tIS t || t == 13 || t == 14 || t == 15
def tLI (t : Nat) : Bool := t == 8 || tIN t
def tAny (t : Nat) : Bool := decide (1 ≤ t) && decide (t ≤ 0x12)
/-- Typed codes of 4 to 32 bits. -/
def tNarrow (t : Nat) : Bool := tAny t && t != 12 && t != 16

/-- Two sources, or a source and an immediate (05 R109, 07 R161): I, B, IMM40; CC and FN[45:40] reserved. -/
def immForm (w : W1) : Bool :=
  fnCC w.fn == 0 && fnLow w.fn == 0 && (if fnI w.fn then w.b == 0 else sv w.b && w.imm == 0)
/-- The two-operand sequencer form (05 R109). -/
def s2 (w : W1) : Bool := sreg w.d && sv w.a && immForm w && none7 w.c
/-- The one-operand sequencer form (05 R111). -/
def s1 (w : W1) : Bool := sreg w.d && sv w.a && none7 w.b && none7 w.c && w.fn == 0 && w.imm == 0
/-- POS, width - 1 of `bfx` and `bfi` (05 R112). -/
def bfPos (w : W1) : Nat := w.imm.toNat % 64
def bfWidth (w : W1) : Nat := w.imm.toNat / 64 % 64 + 1
/-- The two-operand access form (07 R161). -/
def a2 (w : W1) : Bool := areg w.d && sv w.a && immForm w && none7 w.c

/-- Scalar loads and stores: address fields and post-increment (02 R47, 07 R160, R164). -/
def lsAddr (w : W2) : Bool :=
  sv w.base && sv w.idx && (!w.pi || areg w.base) && w.ord == 0 && w.scope == 0 && !w.rsv && decide (w.sz.toNat < 4)
/-- Fields that atomics, `aldacq`, `astrel`, `waita` and `probe` reserve. -/
def plain (w : W2) : Bool := sv w.base && sv w.idx && !w.pi && !w.sc && !w.rsv
/-- Atomics (07 R178); `x` tells whether X is used. -/
def atomic (w : W2) (x : Bool) : Bool := areg w.d && plain w && (x || !w.x) && (w.sz == 2 || w.sz == 3)

/-- Operand B of an element-wise word: V space, or the scalar view where X = 1 (02 R46). -/
def vB (w : W1) : Bool := if fnX w.fn then sv w.b else vsrc w.b
/-- B and X unused. -/
def noB (w : W1) : Bool := w.b == 0 && !fnX w.fn
/-- Typed element-wise shape: D, A, C a mask, RC and IMM40 reserved. -/
def ew (w : W1) : Bool := vdst w.d && vsrc w.a && !fnRC w.fn
/-- TD = TS, in class `c`. -/
def same (c : Nat → Bool) (w : W1) : Bool := fnTD w.fn == fnTS w.fn && c (fnTS w.fn)
/-- FL in any combination. -/
def fl2 (w : W1) : Bool := tFL (fnTD w.fn) && tFL (fnTS w.fn)
/-- Logic words (08 R194): typed, or untyped on whole registers; `b` tells whether B is a source. -/
def logic (w : W1) (b : Bool) : Bool :=
  !fnRC w.fn && w.imm == 0 &&
  (if fnTD w.fn == 0 && fnTS w.fn == 0 then
    w.c == 0 && !fnX w.fn &&
      ((vreg w.d && vreg w.a && (if b then vreg w.b else w.b == 0)) || (mreg w.d && mreg w.a && (if b then mreg w.b else w.b == 0)))
  else same tLI w && vdst w.d && vsrc w.a && mask w.c && (if b then vB w else noB w))
/-- Shifts (08 R195): IS = IMM40[6], SH = IMM40[5:0]. -/
def shift (w : W1) : Bool :=
  ew w && same tLI w && mask w.c && !fnX w.fn && decide (w.imm.toNat < 128) &&
  (if w.imm.getLsbD 6 then w.b == 0 else vsrc w.b && w.imm == 0)
/-- Reductions (08 R196). -/
def red (w : W1) : Bool := vreg w.d && vsrc w.a && noB w && mask w.c && w.imm == 0
/-- Special functions (08 R197). -/
def special (w : W1) : Bool := ew w && noB w && mask w.c && w.imm == 0 && fl2 w
/-- Row and column words (08 R202); `rc` is the value RC must hold. -/
def rowcol (w : W1) (rc : Bool) : Bool :=
  fnX w.fn && sv w.b && w.c == 0 && w.imm == 0 && same tAny w && (fnRC w.fn == rc)
def rowGet (w : W1) (rc : Bool) : Bool :=
  rowcol w rc && vreg w.d && (vsrc w.a || (zreg w.a && (fnTS w.fn == 1 || fnTS w.fn == 11)))
def rowPut (w : W1) (rc : Bool) : Bool :=
  rowcol w rc && vsrc w.a && (vreg w.d || (zreg w.d && (fnTS w.fn == 1 || fnTS w.fn == 11)))
/-- Vault loads and stores (08 R204). -/
def vmem (w : W2) : Bool :=
  vreg w.d && sv w.base && sv w.idx && !w.x && w.ord == 0 && w.scope == 0 && !w.rsv && !w.pi && (w.sz == 4 || w.sz == 5)
/-- The upper 20 bits of an f32 code as an order key (08 R195): -0 counts as +0. -/
def boundKey (x : Nat) : Int := if x < 2 ^ 19 then Int.ofNat x else -Int.ofNat (x - 2 ^ 19)
/-- A NaN bound. -/
def boundNan (x : Nat) : Bool := decide (x % 2 ^ 19 > 0x7F800)
/-- Bounds of `vclamp` (08 R195): no NaN and LO at or below HI. -/
def clampOk (w : W1) : Bool :=
  let lo := w.imm.toNat % 2 ^ 20
  let hi := w.imm.toNat / 2 ^ 20
  if tFL (fnTS w.fn) then !boundNan lo && !boundNan hi && decide (boundKey lo ≤ boundKey hi)
  else decide ((BitVec.ofNat 20 lo).toInt ≤ (BitVec.ofNat 20 hi).toInt)

/-- Width in bits of a type code (02 R44). -/
def tWidth (t : Nat) : Nat :=
  if t == 4 || t == 5 || t == 7 || t == 9 || t == 13 || t == 18 then 8
  else if t == 6 || t == 8 || t == 17 then 4
  else if t == 2 || t == 3 || t == 10 || t == 14 then 16
  else if t == 1 || t == 11 || t == 15 then 32
  else if t == 12 || t == 16 then 64 else 0
/-- A legal VSHAPE value in 13 bits (08 R187). -/
def shape (x : Nat) : Bool :=
  decide (x % 8 ≤ 4) && decide (2 ^ (x % 8) * (16 * (x / 8 % 256 + 1)) * (4 * 2 ^ (x / 2048 % 4)) ≤ 16384)

/-- W5 with only ZD allowed nonzero, its other fields given as already checked. -/
def w5 (w : W5) (zs qa bv ms ks ty acc gz voff : Bool) : Bool :=
  decide (w.zd.toNat < 2) && (if zs then decide (w.zs.toNat < 2) else w.zs == 0) && (qa || w.qa == 0) &&
  (if bv then sv w.bv else w.bv == 0) && (if ms then sv w.ms else w.ms == 0) && (ks || w.ks == 0) &&
  (ty || w.ty == 0) && (acc || !w.acc) && (if gz then decide (w.gz.toNat < 3) else w.gz == 0) && (voff || w.voff == 0) && w.rsv == 0
/-- Operand types of `mma`, `msp` and `mmv` (09 R218). -/
def tArray (t : BitVec 5) : Bool := t == 4 || t == 5 || t == 3 || t == 2 || t == 9 || t == 6

/-- W6 operands: which of A, B, C are scalar-view sources; the others are reserved. -/
def abc (w : W6) (a b c : Bool) : Bool :=
  (if a then sv w.a else w.a == 0) && (if b then sv w.b else w.b == 0) && (if c then sv w.c else w.c == 0)
/-- W6 with a predicate in A. -/
def pbc (w : W6) (b c : Bool) : Bool :=
  pred w.a && (if b then sv w.b else w.b == 0) && (if c then sv w.c else w.c == 0)
/-- HN in IMM48[3:0] is reserved when SP is 0. -/
def hn (w : W6) (sp : Bool) : Bool := sp || w.imm.toNat % 16 == 0
/-- FN11 and IMM48 below given bounds. -/
def fi (w : W6) (f i : Nat) : Bool := decide (w.fn.toNat < f) && decide (w.imm.toNat < i)
/-- FN11[0]. -/
def f0 (w : W6) : Bool := w.fn.getLsbD 0
/-- Copy fields (09 R228, R229): whether ESZ and N are used, and whether a source tile or any tile may be named. -/
def copy (w : W6) (esz n tsOk tileOk : Bool) : Bool :=
  let td := w.fn.getLsbD 3
  let ts := w.fn.getLsbD 4
  fi w 256 (2 ^ 32) && !(td && ts) && (!ts || tsOk) && (!(td || ts) || tileOk) && (td || ts || w.imm.toNat % 256 == 0) &&
  (w.fn.getLsbD 5 || w.imm.toNat / 256 % 16 == 0) && (if esz then decide (w.imm.toNat / 4096 % 16 ≤ 11) else w.imm.toNat / 4096 % 16 == 0) &&
  (n || w.imm.toNat / 65536 == 0)
/-- The final type of a send is f32 (23 R445): STY widened or requantised by the four actions in order. -/
def sendF32 (sty act : Nat) : Bool :=
  (List.range 4).foldl (fun f h => let a := act / 4 ^ h % 4; if a == 1 then true else if a == 2 then false else f) (sty == 0)
/-- Fields of `xsend` (23 R444, R445). -/
def send (w : W6) : Bool :=
  let sty := w.fn.toNat / 16 % 4
  let act := w.imm.toNat / 2 ^ 16 % 256
  let codes := (List.range 4).map (fun h => act / 4 ^ h % 4)
  abc w true true false && fi w 256 (2 ^ 36) && (w.fn.getLsbD 3 || w.imm.toNat / 2 ^ 32 == 0) && sty != 3 && !(codes.any (· == 3)) &&
  (!w.fn.getLsbD 7 || sendF32 sty act) && (!w.fn.getLsbD 6 || codes.any (· == 2))
/-- Number of access paths a `fencex` names (09 R237). -/
def paths (w : W6) : Nat := ((List.range 6).filter (fun i => w.imm.getLsbD i)).length

/-- A system register number of 05 R131 with the profiles that have it and whether `syswr` may write it. -/
def sysreg : Nat → Option (List Profile × Bool)
  | 0 => some ([.p, .d, .crown, .mc], true)
  | 1 => some ([.p, .d, .crown, .mc], true)
  | 2 => some ([.p, .d, .crown, .mc], true)
  | 3 => some ([.p, .d, .crown, .mc], false)
  | 4 => some ([.p, .d, .crown, .mc], false)
  | 8 => some ([.p, .d, .crown, .mc], false)
  | 9 => some ([.p, .d, .crown, .mc], false)
  | 10 => some ([.p, .d, .crown, .mc], false)
  | 11 => some ([.p, .d, .crown, .mc], false)
  | 12 => some ([.p, .d, .crown, .mc], false)
  | 0x10 => some ([.p, .d, .crown], false)
  | 0x11 => some ([.p, .d, .crown], true)
  | 0x12 => some ([.p, .crown], false)
  | 0x18 => some ([.p], false)
  | 0x20 => some ([.d], false)
  | _ => none
/-- The engine that owns a system register, where it is one a profile may lack (02 R63). -/
def sysOwner : Nat → Option Engine
  | 0x10 => some .v | 0x11 => some .v | 0x12 => some .v | 0x18 => some .m | 0x20 => some .b | _ => none
/-- The owning engine is absent: engine-absent, not illegal (02 R63, 05 R131). -/
def sysAbsent (pf : Profile) (n : Nat) : Bool :=
  match sysOwner n with
  | some e => !pf.has e
  | none => false
/-- Number legal for `sysrd` (`wr` false) or `syswr` in profile `p`. -/
def sysOk (pf : Profile) (n : Nat) (wr : Bool) : Bool :=
  sysAbsent pf n || (match sysreg n with | some (ps, rw) => ps.contains pf && (!wr || rw) | none => false)

end Legal

open Legal

/-- Every reserved field is zero and every specifier, type code and field value is legal (02 R62 steps 4 and 6, without
the bypass rules), by the instruction's own rule. Events carry no word. Choices (DESIGN CHOICE): a shift by a scalar amount needs X = 0 (log 86); vcvt, vqnt,
vdq and vscexp admit a stream as destination (log 87); typed movement words take every type code (log 88); k of a vperm of MODE 0 is 0 (log 89); vcbal takes TD = TS of 4 to 32 bits (log 99). -/
def Instr.fieldsOk (pf : Profile) : Instr → Bool
  | .add _ w => s2 w
  | .sub _ w => s2 w
  | .mul _ w => s2 w
  | .mulh _ w => s2 w
  | .mulhn _ w => s2 w
  | .div _ w => s2 w
  | .divn _ w => s2 w
  | .rem _ w => s2 w
  | .andS _ w => s2 w
  | .orS _ w => s2 w
  | .xorS _ w => s2 w
  | .andn _ w => s2 w
  | .shl _ w => s2 w
  | .shr _ w => s2 w
  | .sar _ w => s2 w
  | .rot _ w => s2 w
  | .minS _ w => s2 w
  | .maxS _ w => s2 w
  | .minn _ w => s2 w
  | .maxn _ w => s2 w
  | .clz _ w => s1 w
  | .ctz _ w => s1 w
  | .popc _ w => s1 w
  | .bfx _ w => sreg w.d && sv w.a && none7 w.b && none7 w.c && w.fn == 0 && decide (w.imm.toNat < 2 ^ 13) && decide (bfPos w + bfWidth w ≤ 64)
  | .bfi _ w => sreg w.d && sv w.a && sv w.b && none7 w.c && w.fn == 0 && decide (w.imm.toNat < 2 ^ 12) && decide (bfPos w + bfWidth w ≤ 64)
  | .sel _ w => sreg w.d && sv w.a && immForm w && pred w.c
  | .li _ w => sreg w.d && none7 w.a && none7 w.b && none7 w.c && w.fn == 0
  | .lih _ w => sreg w.d && sv w.a && none7 w.b && none7 w.c && w.fn == 0 && decide (w.imm.toNat < 2 ^ 24)
  | .cmp _ w => pred w.d && sv w.a && none7 w.c && decide (fnCC w.fn < 12) && fnLow w.fn == 0 && (if fnI w.fn then w.b == 0 else sv w.b && w.imm == 0)
  | .jct _ w => w.fn == 0 && (if w.k then w.a == 0 && w.b == 0 else sv w.a && sv w.b && decide (w.cond.toNat < 12))
  | .jmp _ w => w.a == 0 && w.b == 0 && !w.k && w.cond == 0 && w.fn.toNat % 2 ^ 11 == 0
  | .loop _ w => decide (1 ≤ w.a.toNat) && decide (w.a.toNat < 0x40) && w.b == 0 && !w.k && w.cond == 0 && w.fn.toNat % 16 == 0
  | .call _ w => w.a == 0 && w.b == 0 && !w.k && w.cond == 0 && w.fn == 0
  | .ret _ w => w.a == 0 && w.b == 0 && !w.k && w.cond == 0 && w.fn == 0 && w.tgt == 0
  | .endWord _ w => w.a == 0 && w.b == 0 && !w.k && w.cond == 0 && w.fn == 0 && w.tgt == 0
  | .yieldWord _ w => abc w true true false && fi w 1 (2 ^ 42)
  | .trapWord _ w => abc w false false false && fi w 1 (2 ^ 16)
  | .nop _ w => w.d == 0 && w.a == 0 && w.b == 0 && w.c == 0 && w.fn == 0 && w.imm == 0
  | .prio _ w => (if f0 w then abc w true false false && fi w 2 1 else abc w false false false && fi w 2 4)
  | .sysrd _ w => sreg w.a && w.b == 0 && w.c == 0 && fi w 1 (2 ^ 12) && sysOk pf w.imm.toNat false
  | .syswr _ w => abc w true false false && fi w 1 (2 ^ 12) && sysOk pf w.imm.toNat true
  | .snaprd _ w => sreg w.a && sv w.b && w.c == 0 && (if f0 w then fi w 2 256 else fi w 2 1)
  | .snapwr _ w => pbc w true true && fi w 1 256
  | .join _ w => pbc w true false && fi w 1 1
  | .leave _ w => abc w false true false && fi w 1 1
  | .gbar _ w => abc w false true false && fi w 1 1
  | .barw _ w => abc w false true true && fi w 1 1
  | .launch _ w => pbc w true false && fi w 1 1
  | .task _ w => pbc w true (f0 w) && fi w 2 1
  | .phaseG _ w => abc w false true false && fi w 1 1
  | .phaseSolo _ w => abc w false false false && fi w 4 1 && w.fn != 0
  | .cgateOff _ w => abc w false false false && fi w 1 32 && hn w (w.imm.getLsbD 4)
  | .cgateOn _ w => abc w false false false && fi w 2 32 && f0 w && hn w (w.imm.getLsbD 4)
  | .pwracq _ w => abc w false false false && fi w 1 256 && w.imm != 0
  | .pwrrel _ w => abc w false false false && fi w 1 1
  | .tlbinv _ w => abc w (decide (w.fn.toNat / 2 < 2)) true false && fi w 6 16 && hn w (f0 w)
  | .l2mode _ w => pbc w true false && fi w 1 4
  | .mpage _ w => abc w true true true && fi w 2 (2 ^ 20) && hn w (f0 w)
  | .kvrootAdd _ w => pbc w true true && fi w 1 1
  | .kvrootDel _ w => pbc w true false && fi w 2 1 && f0 w
  | .kvfind _ w => abc w true true true && fi w 2 16 && hn w (f0 w)
  | .rqhand _ w => abc w true true true && fi w 6 16 && hn w (f0 w)
  | .rqcan _ w => abc w true false true && fi w 2 16 && hn w (f0 w)
  | .rqstat _ w => sreg w.a && sv w.b && w.c == 0 && fi w 1 1
  | .rqdone _ w => pbc w true true && fi w 1 1
  | .publish _ w => abc w true false true && fi w 2 16 && hn w (f0 w)
  | .tbind _ w => abc w false (f0 w) false && fi w 2 1
  | .recirc _ w => pbc w true true && fi w 1 1
  | .aadd _ w => a2 w
  | .asub _ w => a2 w
  | .amul _ w => a2 w
  | .ashl _ w => a2 w
  | .ashr _ w => a2 w
  | .aand _ w => a2 w
  | .aor _ w => a2 w
  | .ali _ w => areg w.d && none7 w.a && none7 w.b && none7 w.c && w.fn == 0
  | .ld _ w => lsAddr w && areg w.d && !(w.pi && w.d == w.base) && !(w.x && w.sz == 3)
  | .st _ w => lsAddr w && sv w.d && !w.x
  | .qbind _ w => decide (w.dir.toNat < 2) && decide (w.ety.toNat < 8) && sv w.base && sv w.pat && (w.dir == 1 || w.scope == 0) && w.rsv == 0
  | .qfree _ w => w.dir == 0 && w.ety == 0 && w.base == 0 && w.pat == 0 && w.scope == 0 && w.rsv == 0 && w.imm == 0
  | .probe _ w => pred w.d && plain w && !w.x && w.ord == 0 && w.scope == 0 && decide (w.sz.toNat < 4)
  | .aswap _ w => atomic w false
  | .acas _ w => atomic w false
  | .afadd _ w => atomic w false && w.sz == 2
  | .aiadd _ w => atomic w false
  | .amin _ w => atomic w true
  | .amax _ w => atomic w true
  | .aandm _ w => atomic w false
  | .aorm _ w => atomic w false
  | .axorm _ w => atomic w false
  | .aldacq _ w => areg w.d && plain w && !w.x && w.ord == 0 && decide (w.sz.toNat < 4)
  | .astrel _ w => sv w.d && plain w && !w.x && w.ord == 0 && decide (w.sz.toNat < 4)
  | .waita _ w => pred w.d && plain w && !w.x && w.ord == 0 && w.scope == 0 && (w.sz == 2 || w.sz == 3)
  | .waitaWake _ => true
  | .waitaTimeout _ _ => true
  | .vadd _ w => ew w && vB w && mask w.c && w.imm == 0 && (fl2 w || same tIN w)
  | .vsub _ w => ew w && vB w && mask w.c && w.imm == 0 && (fl2 w || same tIN w)
  | .vmul _ w => ew w && vB w && mask w.c && w.imm == 0 && (fl2 w || same tIN w)
  | .vfma _ w => ew w && vB w && vsrc w.c && w.imm == 0 && fl2 w
  | .vmin _ w => ew w && vB w && mask w.c && w.imm == 0 && (fl2 w || same tIN w)
  | .vmax _ w => ew w && vB w && mask w.c && w.imm == 0 && (fl2 w || same tIN w)
  | .vabs _ w => ew w && noB w && mask w.c && w.imm == 0 && (fl2 w || same tIS w)
  | .vneg _ w => ew w && noB w && mask w.c && w.imm == 0 && (fl2 w || same tIS w)
  | .vclamp _ w => ew w && noB w && mask w.c && (fl2 w || same tIN w) && clampOk w
  | .vcmp _ w => mreg w.d && vsrc w.a && vB w && mask w.c && !fnRC w.fn && fnTD w.fn == 0 && (tFL (fnTS w.fn) || tIN (fnTS w.fn)) && decide (w.imm.toNat < 7)
  | .vsel _ w => ew w && vB w && mreg w.c && w.imm == 0 && same tAny w
  | .vand _ w => logic w true
  | .vor _ w => logic w true
  | .vxor _ w => logic w true
  | .vnot _ w => logic w false
  | .vshl _ w => shift w
  | .vshr _ w => shift w
  | .vsar _ w => shift w
  | .vredsum _ w => red w && (fl2 w || (tIS (fnTS w.fn) && fnTD w.fn == 11) || (tIN (fnTS w.fn) && !tIS (fnTS w.fn) && fnTD w.fn == 15))
  | .vredmax _ w => red w && fnTD w.fn == fnTS w.fn && (tFL (fnTS w.fn) || tIN (fnTS w.fn))
  | .vredmin _ w => red w && fnTD w.fn == fnTS w.fn && (tFL (fnTS w.fn) || tIN (fnTS w.fn))
  | .vamax _ w => red w && fnTD w.fn == fnTS w.fn && (tFL (fnTS w.fn) || tIN (fnTS w.fn))
  | .vexp2 _ w => special w
  | .vlog2 _ w => special w
  | .vrcp _ w => special w
  | .vrsq _ w => special w
  | .vtanh _ w => special w
  | .vcvt _ w => ew w && noB w && mask w.c && w.imm == 0 && decide (1 ≤ fnTS w.fn) && decide (fnTS w.fn ≤ 16) && decide (1 ≤ fnTD w.fn) && decide (fnTD w.fn ≤ 16) && fnTD w.fn != 7
  | .vqnt _ w => ew w && vB w && w.imm == 0 && tFL (fnTS w.fn) && [4, 5, 6, 8, 9, 17, 18].contains (fnTD w.fn) && (if fnTD w.fn == 17 || fnTD w.fn == 18 then vreg w.c else mask w.c)
  | .vdq _ w => ew w && vsrc w.b && !fnX w.fn && w.imm == 0 && tFL (fnTD w.fn) && [4, 5, 6, 8, 9, 10, 11, 17, 18].contains (fnTS w.fn) && (if fnTS w.fn == 17 || fnTS w.fn == 18 then vreg w.c else mask w.c)
  | .vscexp _ w => ew w && noB w && mask w.c && w.imm == 0 && tFL (fnTS w.fn) && [4, 5, 6].contains (fnTD w.fn)
  | .vscacc _ w => ew w && vreg w.d && vsrc w.b && !fnX w.fn && vsrc w.c && w.imm == 0 && fnTD w.fn == 1 && (fnTS w.fn == 1 || fnTS w.fn == 11)
  | .vmov _ w => !fnRC w.fn && w.imm == 0 && fnTD w.fn == fnTS w.fn &&
      (if fnTS w.fn == 0 then w.b == 0 && !fnX w.fn && w.c == 0 && ((vdst w.d && vsrc w.a) || (mreg w.d && mreg w.a))
       else tAny (fnTS w.fn) && vdst w.d && mask w.c && (if fnX w.fn then w.a == 0 && sv w.b else vsrc w.a && w.b == 0))
  | .vbcast _ w => ew w && noB w && mask w.c && w.imm == 0 && same tAny w
  | .vperm _ w => ew w && !fnX w.fn && mask w.c && same tAny w && w.imm.toNat % 4 != 3 && w.imm.toNat / 4 % 64 == 0 && decide (w.imm.toNat < 2 ^ 20) &&
      (if w.imm.toNat % 4 == 0 then vsrc w.b && w.imm == 0 else w.b == 0)
  | .vtrans _ w => ew w && noB w && mask w.c && w.imm == 0 && same tAny w
  | .vrow _ w => rowGet w false
  | .vcol _ w => rowGet w true
  | .vrowput _ w => rowPut w false
  | .vcolput _ w => rowPut w true
  | .vld _ w => vmem w
  | .vldAsyncComplete _ => true
  | .vst _ w => vmem w
  | .vcpush _ w => qreg w.d && vsrc w.a && noB w && mreg w.c && !fnRC w.fn && w.imm == 0 && same tNarrow w
  | .vcpop _ w => vreg w.d && qreg w.a && noB w && mreg w.c && !fnRC w.fn && w.imm == 0 && same tNarrow w
  | .vcbal _ w => mreg w.d && qreg w.a && noB w && w.c == 0 && !fnRC w.fn && w.imm == 0 && same tNarrow w
  | .vacomb _ w => vreg w.d && vsrc w.a && noB w && w.c == 0 && !fnRC w.fn && w.imm == 0 && fnTD w.fn == 1 && fnTS w.fn == 1
  | .vfput _ w => vreg w.a && w.d == 0 && w.b == 0 && w.c == 0 && w.fn == 0 && w.imm == 0
  | .vfget _ w => vreg w.d && w.a == 0 && w.b == 0 && w.c == 0 && w.fn == 0 && w.imm == 0
  | .vshape _ w => (if f0 w then abc w true false false && fi w 2 1 else abc w false false false && fi w 2 (2 ^ 13) && shape w.imm.toNat)
  | .mshape _ w => (if f0 w then abc w true false false && fi w 2 1 else abc w false false false && fi w 2 (2 ^ 10) && w.imm.toNat % 16 != 0 && w.imm.toNat / 16 != 0)
  | .mzero _ w => w5 w false false false false false false false false false
  | .mma _ w => w5 w false true true false true true true false true && tArray w.ty
  | .mmaz _ w => w5 w false true true true true true true true true && (w.ty == 17 || w.ty == 18)
  | .msp _ w => w5 w false true true true true true true false true && tArray w.ty && w.ms != 0
  | .mscacc _ w => w5 w true false false true false true true false false && (w.ty == 1 || w.ty == 2 || w.ty == 3 || w.ty == 7)
  | .mdrain _ w => w5 w false false true false false true false false true && [1, 2, 3, 4, 5, 11, 10, 9].contains w.ty.toNat
  | .mload _ w => w5 w false false true false false true false false true && [1, 2, 3, 11].contains w.ty.toNat
  | .mstat _ w => abc w true true false && fi w 1 1
  | .mmv _ w => w5 w false true true false true true true false true && tArray w.ty
  | .matrixOpComplete _ => true
  | .cpy _ w => copy w false false true true && abc w (!w.fn.getLsbD 3) (!w.fn.getLsbD 4) true
  | .cgath _ w => copy w true true true true && abc w (!w.fn.getLsbD 3) (!w.fn.getLsbD 4) true
  | .cscat _ w => copy w true true true true && abc w (!w.fn.getLsbD 3) (!w.fn.getLsbD 4) true
  | .clist _ w => copy w false true true false && abc w true false false
  | .cfill _ w => copy w false false false true && abc w (!w.fn.getLsbD 3) true true
  | .copyComplete _ => true
  | .cwait _ w => decide (0x60 ≤ w.a.toNat) && decide (w.a.toNat < 0x68) && w.b == 0 && w.c == 0 && fi w 1 (2 ^ 16)
  | .tset _ w => w.a == 0 && fi w 1 (2 ^ 11) && (if w.imm.getLsbD 10 then w.b == 0 && w.c == 0 else sv w.b && sv w.c)
  | .xsend _ w => send w
  | .bqry _ w => abc w true true true && fi w 4 1024 && hn w (f0 w)
  | .bapp _ w => abc w true true false && fi w 4 1024 && hn w (f0 w)
  | .bmv _ w => abc w true true true && fi w 2 1024 && hn w (f0 w)
  | .bwait _ w => abc w false false false && fi w 1 17
  | .bflt _ w => abc w true true true && fi w 4 (if w.fn.getLsbD 1 then 2 ^ 32 else 2 ^ 16) && hn w (f0 w) && (!w.fn.getLsbD 1 || w.imm.toNat / 1024 % 64 == 0)
  | .bsk _ w => abc w true true true && fi w 2 (2 ^ 16) && hn w (f0 w) && decide (w.imm.toNat / 1024 + w.imm.toNat / 16 % 64 + 1 ≤ 64)
  | .bmap _ w => abc w true false false && fi w 2 16 && hn w (f0 w)
  | .berr _ w => abc w true false false && fi w 2 16 && hn w (f0 w)
  | .bankCmdComplete _ => true
  | .semi _ w => abc w false false false && fi w 1 (2 ^ 40) && w.imm.toNat / 16 % 16 == 0 && decide (w.imm.toNat / 256 % 65536 ≤ w.imm.toNat / 2 ^ 24 % 65536)
  | .semw _ w => abc w false false false && fi w 1 16
  | .semp _ w => abc w false false false && fi w 1 16
  | .fencex _ w => abc w false false false && fi w 1 256 && decide (2 ≤ paths w)
  | .headerWalk _ _ => true
  | .takeDecision _ _ => true
  | .resultLands _ _ _ => true
  | .heldPostApplied _ _ => true
  | .streamFetch _ _ => true
  | .streamStore _ _ => true
  | .homeRequest _ => true
  | .barrierWake _ => true
  | .strandEnd _ => true
  | .trapDelivery _ => true
  | .preemptYield _ => true
  | .preemptDeadline _ => true
  | .fullSave _ => true
  | .cstopReq _ _ => true
  | .cstopWithdraw _ => true
  | .cstopKill _ => true
  | .ctxBindResume _ _ => true
  | .ctxRelease _ => true
  | .machineCheck _ => true
  | .launchBind _ => true
  | .taskIssue _ _ => true
  | .taskSteal _ _ => true
  | .taskComplete _ _ => true
  | .gateQuiet _ _ => true
  | .gatePowerGood _ _ => true
  | .powerGrant _ => true
  | .bandOff _ _ _ => true
  | .bandWake _ _ _ => true
  | .vfctlWrite _ _ _ => true
  | .bankQueryItem _ _ _ => true
  | .bankAppendItem _ _ => true
  | .bankMvItem _ _ _ => true
  | .bankRefresh _ _ => true
  | .uncorrectableError _ => true
  | .referrerScan _ => true
  | .bankRetiring _ _ => true
  | .forcedRetirement _ _ => true
  | .bcmdRetire _ _ => true
  | .bcmdRemap _ => true
  | .remapComplete _ => true
  | .bmctlGo _ _ => true
  | .blockMoveDone _ => true
  | .kvboundWrite _ _ => true
  | .flpopRead _ _ => true
  | .rcctlGo _ _ => true
  | .reclaimPeriod _ => true
  | .reclaimCycleEnd _ => true
  | .grayOverflow _ => true
  | .heldNotificationPost _ => true
  | .tlbinvComplete _ => true
  | .mpageComplete _ => true
  | .kvfindComplete _ => true
  | .submissionSubmit _ => true
  | .submissionCancel _ => true
  | .completionEntryWrite _ => true
  | .prefillBound _ _ => true
  | .killReport _ _ _ => true
  | .handoffEvent _ => true
  | .cancelEvent _ => true
  | .rqdoneEvent _ => true
  | .handoffStart _ => true
  | .handoffBlock _ => true
  | .handoffCancelStop _ => true
  | .commit _ => true
  | .moduleDown _ _ => true
  | .partctlEnable _ _ => true
  | .partctlRekey _ _ => true
  | .hwinWrite _ _ => true
  | .publishComplete _ => true
  | .supplyEmergency => true
  | .victimKill => true
  | .emergencyClear => true
  | .monitorEnable _ _ _ => true
  | .monitorValue _ _ _ => true
  | .packageReset _ => true
  | .firmwareReload _ => true
  | .attestationReport _ => true
  | .fidWrite _ => true
  | .linkDown _ _ => true
  | .timingFlit _ => true
  | .sendDepart _ => true
  | .sendArrive _ => true
  | .sendComplete _ => true
  | .sendDtTimeout _ => true
  | .planTaken _ => true
  | .freezeDrainTimeout _ => true
  | .circuitsTrained _ _ _ => true
  | .registerWrite _ _ _ => true
  | .unassignedOpcode _ _ => true
  | .hubUncontainedError => true
  | .firmwareReplaceRequest => true

/-- The engine whose opcode map lists the instruction (02 R53 to R60); none for the engine-neutral words and for events. -/
def Instr.engine? : Instr → Option Engine
  | .add _ _ => some .s
  | .sub _ _ => some .s
  | .mul _ _ => some .s
  | .mulh _ _ => some .s
  | .mulhn _ _ => some .s
  | .div _ _ => some .s
  | .divn _ _ => some .s
  | .rem _ _ => some .s
  | .andS _ _ => some .s
  | .orS _ _ => some .s
  | .xorS _ _ => some .s
  | .andn _ _ => some .s
  | .shl _ _ => some .s
  | .shr _ _ => some .s
  | .sar _ _ => some .s
  | .rot _ _ => some .s
  | .minS _ _ => some .s
  | .maxS _ _ => some .s
  | .minn _ _ => some .s
  | .maxn _ _ => some .s
  | .clz _ _ => some .s
  | .ctz _ _ => some .s
  | .popc _ _ => some .s
  | .bfx _ _ => some .s
  | .bfi _ _ => some .s
  | .sel _ _ => some .s
  | .li _ _ => some .s
  | .lih _ _ => some .s
  | .cmp _ _ => some .s
  | .jct _ _ => some .s
  | .jmp _ _ => some .s
  | .loop _ _ => some .s
  | .call _ _ => some .s
  | .ret _ _ => some .s
  | .endWord _ _ => some .s
  | .yieldWord _ _ => some .s
  | .trapWord _ _ => some .s
  | .nop _ _ => some .s
  | .prio _ _ => some .s
  | .sysrd _ _ => some .s
  | .syswr _ _ => some .s
  | .snaprd _ _ => some .s
  | .snapwr _ _ => some .s
  | .join _ _ => some .s
  | .leave _ _ => some .s
  | .gbar _ _ => some .s
  | .barw _ _ => some .s
  | .launch _ _ => some .s
  | .task _ _ => some .s
  | .phaseG _ _ => some .s
  | .phaseSolo _ _ => some .s
  | .cgateOff _ _ => some .s
  | .cgateOn _ _ => some .s
  | .pwracq _ _ => some .s
  | .pwrrel _ _ => some .s
  | .tlbinv _ _ => some .s
  | .l2mode _ _ => some .s
  | .mpage _ _ => some .s
  | .kvrootAdd _ _ => some .s
  | .kvrootDel _ _ => some .s
  | .kvfind _ _ => some .s
  | .rqhand _ _ => some .s
  | .rqcan _ _ => some .s
  | .rqstat _ _ => some .s
  | .rqdone _ _ => some .s
  | .publish _ _ => some .s
  | .tbind _ _ => some .s
  | .recirc _ _ => some .s
  | .aadd _ _ => some .a
  | .asub _ _ => some .a
  | .amul _ _ => some .a
  | .ashl _ _ => some .a
  | .ashr _ _ => some .a
  | .aand _ _ => some .a
  | .aor _ _ => some .a
  | .ali _ _ => some .a
  | .ld _ _ => some .a
  | .st _ _ => some .a
  | .qbind _ _ => some .a
  | .qfree _ _ => some .a
  | .probe _ _ => some .a
  | .aswap _ _ => some .a
  | .acas _ _ => some .a
  | .afadd _ _ => some .a
  | .aiadd _ _ => some .a
  | .amin _ _ => some .a
  | .amax _ _ => some .a
  | .aandm _ _ => some .a
  | .aorm _ _ => some .a
  | .axorm _ _ => some .a
  | .aldacq _ _ => some .a
  | .astrel _ _ => some .a
  | .waita _ _ => some .a
  | .waitaWake _ => none
  | .waitaTimeout _ _ => none
  | .vadd _ _ => some .v
  | .vsub _ _ => some .v
  | .vmul _ _ => some .v
  | .vfma _ _ => some .v
  | .vmin _ _ => some .v
  | .vmax _ _ => some .v
  | .vabs _ _ => some .v
  | .vneg _ _ => some .v
  | .vclamp _ _ => some .v
  | .vcmp _ _ => some .v
  | .vsel _ _ => some .v
  | .vand _ _ => some .v
  | .vor _ _ => some .v
  | .vxor _ _ => some .v
  | .vnot _ _ => some .v
  | .vshl _ _ => some .v
  | .vshr _ _ => some .v
  | .vsar _ _ => some .v
  | .vredsum _ _ => some .v
  | .vredmax _ _ => some .v
  | .vredmin _ _ => some .v
  | .vamax _ _ => some .v
  | .vexp2 _ _ => some .v
  | .vlog2 _ _ => some .v
  | .vrcp _ _ => some .v
  | .vrsq _ _ => some .v
  | .vtanh _ _ => some .v
  | .vcvt _ _ => some .v
  | .vqnt _ _ => some .v
  | .vdq _ _ => some .v
  | .vscexp _ _ => some .v
  | .vscacc _ _ => some .v
  | .vmov _ _ => some .v
  | .vbcast _ _ => some .v
  | .vperm _ _ => some .v
  | .vtrans _ _ => some .v
  | .vrow _ _ => some .v
  | .vcol _ _ => some .v
  | .vrowput _ _ => some .v
  | .vcolput _ _ => some .v
  | .vld _ _ => some .v
  | .vldAsyncComplete _ => none
  | .vst _ _ => some .v
  | .vcpush _ _ => some .v
  | .vcpop _ _ => some .v
  | .vcbal _ _ => some .v
  | .vacomb _ _ => some .v
  | .vfput _ _ => some .v
  | .vfget _ _ => some .v
  | .vshape _ _ => some .v
  | .mshape _ _ => some .m
  | .mzero _ _ => some .m
  | .mma _ _ => some .m
  | .mmaz _ _ => some .m
  | .msp _ _ => some .m
  | .mscacc _ _ => some .m
  | .mdrain _ _ => some .m
  | .mload _ _ => some .m
  | .mstat _ _ => some .m
  | .mmv _ _ => some .m
  | .matrixOpComplete _ => none
  | .cpy _ _ => some .c
  | .cgath _ _ => some .c
  | .cscat _ _ => some .c
  | .clist _ _ => some .c
  | .cfill _ _ => some .c
  | .copyComplete _ => none
  | .cwait _ _ => some .c
  | .tset _ _ => some .c
  | .xsend _ _ => some .c
  | .bqry _ _ => some .b
  | .bapp _ _ => some .b
  | .bmv _ _ => some .b
  | .bwait _ _ => some .b
  | .bflt _ _ => some .b
  | .bsk _ _ => some .b
  | .bmap _ _ => some .b
  | .berr _ _ => some .b
  | .bankCmdComplete _ => none
  | .semi _ _ => none
  | .semw _ _ => none
  | .semp _ _ => none
  | .fencex _ _ => none
  | .headerWalk _ _ => none
  | .takeDecision _ _ => none
  | .resultLands _ _ _ => none
  | .heldPostApplied _ _ => none
  | .streamFetch _ _ => none
  | .streamStore _ _ => none
  | .homeRequest _ => none
  | .barrierWake _ => none
  | .strandEnd _ => none
  | .trapDelivery _ => none
  | .preemptYield _ => none
  | .preemptDeadline _ => none
  | .fullSave _ => none
  | .cstopReq _ _ => none
  | .cstopWithdraw _ => none
  | .cstopKill _ => none
  | .ctxBindResume _ _ => none
  | .ctxRelease _ => none
  | .machineCheck _ => none
  | .launchBind _ => none
  | .taskIssue _ _ => none
  | .taskSteal _ _ => none
  | .taskComplete _ _ => none
  | .gateQuiet _ _ => none
  | .gatePowerGood _ _ => none
  | .powerGrant _ => none
  | .bandOff _ _ _ => none
  | .bandWake _ _ _ => none
  | .vfctlWrite _ _ _ => none
  | .bankQueryItem _ _ _ => none
  | .bankAppendItem _ _ => none
  | .bankMvItem _ _ _ => none
  | .bankRefresh _ _ => none
  | .uncorrectableError _ => none
  | .referrerScan _ => none
  | .bankRetiring _ _ => none
  | .forcedRetirement _ _ => none
  | .bcmdRetire _ _ => none
  | .bcmdRemap _ => none
  | .remapComplete _ => none
  | .bmctlGo _ _ => none
  | .blockMoveDone _ => none
  | .kvboundWrite _ _ => none
  | .flpopRead _ _ => none
  | .rcctlGo _ _ => none
  | .reclaimPeriod _ => none
  | .reclaimCycleEnd _ => none
  | .grayOverflow _ => none
  | .heldNotificationPost _ => none
  | .tlbinvComplete _ => none
  | .mpageComplete _ => none
  | .kvfindComplete _ => none
  | .submissionSubmit _ => none
  | .submissionCancel _ => none
  | .completionEntryWrite _ => none
  | .prefillBound _ _ => none
  | .killReport _ _ _ => none
  | .handoffEvent _ => none
  | .cancelEvent _ => none
  | .rqdoneEvent _ => none
  | .handoffStart _ => none
  | .handoffBlock _ => none
  | .handoffCancelStop _ => none
  | .commit _ => none
  | .moduleDown _ _ => none
  | .partctlEnable _ _ => none
  | .partctlRekey _ _ => none
  | .hwinWrite _ _ => none
  | .publishComplete _ => none
  | .supplyEmergency => none
  | .victimKill => none
  | .emergencyClear => none
  | .monitorEnable _ _ _ => none
  | .monitorValue _ _ _ => none
  | .packageReset _ => none
  | .firmwareReload _ => none
  | .attestationReport _ => none
  | .fidWrite _ => none
  | .linkDown _ _ => none
  | .timingFlit _ => none
  | .sendDepart _ => none
  | .sendArrive _ => none
  | .sendComplete _ => none
  | .sendDtTimeout _ => none
  | .planTaken _ => none
  | .freezeDrainTimeout _ => none
  | .circuitsTrained _ _ _ => none
  | .registerWrite _ _ _ => none
  | .unassignedOpcode _ _ => none
  | .hubUncontainedError => none
  | .firmwareReplaceRequest => none

/-- Minimum latency code by profile, none where the instruction does not exist there (02 R53 to R60). -/
def Instr.minLB (pf : Profile) : Instr → Option Nat
  | .add _ _ => some 0
  | .sub _ _ => some 0
  | .mul _ _ => some 1
  | .mulh _ _ => some 2
  | .mulhn _ _ => some 2
  | .div _ _ => some 5
  | .divn _ _ => some 5
  | .rem _ _ => some 5
  | .andS _ _ => some 0
  | .orS _ _ => some 0
  | .xorS _ _ => some 0
  | .andn _ _ => some 0
  | .shl _ _ => some 0
  | .shr _ _ => some 0
  | .sar _ _ => some 0
  | .rot _ _ => some 0
  | .minS _ _ => some 0
  | .maxS _ _ => some 0
  | .minn _ _ => some 0
  | .maxn _ _ => some 0
  | .clz _ _ => some 0
  | .ctz _ _ => some 0
  | .popc _ _ => some 0
  | .bfx _ _ => some 0
  | .bfi _ _ => some 0
  | .sel _ _ => some 0
  | .li _ _ => some 0
  | .lih _ _ => some 0
  | .cmp _ _ => some 0
  | .jct _ _ => some 0
  | .jmp _ _ => some 0
  | .loop _ _ => some 0
  | .call _ _ => some 0
  | .ret _ _ => some 0
  | .endWord _ _ => some 0
  | .yieldWord _ _ => some 0
  | .trapWord _ _ => some 0
  | .nop _ _ => some 0
  | .prio _ _ => some 0
  | .sysrd _ _ => some 2
  | .syswr _ _ => some 0
  | .snaprd _ _ => some 3
  | .snapwr _ _ => some 0
  | .join _ _ => some 3
  | .leave _ _ => some 0
  | .gbar _ _ => some 0
  | .barw _ _ => some 0
  | .launch _ _ => some 0
  | .task _ _ => some 0
  | .phaseG _ _ => some 0
  | .phaseSolo _ _ => some 0
  | .cgateOff _ _ => (match pf with | .p => some 7 | .d => none | .crown => none | .mc => none)
  | .cgateOn _ _ => (match pf with | .p => some 7 | .d => none | .crown => none | .mc => none)
  | .pwracq _ _ => (match pf with | .p => some 0 | .d => none | .crown => none | .mc => none)
  | .pwrrel _ _ => (match pf with | .p => some 0 | .d => none | .crown => none | .mc => none)
  | .tlbinv _ _ => some 7
  | .l2mode _ _ => some 0
  | .mpage _ _ => some 7
  | .kvrootAdd _ _ => some 0
  | .kvrootDel _ _ => some 0
  | .kvfind _ _ => some 7
  | .rqhand _ _ => some 7
  | .rqcan _ _ => some 7
  | .rqstat _ _ => some 3
  | .rqdone _ _ => some 0
  | .publish _ _ => some 7
  | .tbind _ _ => some 0
  | .recirc _ _ => some 0
  | .aadd _ _ => (match pf with | .p => some 0 | .d => some 0 | .crown => some 0 | .mc => none)
  | .asub _ _ => (match pf with | .p => some 0 | .d => some 0 | .crown => some 0 | .mc => none)
  | .amul _ _ => (match pf with | .p => some 1 | .d => some 1 | .crown => some 1 | .mc => none)
  | .ashl _ _ => (match pf with | .p => some 0 | .d => some 0 | .crown => some 0 | .mc => none)
  | .ashr _ _ => (match pf with | .p => some 0 | .d => some 0 | .crown => some 0 | .mc => none)
  | .aand _ _ => (match pf with | .p => some 0 | .d => some 0 | .crown => some 0 | .mc => none)
  | .aor _ _ => (match pf with | .p => some 0 | .d => some 0 | .crown => some 0 | .mc => none)
  | .ali _ _ => (match pf with | .p => some 0 | .d => some 0 | .crown => some 0 | .mc => none)
  | .ld _ _ => (match pf with | .p => some 3 | .d => some 3 | .crown => some 3 | .mc => none)
  | .st _ _ => (match pf with | .p => some 0 | .d => some 0 | .crown => some 0 | .mc => none)
  | .qbind _ _ => (match pf with | .p => some 0 | .d => some 0 | .crown => some 0 | .mc => none)
  | .qfree _ _ => (match pf with | .p => some 0 | .d => some 0 | .crown => some 0 | .mc => none)
  | .probe _ _ => (match pf with | .p => some 3 | .d => some 3 | .crown => some 3 | .mc => none)
  | .aswap _ _ => (match pf with | .p => some 5 | .d => some 5 | .crown => some 5 | .mc => none)
  | .acas _ _ => (match pf with | .p => some 5 | .d => some 5 | .crown => some 5 | .mc => none)
  | .afadd _ _ => (match pf with | .p => some 5 | .d => some 5 | .crown => some 5 | .mc => none)
  | .aiadd _ _ => (match pf with | .p => some 5 | .d => some 5 | .crown => some 5 | .mc => none)
  | .amin _ _ => (match pf with | .p => some 5 | .d => some 5 | .crown => some 5 | .mc => none)
  | .amax _ _ => (match pf with | .p => some 5 | .d => some 5 | .crown => some 5 | .mc => none)
  | .aandm _ _ => (match pf with | .p => some 5 | .d => some 5 | .crown => some 5 | .mc => none)
  | .aorm _ _ => (match pf with | .p => some 5 | .d => some 5 | .crown => some 5 | .mc => none)
  | .axorm _ _ => (match pf with | .p => some 5 | .d => some 5 | .crown => some 5 | .mc => none)
  | .aldacq _ _ => (match pf with | .p => some 3 | .d => some 3 | .crown => some 3 | .mc => none)
  | .astrel _ _ => (match pf with | .p => some 0 | .d => some 0 | .crown => some 0 | .mc => none)
  | .waita _ _ => (match pf with | .p => some 0 | .d => some 0 | .crown => some 0 | .mc => none)
  | .waitaWake _ => none
  | .waitaTimeout _ _ => none
  | .vadd _ _ => (match pf with | .p => some 1 | .d => some 1 | .crown => some 2 | .mc => none)
  | .vsub _ _ => (match pf with | .p => some 1 | .d => some 1 | .crown => some 2 | .mc => none)
  | .vmul _ _ => (match pf with | .p => some 1 | .d => some 1 | .crown => some 2 | .mc => none)
  | .vfma _ _ => (match pf with | .p => some 2 | .d => some 2 | .crown => some 3 | .mc => none)
  | .vmin _ _ => (match pf with | .p => some 1 | .d => some 1 | .crown => some 2 | .mc => none)
  | .vmax _ _ => (match pf with | .p => some 1 | .d => some 1 | .crown => some 2 | .mc => none)
  | .vabs _ _ => (match pf with | .p => some 1 | .d => some 1 | .crown => some 2 | .mc => none)
  | .vneg _ _ => (match pf with | .p => some 1 | .d => some 1 | .crown => some 2 | .mc => none)
  | .vclamp _ _ => (match pf with | .p => some 1 | .d => some 1 | .crown => some 2 | .mc => none)
  | .vcmp _ _ => (match pf with | .p => some 1 | .d => some 1 | .crown => some 2 | .mc => none)
  | .vsel _ _ => (match pf with | .p => some 1 | .d => some 1 | .crown => some 2 | .mc => none)
  | .vand _ _ => (match pf with | .p => some 0 | .d => some 0 | .crown => some 1 | .mc => none)
  | .vor _ _ => (match pf with | .p => some 0 | .d => some 0 | .crown => some 1 | .mc => none)
  | .vxor _ _ => (match pf with | .p => some 0 | .d => some 0 | .crown => some 1 | .mc => none)
  | .vnot _ _ => (match pf with | .p => some 0 | .d => some 0 | .crown => some 1 | .mc => none)
  | .vshl _ _ => (match pf with | .p => some 0 | .d => some 0 | .crown => some 1 | .mc => none)
  | .vshr _ _ => (match pf with | .p => some 0 | .d => some 0 | .crown => some 1 | .mc => none)
  | .vsar _ _ => (match pf with | .p => some 0 | .d => some 0 | .crown => some 1 | .mc => none)
  | .vredsum _ _ => (match pf with | .p => some 3 | .d => some 3 | .crown => some 4 | .mc => none)
  | .vredmax _ _ => (match pf with | .p => some 3 | .d => some 3 | .crown => some 4 | .mc => none)
  | .vredmin _ _ => (match pf with | .p => some 3 | .d => some 3 | .crown => some 4 | .mc => none)
  | .vamax _ _ => (match pf with | .p => some 3 | .d => some 3 | .crown => some 4 | .mc => none)
  | .vexp2 _ _ => (match pf with | .p => some 3 | .d => some 3 | .crown => some 4 | .mc => none)
  | .vlog2 _ _ => (match pf with | .p => some 3 | .d => some 3 | .crown => some 4 | .mc => none)
  | .vrcp _ _ => (match pf with | .p => some 3 | .d => some 3 | .crown => some 4 | .mc => none)
  | .vrsq _ _ => (match pf with | .p => some 3 | .d => some 3 | .crown => some 4 | .mc => none)
  | .vtanh _ _ => (match pf with | .p => some 3 | .d => some 3 | .crown => some 4 | .mc => none)
  | .vcvt _ _ => (match pf with | .p => some 2 | .d => some 2 | .crown => some 3 | .mc => none)
  | .vqnt _ _ => (match pf with | .p => some 2 | .d => some 2 | .crown => some 3 | .mc => none)
  | .vdq _ _ => (match pf with | .p => some 2 | .d => some 2 | .crown => some 3 | .mc => none)
  | .vscexp _ _ => (match pf with | .p => some 3 | .d => some 3 | .crown => some 4 | .mc => none)
  | .vscacc _ _ => (match pf with | .p => some 2 | .d => some 2 | .crown => some 3 | .mc => none)
  | .vmov _ _ => (match pf with | .p => some 0 | .d => some 0 | .crown => some 1 | .mc => none)
  | .vbcast _ _ => (match pf with | .p => some 1 | .d => some 1 | .crown => some 1 | .mc => none)
  | .vperm _ _ => (match pf with | .p => some 3 | .d => some 3 | .crown => some 4 | .mc => none)
  | .vtrans _ _ => (match pf with | .p => some 3 | .d => some 3 | .crown => some 4 | .mc => none)
  | .vrow _ _ => (match pf with | .p => some 1 | .d => some 1 | .crown => some 1 | .mc => none)
  | .vcol _ _ => (match pf with | .p => some 2 | .d => some 2 | .crown => some 2 | .mc => none)
  | .vrowput _ _ => (match pf with | .p => some 1 | .d => some 1 | .crown => some 1 | .mc => none)
  | .vcolput _ _ => (match pf with | .p => some 2 | .d => some 2 | .crown => some 2 | .mc => none)
  | .vld _ _ => (match pf with | .p => some 4 | .d => some 4 | .crown => some 4 | .mc => none)
  | .vldAsyncComplete _ => none
  | .vst _ _ => (match pf with | .p => some 0 | .d => some 0 | .crown => some 0 | .mc => none)
  | .vcpush _ _ => (match pf with | .p => some 2 | .d => some 2 | .crown => some 2 | .mc => none)
  | .vcpop _ _ => (match pf with | .p => some 2 | .d => some 2 | .crown => some 2 | .mc => none)
  | .vcbal _ _ => (match pf with | .p => some 5 | .d => some 5 | .crown => some 5 | .mc => none)
  | .vacomb _ _ => (match pf with | .p => some 3 | .d => some 3 | .crown => some 4 | .mc => none)
  | .vfput _ _ => (match pf with | .p => some 0 | .d => none | .crown => some 0 | .mc => none)
  | .vfget _ _ => (match pf with | .p => some 2 | .d => none | .crown => some 2 | .mc => none)
  | .vshape _ _ => (match pf with | .p => some 0 | .d => some 0 | .crown => some 0 | .mc => none)
  | .mshape _ _ => (match pf with | .p => some 0 | .d => none | .crown => none | .mc => none)
  | .mzero _ _ => (match pf with | .p => some 1 | .d => some 1 | .crown => none | .mc => none)
  | .mma _ _ => (match pf with | .p => some 6 | .d => some 6 | .crown => none | .mc => none)
  | .mmaz _ _ => (match pf with | .p => some 6 | .d => some 6 | .crown => none | .mc => none)
  | .msp _ _ => (match pf with | .p => some 6 | .d => none | .crown => none | .mc => none)
  | .mscacc _ _ => (match pf with | .p => some 5 | .d => some 5 | .crown => none | .mc => none)
  | .mdrain _ _ => (match pf with | .p => some 6 | .d => some 6 | .crown => none | .mc => none)
  | .mload _ _ => (match pf with | .p => some 6 | .d => some 6 | .crown => none | .mc => none)
  | .mstat _ _ => (match pf with | .p => some 0 | .d => some 0 | .crown => none | .mc => none)
  | .mmv _ _ => (match pf with | .p => none | .d => some 5 | .crown => none | .mc => none)
  | .matrixOpComplete _ => none
  | .cpy _ _ => (match pf with | .p => some 7 | .d => some 7 | .crown => some 7 | .mc => none)
  | .cgath _ _ => (match pf with | .p => some 7 | .d => some 7 | .crown => some 7 | .mc => none)
  | .cscat _ _ => (match pf with | .p => some 7 | .d => some 7 | .crown => some 7 | .mc => none)
  | .clist _ _ => (match pf with | .p => some 7 | .d => some 7 | .crown => some 7 | .mc => none)
  | .cfill _ _ => (match pf with | .p => some 7 | .d => some 7 | .crown => some 7 | .mc => none)
  | .copyComplete _ => none
  | .cwait _ _ => (match pf with | .p => some 0 | .d => some 0 | .crown => some 0 | .mc => none)
  | .tset _ _ => (match pf with | .p => some 0 | .d => some 0 | .crown => some 0 | .mc => none)
  | .xsend _ _ => (match pf with | .p => some 7 | .d => some 7 | .crown => some 7 | .mc => none)
  | .bqry _ _ => (match pf with | .p => none | .d => some 7 | .crown => none | .mc => none)
  | .bapp _ _ => (match pf with | .p => none | .d => some 7 | .crown => none | .mc => none)
  | .bmv _ _ => (match pf with | .p => none | .d => some 7 | .crown => none | .mc => none)
  | .bwait _ _ => (match pf with | .p => none | .d => some 0 | .crown => none | .mc => none)
  | .bflt _ _ => (match pf with | .p => none | .d => some 7 | .crown => none | .mc => none)
  | .bsk _ _ => (match pf with | .p => none | .d => some 7 | .crown => none | .mc => none)
  | .bmap _ _ => (match pf with | .p => none | .d => some 7 | .crown => none | .mc => none)
  | .berr _ _ => (match pf with | .p => none | .d => some 7 | .crown => none | .mc => none)
  | .bankCmdComplete _ => none
  | .semi _ _ => some 0
  | .semw _ _ => some 0
  | .semp _ _ => some 0
  | .fencex _ _ => some 0
  | .headerWalk _ _ => none
  | .takeDecision _ _ => none
  | .resultLands _ _ _ => none
  | .heldPostApplied _ _ => none
  | .streamFetch _ _ => none
  | .streamStore _ _ => none
  | .homeRequest _ => none
  | .barrierWake _ => none
  | .strandEnd _ => none
  | .trapDelivery _ => none
  | .preemptYield _ => none
  | .preemptDeadline _ => none
  | .fullSave _ => none
  | .cstopReq _ _ => none
  | .cstopWithdraw _ => none
  | .cstopKill _ => none
  | .ctxBindResume _ _ => none
  | .ctxRelease _ => none
  | .machineCheck _ => none
  | .launchBind _ => none
  | .taskIssue _ _ => none
  | .taskSteal _ _ => none
  | .taskComplete _ _ => none
  | .gateQuiet _ _ => none
  | .gatePowerGood _ _ => none
  | .powerGrant _ => none
  | .bandOff _ _ _ => none
  | .bandWake _ _ _ => none
  | .vfctlWrite _ _ _ => none
  | .bankQueryItem _ _ _ => none
  | .bankAppendItem _ _ => none
  | .bankMvItem _ _ _ => none
  | .bankRefresh _ _ => none
  | .uncorrectableError _ => none
  | .referrerScan _ => none
  | .bankRetiring _ _ => none
  | .forcedRetirement _ _ => none
  | .bcmdRetire _ _ => none
  | .bcmdRemap _ => none
  | .remapComplete _ => none
  | .bmctlGo _ _ => none
  | .blockMoveDone _ => none
  | .kvboundWrite _ _ => none
  | .flpopRead _ _ => none
  | .rcctlGo _ _ => none
  | .reclaimPeriod _ => none
  | .reclaimCycleEnd _ => none
  | .grayOverflow _ => none
  | .heldNotificationPost _ => none
  | .tlbinvComplete _ => none
  | .mpageComplete _ => none
  | .kvfindComplete _ => none
  | .submissionSubmit _ => none
  | .submissionCancel _ => none
  | .completionEntryWrite _ => none
  | .prefillBound _ _ => none
  | .killReport _ _ _ => none
  | .handoffEvent _ => none
  | .cancelEvent _ => none
  | .rqdoneEvent _ => none
  | .handoffStart _ => none
  | .handoffBlock _ => none
  | .handoffCancelStop _ => none
  | .commit _ => none
  | .moduleDown _ _ => none
  | .partctlEnable _ _ => none
  | .partctlRekey _ _ => none
  | .hwinWrite _ _ => none
  | .publishComplete _ => none
  | .supplyEmergency => none
  | .victimKill => none
  | .emergencyClear => none
  | .monitorEnable _ _ _ => none
  | .monitorValue _ _ _ => none
  | .packageReset _ => none
  | .firmwareReload _ => none
  | .attestationReport _ => none
  | .fidWrite _ => none
  | .linkDown _ _ => none
  | .timingFlit _ => none
  | .sendDepart _ => none
  | .sendArrive _ => none
  | .sendComplete _ => none
  | .sendDtTimeout _ => none
  | .planTaken _ => none
  | .freezeDrainTimeout _ => none
  | .circuitsTrained _ _ _ => none
  | .registerWrite _ _ _ => none
  | .unassignedOpcode _ _ => none
  | .hubUncontainedError => none
  | .firmwareReplaceRequest => none

/-- The common head of an instruction word. -/
def Instr.head? : Instr → Option Head
  | .add h _ => some h
  | .sub h _ => some h
  | .mul h _ => some h
  | .mulh h _ => some h
  | .mulhn h _ => some h
  | .div h _ => some h
  | .divn h _ => some h
  | .rem h _ => some h
  | .andS h _ => some h
  | .orS h _ => some h
  | .xorS h _ => some h
  | .andn h _ => some h
  | .shl h _ => some h
  | .shr h _ => some h
  | .sar h _ => some h
  | .rot h _ => some h
  | .minS h _ => some h
  | .maxS h _ => some h
  | .minn h _ => some h
  | .maxn h _ => some h
  | .clz h _ => some h
  | .ctz h _ => some h
  | .popc h _ => some h
  | .bfx h _ => some h
  | .bfi h _ => some h
  | .sel h _ => some h
  | .li h _ => some h
  | .lih h _ => some h
  | .cmp h _ => some h
  | .jct h _ => some h
  | .jmp h _ => some h
  | .loop h _ => some h
  | .call h _ => some h
  | .ret h _ => some h
  | .endWord h _ => some h
  | .yieldWord h _ => some h
  | .trapWord h _ => some h
  | .nop h _ => some h
  | .prio h _ => some h
  | .sysrd h _ => some h
  | .syswr h _ => some h
  | .snaprd h _ => some h
  | .snapwr h _ => some h
  | .join h _ => some h
  | .leave h _ => some h
  | .gbar h _ => some h
  | .barw h _ => some h
  | .launch h _ => some h
  | .task h _ => some h
  | .phaseG h _ => some h
  | .phaseSolo h _ => some h
  | .cgateOff h _ => some h
  | .cgateOn h _ => some h
  | .pwracq h _ => some h
  | .pwrrel h _ => some h
  | .tlbinv h _ => some h
  | .l2mode h _ => some h
  | .mpage h _ => some h
  | .kvrootAdd h _ => some h
  | .kvrootDel h _ => some h
  | .kvfind h _ => some h
  | .rqhand h _ => some h
  | .rqcan h _ => some h
  | .rqstat h _ => some h
  | .rqdone h _ => some h
  | .publish h _ => some h
  | .tbind h _ => some h
  | .recirc h _ => some h
  | .aadd h _ => some h
  | .asub h _ => some h
  | .amul h _ => some h
  | .ashl h _ => some h
  | .ashr h _ => some h
  | .aand h _ => some h
  | .aor h _ => some h
  | .ali h _ => some h
  | .ld h _ => some h
  | .st h _ => some h
  | .qbind h _ => some h
  | .qfree h _ => some h
  | .probe h _ => some h
  | .aswap h _ => some h
  | .acas h _ => some h
  | .afadd h _ => some h
  | .aiadd h _ => some h
  | .amin h _ => some h
  | .amax h _ => some h
  | .aandm h _ => some h
  | .aorm h _ => some h
  | .axorm h _ => some h
  | .aldacq h _ => some h
  | .astrel h _ => some h
  | .waita h _ => some h
  | .waitaWake _ => none
  | .waitaTimeout _ _ => none
  | .vadd h _ => some h
  | .vsub h _ => some h
  | .vmul h _ => some h
  | .vfma h _ => some h
  | .vmin h _ => some h
  | .vmax h _ => some h
  | .vabs h _ => some h
  | .vneg h _ => some h
  | .vclamp h _ => some h
  | .vcmp h _ => some h
  | .vsel h _ => some h
  | .vand h _ => some h
  | .vor h _ => some h
  | .vxor h _ => some h
  | .vnot h _ => some h
  | .vshl h _ => some h
  | .vshr h _ => some h
  | .vsar h _ => some h
  | .vredsum h _ => some h
  | .vredmax h _ => some h
  | .vredmin h _ => some h
  | .vamax h _ => some h
  | .vexp2 h _ => some h
  | .vlog2 h _ => some h
  | .vrcp h _ => some h
  | .vrsq h _ => some h
  | .vtanh h _ => some h
  | .vcvt h _ => some h
  | .vqnt h _ => some h
  | .vdq h _ => some h
  | .vscexp h _ => some h
  | .vscacc h _ => some h
  | .vmov h _ => some h
  | .vbcast h _ => some h
  | .vperm h _ => some h
  | .vtrans h _ => some h
  | .vrow h _ => some h
  | .vcol h _ => some h
  | .vrowput h _ => some h
  | .vcolput h _ => some h
  | .vld h _ => some h
  | .vldAsyncComplete _ => none
  | .vst h _ => some h
  | .vcpush h _ => some h
  | .vcpop h _ => some h
  | .vcbal h _ => some h
  | .vacomb h _ => some h
  | .vfput h _ => some h
  | .vfget h _ => some h
  | .vshape h _ => some h
  | .mshape h _ => some h
  | .mzero h _ => some h
  | .mma h _ => some h
  | .mmaz h _ => some h
  | .msp h _ => some h
  | .mscacc h _ => some h
  | .mdrain h _ => some h
  | .mload h _ => some h
  | .mstat h _ => some h
  | .mmv h _ => some h
  | .matrixOpComplete _ => none
  | .cpy h _ => some h
  | .cgath h _ => some h
  | .cscat h _ => some h
  | .clist h _ => some h
  | .cfill h _ => some h
  | .copyComplete _ => none
  | .cwait h _ => some h
  | .tset h _ => some h
  | .xsend h _ => some h
  | .bqry h _ => some h
  | .bapp h _ => some h
  | .bmv h _ => some h
  | .bwait h _ => some h
  | .bflt h _ => some h
  | .bsk h _ => some h
  | .bmap h _ => some h
  | .berr h _ => some h
  | .bankCmdComplete _ => none
  | .semi h _ => some h
  | .semw h _ => some h
  | .semp h _ => some h
  | .fencex h _ => some h
  | .headerWalk _ _ => none
  | .takeDecision _ _ => none
  | .resultLands _ _ _ => none
  | .heldPostApplied _ _ => none
  | .streamFetch _ _ => none
  | .streamStore _ _ => none
  | .homeRequest _ => none
  | .barrierWake _ => none
  | .strandEnd _ => none
  | .trapDelivery _ => none
  | .preemptYield _ => none
  | .preemptDeadline _ => none
  | .fullSave _ => none
  | .cstopReq _ _ => none
  | .cstopWithdraw _ => none
  | .cstopKill _ => none
  | .ctxBindResume _ _ => none
  | .ctxRelease _ => none
  | .machineCheck _ => none
  | .launchBind _ => none
  | .taskIssue _ _ => none
  | .taskSteal _ _ => none
  | .taskComplete _ _ => none
  | .gateQuiet _ _ => none
  | .gatePowerGood _ _ => none
  | .powerGrant _ => none
  | .bandOff _ _ _ => none
  | .bandWake _ _ _ => none
  | .vfctlWrite _ _ _ => none
  | .bankQueryItem _ _ _ => none
  | .bankAppendItem _ _ => none
  | .bankMvItem _ _ _ => none
  | .bankRefresh _ _ => none
  | .uncorrectableError _ => none
  | .referrerScan _ => none
  | .bankRetiring _ _ => none
  | .forcedRetirement _ _ => none
  | .bcmdRetire _ _ => none
  | .bcmdRemap _ => none
  | .remapComplete _ => none
  | .bmctlGo _ _ => none
  | .blockMoveDone _ => none
  | .kvboundWrite _ _ => none
  | .flpopRead _ _ => none
  | .rcctlGo _ _ => none
  | .reclaimPeriod _ => none
  | .reclaimCycleEnd _ => none
  | .grayOverflow _ => none
  | .heldNotificationPost _ => none
  | .tlbinvComplete _ => none
  | .mpageComplete _ => none
  | .kvfindComplete _ => none
  | .submissionSubmit _ => none
  | .submissionCancel _ => none
  | .completionEntryWrite _ => none
  | .prefillBound _ _ => none
  | .killReport _ _ _ => none
  | .handoffEvent _ => none
  | .cancelEvent _ => none
  | .rqdoneEvent _ => none
  | .handoffStart _ => none
  | .handoffBlock _ => none
  | .handoffCancelStop _ => none
  | .commit _ => none
  | .moduleDown _ _ => none
  | .partctlEnable _ _ => none
  | .partctlRekey _ _ => none
  | .hwinWrite _ _ => none
  | .publishComplete _ => none
  | .supplyEmergency => none
  | .victimKill => none
  | .emergencyClear => none
  | .monitorEnable _ _ _ => none
  | .monitorValue _ _ _ => none
  | .packageReset _ => none
  | .firmwareReload _ => none
  | .attestationReport _ => none
  | .fidWrite _ => none
  | .linkDown _ _ => none
  | .timingFlit _ => none
  | .sendDepart _ => none
  | .sendArrive _ => none
  | .sendComplete _ => none
  | .sendDtTimeout _ => none
  | .planTaken _ => none
  | .freezeDrainTimeout _ => none
  | .circuitsTrained _ _ _ => none
  | .registerWrite _ _ _ => none
  | .unassignedOpcode _ _ => none
  | .hubUncontainedError => none
  | .firmwareReplaceRequest => none

/-- Marked privileged in 02 R54. `snaprd` of another context is decided with its FN11 (10 R251). -/
def Instr.privileged : Instr → Bool
  | .snapwr _ _
  | .tlbinv _ _
  | .l2mode _ _
  | .mpage _ _
  | .kvrootAdd _ _
  | .kvrootDel _ _
  | .kvfind _ _ => true
  | .snaprd _ _ => true
  | _ => false

/-- Latency code 7 is admitted (02 R61). -/
def Instr.asyncOk (pf : Profile) (i : Instr) : Bool :=
  i.minLB pf == some 7 ||
  (match i with
   | .mma _ _ | .mmaz _ _ | .msp _ _ | .mscacc _ _ | .mdrain _ _ | .mload _ _ | .mmv _ _ | .vld _ _ => true
   | _ => false)

/-- An operand names an engine that the profile lacks (02 R63): a path of `fencex`, the owner of a system register, an
accumulator on a crown core. -/
def Instr.namesAbsent (pf : Profile) : Instr → Bool
  | .fencex _ w => [Engine.a, .v, .m, .c, .b].any (fun e => w.imm.getLsbD (e.num - 1) && !pf.has e)
  | .sysrd _ w => sysAbsent pf w.imm.toNat
  | .syswr _ w => sysAbsent pf w.imm.toNat
  | .vrow _ w => zreg w.a && !pf.has .m
  | .vcol _ w => zreg w.a && !pf.has .m
  | .vrowput _ w => zreg w.d && !pf.has .m
  | .vcolput _ w => zreg w.d && !pf.has .m
  | _ => false

/-- The latency code of a word is legal in profile `p` (02 R29, R61, 02 R62 step 5). -/
def Instr.latencyOk (pf : Profile) (i : Instr) : Bool :=
  match i.head?, i.minLB pf with
  | some h, some m => if h.lb = 7 then i.asyncOk pf else decide (m ≤ h.lb.toNat)
  | _, _ => false

/-- A sequencer word of the management controller names one of a0 to a31, a file that its profile lacks (06 R135): a field of the word that holds one of their
names. -/
def Instr.namesA (i : Instr) : Bool :=
  (match i with
  | .add _ w | .sub _ w | .mul _ w | .mulh _ w | .mulhn _ w | .div _ w | .divn _ w | .rem _ w | .andS _ w | .orS _ w | .xorS _ w | .andn _ w
  | .shl _ w | .shr _ w | .sar _ w | .rot _ w | .minS _ w | .maxS _ w | .minn _ w | .maxn _ w | .clz _ w | .ctz _ w | .popc _ w | .bfx _ w | .bfi _ w
  | .sel _ w | .li _ w | .lih _ w | .cmp _ w | .nop _ w => [w.d, w.a, w.b, w.c]
  | .jct _ w | .jmp _ w | .loop _ w | .call _ w | .ret _ w | .endWord _ w => [w.a, w.b]
  | .yieldWord _ w | .trapWord _ w | .prio _ w | .sysrd _ w | .syswr _ w | .snaprd _ w | .snapwr _ w | .join _ w | .leave _ w | .gbar _ w | .barw _ w
  | .launch _ w | .task _ w | .phaseG _ w | .phaseSolo _ w | .tlbinv _ w | .l2mode _ w | .mpage _ w | .kvrootAdd _ w | .kvrootDel _ w | .kvfind _ w
  | .rqhand _ w | .rqcan _ w | .rqstat _ w | .rqdone _ w | .publish _ w | .tbind _ w | .recirc _ w => [w.a, w.b, w.c]
  | _ => []).any areg

/-- The first failing check of 02 R62 that the word alone decides, in order; none where the word is legal in profile `p`. -/
def Instr.reject? (pf : Profile) (i : Instr) : Option Reject :=
  match i.head? with
  | none => some .unassigned
  | some _ =>
    if (i.minLB pf).isNone then some .notInProfile
    else if !i.latencyOk pf then some .latency
    else if !i.fieldsOk pf || (pf == .mc && i.namesA) then some .field
    else if i.namesAbsent pf then some .engineAbsent
    else none

end Sys2Proof
end

