-- ==== Sys2Proof/Machine/Placement.lean ====
section
/-! DEFINITION. Where a word may stand and what it names, as far as the word alone tells: control words (01 R24), bypass names and
the restrictions of bypass-live sections (01 R36, R37). -/

namespace Sys2Proof

/-- Control words (01 R24). -/
def Instr.control : Instr → Bool
  | .jct _ _ | .jmp _ _ | .loop _ _ | .call _ _ | .ret _ _ | .endWord _ _ => true
  | _ => false
/-- `yield` (01 R28). -/
def Instr.isYield : Instr → Bool
  | .yieldWord _ _ => true
  | _ => false

/-- Bypass names read by a V word: 1 to 4 (01 R36). -/
def Instr.bypassNames : Instr → List Nat
  | .vadd _ w | .vsub _ w | .vmul _ w | .vfma _ w | .vmin _ w | .vmax _ w | .vabs _ w | .vneg _ w | .vclamp _ w | .vcmp _ w | .vsel _ w
  | .vand _ w | .vor _ w | .vxor _ w | .vnot _ w | .vshl _ w | .vshr _ w | .vsar _ w | .vredsum _ w | .vredmax _ w | .vredmin _ w
  | .vamax _ w | .vexp2 _ w | .vlog2 _ w | .vrcp _ w | .vrsq _ w | .vtanh _ w | .vcvt _ w | .vqnt _ w | .vdq _ w | .vscexp _ w
  | .vscacc _ w | .vmov _ w | .vbcast _ w | .vperm _ w | .vtrans _ w | .vrow _ w | .vcol _ w | .vrowput _ w | .vcolput _ w
  | .vcpush _ w | .vcpop _ w | .vcbal _ w | .vacomb _ w =>
    ((if Legal.fnX w.fn then [w.a, w.c] else [w.a, w.b, w.c]).filter Legal.breg).map (fun x => x.toNat - 0x57)
  | _ => []
/-- The word names a stream register (01 R37). -/
def Instr.namesStream : Instr → Bool
  | .vadd _ w | .vsub _ w | .vmul _ w | .vfma _ w | .vmin _ w | .vmax _ w | .vabs _ w | .vneg _ w | .vclamp _ w | .vcmp _ w | .vsel _ w
  | .vand _ w | .vor _ w | .vxor _ w | .vnot _ w | .vshl _ w | .vshr _ w | .vsar _ w | .vredsum _ w | .vredmax _ w | .vredmin _ w
  | .vamax _ w | .vexp2 _ w | .vlog2 _ w | .vrcp _ w | .vrsq _ w | .vtanh _ w | .vcvt _ w | .vqnt _ w | .vdq _ w | .vscexp _ w
  | .vscacc _ w | .vmov _ w | .vbcast _ w | .vperm _ w | .vtrans _ w | .vrow _ w | .vcol _ w | .vrowput _ w | .vcolput _ w
  | .vcpush _ w | .vcpop _ w | .vcbal _ w | .vacomb _ w =>
    (if Legal.fnX w.fn then [w.d, w.a, w.c] else [w.d, w.a, w.b, w.c]).any Legal.qreg
  | .mma _ _ | .mmaz _ _ | .msp _ _ | .mmv _ _ => true
  | _ => false
/-- A word that no bypass-live section admits (01 R37, 15 R320). -/
def Instr.bplForbidden (i : Instr) : Bool :=
  i.namesStream ||
  (match i with
   | .semi _ _ | .semw _ _ | .semp _ _ | .mstat _ _ | .vfput _ _ | .vfget _ _ => true
   | .vld h _ | .mscacc h _ | .mdrain h _ | .mload h _ => h.lb == 7
   | _ => false)
/-- The vector register that a V word writes, if it writes one (01 R36). -/
def Instr.vectorDest : Instr → Option Nat
  | .vadd _ w | .vsub _ w | .vmul _ w | .vfma _ w | .vmin _ w | .vmax _ w | .vabs _ w | .vneg _ w | .vclamp _ w | .vsel _ w
  | .vand _ w | .vor _ w | .vxor _ w | .vnot _ w | .vshl _ w | .vshr _ w | .vsar _ w | .vredsum _ w | .vredmax _ w | .vredmin _ w
  | .vamax _ w | .vexp2 _ w | .vlog2 _ w | .vrcp _ w | .vrsq _ w | .vtanh _ w | .vcvt _ w | .vqnt _ w | .vdq _ w | .vscexp _ w
  | .vscacc _ w | .vmov _ w | .vbcast _ w | .vperm _ w | .vtrans _ w | .vrow _ w | .vcol _ w | .vrowput _ w | .vcolput _ w
  | .vcpop _ w | .vacomb _ w | .vfget _ w => if Legal.vreg w.d then some w.d.toNat else none
  | .vld _ w => if Legal.vreg w.d then some w.d.toNat else none
  | _ => none

end Sys2Proof
end

