-- ==== Sys2Proof/WellFormed.lean ====
section
/-! DEFINITION. Well-formed instruction words: those that pass every decode check of 02 R62 that the word alone decides.
The checks themselves stand in Machine/Legal. -/

namespace Sys2Proof

/-- A well-formed instruction word of profile `pf` (02 R62). -/
def Instr.WellFormed (pf : Profile) (i : Instr) : Prop := i.reject? pf = none

theorem Instr.wellFormed_iff (pf : Profile) (i : Instr) : i.WellFormed pf ↔ i.reject? pf = none := Iff.rfl

/-- A word well-formed in some profile. -/
def Instr.wellFormedIn? (i : Instr) : Option Profile :=
  [Profile.p, .d, .crown, .mc].find? (fun pf => (i.reject? pf).isNone)

end Sys2Proof
end

