-- ==== Sys2Proof/Decode.lean ====
section
/-! DEFINITION. The decoder: bits to an instruction or a named rejection (02 R39 to R62), and after it the encoder, from the
same encoding tables. Bits [95:80] are OP, PR, PN, LB; bits [79:0] follow the format that the opcode map gives. -/

namespace Sys2Proof

/-- Bits [87:80] (01 R29, R34). -/
def Head.ofBits (w : TextWord) : Head :=
  { pr := w.extractLsb' 84 4, pn := w.getLsbD 83, lb := w.extractLsb' 80 3 }

/-- Format W1 (02 R45). -/
def W1.ofBits (w : TextWord) : W1 :=
  { d := w.extractLsb' 73 7, a := w.extractLsb' 66 7, b := w.extractLsb' 59 7, c := w.extractLsb' 52 7,
    fn := w.extractLsb' 40 12, imm := w.extractLsb' 0 40 }

/-- Format W2 (02 R47). -/
def W2.ofBits (w : TextWord) : W2 :=
  { d := w.extractLsb' 73 7, base := w.extractLsb' 66 7, idx := w.extractLsb' 59 7, sz := w.extractLsb' 56 3,
    ord := w.extractLsb' 54 2, scope := w.extractLsb' 52 2, x := w.getLsbD 51, pi := w.getLsbD 50, sc := w.getLsbD 49,
    rsv := w.getLsbD 48, off := w.extractLsb' 0 48 }

/-- Format W3 (02 R48). -/
def W3.ofBits (w : TextWord) : W3 :=
  { a := w.extractLsb' 73 7, b := w.extractLsb' 66 7, k := w.getLsbD 65, cond := w.extractLsb' 60 5,
    fn := w.extractLsb' 48 12, tgt := w.extractLsb' 0 48 }

/-- Format W4 (02 R49). -/
def W4.ofBits (w : TextWord) : W4 :=
  { q := w.extractLsb' 76 4, dir := w.extractLsb' 74 2, ety := w.extractLsb' 70 4, base := w.extractLsb' 63 7,
    pat := w.extractLsb' 56 7, scope := w.extractLsb' 54 2, rsv := w.extractLsb' 40 14, imm := w.extractLsb' 0 40 }

/-- Format W5 (02 R50). -/
def W5.ofBits (w : TextWord) : W5 :=
  { zd := w.extractLsb' 78 2, zs := w.extractLsb' 76 2, qa := w.extractLsb' 72 4, bv := w.extractLsb' 65 7,
    ms := w.extractLsb' 58 7, ks := w.extractLsb' 46 12, ty := w.extractLsb' 41 5, acc := w.getLsbD 40,
    gz := w.extractLsb' 38 2, voff := w.extractLsb' 16 22, rsv := w.extractLsb' 0 16 }

/-- Format W6 (02 R51). -/
def W6.ofBits (w : TextWord) : W6 :=
  { a := w.extractLsb' 73 7, b := w.extractLsb' 66 7, c := w.extractLsb' 59 7, fn := w.extractLsb' 48 11,
    imm := w.extractLsb' 0 48 }

/-- The opcode map of the sequencer (02 R54). -/
def opcodeMapS (w : TextWord) : Nat → Option Instr
  | 0x1 => some (.add (.ofBits w) (.ofBits w))
  | 0x2 => some (.sub (.ofBits w) (.ofBits w))
  | 0x3 => some (.mul (.ofBits w) (.ofBits w))
  | 0x4 => some (.mulh (.ofBits w) (.ofBits w))
  | 0x5 => some (.mulhn (.ofBits w) (.ofBits w))
  | 0x6 => some (.div (.ofBits w) (.ofBits w))
  | 0x7 => some (.divn (.ofBits w) (.ofBits w))
  | 0x8 => some (.rem (.ofBits w) (.ofBits w))
  | 0x9 => some (.andS (.ofBits w) (.ofBits w))
  | 0xa => some (.orS (.ofBits w) (.ofBits w))
  | 0xb => some (.xorS (.ofBits w) (.ofBits w))
  | 0xc => some (.andn (.ofBits w) (.ofBits w))
  | 0xd => some (.shl (.ofBits w) (.ofBits w))
  | 0xe => some (.shr (.ofBits w) (.ofBits w))
  | 0xf => some (.sar (.ofBits w) (.ofBits w))
  | 0x10 => some (.rot (.ofBits w) (.ofBits w))
  | 0x11 => some (.minS (.ofBits w) (.ofBits w))
  | 0x12 => some (.maxS (.ofBits w) (.ofBits w))
  | 0x13 => some (.minn (.ofBits w) (.ofBits w))
  | 0x14 => some (.maxn (.ofBits w) (.ofBits w))
  | 0x15 => some (.clz (.ofBits w) (.ofBits w))
  | 0x16 => some (.ctz (.ofBits w) (.ofBits w))
  | 0x17 => some (.popc (.ofBits w) (.ofBits w))
  | 0x18 => some (.bfx (.ofBits w) (.ofBits w))
  | 0x19 => some (.bfi (.ofBits w) (.ofBits w))
  | 0x1a => some (.sel (.ofBits w) (.ofBits w))
  | 0x1b => some (.li (.ofBits w) (.ofBits w))
  | 0x1c => some (.lih (.ofBits w) (.ofBits w))
  | 0x1d => some (.cmp (.ofBits w) (.ofBits w))
  | 0x40 => some (.jct (.ofBits w) (.ofBits w))
  | 0x41 => some (.jmp (.ofBits w) (.ofBits w))
  | 0x42 => some (.loop (.ofBits w) (.ofBits w))
  | 0x43 => some (.call (.ofBits w) (.ofBits w))
  | 0x44 => some (.ret (.ofBits w) (.ofBits w))
  | 0x45 => some (.endWord (.ofBits w) (.ofBits w))
  | 0x46 => some (.yieldWord (.ofBits w) (.ofBits w))
  | 0x47 => some (.trapWord (.ofBits w) (.ofBits w))
  | 0x48 => some (.nop (.ofBits w) (.ofBits w))
  | 0x49 => some (.prio (.ofBits w) (.ofBits w))
  | 0x4a => some (.sysrd (.ofBits w) (.ofBits w))
  | 0x4b => some (.syswr (.ofBits w) (.ofBits w))
  | 0x50 => some (.snaprd (.ofBits w) (.ofBits w))
  | 0x51 => some (.snapwr (.ofBits w) (.ofBits w))
  | 0x58 => some (.join (.ofBits w) (.ofBits w))
  | 0x59 => some (.leave (.ofBits w) (.ofBits w))
  | 0x5a => some (.gbar (.ofBits w) (.ofBits w))
  | 0x5b => some (.barw (.ofBits w) (.ofBits w))
  | 0x5c => some (.launch (.ofBits w) (.ofBits w))
  | 0x5d => some (.task (.ofBits w) (.ofBits w))
  | 0x5e => some (if w.extractLsb' 48 2 = 0 then .phaseG (.ofBits w) (.ofBits w) else .phaseSolo (.ofBits w) (.ofBits w))
  | 0x60 => some (if w.getLsbD 48 then .cgateOn (.ofBits w) (.ofBits w) else .cgateOff (.ofBits w) (.ofBits w))
  | 0x61 => some (.pwracq (.ofBits w) (.ofBits w))
  | 0x62 => some (.pwrrel (.ofBits w) (.ofBits w))
  | 0x68 => some (.tlbinv (.ofBits w) (.ofBits w))
  | 0x69 => some (.l2mode (.ofBits w) (.ofBits w))
  | 0x6a => some (.mpage (.ofBits w) (.ofBits w))
  | 0x6b => some (if w.getLsbD 48 then .kvrootDel (.ofBits w) (.ofBits w) else .kvrootAdd (.ofBits w) (.ofBits w))
  | 0x6c => some (.kvfind (.ofBits w) (.ofBits w))
  | 0x70 => some (.rqhand (.ofBits w) (.ofBits w))
  | 0x71 => some (.rqcan (.ofBits w) (.ofBits w))
  | 0x72 => some (.rqstat (.ofBits w) (.ofBits w))
  | 0x73 => some (.rqdone (.ofBits w) (.ofBits w))
  | 0x74 => some (.publish (.ofBits w) (.ofBits w))
  | 0x78 => some (.tbind (.ofBits w) (.ofBits w))
  | 0x79 => some (.recirc (.ofBits w) (.ofBits w))
  | _ => none

/-- The opcode map of the access engine (02 R55). -/
def opcodeMapA (w : TextWord) : Nat → Option Instr
  | 0x1 => some (.aadd (.ofBits w) (.ofBits w))
  | 0x2 => some (.asub (.ofBits w) (.ofBits w))
  | 0x3 => some (.amul (.ofBits w) (.ofBits w))
  | 0x4 => some (.ashl (.ofBits w) (.ofBits w))
  | 0x5 => some (.ashr (.ofBits w) (.ofBits w))
  | 0x6 => some (.aand (.ofBits w) (.ofBits w))
  | 0x7 => some (.aor (.ofBits w) (.ofBits w))
  | 0x8 => some (.ali (.ofBits w) (.ofBits w))
  | 0x10 => some (.ld (.ofBits w) (.ofBits w))
  | 0x11 => some (.st (.ofBits w) (.ofBits w))
  | 0x18 => some (.qbind (.ofBits w) (.ofBits w))
  | 0x19 => some (.qfree (.ofBits w) (.ofBits w))
  | 0x1c => some (.probe (.ofBits w) (.ofBits w))
  | 0x20 => some (.aswap (.ofBits w) (.ofBits w))
  | 0x21 => some (.acas (.ofBits w) (.ofBits w))
  | 0x22 => some (.afadd (.ofBits w) (.ofBits w))
  | 0x23 => some (.aiadd (.ofBits w) (.ofBits w))
  | 0x24 => some (.amin (.ofBits w) (.ofBits w))
  | 0x25 => some (.amax (.ofBits w) (.ofBits w))
  | 0x26 => some (.aandm (.ofBits w) (.ofBits w))
  | 0x27 => some (.aorm (.ofBits w) (.ofBits w))
  | 0x28 => some (.axorm (.ofBits w) (.ofBits w))
  | 0x30 => some (.aldacq (.ofBits w) (.ofBits w))
  | 0x31 => some (.astrel (.ofBits w) (.ofBits w))
  | 0x32 => some (.waita (.ofBits w) (.ofBits w))
  | _ => none

/-- The opcode map of the vector engine (02 R56). -/
def opcodeMapV (w : TextWord) : Nat → Option Instr
  | 0x1 => some (.vadd (.ofBits w) (.ofBits w))
  | 0x2 => some (.vsub (.ofBits w) (.ofBits w))
  | 0x3 => some (.vmul (.ofBits w) (.ofBits w))
  | 0x4 => some (.vfma (.ofBits w) (.ofBits w))
  | 0x5 => some (.vmin (.ofBits w) (.ofBits w))
  | 0x6 => some (.vmax (.ofBits w) (.ofBits w))
  | 0x7 => some (.vabs (.ofBits w) (.ofBits w))
  | 0x8 => some (.vneg (.ofBits w) (.ofBits w))
  | 0x9 => some (.vclamp (.ofBits w) (.ofBits w))
  | 0xa => some (.vcmp (.ofBits w) (.ofBits w))
  | 0xb => some (.vsel (.ofBits w) (.ofBits w))
  | 0x10 => some (.vand (.ofBits w) (.ofBits w))
  | 0x11 => some (.vor (.ofBits w) (.ofBits w))
  | 0x12 => some (.vxor (.ofBits w) (.ofBits w))
  | 0x13 => some (.vnot (.ofBits w) (.ofBits w))
  | 0x14 => some (.vshl (.ofBits w) (.ofBits w))
  | 0x15 => some (.vshr (.ofBits w) (.ofBits w))
  | 0x16 => some (.vsar (.ofBits w) (.ofBits w))
  | 0x20 => some (.vredsum (.ofBits w) (.ofBits w))
  | 0x21 => some (.vredmax (.ofBits w) (.ofBits w))
  | 0x22 => some (.vredmin (.ofBits w) (.ofBits w))
  | 0x23 => some (.vamax (.ofBits w) (.ofBits w))
  | 0x28 => some (.vexp2 (.ofBits w) (.ofBits w))
  | 0x29 => some (.vlog2 (.ofBits w) (.ofBits w))
  | 0x2a => some (.vrcp (.ofBits w) (.ofBits w))
  | 0x2b => some (.vrsq (.ofBits w) (.ofBits w))
  | 0x2c => some (.vtanh (.ofBits w) (.ofBits w))
  | 0x30 => some (.vcvt (.ofBits w) (.ofBits w))
  | 0x31 => some (.vqnt (.ofBits w) (.ofBits w))
  | 0x32 => some (.vdq (.ofBits w) (.ofBits w))
  | 0x33 => some (.vscexp (.ofBits w) (.ofBits w))
  | 0x34 => some (.vscacc (.ofBits w) (.ofBits w))
  | 0x40 => some (.vmov (.ofBits w) (.ofBits w))
  | 0x41 => some (.vbcast (.ofBits w) (.ofBits w))
  | 0x42 => some (.vperm (.ofBits w) (.ofBits w))
  | 0x43 => some (.vtrans (.ofBits w) (.ofBits w))
  | 0x44 => some (.vrow (.ofBits w) (.ofBits w))
  | 0x45 => some (.vcol (.ofBits w) (.ofBits w))
  | 0x46 => some (.vrowput (.ofBits w) (.ofBits w))
  | 0x47 => some (.vcolput (.ofBits w) (.ofBits w))
  | 0x48 => some (.vld (.ofBits w) (.ofBits w))
  | 0x49 => some (.vst (.ofBits w) (.ofBits w))
  | 0x50 => some (.vcpush (.ofBits w) (.ofBits w))
  | 0x51 => some (.vcpop (.ofBits w) (.ofBits w))
  | 0x52 => some (.vcbal (.ofBits w) (.ofBits w))
  | 0x58 => some (.vacomb (.ofBits w) (.ofBits w))
  | 0x60 => some (.vfput (.ofBits w) (.ofBits w))
  | 0x61 => some (.vfget (.ofBits w) (.ofBits w))
  | 0x70 => some (.vshape (.ofBits w) (.ofBits w))
  | _ => none

/-- The opcode map of the matrix engine (02 R57). -/
def opcodeMapM (w : TextWord) : Nat → Option Instr
  | 0x1 => some (.mshape (.ofBits w) (.ofBits w))
  | 0x2 => some (.mzero (.ofBits w) (.ofBits w))
  | 0x10 => some (.mma (.ofBits w) (.ofBits w))
  | 0x11 => some (.mmaz (.ofBits w) (.ofBits w))
  | 0x12 => some (.msp (.ofBits w) (.ofBits w))
  | 0x13 => some (.mscacc (.ofBits w) (.ofBits w))
  | 0x14 => some (.mdrain (.ofBits w) (.ofBits w))
  | 0x15 => some (.mload (.ofBits w) (.ofBits w))
  | 0x16 => some (.mstat (.ofBits w) (.ofBits w))
  | 0x17 => some (.mmv (.ofBits w) (.ofBits w))
  | _ => none

/-- The opcode map of the copy engine (02 R58). -/
def opcodeMapC (w : TextWord) : Nat → Option Instr
  | 0x1 => some (.cpy (.ofBits w) (.ofBits w))
  | 0x2 => some (.cgath (.ofBits w) (.ofBits w))
  | 0x3 => some (.cscat (.ofBits w) (.ofBits w))
  | 0x4 => some (.clist (.ofBits w) (.ofBits w))
  | 0x5 => some (.cfill (.ofBits w) (.ofBits w))
  | 0x6 => some (.cwait (.ofBits w) (.ofBits w))
  | 0x7 => some (.tset (.ofBits w) (.ofBits w))
  | 0x10 => some (.xsend (.ofBits w) (.ofBits w))
  | _ => none

/-- The opcode map of the bank engine (02 R59). -/
def opcodeMapB (w : TextWord) : Nat → Option Instr
  | 0x1 => some (.bqry (.ofBits w) (.ofBits w))
  | 0x2 => some (.bapp (.ofBits w) (.ofBits w))
  | 0x3 => some (.bmv (.ofBits w) (.ofBits w))
  | 0x4 => some (.bwait (.ofBits w) (.ofBits w))
  | 0x5 => some (.bflt (.ofBits w) (.ofBits w))
  | 0x6 => some (.bsk (.ofBits w) (.ofBits w))
  | 0x7 => some (.bmap (.ofBits w) (.ofBits w))
  | 0x8 => some (.berr (.ofBits w) (.ofBits w))
  | _ => none

/-- The opcode map of the engine-neutral range (02 R60). -/
def opcodeMapN (w : TextWord) : Nat → Option Instr
  | 0xf0 => some (.semi (.ofBits w) (.ofBits w))
  | 0xf1 => some (.semw (.ofBits w) (.ofBits w))
  | 0xf2 => some (.semp (.ofBits w) (.ofBits w))
  | 0xf3 => some (.fencex (.ofBits w) (.ofBits w))
  | _ => none

/-- The instruction that a word names in engine `e`, whatever its fields hold; none where the opcode is unassigned (02 R53).
The engine-neutral range, 0xF0 up, has one meaning in every engine (02 R39). -/
def parse (e : Engine) (w : TextWord) : Option Instr :=
  let op := (w.extractLsb' 88 8).toNat
  if 0xF0 ≤ op then opcodeMapN w op
  else match e with
    | .s => opcodeMapS w op
    | .a => opcodeMapA w op
    | .v => opcodeMapV w op
    | .m => opcodeMapM w op
    | .c => opcodeMapC w op
    | .b => opcodeMapB w op

/-- Decoding in engine `e` of profile `pf` (02 R62): the instruction, or the first check that fails. -/
def decode (pf : Profile) (e : Engine) (w : TextWord) : Except Reject Instr :=
  match parse e w with
  | none => .error .unassigned
  | some i =>
    match i.reject? pf with
    | none => .ok i
    | some r => .error r

/-- The word at the head of a list of bytes, the first at the lowest address (00 R8). -/
def wordOfBytes : List Byte → Nat → Option Nat
  | _, 0 => some 0
  | [], _ + 1 => none
  | b :: r, n + 1 => (wordOfBytes r n).map (fun x => b.toNat + 256 * x)

/-- Decoding any bytes: the instruction of the first twelve and the bytes that follow. -/
def decodeBytes (pf : Profile) (e : Engine) (bs : List Byte) : Except Reject (Instr × List Byte) :=
  match wordOfBytes bs 12 with
  | none => .error .truncated
  | some n =>
    match decode pf e (BitVec.ofNat 96 n) with
    | .ok i => .ok (i, bs.drop 12)
    | .error r => .error r

/-- The instruction of a table row whose bits are `w` (log 9): up to 96 bits, a word of the sequencer; above, a section
header in bits [63:0] and then the word, whose engine the header names (01 R15). Rows of `events` have no word. The word
is decoded in the first profile in which it is legal. -/
def decodeTableWord (nbits w : Nat) : Option Instr :=
  let eng := if nbits ≤ 96 then some Engine.s else Engine.ofNum? (w / 2 ^ 61 % 8)
  let word : TextWord := BitVec.ofNat 96 (if nbits ≤ 96 then w else w / 2 ^ 64)
  match eng with
  | none => none
  | some e => [Profile.p, .d, .crown, .mc].findSome? (fun pf => (decode pf e word).toOption)

/-- Bits [95:80] of a word. -/
def Head.bits (op : Nat) (h : Head) : BitVec 16 :=
  BitVec.ofNat 8 op ++ h.pr ++ BitVec.ofBool h.pn ++ h.lb

/-- Bits [79:0] by format (02 R45 to R51). -/
def W1.bits (w : W1) : BitVec 80 := w.d ++ w.a ++ w.b ++ w.c ++ w.fn ++ w.imm
def W2.bits (w : W2) : BitVec 80 :=
  w.d ++ w.base ++ w.idx ++ w.sz ++ w.ord ++ w.scope ++ BitVec.ofBool w.x ++ BitVec.ofBool w.pi ++ BitVec.ofBool w.sc ++
    BitVec.ofBool w.rsv ++ w.off
def W3.bits (w : W3) : BitVec 80 := w.a ++ w.b ++ BitVec.ofBool w.k ++ w.cond ++ w.fn ++ w.tgt
def W4.bits (w : W4) : BitVec 80 := w.q ++ w.dir ++ w.ety ++ w.base ++ w.pat ++ w.scope ++ w.rsv ++ w.imm
def W5.bits (w : W5) : BitVec 80 :=
  w.zd ++ w.zs ++ w.qa ++ w.bv ++ w.ms ++ w.ks ++ w.ty ++ BitVec.ofBool w.acc ++ w.gz ++ w.voff ++ w.rsv
def W6.bits (w : W6) : BitVec 80 := w.a ++ w.b ++ w.c ++ w.fn ++ w.imm

/-- The word of an instruction (02 R54 to R60); an event has none and encodes as zero, and an unassigned word as itself. -/
def encode : Instr → TextWord
  | .add h w => (h.bits 0x1 ++ w.bits : BitVec 96)
  | .sub h w => (h.bits 0x2 ++ w.bits : BitVec 96)
  | .mul h w => (h.bits 0x3 ++ w.bits : BitVec 96)
  | .mulh h w => (h.bits 0x4 ++ w.bits : BitVec 96)
  | .mulhn h w => (h.bits 0x5 ++ w.bits : BitVec 96)
  | .div h w => (h.bits 0x6 ++ w.bits : BitVec 96)
  | .divn h w => (h.bits 0x7 ++ w.bits : BitVec 96)
  | .rem h w => (h.bits 0x8 ++ w.bits : BitVec 96)
  | .andS h w => (h.bits 0x9 ++ w.bits : BitVec 96)
  | .orS h w => (h.bits 0xa ++ w.bits : BitVec 96)
  | .xorS h w => (h.bits 0xb ++ w.bits : BitVec 96)
  | .andn h w => (h.bits 0xc ++ w.bits : BitVec 96)
  | .shl h w => (h.bits 0xd ++ w.bits : BitVec 96)
  | .shr h w => (h.bits 0xe ++ w.bits : BitVec 96)
  | .sar h w => (h.bits 0xf ++ w.bits : BitVec 96)
  | .rot h w => (h.bits 0x10 ++ w.bits : BitVec 96)
  | .minS h w => (h.bits 0x11 ++ w.bits : BitVec 96)
  | .maxS h w => (h.bits 0x12 ++ w.bits : BitVec 96)
  | .minn h w => (h.bits 0x13 ++ w.bits : BitVec 96)
  | .maxn h w => (h.bits 0x14 ++ w.bits : BitVec 96)
  | .clz h w => (h.bits 0x15 ++ w.bits : BitVec 96)
  | .ctz h w => (h.bits 0x16 ++ w.bits : BitVec 96)
  | .popc h w => (h.bits 0x17 ++ w.bits : BitVec 96)
  | .bfx h w => (h.bits 0x18 ++ w.bits : BitVec 96)
  | .bfi h w => (h.bits 0x19 ++ w.bits : BitVec 96)
  | .sel h w => (h.bits 0x1a ++ w.bits : BitVec 96)
  | .li h w => (h.bits 0x1b ++ w.bits : BitVec 96)
  | .lih h w => (h.bits 0x1c ++ w.bits : BitVec 96)
  | .cmp h w => (h.bits 0x1d ++ w.bits : BitVec 96)
  | .jct h w => (h.bits 0x40 ++ w.bits : BitVec 96)
  | .jmp h w => (h.bits 0x41 ++ w.bits : BitVec 96)
  | .loop h w => (h.bits 0x42 ++ w.bits : BitVec 96)
  | .call h w => (h.bits 0x43 ++ w.bits : BitVec 96)
  | .ret h w => (h.bits 0x44 ++ w.bits : BitVec 96)
  | .endWord h w => (h.bits 0x45 ++ w.bits : BitVec 96)
  | .yieldWord h w => (h.bits 0x46 ++ w.bits : BitVec 96)
  | .trapWord h w => (h.bits 0x47 ++ w.bits : BitVec 96)
  | .nop h w => (h.bits 0x48 ++ w.bits : BitVec 96)
  | .prio h w => (h.bits 0x49 ++ w.bits : BitVec 96)
  | .sysrd h w => (h.bits 0x4a ++ w.bits : BitVec 96)
  | .syswr h w => (h.bits 0x4b ++ w.bits : BitVec 96)
  | .snaprd h w => (h.bits 0x50 ++ w.bits : BitVec 96)
  | .snapwr h w => (h.bits 0x51 ++ w.bits : BitVec 96)
  | .join h w => (h.bits 0x58 ++ w.bits : BitVec 96)
  | .leave h w => (h.bits 0x59 ++ w.bits : BitVec 96)
  | .gbar h w => (h.bits 0x5a ++ w.bits : BitVec 96)
  | .barw h w => (h.bits 0x5b ++ w.bits : BitVec 96)
  | .launch h w => (h.bits 0x5c ++ w.bits : BitVec 96)
  | .task h w => (h.bits 0x5d ++ w.bits : BitVec 96)
  | .phaseG h w => (h.bits 0x5e ++ w.bits : BitVec 96)
  | .phaseSolo h w => (h.bits 0x5e ++ w.bits : BitVec 96)
  | .cgateOff h w => (h.bits 0x60 ++ w.bits : BitVec 96)
  | .cgateOn h w => (h.bits 0x60 ++ w.bits : BitVec 96)
  | .pwracq h w => (h.bits 0x61 ++ w.bits : BitVec 96)
  | .pwrrel h w => (h.bits 0x62 ++ w.bits : BitVec 96)
  | .tlbinv h w => (h.bits 0x68 ++ w.bits : BitVec 96)
  | .l2mode h w => (h.bits 0x69 ++ w.bits : BitVec 96)
  | .mpage h w => (h.bits 0x6a ++ w.bits : BitVec 96)
  | .kvrootAdd h w => (h.bits 0x6b ++ w.bits : BitVec 96)
  | .kvrootDel h w => (h.bits 0x6b ++ w.bits : BitVec 96)
  | .kvfind h w => (h.bits 0x6c ++ w.bits : BitVec 96)
  | .rqhand h w => (h.bits 0x70 ++ w.bits : BitVec 96)
  | .rqcan h w => (h.bits 0x71 ++ w.bits : BitVec 96)
  | .rqstat h w => (h.bits 0x72 ++ w.bits : BitVec 96)
  | .rqdone h w => (h.bits 0x73 ++ w.bits : BitVec 96)
  | .publish h w => (h.bits 0x74 ++ w.bits : BitVec 96)
  | .tbind h w => (h.bits 0x78 ++ w.bits : BitVec 96)
  | .recirc h w => (h.bits 0x79 ++ w.bits : BitVec 96)
  | .aadd h w => (h.bits 0x1 ++ w.bits : BitVec 96)
  | .asub h w => (h.bits 0x2 ++ w.bits : BitVec 96)
  | .amul h w => (h.bits 0x3 ++ w.bits : BitVec 96)
  | .ashl h w => (h.bits 0x4 ++ w.bits : BitVec 96)
  | .ashr h w => (h.bits 0x5 ++ w.bits : BitVec 96)
  | .aand h w => (h.bits 0x6 ++ w.bits : BitVec 96)
  | .aor h w => (h.bits 0x7 ++ w.bits : BitVec 96)
  | .ali h w => (h.bits 0x8 ++ w.bits : BitVec 96)
  | .ld h w => (h.bits 0x10 ++ w.bits : BitVec 96)
  | .st h w => (h.bits 0x11 ++ w.bits : BitVec 96)
  | .qbind h w => (h.bits 0x18 ++ w.bits : BitVec 96)
  | .qfree h w => (h.bits 0x19 ++ w.bits : BitVec 96)
  | .probe h w => (h.bits 0x1c ++ w.bits : BitVec 96)
  | .aswap h w => (h.bits 0x20 ++ w.bits : BitVec 96)
  | .acas h w => (h.bits 0x21 ++ w.bits : BitVec 96)
  | .afadd h w => (h.bits 0x22 ++ w.bits : BitVec 96)
  | .aiadd h w => (h.bits 0x23 ++ w.bits : BitVec 96)
  | .amin h w => (h.bits 0x24 ++ w.bits : BitVec 96)
  | .amax h w => (h.bits 0x25 ++ w.bits : BitVec 96)
  | .aandm h w => (h.bits 0x26 ++ w.bits : BitVec 96)
  | .aorm h w => (h.bits 0x27 ++ w.bits : BitVec 96)
  | .axorm h w => (h.bits 0x28 ++ w.bits : BitVec 96)
  | .aldacq h w => (h.bits 0x30 ++ w.bits : BitVec 96)
  | .astrel h w => (h.bits 0x31 ++ w.bits : BitVec 96)
  | .waita h w => (h.bits 0x32 ++ w.bits : BitVec 96)
  | .waitaWake _ => 0
  | .waitaTimeout _ _ => 0
  | .vadd h w => (h.bits 0x1 ++ w.bits : BitVec 96)
  | .vsub h w => (h.bits 0x2 ++ w.bits : BitVec 96)
  | .vmul h w => (h.bits 0x3 ++ w.bits : BitVec 96)
  | .vfma h w => (h.bits 0x4 ++ w.bits : BitVec 96)
  | .vmin h w => (h.bits 0x5 ++ w.bits : BitVec 96)
  | .vmax h w => (h.bits 0x6 ++ w.bits : BitVec 96)
  | .vabs h w => (h.bits 0x7 ++ w.bits : BitVec 96)
  | .vneg h w => (h.bits 0x8 ++ w.bits : BitVec 96)
  | .vclamp h w => (h.bits 0x9 ++ w.bits : BitVec 96)
  | .vcmp h w => (h.bits 0xa ++ w.bits : BitVec 96)
  | .vsel h w => (h.bits 0xb ++ w.bits : BitVec 96)
  | .vand h w => (h.bits 0x10 ++ w.bits : BitVec 96)
  | .vor h w => (h.bits 0x11 ++ w.bits : BitVec 96)
  | .vxor h w => (h.bits 0x12 ++ w.bits : BitVec 96)
  | .vnot h w => (h.bits 0x13 ++ w.bits : BitVec 96)
  | .vshl h w => (h.bits 0x14 ++ w.bits : BitVec 96)
  | .vshr h w => (h.bits 0x15 ++ w.bits : BitVec 96)
  | .vsar h w => (h.bits 0x16 ++ w.bits : BitVec 96)
  | .vredsum h w => (h.bits 0x20 ++ w.bits : BitVec 96)
  | .vredmax h w => (h.bits 0x21 ++ w.bits : BitVec 96)
  | .vredmin h w => (h.bits 0x22 ++ w.bits : BitVec 96)
  | .vamax h w => (h.bits 0x23 ++ w.bits : BitVec 96)
  | .vexp2 h w => (h.bits 0x28 ++ w.bits : BitVec 96)
  | .vlog2 h w => (h.bits 0x29 ++ w.bits : BitVec 96)
  | .vrcp h w => (h.bits 0x2a ++ w.bits : BitVec 96)
  | .vrsq h w => (h.bits 0x2b ++ w.bits : BitVec 96)
  | .vtanh h w => (h.bits 0x2c ++ w.bits : BitVec 96)
  | .vcvt h w => (h.bits 0x30 ++ w.bits : BitVec 96)
  | .vqnt h w => (h.bits 0x31 ++ w.bits : BitVec 96)
  | .vdq h w => (h.bits 0x32 ++ w.bits : BitVec 96)
  | .vscexp h w => (h.bits 0x33 ++ w.bits : BitVec 96)
  | .vscacc h w => (h.bits 0x34 ++ w.bits : BitVec 96)
  | .vmov h w => (h.bits 0x40 ++ w.bits : BitVec 96)
  | .vbcast h w => (h.bits 0x41 ++ w.bits : BitVec 96)
  | .vperm h w => (h.bits 0x42 ++ w.bits : BitVec 96)
  | .vtrans h w => (h.bits 0x43 ++ w.bits : BitVec 96)
  | .vrow h w => (h.bits 0x44 ++ w.bits : BitVec 96)
  | .vcol h w => (h.bits 0x45 ++ w.bits : BitVec 96)
  | .vrowput h w => (h.bits 0x46 ++ w.bits : BitVec 96)
  | .vcolput h w => (h.bits 0x47 ++ w.bits : BitVec 96)
  | .vld h w => (h.bits 0x48 ++ w.bits : BitVec 96)
  | .vldAsyncComplete _ => 0
  | .vst h w => (h.bits 0x49 ++ w.bits : BitVec 96)
  | .vcpush h w => (h.bits 0x50 ++ w.bits : BitVec 96)
  | .vcpop h w => (h.bits 0x51 ++ w.bits : BitVec 96)
  | .vcbal h w => (h.bits 0x52 ++ w.bits : BitVec 96)
  | .vacomb h w => (h.bits 0x58 ++ w.bits : BitVec 96)
  | .vfput h w => (h.bits 0x60 ++ w.bits : BitVec 96)
  | .vfget h w => (h.bits 0x61 ++ w.bits : BitVec 96)
  | .vshape h w => (h.bits 0x70 ++ w.bits : BitVec 96)
  | .mshape h w => (h.bits 0x1 ++ w.bits : BitVec 96)
  | .mzero h w => (h.bits 0x2 ++ w.bits : BitVec 96)
  | .mma h w => (h.bits 0x10 ++ w.bits : BitVec 96)
  | .mmaz h w => (h.bits 0x11 ++ w.bits : BitVec 96)
  | .msp h w => (h.bits 0x12 ++ w.bits : BitVec 96)
  | .mscacc h w => (h.bits 0x13 ++ w.bits : BitVec 96)
  | .mdrain h w => (h.bits 0x14 ++ w.bits : BitVec 96)
  | .mload h w => (h.bits 0x15 ++ w.bits : BitVec 96)
  | .mstat h w => (h.bits 0x16 ++ w.bits : BitVec 96)
  | .mmv h w => (h.bits 0x17 ++ w.bits : BitVec 96)
  | .matrixOpComplete _ => 0
  | .cpy h w => (h.bits 0x1 ++ w.bits : BitVec 96)
  | .cgath h w => (h.bits 0x2 ++ w.bits : BitVec 96)
  | .cscat h w => (h.bits 0x3 ++ w.bits : BitVec 96)
  | .clist h w => (h.bits 0x4 ++ w.bits : BitVec 96)
  | .cfill h w => (h.bits 0x5 ++ w.bits : BitVec 96)
  | .copyComplete _ => 0
  | .cwait h w => (h.bits 0x6 ++ w.bits : BitVec 96)
  | .tset h w => (h.bits 0x7 ++ w.bits : BitVec 96)
  | .xsend h w => (h.bits 0x10 ++ w.bits : BitVec 96)
  | .bqry h w => (h.bits 0x1 ++ w.bits : BitVec 96)
  | .bapp h w => (h.bits 0x2 ++ w.bits : BitVec 96)
  | .bmv h w => (h.bits 0x3 ++ w.bits : BitVec 96)
  | .bwait h w => (h.bits 0x4 ++ w.bits : BitVec 96)
  | .bflt h w => (h.bits 0x5 ++ w.bits : BitVec 96)
  | .bsk h w => (h.bits 0x6 ++ w.bits : BitVec 96)
  | .bmap h w => (h.bits 0x7 ++ w.bits : BitVec 96)
  | .berr h w => (h.bits 0x8 ++ w.bits : BitVec 96)
  | .bankCmdComplete _ => 0
  | .semi h w => (h.bits 0xf0 ++ w.bits : BitVec 96)
  | .semw h w => (h.bits 0xf1 ++ w.bits : BitVec 96)
  | .semp h w => (h.bits 0xf2 ++ w.bits : BitVec 96)
  | .fencex h w => (h.bits 0xf3 ++ w.bits : BitVec 96)
  | .headerWalk _ _ => 0
  | .takeDecision _ _ => 0
  | .resultLands _ _ _ => 0
  | .heldPostApplied _ _ => 0
  | .streamFetch _ _ => 0
  | .streamStore _ _ => 0
  | .homeRequest _ => 0
  | .barrierWake _ => 0
  | .strandEnd _ => 0
  | .trapDelivery _ => 0
  | .preemptYield _ => 0
  | .preemptDeadline _ => 0
  | .fullSave _ => 0
  | .cstopReq _ _ => 0
  | .cstopWithdraw _ => 0
  | .cstopKill _ => 0
  | .ctxBindResume _ _ => 0
  | .ctxRelease _ => 0
  | .machineCheck _ => 0
  | .launchBind _ => 0
  | .taskIssue _ _ => 0
  | .taskSteal _ _ => 0
  | .taskComplete _ _ => 0
  | .gateQuiet _ _ => 0
  | .gatePowerGood _ _ => 0
  | .powerGrant _ => 0
  | .bandOff _ _ _ => 0
  | .bandWake _ _ _ => 0
  | .vfctlWrite _ _ _ => 0
  | .bankQueryItem _ _ _ => 0
  | .bankAppendItem _ _ => 0
  | .bankMvItem _ _ _ => 0
  | .bankRefresh _ _ => 0
  | .uncorrectableError _ => 0
  | .referrerScan _ => 0
  | .bankRetiring _ _ => 0
  | .forcedRetirement _ _ => 0
  | .bcmdRetire _ _ => 0
  | .bcmdRemap _ => 0
  | .remapComplete _ => 0
  | .bmctlGo _ _ => 0
  | .blockMoveDone _ => 0
  | .kvboundWrite _ _ => 0
  | .flpopRead _ _ => 0
  | .rcctlGo _ _ => 0
  | .reclaimPeriod _ => 0
  | .reclaimCycleEnd _ => 0
  | .grayOverflow _ => 0
  | .heldNotificationPost _ => 0
  | .tlbinvComplete _ => 0
  | .mpageComplete _ => 0
  | .kvfindComplete _ => 0
  | .submissionSubmit _ => 0
  | .submissionCancel _ => 0
  | .completionEntryWrite _ => 0
  | .prefillBound _ _ => 0
  | .killReport _ _ _ => 0
  | .handoffEvent _ => 0
  | .cancelEvent _ => 0
  | .rqdoneEvent _ => 0
  | .handoffStart _ => 0
  | .handoffBlock _ => 0
  | .handoffCancelStop _ => 0
  | .commit _ => 0
  | .moduleDown _ _ => 0
  | .partctlEnable _ _ => 0
  | .partctlRekey _ _ => 0
  | .hwinWrite _ _ => 0
  | .publishComplete _ => 0
  | .supplyEmergency => 0
  | .victimKill => 0
  | .emergencyClear => 0
  | .monitorEnable _ _ _ => 0
  | .monitorValue _ _ _ => 0
  | .packageReset _ => 0
  | .firmwareReload _ => 0
  | .attestationReport _ => 0
  | .fidWrite _ => 0
  | .linkDown _ _ => 0
  | .timingFlit _ => 0
  | .sendDepart _ => 0
  | .sendArrive _ => 0
  | .sendComplete _ => 0
  | .sendDtTimeout _ => 0
  | .planTaken _ => 0
  | .freezeDrainTimeout _ => 0
  | .circuitsTrained _ _ _ => 0
  | .registerWrite _ _ _ => 0
  | .unassignedOpcode _ raw => raw
  | .hubUncontainedError => 0
  | .firmwareReplaceRequest => 0

end Sys2Proof
end

