-- ==== Sys2Proof/Config.lean ====
section
/-! DEFINITION. What the manual leaves open: free values. Each is an opaque constant with no body, applied to a counter
that the machine advances (`State.free`) and to the position of the use, so that nothing in Lean knows its value. -/

namespace Sys2Proof.Config

/-- A scalar read in a landing window (00 R10, 01 R30): free. `n` is the counter, `k` the operand position. -/
opaque undefWord (n k : Nat) : Word

/-- A vector register or bypass value read in a landing window (00 R10, 01 R30, R35): free. -/
opaque undefTile (n k : Nat) : Tile

/-- A mask read in a landing window (00 R10, 01 R30): free. -/
opaque undefMask (n k : Nat) : Mask

/-- A predicate read in its landing window: the word acts either as true or as false (01 R34, 05 R117). -/
opaque undefPred (n k : Nat) : Bool

/-- An accumulator element read in a landing window (00 R10, 01 R30): free. -/
opaque undefAcc (n i : Nat) : BitVec 48

/-- A byte of another package, which is outside the machine, before this one has written it or seen it change (23 R441): free. -/
opaque remoteByte (k : Nat) : Byte

/-- How the home of a remote address, which is outside the machine, answers a request (23 R439, R441, R448): 1 with an error response, 2 that
translation fails, 3 with poison or, to a scheduled send, that the tile refuses it, 4 to a probe that the page is read-only, otherwise as asked. Free. -/
opaque remoteAnswer (n ea : Nat) : Nat

/-- A byte of data that a request could not fetch and that is delivered as poisoned (07 R169, R174, 09 R231): free. -/
opaque failByte (n a : Nat) : Byte

/-- A byte read under other keys than those its line was written under (17 R354, 21 R417): whatever the ciphertext yields. It depends on the two keys, the
address and the line's bytes alone, so an unchanged line reads the same again. -/
opaque cipherByte (written reader a line : Nat) : Byte

/-- The length of the freeze of a page move in units of 64 ns (17 R365): implementation time. -/
opaque moveFreeze (n : Nat) : BitVec 16

/-- What only the switches and far pods know of a far port that a circuit plan names (23 R453): it does not exist, or is in a circuit with a
pod other than this one, of which this package knows nothing. -/
opaque farPortTaken (n port : Nat) : Bool

/-- The fuse that holds the least security version the ROM accepts (21 R426): one value of the package. -/
opaque fusedMinimum : BitVec 16

/-- What the ROM finds of the image in the load area (21 R426): its digest and signature verify under the fused key, and its security version. No rule
gives the layout of an image or the fused key. -/
opaque imageSigned (area : List (Nat × Byte)) : Bool
opaque imageVersion (area : List (Nat × Byte)) : BitVec 16

/-- The digest of a firmware image (21 R427), by its bytes: those of the load area, or of the flash where the area is empty. -/
opaque imageDigest (n : Nat) (area : List (Nat × Byte)) : BitVec 256

/-- The position straps of the board (23 R463): pod, board and device. -/
opaque straps (n : Nat) : BitVec 13

/-- The link to package `k` of the own pod trains as the package is brought up (23 R463). -/
opaque linkTrains (n k : Nat) : Bool

/-- A signature over an attestation report with the given index (21 R427): no rule gives its bits. -/
opaque signature (index : Nat) : Word

/-- The tile number in the record of a tile-range trap by an access that meets no tile, or several (08 R205, 10 R239): free. -/
opaque tileNumber (n : Nat) : Word

end Sys2Proof.Config
end

