-- ==== Sys2Proof/Machine/Maps.lean ====
section
/-! DEFINITION. Sparse data by key: a list of key and value pairs, keys rising. `Map` holds registers, contexts and
tables; what an unlisted key reads as is given at each use. `Mem` holds bytes in the one canonical form: keys strictly
rising and no entry equal to what an unlisted address reads as. -/

namespace Sys2Proof

/-- Sparse data by natural key. -/
abbrev Map (α : Type) := List (Nat × α)

/-- The value at key `k`, or `d` where none is listed. -/
def Map.get {α : Type} (d : α) : Map α → Nat → α
  | [], _ => d
  | (a, v) :: r, k => if k = a then v else Map.get d r k

/-- The value at key `k`, if one is listed. -/
def Map.get? {α : Type} : Map α → Nat → Option α
  | [], _ => none
  | (a, v) :: r, k => if k = a then some v else Map.get? r k

/-- `m` with `v` at key `k`, keys kept rising. -/
def Map.put {α : Type} : Map α → Nat → α → Map α
  | [], k, v => [(k, v)]
  | (a, w) :: r, k, v =>
    if k < a then (k, v) :: (a, w) :: r
    else if k = a then (k, v) :: r
    else (a, w) :: Map.put r k v

/-- `m` with no entry at key `k`. -/
def Map.del {α : Type} (m : Map α) (k : Nat) : Map α := m.filter (fun p => p.1 != k)

/-- What an unlisted byte of memory reads as. DESIGN CHOICE (log 2), unsafe: the spec gives DRAM and vaults no contents. -/
def Mem.unlisted : Byte := 0

/-- One byte of memory. -/
def Mem.read (m : List Host.Cell) (k : Nat) : Byte := Map.get Mem.unlisted m k

/-- `m` with byte `b` at `k`, in canonical form: writing what an unlisted byte reads as removes the entry. -/
def Mem.write (m : List Host.Cell) (k : Nat) (b : Byte) : List Host.Cell :=
  if b = Mem.unlisted then Map.del m k else Map.put m k b

/-- Keys strictly rising, every key at least `lo`, and no entry equal to what an unlisted byte reads as. -/
def Mem.wfFrom : Nat → List Host.Cell → Bool
  | _, [] => true
  | lo, (a, b) :: r => decide (lo ≤ a) && b != Mem.unlisted && Mem.wfFrom (a + 1) r

/-- The canonical form of memory. -/
def Mem.wf (m : List Host.Cell) : Bool := Mem.wfFrom 0 m

/-- `n` bytes at `k` as one value, the least significant byte first (00 R8). -/
def Mem.readLE (m : List Host.Cell) (k : Nat) : Nat → Nat
  | 0 => 0
  | n + 1 => (Mem.read m k).toNat + 256 * Mem.readLE m (k + 1) n

/-- The low `n` bytes of `v` stored at `k`, the least significant first (00 R8). -/
def Mem.writeLE (m : List Host.Cell) (k : Nat) (v : Nat) : Nat → List Host.Cell
  | 0 => m
  | n + 1 => Mem.writeLE (Mem.write m k (BitVec.ofNat 8 v)) (k + 1) (v / 256) n

/-- A set of naturals as a rising list without repeats. -/
def NSet.add : List Nat → Nat → List Nat
  | [], k => [k]
  | a :: r, k => if k < a then k :: a :: r else if k = a then a :: r else a :: NSet.add r k

/-- `s` without `k`. -/
def NSet.del (s : List Nat) (k : Nat) : List Nat := s.filter (· != k)

/-- Membership, as a Bool. -/
def NSet.mem (s : List Nat) (k : Nat) : Bool := s.any (· == k)

end Sys2Proof
end

