-- ==== Sys2Proof/Machine/State.lean ====
section
/-! DEFINITION. The state of one KQ9-480 package as plain data: strands and their engine streams, device registers by
address, memory, the units of the dies, the hub and the fabric ports; the reasons a step can stop; the state at reset. -/

namespace Sys2Proof.Machine

/-- Trap, fatal error and kill classes (10 R239). -/
inductive TrapClass where
  | illegalInstruction | illegalSection | engineAbsent | privilege | software | stackOverflow | stackUnderflow
  | alignment | vaultRange | tileRange | streamBinding | vectorShape | matrixShape | semaphoreCeiling | poisonConsumed
  | noRoute | partition | staleTopology | powerExceeded | fifoClosed | contextError | probeFault | fatalContext
  | powerKill | machineCheck | softwareKill
deriving DecidableEq, Repr

/-- What a trap carries into its record: class, CODE and INFO (10 R242). -/
structure TrapInfo where
  cls  : TrapClass
  code : BitVec 16
  info : Word
deriving DecidableEq, Repr

/-- Where a trap stands (10 R242): engine code, word index, dynamic section, text address. -/
structure TrapAt where
  eng  : Nat
  widx : Nat
  dsec : Nat
  text : Nat
deriving DecidableEq, Repr

/-- When a trap was raised, as its record states it (10 R242): aclk, fabric time in elevenths of a tick, and whether a pre-emption request was pending. -/
structure TrapWhen where
  at_   : Nat
  ft    : Nat
  asked : Bool
deriving DecidableEq, Repr

/-- Why a word does not take effect: it waits (01 R32), it traps, or its access fails translation (17 R360). -/
inductive Stop where
  | wait
  | trap (t : TrapInfo)
  | fatal (va : Word)
deriving DecidableEq, Repr

/-- Accumulator tags (09 R215). -/
inductive AccTag where
  | z | f | i
deriving DecidableEq, Repr

/-- One entry of a stream buffer: its bytes from bit 0 and its poison mark (06 R140, 07 R174). -/
structure Entry where
  bits : Tile
  mark : Bool
deriving DecidableEq, Repr

/-- Where a result lands. `z` names accumulator 0 or 1, `v` a physical vector register (05 R121). -/
inductive Dest where
  | none
  | s (r : Nat)
  | a (r : Nat)
  | p (r : Nat)
  | v (r : Nat)
  | m (r : Nat)
  | z (r : Nat)
  | q (r : Nat)
deriving DecidableEq, Repr

/-- What lands. `waita` and `matrix` are results still to come: a parked `waita` (07 R185) with the fabric tables it was routed by (23 R436), and an array operation that
holds its engine stream (09 R225). `defer` stands for what a word leaves to the end of its issue aclk (log 42), `request` for the result of
a request that has not been performed (13 R295), with the bytes that have come and their mark, `rqstat` what an `rqstat` has read, which a stop has read again
(20 R414). -/
inductive Val where
  | none
  | word (w : Word) (mark : Bool)
  | pred (b : Bool)
  | tile (t : Tile) (mark : Bool)
  | mask (m : Mask)
  | acc (els : List (Nat × BitVec 48)) (tag : Option AccTag)
  | push (es : List Entry)
  | waita (key : Nat) (n : Nat) (b : Nat) (born : Nat) (tabs : Nat)
  | matrix (op : Nat)
  | defer
  | request (id acc : Nat) (mark : Bool)
  | rqstat (rq : Nat) (w : Word)
deriving DecidableEq, Repr

/-- A result in flight (01 R18, R30): destination, value, issue aclk, latency code, ordinal of its section, index of
its word, the flags it sets when it lands (04 R83), whether a later word has taken its destination (01 R31), and whether it holds
a request slot of its core until then (07 R170), and whether it is that of a load (21 R425). -/
structure Flight where
  dest  : Dest
  val   : Val
  born  : Nat
  lb    : Nat
  sec   : Nat
  widx  : Nat
  flags : BitVec 7
  stale : Bool
  slot  : Bool
  load  : Bool
deriving DecidableEq, Repr

/-- The last own section an engine stream has walked (01 R19, R21, R37): its header and the header's address, its dynamic
number, its ordinal among own sections, what the walk had passed and taken before it, its waits, where (X, n) says that RETC
of X must exceed n, whether a word of it has issued, and VSHAPE or ASHAPE as it stood when word 0 issued. -/
structure Section where
  hdr   : Word
  addr  : BitVec 48
  dsec  : Nat
  ord   : Nat
  seen  : Map Nat
  dqpos : Nat
  waits : List (Engine × Nat)
  begun : Bool
  shape : Word
deriving DecidableEq, Repr

/-- Where an engine stream stands: at a header, within the words of its own section `sec`, at a junction whose decision it
has still to take, or past an end decision (01 R19, R26). -/
inductive Pos where
  | header
  | words
  | decision
  | ended
deriving DecidableEq, Repr

/-- A value that bypass names may read (01 R36): the word's index, its value if its destination is a vector register. -/
structure Bypass where
  widx : Nat
  val  : Option (Tile × Bool)
deriving DecidableEq, Repr

/-- An engine stream (01 R18; PASS, 06 R153). `owned` counts own sections walked; RETC is computed from it and from the
results in flight (01 R20). `yld` says that the header walked last has YLD, `dqpos` counts decisions taken,
`secn0` is SECN at the end of the aclk before (01 R22). `acted` is the aclk in which the stream last walked or issued
(01 R19). `live` holds earlier bypass-live sections that may not have retired (01 R37), `wrote` the ordinal of the section that last issued a word with
a destination, by Dest.key, and `known` for an own section, by ordinal, how many sections of each engine have come before it by dependence distances (01 R33). -/
structure EStream where
  walk   : BitVec 48
  yld    : Bool
  secn   : Nat
  secn0  : Nat
  widx   : Nat
  seen   : Map Nat
  owned  : Nat
  dqpos  : Nat
  preds  : BitVec 16
  pos    : Pos
  sec    : Section
  flight : List Flight
  bypass : List Bypass
  pass   : Nat
  acted  : Option Nat
  live   : List Section
  wrote  : Map Nat
  known  : Map (Map Nat)
deriving DecidableEq, Repr

/-- Kinds of decision (01 R25). -/
inductive DecisionKind where
  | fallThrough | taken | loopBack | call | ret | endWalk
deriving DecidableEq, Repr

/-- A decision: kind, where the walk continues, rotation step, and p8-p15 where it carries them (01 R25, 05 R120, R121). -/
structure Decision where
  kind : DecisionKind
  addr : BitVec 48
  rot  : Nat
  newp : Option (BitVec 8)
deriving DecidableEq, Repr

/-- Binding states of a stream register (06 R140). -/
inductive BindState where
  | unbound | inS | outS
deriving DecidableEq, Repr

/-- A stream register (06 R140, R141, 07 R172). OCC is the length of `buf`, oldest entry first; `gen` and `tabs` are the generation and the fabric tables that
`qbind` met (23 R436, R442). -/
structure Stream where
  state   : BindState
  ety     : BitVec 4
  scope   : BitVec 2
  base    : Word
  count   : Nat
  done    : Nat
  pattern : BitVec 512
  buf     : List Entry
  gen     : BitVec 32
  tabs    : Nat
deriving DecidableEq, Repr

/-- A semaphore: value, ceiling, held completion posts (06 R149, R157); `posted` counts the posts of this aclk, which its waits
do not see, `applied` the held posts that its end applies (06 R150). -/
structure Sem where
  value  : Nat
  ceil   : Nat
  held   : Nat
  posted : Nat
  applied : Nat
deriving DecidableEq, Repr

/-- A phase-buffer entry: 64-byte line of virtual addresses, bytes, byte-valid mask (13 R287), those of its bytes that have been published (07 R184), those
bound to an earlier generation than `gen` (23 R442), bound generation, and the fabric tables by which its latest store was routed (23 R436). -/
structure PEntry where
  line  : Nat
  bytes : BitVec 512
  valid : BitVec 64
  pub   : BitVec 64
  dead  : BitVec 64
  gen   : BitVec 32
  tabs  : Nat
deriving DecidableEq, Repr

/-- A load that a stop has met in flight and that is performed again on resume (07 R186): destination, address, size, whether it is sign-extended. With an s
register as its destination it is an `rqstat`, and the address the request (20 R414). -/
structure HeldLoad where
  dest   : Dest
  ea     : Word
  n      : Nat
  signed : Bool
deriving DecidableEq, Repr

/-- The atomics of 07 R178. -/
inductive AtomKind where
  | swap | cas | addF | addI | lo | hi | band | bor | bxor
deriving DecidableEq, Repr

/-- What a posted request does at its home: published bytes of its line under a mask (13 R289); bytes written directly, poisoned or not (07 R184, 09 R231); an
atomic of `n` bytes with its operands, whose result its word awaits if `res` says so, after the line publication of `pre` under `pmask` (07 R464); a
piece of a load: the flight it is of, its offset there, its size and that of the load, the bytes that the strand's own stores gave it, as a mask, and those
bytes (07 R167, 13 R295); a near-path store of `n` bytes at a vault offset (06 R139); bytes of an entry of an OUT binding (07 R174); a request whose translation
has failed at its word, which waits for the response, a write or not (17 R360). -/
inductive PostKind where
  | store (data mask : Nat)
  | write (data mask : Nat) (bad : Bool)
  | atom (k : AtomKind) (signed : Bool) (n b e : Nat) (res : Bool) (pre pmask : Nat)
  | load (req off n tot : Nat) (signed : Bool) (own bytes : Nat)
  | vault (off data n : Nat) (bad : Bool)
  | entry (data mask : Nat)
  | miss (write : Bool)
deriving DecidableEq, Repr

/-- A request that has issued and has not been performed at its home (13 R285, R295, R297): number, context, whose reading of memory it
carries, issuing die, path (09 R237), home line, address; how many egresses have accepted it (1 that of its die, 2 that of the package too) and when, as a
number (13 R286); whether it names another pod, its generation, and the fabric tables it was routed by (23 R436, R442). -/
structure Posted where
  id    : Nat
  ck    : Nat
  asid  : BitVec 16
  part  : BitVec 4
  die   : Nat
  path  : Nat
  line  : Nat
  ea    : Nat
  stage : Nat
  seq   : Nat
  glob  : Bool
  gen   : BitVec 32
  tabs  : Nat
  kind  : PostKind
deriving DecidableEq, Repr

/-- Older bytes that a strand's other paths may still read in place of what its path `path` has written (13 R299): the home line, the bytes, those that count, and the
paths that may, as masks. -/
structure Shadow where
  ck    : Nat
  path  : Nat
  line  : Nat
  bytes : Nat
  mask  : Nat
  hides : Nat
deriving DecidableEq, Repr

/-- A group membership (12 R268): the object's address, the ASID and partition under which it is reached, and the ARRIVED bit. -/
structure Member where
  addr    : Word
  asid    : BitVec 16
  part    : BitVec 4
  arrived : Bool
deriving DecidableEq, Repr

/-- A parked `gbar`, `barw` or `phase.g` of the sequencer (12 R282, 13 R302). -/
structure Park where
  obj   : Word
  gen   : Word
  group : Bool
deriving DecidableEq, Repr

/-- Live masks named by `yield` (05 R126), with the SECN of the header after the yield section. -/
structure YieldPoint where
  secn : Nat
  v    : Word
  s    : Word
  a    : BitVec 32
  m    : BitVec 8
  z    : BitVec 2
deriving DecidableEq, Repr

/-- What `mstat` reports of the operations issued with LB 7 since the last one (09 R226, R227). -/
structure MStat where
  nops  : Nat
  flags : BitVec 7
  poiss : Bool
  kstop : Nat
deriving DecidableEq, Repr

/-- A strand (06 R135 and the rules INVENTORY names). `sid` is a number of its own; `v` and its marks are by physical register number. `text` is the text
segment, address and size, of a strand whose kernel the launch unit knows (01 R14, log 24); `fstat0` is FSTAT at the end of the aclk before (04 R84). `rstack` holds the newest entry first;
`skip` names a word (engine, dynamic section, index) that a handler's return has skipped inside a bypass-live section (10 R245, 01 R37). What this aclk's words
leave to its end: `later` writes of system registers (05 R130), `laterQ` new binding states (07 R175), `laterH` writes of `semi` by engine
(09 R236), `posts` posts by words that found the ceiling (06 R150). `grants` lists
levels of ended grant regions and the array operations that still hold each (15 R327), `regionAt` the number from which on operations belong to the
region under way, `bandW` says that no M word has issued since a resume (15 R314). `await` names the operations that were in flight at a stop and
have to complete before a word issues (01 R33); `recIn` is the record, with the cluster, that a `launch` or `task` has read and published for and that
waits for room (12 R273); `failed` is the address of a request whose translation has failed (17 R360); `full` says that a full save has begun, its streams stopped from aclk `fullAt` on (10 R248, R249).
`pend` is the trap that is to be delivered, `pendW` when it was raised, `slow` says that its capture takes longer than this aclk (10 R243), `closing` that the end of this aclk
ends the strand or stops it at its yield point (10 R249). -/
structure Strand where
  sid    : Nat
  s      : Map Word
  a      : Map Word
  amark  : BitVec 32
  v      : Map Tile
  vmark  : BitVec 64
  m      : Map Mask
  z      : Map (BitVec 48)
  ztag   : Map AccTag
  accp   : Bool
  q      : Map Stream
  h      : Map Sem
  n      : Map Nat
  rstack : List Word
  rsdep  : Nat
  rsbase : Word
  prioc  : BitVec 6
  slipw  : Nat
  fstat  : BitVec 7
  fstat0 : BitVec 7
  vshape : BitVec 13
  rotb   : BitVec 5
  ashape : BitVec 10
  tgb    : BitVec 32
  phs    : Bool
  cerr   : Bool
  es     : Map EStream
  dq     : List Decision
  dqbase : Nat
  pbuf   : List PEntry
  loads  : List HeldLoad
  failed : Option Word
  groups : List Member
  park   : Option Park
  yieldp : Option YieldPoint
  bout   : Nat
  berr   : BitVec 512
  level  : Option Nat
  regionAt : Nat
  bandW  : Bool
  grants : List (Nat × List Nat)
  mstat  : MStat
  hdl    : Bool
  pend   : Option (TrapAt × TrapInfo)
  pendW  : TrapWhen
  slow   : Bool
  closing : Bool
  full   : Bool
  fullAt : Nat
  bar    : Word
  rq     : Option (Nat × Nat)
  rqTag  : Nat
  text   : Option (Nat × Nat)
  bindAt : Nat
  bindFt : Nat
  skip   : Option (Engine × Nat × Nat)
  later  : List (Nat × Word)
  laterQ : Map Stream
  laterH : List (Nat × Nat × Sem)
  posts  : List (Engine × Nat)
  await  : List Nat
  recIn  : Option (BitVec 512 × Nat)
deriving DecidableEq, Repr

/-- Kinds of matrix operation (09 R218). -/
inductive MatKind where
  | mma | mmaz | msp | mmv | mscacc | mdrain | mload | mzero
deriving DecidableEq, Repr

/-- An outstanding matrix operation (09 R219, R238): word fields, latency code, shape, operand offsets, entries needed from
k-step `kdone` on and those taken, operand bits gathered from the first of them, k-steps completed and flags kept from before a stop,
the word's place for a trap (09 R226). -/
structure MatOp where
  kind   : MatKind
  w      : W5
  lb     : Nat
  ashape : BitVec 10
  bv     : Nat
  ms     : Nat
  need   : Nat
  got    : Nat
  abits  : Nat
  alen   : Nat
  kdone  : Nat
  flags  : BitVec 7
  dsec   : Nat
  widx   : Nat
  text   : Nat
deriving DecidableEq, Repr

/-- Kinds of copy (09 R229). -/
inductive CopyKind where
  | cpy | cgath | cscat | clist | cfill
deriving DecidableEq, Repr

/-- An outstanding copy (09 R228, R238): function and immediate fields, operands, elements performed. -/
structure CopyOp where
  kind : CopyKind
  fn   : BitVec 11
  imm  : BitVec 48
  a    : Word
  b    : Word
  c    : Word
  done : Nat
  gen  : BitVec 32
  tabs : Nat
deriving DecidableEq, Repr

/-- Kinds of asynchronous bank command (16 R331). -/
inductive BankKind where
  | bqry | bapp | bmv | bflt | bsk | bmap | berr
deriving DecidableEq, Repr

/-- One item of a bank command (16 R334): index, block word, token mask, and the block word as it was listed (16 R339). -/
structure BankItem where
  idx  : Nat
  blk  : BitVec 22
  mask : Word
  word : BitVec 32 := blk.setWidth 32
deriving DecidableEq, Repr

/-- An outstanding bank command (16 R332, R352). `items` are those not yet performed, `res` the offset of record 0, `data` the vault
inputs read as it issued. -/
structure BankOp where
  kind  : BankKind
  w     : W6
  a     : Word
  b     : Word
  c     : Word
  res   : Nat
  items : List BankItem
  doneI : Word
  data  : Nat
deriving DecidableEq, Repr

/-- A scheduled send (23 R444 to R448): word fields, destination, T0, physical tile entry and home key of its first byte, generation and fabric tables;
whether it has departed, the fabric time at which its first block came, where it fills (die, core, home key of the tile, and the tile's bytes before), whether it is
acknowledged, whether it failed. -/
structure SendOp where
  fn     : BitVec 11
  imm    : BitVec 48
  a      : Word
  t0     : Word
  tile   : Nat
  key    : Nat
  gen    : BitVec 32
  tabs   : Nat
  gone   : Bool
  begun  : Option Nat
  fills  : Option (Nat × Nat × Nat × Nat)
  acked  : Bool
  failed : Bool
deriving DecidableEq, Repr

/-- Stages of `recirc` (23 R454): waiting for the switches; taken at a fabric time, its pods frozen. -/
inductive PlanStage where
  | sent
  | frozen (at_ : Nat)
deriving DecidableEq, Repr

/-- Kinds of outstanding operation, with their operands. A `vld` keeps what it has read, with its mark, once a later near-path access has been performed
(06 R139). -/
inductive OpKind where
  | vld (off n phys tile : Nat) (whole : Bool) (got : Option (Nat × Bool))
  | mat (m : MatOp)
  | copy (c : CopyOp)
  | bank (b : BankOp)
  | cgate (on : Bool)
  | tlbinv (die kind : Nat) (asid : BitVec 16) (off : Nat)
  | mpage (va : Word) (dst : Nat) (asid : BitVec 16) (st : Word) (busy : Bool)
  | kvfind (blk : BitVec 22) (die : Nat) (res : Word) (cap : Nat)
  | rqhand (rq kind : Nat) (desc : BitVec 512) (st : Word)
  | rqcan (rq : Nat) (st : Word)
  | rqdone (rq : Nat) (c : Word) (h : Head) (a : BitVec 7)
  | publish (win : Nat) (c : Word)
  | recirc (plan : List (BitVec 32)) (st : Word) (h : Head) (a : BitVec 7) (stage : PlanStage)
  | send (x : SendOp)
deriving DecidableEq, Repr

/-- An outstanding asynchronous operation: number, aclk of its issue, context of its strand and the strand's own number, issuing core (die * 64 + core), the save area its strand was
stopped into, whether its strand is in a handler meanwhile (10 R244), the completion post it makes (06 R149), and whether it has completed while its
strand was stopped (15 R323). -/
structure Op where
  id    : Nat
  born  : Nat
  ck    : Nat
  sid   : Nat
  core  : Nat
  asid  : BitVec 16
  part  : BitVec 4
  saved : Option Nat
  held  : Bool
  dead  : Bool
  sp    : Bool
  hn    : Nat
  fin   : Bool
  kind  : OpKind
deriving DecidableEq, Repr

/-- A vertical FIFO (15 R318): entries with their push aclk, aclk of the pop and of the push of each freed slot still on its way, closed. -/
structure Fifo where
  entries : List (Entry × Nat)
  freed   : List (Nat × Nat)
  closed  : Bool
deriving DecidableEq, Repr

/-- A launch record in a stage queue (12 R273, R274, 20 R396); a launch of Columbine has a number of its own, 0 stands for none. -/
structure QRec where
  data : BitVec 512
  asid : BitVec 16
  part : BitVec 4
  rq   : Option (Nat × Nat)
  tag  : Nat
deriving DecidableEq, Repr

/-- A tile-task record in a task pool (12 R277, R279). -/
structure Task where
  die     : Nat
  cluster : Nat
  data    : BitVec 512
  asid    : BitVec 16
  part    : BitVec 4
deriving DecidableEq, Repr

/-- A translation held by a die's TLB (17 R358). -/
structure TlbEntry where
  asid  : BitVec 16
  part  : BitVec 4
  page  : Nat
  size  : Nat
  frame : Nat
  w     : Bool
deriving DecidableEq, Repr

/-- An intermediate entry of a walk that a die keeps (17 R358): the ASID and partition, the level of the table it names, the number of the span that this
table covers, and the table. -/
structure WalkEntry where
  asid  : BitVec 16
  part  : BitVec 4
  level : Nat
  span  : Nat
  table : Nat
deriving DecidableEq, Repr

/-- What the migration engine of a die is moving (16 R350, 17 R366): source and destination die offsets, size, the place of the leaf; as masks, the
lines marked and those still to be copied in this round; rounds completed, and whether they are over. -/
structure Mover where
  src    : Nat
  dst    : Nat
  n      : Nat
  leaf   : Nat
  marked : Nat
  todo   : Nat
  rounds : Nat
  ended  : Bool
deriving DecidableEq, Repr

/-- A block move under way (16 R350), with the number that the next operation had when it was asked for. -/
structure BlockMove where
  src : BitVec 22
  dst : BitVec 22
  seq : Nat
deriving DecidableEq, Repr

/-- The units of a die that hold state of their own: TLB and intermediate entries (17 R358), notification holding buffer (17 R363), reclaimer
(17 R369 to R372; `work` the pages still to be scanned, `swept` the slots swept so far), banks (16 R334, R348 to R350), migration engine (17 R366), waiting power requests (15 R325): context, level, made by a
resume (15 R327). -/
structure Die where
  tlb     : List TlbEntry
  mids    : List WalkEntry
  held    : List (BitVec 256)
  roots   : List (Nat × Word)
  freeL   : Map (List Nat)
  period  : Nat
  marks   : List Nat
  visited : List Nat
  gray    : List Nat
  work    : List Nat
  swept   : Nat
  ltab    : List Nat
  epoch   : Nat
  kvset   : Bool
  move    : Option BlockMove
  mover   : Option Mover
  remap   : Bool
  waitPwr : List (Nat × Nat × Bool)
  bandOff : List Nat
  bandAt  : Map Nat
  scanQ   : List (BitVec 22)
deriving DecidableEq, Repr

/-- A hand-off accepted by Hollyhock (20 R401): kind, target, pages and slots taken, blocks performed, started; `stopAt` is the count of
blocks at which a cancellation stops it (20 R408). -/
structure Handoff where
  rq     : Nat
  kind   : Nat
  ck     : Nat
  desc   : BitVec 512
  srcs   : List Word
  tdie   : Nat
  pages  : List Nat
  slots  : List (BitVec 22)
  moved  : Nat
  begun  : Bool
  stopAt : Option Nat
  sdie   : Nat
  asid   : BitVec 16
  part   : BitVec 4
deriving DecidableEq, Repr

/-- How far a running tile task is (12 R279): copying its staged bytes in, its words, copying its result out. -/
inductive TaskPhase where
  | staging | words | result
deriving DecidableEq, Repr

/-- A tile task running on a matrix core (12 R279): the task, the context whose pair it holds, the registers, pair and stream of its own, how far it is, and the
lines or words performed of this phase. -/
structure Running where
  task  : Task
  ctx   : Nat
  st    : Strand
  phase : TaskPhase
  done  : Nat
deriving DecidableEq, Repr

/-- The engine stream whose word is being executed. -/
structure Actor where
  ck  : Nat
  eng : Engine
deriving DecidableEq, Repr

/-- One step of the package: an aclk passes, an engine of a core issues a word (06 R153), an event of the table
occurs, the TLB of a die keeps a translation (17 R358), the environment writes host memory or a measured register, requests issued from
now on are performed later than their words (`late`, 13 R295) or no longer so, or a word that publishes has one line published ahead of its
issue (`ahead`, 13 R289, R291), or another package acts: its store or copy is performed here (`remoteStore`: bytes that `mask` names of the
line at `ea`, poisoned or not), its atomic (`remoteAtom`, 07 R181), its load (`remoteLoad`, 23 R441), its scheduled send begins to arrive or has arrived (`remoteSend`, 23 R448), bytes of its own
change (`remoteChange`), its probe meets an unmapped byte here (`remoteProbe`, 17 R361), or its plan freezes this pod, ends
the drain and gives it new circuits (`freeze`, `freezeOver`, `newCircuits`, 23 R454), or a port of a peer loses its link (`peerLost`, 23 R440); or a piece of a buffered stream entry is the one fetched now (`refetch`, 07 R167, R174), the next group of an array operation
is done (`groupDone`, 04 R98), or every path of a strand sees what its others have written (`settle`, 13 R299), or a die drops a translation, keeps an intermediate entry of a
walk or a translation that a walk from one gives (17 R358), or the next line of a move, page or slot of a reclaimer cycle, or piece of a tile task
is done (`moveLine`, `reclaim`, `taskStep`), an error is corrected or poisons an entry of a vertical FIFO (17 R367), or the host writes a register
through BAR0 of a function or a byte of the load area (21 R415, R426), or the capture that follows a trap of this aclk takes longer (`capture`, 10 R243). -/
inductive Turn where
  | tick
  | issue (die core : Nat) (e : Engine)
  | event (i : Instr)
  | tlbFill (die : Nat) (t : TlbEntry)
  | hostWrite (addr : Nat) (b : Byte)
  | sense (addr : Nat) (v : Word)
  | late (b : Bool)
  | ahead (ck : Nat) (e : Engine) (line : Nat)
  | remoteStore (asid : BitVec 16) (part : BitVec 4) (die ea data mask : Nat) (bad : Bool)
  | remoteSend (asid : BitVec 16) (part : BitVec 4) (ea dt nb ty : Nat) (add last bad : Bool) (v : Nat)
  | remoteLoad (asid : BitVec 16) (part : BitVec 4) (die ea : Nat)
  | remoteAtom (asid : BitVec 16) (part : BitVec 4) (die ea : Nat) (k : AtomKind) (signed eight : Bool) (b e : Nat)
  | remoteProbe (asid : BitVec 16) (part : BitVec 4) (ea : Nat)
  | remoteChange (key : Nat) (b : Byte)
  | refetch (ck q j i : Nat)
  | groupDone (op : Nat)
  | settle (ck : Nat)
  | tlbDrop (die i : Nat)
  | midDrop (die i : Nat)
  | walkKeep (die : Nat) (asid : BitVec 16) (part : BitVec 4) (off level : Nat)
  | tlbVia (die : Nat) (t : TlbEntry) (level : Nat)
  | moveLine (die line : Nat)
  | reclaim (die : Nat)
  | taskStep (die core : Nat)
  | corrected (die : Nat)
  | poisonFifo (die core : Nat) (up : Bool) (i : Nat)
  | barWrite (fn off : Nat) (four : Bool) (v : Word)
  | loadWrite (a : Nat) (b : Byte)
  | capture (ck : Nat)
  | freeze
  | freezeOver
  | peerLost (i : Nat)
  | newCircuits (cs : List (Nat × Word))
deriving DecidableEq, Repr

/-- The state of the package. Device registers stand in `dev` under die * 2^46 + die offset; `mem` and `poison` are
keyed by the home address of a byte and of a 64-byte granule (State.homeKey); `strands` by context key. `saved` keeps, by the die and
offset of a save area, the strand last stopped into it: only what the snapshot layout has no room for is read back from it (log 28).
`creqBy` keeps the cause of a pending cancellation, `rqTag` the number of a request's latest launch (20 R398), `toLaunch` the launches of
Columbine that wait for room (20 R396). `podMap` holds the circuits of the other packages of the pod as CMAP does (23 R437), `synced` says
that fabric time has been synchronised, `fhold` for how long it is still held, `slewAt` where its last change was made, in elevenths of a tick (23 R443), `frzAt` when another master's plan last froze the pod (23 R454). `hstate` is HSTATE (21 R423), `tgen` TGEN (23 R450), `reports` the kill reports on their way to Columbine (20 R396), `laterT` the tile entries
written by `tset` at the end of this aclk (06 R148), `slotOld` by core the slot-table entry that governs this aclk where it has been
written in it (06 R152). `issued` holds by core, as a mask, the engines that have chosen in this aclk, `idle` the first aclk of
a matrix engine's idle count (12 R281). `posted` holds the requests not yet performed, oldest first, and `late` says whether a word's request is
performed by an event of its own (13 R295), `shadows` the older bytes that some path of a strand may still read meanwhile (13 R299). `host` holds host memory, port p from address p * 2^64 on (21 R415); `rmem` the bytes of other packages that this one has
written or seen change, by Place.remote's key (23 R441); `keyEp` how often a partition's keys have been drawn (21 R417); `fabOld` the fabric tables before each write of
them, oldest first (23 R436); `loadArea` the image that the host has written for the ROM, and `digest` that of the running image (21 R426, R427); `vffOld` VFFREE by core at the
end of the aclk before, where a gate or FIFO has changed since (15 R319); `arriving` the keys of the tile entries that sends of other packages are filling, with the bytes the tile held before (23 R446, R448). -/
structure State where
  time    : Nat
  ftime   : Nat
  cur     : Actor
  agenda  : List Turn
  free    : Nat
  waited  : Bool
  nextId  : Nat
  dev     : Map Word
  mem     : List Host.Cell
  poison  : List Nat
  tags    : Map Nat
  saved   : Map Strand
  host    : List Host.Cell
  rmem    : Map Byte
  keyEp   : Map Nat
  fabOld  : List (Map Word)
  strands : Map Strand
  issued  : Map Nat
  fifos   : Map Fifo
  posted  : List Posted
  shadows : List Shadow
  late    : Bool
  ops     : List Op
  dies    : Map Die
  queues  : List QRec
  tasks   : List Task
  running : Map Running
  idle    : Map Nat
  handoffs : List Handoff
  cqHeld  : List (Nat × BitVec 256)
  creqBy  : Map Nat
  rqTag   : Map Nat
  toLaunch : List (Nat × QRec)
  reports : List (Nat × Nat × Bool)
  ver     : Map Word
  msix    : Map Nat
  modsDown : List Nat
  linksDown : List Nat
  fidSet  : Bool
  synced  : Bool
  fhold   : Nat
  slewAt  : Nat
  frzAt   : Nat
  podMap  : Map Word
  hstate  : Word
  tgen    : Word
  attIdx  : Nat
  attest  : List Word
  cstopAt : Map Nat
  laterT  : Map Word
  slotOld : Map Nat
  loadArea : List Host.Cell
  digest  : BitVec 256
  vffOld  : Map Word
  arriving : List (Nat × Nat)
deriving DecidableEq, Repr

/-- A stop of the machine. The spec gives every case an outcome, so no meaning of the model answers with one; the
constructor is kept because the interface names a type of stops. Safe. -/
inductive Fault where
  /-- Raised by no meaning. Safe: the machine stops. -/
  | noSuchDie
deriving DecidableEq, Repr

/-- A refusal by the model. -/
inductive Refusal where
  /-- Raised by an arm of `exec` whose instruction has no meaning yet. Safe: the machine stops. -/
  | notModelled (mnemonic : String)
deriving DecidableEq, Repr

/-- No section walked yet. -/
def Section.init : Section :=
  { hdr := 0, addr := 0, dsec := 0, ord := 0, seen := [], dqpos := 0, waits := [], begun := false, shape := 0 }

/-- An engine stream at its beginning (01 R18): every counter zero, at the entry header `walk`. -/
def EStream.init (walk : BitVec 48) : EStream :=
  { walk, yld := false, secn := 0, secn0 := 0, widx := 0, seen := [], owned := 0, dqpos := 0, preds := 0, pos := .header, sec := Section.init,
    flight := [], bypass := [], pass := 0, acted := none, live := [], wrote := [], known := [] }

/-- An unbound stream register (06 R140). -/
def Stream.init : Stream :=
  { state := .unbound, ety := 0, scope := 0, base := 0, count := 0, done := 0, pattern := 0, buf := [], gen := 0, tabs := 0 }

/-- A semaphore at the beginning of a strand (06 R149). -/
def Sem.init : Sem := { value := 0, ceil := 0, held := 0, posted := 0, applied := 0 }

/-- Nothing covered yet (09 R227). -/
def MStat.init : MStat := { nops := 0, flags := 0, poiss := false, kstop := 0 }

/-- A strand at its beginning (01 R18, 06 R135): every register zero, SLIPW 64, ASHAPE 0x3FF. PRIOC and RSBASE, which
have no reset value, are zero (log 1) until the launch sets them. -/
def Strand.init : Strand :=
  { sid := 0, s := [], a := [], amark := 0, v := [], vmark := 0, m := [], z := [], ztag := [], accp := false, q := [], h := [], n := [],
    rstack := [], rsdep := 0, rsbase := 0, prioc := 0, slipw := 64, fstat := 0, fstat0 := 0, vshape := 0, rotb := 0, ashape := 0x3FF,
    tgb := 0, phs := false, cerr := false, es := [], dq := [], dqbase := 0, pbuf := [], loads := [], failed := none, groups := [], park := none,
    yieldp := none, bout := 0, berr := 0, level := none, regionAt := 0, bandW := false, grants := [], mstat := MStat.init, hdl := false, pend := none,
    pendW := ⟨0, 0, false⟩, slow := false, closing := false, full := false, fullAt := 0, bar := 0, rq := none, rqTag := 0, text := none, bindAt := 0, bindFt := 0, skip := none,
    later := [], laterQ := [], laterH := [], posts := [], await := [], recIn := none }

/-- An empty, open FIFO (15 R319). -/
def Fifo.init : Fifo := { entries := [], freed := [], closed := false }

/-- All banks live in ascending order of b * 32 + c (16 R329), as bank numbers 64c + b. -/
def Die.allBanks : List Nat := (List.range 2048).map (fun i => 64 * (i % 32) + i / 32)

/-- The units of a die at reset. -/
def Die.init : Die :=
  { tlb := [], mids := [], held := [], roots := [], freeL := [], period := 0, marks := [], visited := [], gray := [], work := [], swept := 0,
    ltab := Die.allBanks, epoch := 0, kvset := false, move := none, mover := none, remap := false, waitPwr := [],
    bandOff := [], bandAt := [], scanQ := [] }

/-- The package right after reset: time zero, no context valid, no device register written, memory with nothing listed. -/
def State.reset : State :=
  { time := 0, ftime := 0, cur := ⟨0, .s⟩, agenda := [], free := 0, waited := false, nextId := 0, dev := [], mem := [], poison := [],
    tags := [], saved := [], host := [], rmem := [], keyEp := [], fabOld := [], strands := [], issued := [], fifos := [], posted := [], shadows := [], late := false, ops := [], dies := [], queues := [], tasks := [], running := [],
    idle := [], handoffs := [], cqHeld := [], creqBy := [], rqTag := [], toLaunch := [], reports := [], ver := [], msix := [], modsDown := [], linksDown := [], fidSet := false, synced := false, fhold := 0, slewAt := 0, frzAt := 0, podMap := [], hstate := 0, tgen := 1,
    attIdx := 0, attest := [], cstopAt := [], laterT := [], slotOld := [], loadArea := [], digest := 0, vffOld := [], arriving := [] }

end Sys2Proof.Machine
end

