-- ==== Sys2Proof/Machine/Base.lean ====
section
/-! DEFINITION. Names for the parts of the state: contexts, strands, engine streams, dies, and the registers of the core
register block (06 R156) and of the stop control block (10 R247). Device registers stand in `dev` by die and die offset. -/

namespace Sys2Proof.Machine

/-- Context key of context `x` of core `c` of die `d`. -/
def ckOf (d c x : Nat) : Nat := (d * 64 + c) * 8 + x
def ckDie (ck : Nat) : Nat := ck / 512
def ckCore (ck : Nat) : Nat := ck / 8 % 64
def ckCtx (ck : Nat) : Nat := ck % 8
/-- Key of a core: die * 64 + core. -/
def coreKey (d c : Nat) : Nat := d * 64 + c

/-- The profile that core `c` of die `d` executes (00 R1, 06 R132). -/
def profileOf (d c : Nat) : Option Profile :=
  if d < 2 then (if c < 16 then some .p else if c < 32 then some .crown else none)
  else if d < 8 then (if c < 32 then some .d else none)
  else if d = 8 ∧ c = 0 then some .mc else none

/-- The profile of a context, P where no core stands there. -/
def ckProfile (ck : Nat) : Profile := (profileOf (ckDie ck) (ckCore ck)).getD .p

/-- Every core of the package as (die, core), ascending. -/
def allCores : List (Nat × Nat) :=
  (List.range 9).flatMap (fun d => ((List.range 32).filter (fun c => (profileOf d c).isSome)).map (fun c => (d, c)))

def Strand.eng (st : Strand) (e : Engine) : EStream := Map.get (EStream.init 0) st.es e.num
def Strand.setEng (st : Strand) (e : Engine) (x : EStream) : Strand := { st with es := Map.put st.es e.num x }
def Strand.modEng (st : Strand) (e : Engine) (f : EStream → EStream) : Strand := st.setEng e (f (st.eng e))
def Strand.stream (st : Strand) (q : Nat) : Stream := Map.get Stream.init st.q q
def Strand.setStream (st : Strand) (q : Nat) (x : Stream) : Strand := { st with q := Map.put st.q q x }
def Strand.sem (st : Strand) (n : Nat) : Sem := Map.get Sem.init st.h n
def Strand.setSem (st : Strand) (n : Nat) (x : Sem) : Strand := { st with h := Map.put st.h n x }

def State.strand (s : State) (ck : Nat) : Strand := Map.get Strand.init s.strands ck
def State.setStrand (s : State) (ck : Nat) (st : Strand) : State := { s with strands := Map.put s.strands ck st }
def State.modStrand (s : State) (ck : Nat) (f : Strand → Strand) : State := s.setStrand ck (f (s.strand ck))
/-- The strand whose word is being executed. -/
def State.me (s : State) : Strand := s.strand s.cur.ck
def State.setMe (s : State) (st : Strand) : State := s.setStrand s.cur.ck st
def State.modMe (s : State) (f : Strand → Strand) : State := s.modStrand s.cur.ck f
/-- The engine stream whose word is being executed. -/
def State.myEng (s : State) : EStream := s.me.eng s.cur.eng
def State.modMyEng (s : State) (f : EStream → EStream) : State := s.modMe (fun st => st.modEng s.cur.eng f)
def State.myDie (s : State) : Nat := ckDie s.cur.ck
def State.myCore (s : State) : Nat := ckCore s.cur.ck
def State.myProfile (s : State) : Profile := ckProfile s.cur.ck

def State.die (s : State) (d : Nat) : Die := Map.get Die.init s.dies d
def State.setDie (s : State) (d : Nat) (x : Die) : State := { s with dies := Map.put s.dies d x }
def State.modDie (s : State) (d : Nat) (f : Die → Die) : State := s.setDie d (f (s.die d))

/-- Reset values of the device registers that the spec gives a nonzero one, by die and die offset (06 R152, 15 R317, 16 R351,
17 R353, 21 R416, R425, 23 R450); every other register resets to zero. -/
def devReset (d off : Nat) : Word :=
  if 0x300000000000 ≤ off ∧ off < 0x300000200000 ∧ off % 0x10000 < 0x20 then 0x0C0C0C0C0C0C0C0C
  else if off = 0x320000000000 ∧ d < 2 then 2400
  else if off = 0x320000000008 ∧ d < 2 then 50
  else if off = 0x330000000020 ∧ 2 ≤ d ∧ d < 8 then 8
  else if off = 0x340000000018 ∧ d < 8 then w64 (5 + 12 * 16)
  else if off = 0x340000000040 ∧ d < 8 then 0x10000
  else if off = 0x340000000048 ∧ d < 8 then 16
  else if off = 0x3A0000000908 ∧ d = 8 then 64
  else if 0x360000000000 ≤ off ∧ off < 0x360000004000 ∧ off % 0x100 = 8 ∧ d < 9 then 0xFFFFFFFF
  else 0

/-- A device register as stored. -/
def State.dget (s : State) (d off : Nat) : Word := Map.get (devReset d off) s.dev (d * 2 ^ 46 + off)
def State.dput (s : State) (d off : Nat) (v : Word) : State := { s with dev := Map.put s.dev (d * 2 ^ 46 + off) v }
def State.dmod (s : State) (d off : Nat) (f : Word → Word) : State := s.dput d off (f (s.dget d off))

/-- Fabric time in ns (23 R443): `ftime` counts elevenths of a ns, ten to the aclk. -/
def State.fabricTime (s : State) : Nat := s.ftime / 11

/-- The entry of the slot table that SLOTP names in this aclk, as it is written now (06 R152). -/
def State.slotNamed (s : State) (d c : Nat) : Nat :=
  let i := s.time % 32
  fld (s.dget d (0x300000000000 + c * 0x10000 + i / 8 * 8)) (8 * (i % 8) + 7) (8 * (i % 8))

/-- Offsets of the core register block (06 R156) and of the stop control block (10 R247). -/
def coreBlock (c : Nat) : Nat := 0x300000000000 + c * 0x10000
def ctxOff (c x : Nat) : Nat := coreBlock c + 0x100 + 0x10 * x
def snapaOff (c x : Nat) : Nat := coreBlock c + 0x108 + 0x10 * x
def winOff (c k : Nat) : Nat := coreBlock c + 0x200 + 8 * k
def ttabOff (c i : Nat) : Nat := coreBlock c + 0x1000 + 8 * i
def cstopOff (c x : Nat) : Nat := 0x310000000000 + c * 0x100 + x * 0x10

/-- CTX of a context (06 R134) and its fields. -/
def State.ctx (s : State) (ck : Nat) : Word := s.dget (ckDie ck) (ctxOff (ckCore ck) (ckCtx ck))
def State.setCtx (s : State) (ck : Nat) (v : Word) : State := s.dput (ckDie ck) (ctxOff (ckCore ck) (ckCtx ck)) v
def ctxValid (v : Word) : Bool := bit v 0
def ctxStop (v : Word) : Bool := bit v 1
def ctxSlot (v : Word) : Nat := fld v 3 2
def ctxPriv (v : Word) : Bool := bit v 4
def ctxAsid (v : Word) : BitVec 16 := v.extractLsb' 8 16
def ctxPart (v : Word) : BitVec 4 := v.extractLsb' 24 4
/-- VALID = 1 and STOP = 0. -/
def State.running? (s : State) (ck : Nat) : Bool := ctxValid (s.ctx ck) && !ctxStop (s.ctx ck)
def State.myAsid (s : State) : BitVec 16 := ctxAsid (s.ctx s.cur.ck)
def State.myPart (s : State) : BitVec 4 := ctxPart (s.ctx s.cur.ck)
def State.myPriv (s : State) : Bool := ctxPriv (s.ctx s.cur.ck)

/-- SNAPA of a context: die offset of its save area (06 R156). -/
def State.snapa (s : State) (ck : Nat) : Nat := fld (s.dget (ckDie ck) (snapaOff (ckCore ck) (ckCtx ck))) 45 12 * 4096
/-- CSTOP of a context (10 R247). -/
def State.cstop (s : State) (ck : Nat) : Word := s.dget (ckDie ck) (cstopOff (ckCore ck) (ckCtx ck))
def State.setCstop (s : State) (ck : Nat) (v : Word) : State := s.dput (ckDie ck) (cstopOff (ckCore ck) (ckCtx ck)) v
/-- A pre-emption request is pending. -/
def State.requested (s : State) (ck : Nat) : Bool := bit (s.cstop ck) 0
/-- The window register of a context's kernel slot (06 R156). -/
def State.win (s : State) (ck : Nat) : Word := s.dget (ckDie ck) (winOff (ckCore ck) (ctxSlot (s.ctx ck)))
def winVbase (w : Word) : Nat := fld w 7 0
def winVsize (w : Word) : Nat := fld w 15 8
def winTbase (w : Word) : Nat := fld w 23 16
def winTcnt (w : Word) : Nat := fld w 32 24

/-- Length of a section (01 R15). -/
def hdrLen (h : Word) : Nat := fld h 60 51
def hdrEng (h : Word) : Nat := fld h 63 61
def hdrJct (h : Word) : Bool := bit h 50
def hdrBpl (h : Word) : Bool := bit h 49
def hdrYld (h : Word) : Bool := bit h 48
/-- Size of a section in bytes (01 R13). -/
def hdrBytes (h : Word) : Nat := 8 + 12 * hdrLen h

/-- Number of own sections whose words have all issued. -/
def EStream.issuedSecs (e : EStream) : Nat := if e.pos = .words then e.sec.ord else e.owned
/-- RETC (01 R18, R20): own sections retired, every word issued and every result landed, in walk order. -/
def EStream.retc (e : EStream) : Nat := e.flight.foldl (fun n f => min n f.sec) e.issuedSecs
/-- The oldest bypass-live section that the stream is inside (01 R37): from the issue of its word 0 until it retires, whatever the stream has
walked since. -/
def EStream.liveSec (e : EStream) : Option Section :=
  (e.live ++ [e.sec]).find? (fun x => hdrBpl x.hdr && x.begun && decide (e.retc ≤ x.ord))
def EStream.inside (e : EStream) : Bool := e.liveSec.isSome
/-- The stream again at word 0 of the bypass-live section it was inside, whose waits are satisfied (01 R37). -/
def EStream.restart (e : EStream) : EStream :=
  match e.liveSec with
  | none => e
  | some x => { e with
      walk := x.addr + 8, secn := x.dsec + 1, secn0 := x.dsec + 1, widx := 0, seen := x.seen, owned := x.ord + 1, dqpos := x.dqpos, pos := .words,
      sec := { x with begun := false, waits := [] }, live := [] }
/-- The dependence waits of the current own section hold (01 R21). -/
def Strand.waitsMet (st : Strand) (e : EStream) : Bool := e.sec.waits.all (fun w => decide (w.2 < (st.eng w.1).retc))
/-- Engines of a profile in engine order. -/
def enginesOf (pf : Profile) : List Engine := Engine.all.filter pf.has

/-- The latency bound of a code in aclk (01 R29). -/
def bound (lb : Nat) : Nat := 2 ^ lb
/-- A result holds its stream: at its bound (01 R30), and that of a synchronous matrix operation from its issue until it completes (09 R225, 11 R256, log 30). -/
def Flight.holds (f : Flight) (now : Nat) : Bool :=
  match f.val with
  | .matrix _ => true
  | _ => decide (f.born + bound f.lb ≤ now)
def EStream.held (e : EStream) (now : Nat) : Bool := e.flight.any (fun f => f.holds now)
/-- Engines of core `k` (die * 64 + core) that have chosen in this aclk: a mask (06 R153). -/
def State.chosen (s : State) (k : Nat) (e : Engine) : Bool := (Map.get 0 s.issued k).testBit e.num
/-- No engine of the core of context `ck` has chosen in this aclk: what comes before the issues of an aclk may still happen (06 R148, R151). -/
def State.early (s : State) (ck : Nat) : Bool := Map.get 0 s.issued (ck / 8) == 0

/-- A result of the strand awaits request `id`. -/
def State.awaits (s : State) (ck id : Nat) : Bool :=
  ((s.strand ck).eng .a).flight.any (fun f => match f.val with | .request r _ _ => r == id | _ => false)
/-- Nothing takes what request `id` gives but the stream that it holds (07 R180). -/
def State.discards (s : State) (ck id : Nat) : Bool :=
  ((s.strand ck).eng .a).flight.any (fun f => f.dest == .none && (match f.val with | .request r _ _ => r == id | _ => false))
/-- Request slots (07 R170). A load, an atomic, `probe` or `waita` holds one until its result lands, a posted request that no result awaits until it is performed. -/
def State.slotsOf (s : State) (ck : Nat) : Nat :=
  (((s.strand ck).eng .a).flight.filter (fun f => f.slot)).length +
  (s.posted.filter (fun p => p.ck == ck && (match p.kind with
    | .vault .. => false | .load req .. => !s.awaits ck req | .atom _ _ _ _ _ res _ _ => !res | _ => true))).length
/-- A slot is free to the context: one of its own 32, or one of the 768 that the contexts of its core share (07 R170). -/
def State.slotFree (s : State) (ck : Nat) : Bool :=
  decide (s.slotsOf ck < 32) ||
  decide (((List.range 8).foldl (fun n x => n + (s.slotsOf (ck / 8 * 8 + x) - 32)) 0) < 768)

end Sys2Proof.Machine
end

