-- ==== Sys2Proof/Machine/Memory.lean ====
section
/-! DEFINITION. Homes of bytes and what performs there: the physical map of each die (06 R138, 16 R329), partitions and
poison (17 R354, R367), notifications and access counters (17 R362 to R364), translation (17 R357, R358), and reads and
writes of lines. -/

namespace Sys2Proof.Machine

/-- KVB of a D-die (16 R351). -/
def State.kvb (s : State) (d : Nat) : Nat := fld (s.dget d 0x330000000000) 4 0
/-- Offset of BANKST of bank 64c + b (16 R351, log 26: column 8 and 9 states share offsets with BPART, which wins a read). -/
def bankstOff (n : Nat) : Nat := 0x330000000000 + 0x1000 + 8 * n
/-- State bits of a bank: [1:0] live, retiring, retired; [2] forced. Kept under a key of their own (log 26). -/
def State.bankst (s : State) (d n : Nat) : Word := s.dget d (0x3F0000000000 + 8 * n)
def State.bankRetired (s : State) (d n : Nat) : Bool := fld (s.bankst d n) 1 0 == 2
def State.bankLive (s : State) (d n : Nat) : Bool := fld (s.bankst d n) 1 0 == 0
/-- The live banks of a die (16 R329, R346). -/
def State.liveBanks (s : State) (d : Nat) : List Nat := (List.range 2048).filter (fun n => s.bankLive d n)
/-- CAP of a D-die (16 R329). -/
def State.cap (s : State) (d : Nat) : Nat := (s.die d).ltab.length * (0x1FE0000 - s.kvb d * 2 ^ 20)
/-- Die offset of byte `o` of bank 64c + b in the bank-direct window (16 R329). -/
def bankDirect (n o : Nat) : Nat := 0x100000000000 + n * 2 ^ 25 + o
/-- Byte `o` of a bank lies in its interleaved part. -/
def State.interleavedPart (s : State) (d o : Nat) : Bool := decide (s.kvb d * 2 ^ 20 ≤ o) && decide (o < 0x1FE0000)
/-- The vault that core `c` of die `d` reaches, and its size in bytes (06 R132). -/
def vaultOf (d c : Nat) : Nat := if d < 2 then c % 16 else c
def vaultBytes (d : Nat) : Nat := if d < 2 then 0x800000 else if d < 8 then 0x180000 else 0x40000
/-- Home key of physical byte `o` of the vault of core `c`. -/
def vaultKeyOf (d c o : Nat) : Nat := d * 2 ^ 46 + 0x200000000000 + vaultOf d c * 2 ^ 24 + o

/-- The home of die offset `off` of die `d`: one key for each backed byte of DRAM or vault, whichever window names it
(06 R138, 16 R329); none where nothing is backed. -/
def State.homeKey (s : State) (d off : Nat) : Option Nat :=
  if 0x200000000000 ≤ off ∧ off < 0x200020000000 then
    let c := (off - 0x200000000000) / 2 ^ 24
    let o := off % 2 ^ 24
    if (profileOf d c).isSome ∧ o < vaultBytes d then some (vaultKeyOf d c o) else none
  else if d < 2 then (if off < 48 * 2 ^ 30 then some (d * 2 ^ 46 + off) else none)
  else if d < 8 then
    if off < s.cap d then
      let g := off / 4096
      let nl := (s.die d).ltab.length
      some (d * 2 ^ 46 + bankDirect ((s.die d).ltab.getD (g % nl) 0) (s.kvb d * 2 ^ 20 + g / nl * 4096 + off % 4096))
    else if 0x100000000000 ≤ off ∧ off < 0x101000000000 then
      (if s.interleavedPart d (off % 2 ^ 25) then none else some (d * 2 ^ 46 + off))
    else none
  else none

/-- The die of a home key, and its bank where it lies in one. -/
def keyDie (key : Nat) : Nat := key / 2 ^ 46
def keyBank? (key : Nat) : Option (Nat × Nat) :=
  let o := key % 2 ^ 46
  if 2 ≤ keyDie key ∧ 0x100000000000 ≤ o ∧ o < 0x101000000000 then some ((o - 0x100000000000) / 2 ^ 25, o % 2 ^ 25) else none
/-- A line whose bytes are encrypted under a partition's key (17 R354): DRAM but for the KV and metadata regions. -/
def State.encrypted (s : State) (key : Nat) : Bool :=
  match keyBank? key with
  | some (_, o) => s.interleavedPart (keyDie key) o
  | none => decide (key % 2 ^ 46 < 0x100000000000) && decide (keyDie key < 8)
/-- A granule of a bank retired by force: it reads as poisoned and writes to it are discarded (16 R348). -/
def State.lostBank (s : State) (key : Nat) : Bool :=
  match keyBank? key with
  | some (n, o) => s.interleavedPart (keyDie key) o && s.bankRetired (keyDie key) n && bit (s.bankst (keyDie key) n) 2
  | none => false

/-- The keys of a partition, by number and draw (21 R417): what a line written under them is tagged with. -/
def State.keyTag (s : State) (part : BitVec 4) : Nat := part.toNat + 16 * Map.get 0 s.keyEp part.toNat
/-- The line of a key belongs to other keys than those of `part` (17 R354). An untagged line belongs to none (log 2). -/
def State.foreign (s : State) (key : Nat) (part : BitVec 4) : Bool :=
  s.encrypted key && (match Map.get? s.tags (key / 64) with | some t => t != s.keyTag part | none => false)
/-- One byte as partition `part` reads it at its home: under other keys, what the line's ciphertext yields. -/
def State.rdByte (s : State) (part : BitVec 4) (key : Nat) : Byte :=
  if s.foreign key part then
    Config.cipherByte ((Map.get? s.tags (key / 64)).getD 0) (s.keyTag part) key (Mem.readLE s.mem (key / 64 * 64) 64)
  else Mem.read s.mem key
/-- `n` bytes of one line, least significant first. -/
def State.rdKey (s : State) (part : BitVec 4) (key : Nat) : Nat → Nat
  | 0 => 0
  | n + 1 => (s.rdByte part key).toNat + 256 * s.rdKey part (key + 1) n
/-- The 64-byte granule of a key is poisoned (17 R367). -/
def State.poisoned (s : State) (key : Nat) : Bool := NSet.mem s.poison (key / 64) || s.lostBank key
/-- Some granule of the `n` bytes at `key` is poisoned. -/
def State.poisonedRun (s : State) (key n : Nat) : Bool :=
  (List.range ((key + n + 63) / 64 - key / 64)).any (fun i => s.poisoned (64 * (key / 64 + i)))

/-- RCST.PHASE of a die (17 R353). -/
def State.rcPhase (s : State) (d : Nat) : Nat := fld (s.dget d 0x340000000058) 1 0
/-- A write to a visited table page while the reclaimer marks is recorded in the gray buffer (17 R372). Pages are named by
the home key of their first byte divided by 4,096. -/
def State.gray (s : State) (key : Nat) : State :=
  let d := keyDie key
  if s.rcPhase d = 1 ∧ NSet.mem (s.die d).visited (key / 4096) then s.modDie d (fun x => { x with gray := NSet.add x.gray (key / 4096) })
  else s
/-- Bytes of a line that a move copies and marks: 64 of a block, 256 of a page (16 R350, 17 R366). -/
def Mover.unit (m : Mover) : Nat := if m.n = 0x4000 then 64 else 256
/-- A write to a line of what the migration engine moves marks the line for another round (16 R350, 17 R366). -/
def State.moveMark (s : State) (key : Nat) : State :=
  let d := keyDie key
  match (s.die d).mover with
  | none => s
  | some m => match (List.range (m.n / 4096)).find? (fun i => s.homeKey d (m.src + 4096 * i) == some (key / 4096 * 4096)) with
    | none => s
    | some i => s.modDie d (fun x => { x with mover := some { m with marked := m.marked ||| 2 ^ ((4096 * i + key % 4096) / m.unit) } })
/-- A line has been written: the units that watch it see so. -/
def State.noteWrite (s : State) (key : Nat) : State := (s.gray key).moveMark key

/-- Bytes `i`, `i + 1`, ... of `data` whose bit of `mask` is set, written from `key` on. -/
def Mem.writeMasked (m : List Host.Cell) (key data mask : Nat) : Nat → List Host.Cell
  | 0 => m
  | n + 1 =>
    Mem.writeMasked (if mask % 2 = 1 then Mem.write m key (BitVec.ofNat 8 data) else m) (key + 1) (data / 256) (mask / 2) n

/-- The bytes that a line under another key yields once `part` writes to it (17 R354). -/
def State.cipherLine (s : State) (part : BitVec 4) (key : Nat) : Nat → List Host.Cell
  | 0 => s.mem
  | n + 1 => Mem.write (s.cipherLine part key n) (key + n) (s.rdByte part (key + n))

/-- Bytes of one line written at its home: `data` and `mask` are aligned to `key`, which starts the line (17 R354, R367). -/
def State.wrLine (s : State) (part : BitVec 4) (key data mask : Nat) : State :=
  if s.lostBank key then s
  else
    let m := if s.foreign key part then s.cipherLine part key 64 else s.mem
    let s1 := { s with mem := Mem.writeMasked m key data mask 64 }
    let s2 := if s.encrypted key then { s1 with tags := Map.put s1.tags (key / 64) (s.keyTag part) } else s1
    let s3 := if mask = 2 ^ 64 - 1 then { s2 with poison := NSet.del s2.poison (key / 64) } else s2
    s3.noteWrite key

/-- `n` bytes at a key within one line. -/
def State.wrKey (s : State) (part : BitVec 4) (key data n : Nat) : State :=
  let sh := key % 64
  s.wrLine part (key - sh) (data * 2 ^ (8 * sh)) ((2 ^ n - 1) * 2 ^ sh)

/-- A line becomes poisoned, its bytes unchanged; one that a move has yet to finish is copied again, as after a write (16 R350, 17 R366). -/
def State.mark (s : State) (key : Nat) : State := ({ s with poison := NSet.add s.poison (key / 64) } : State).moveMark key

/-- `n` bytes of DRAM or vault at a die offset, read by a unit of the die under partition 0; unbacked bytes read zero. -/
def State.rdPhys (s : State) (d off : Nat) : Nat → Nat
  | 0 => 0
  | n + 1 =>
    (match s.homeKey d off with | some k => (s.rdByte 0 k).toNat | none => 0) + 256 * s.rdPhys d (off + 1) n
/-- `n` bytes written at a die offset by a unit of the die under partition 0, aligned within one line. -/
def State.wrPhys (s : State) (d off data n : Nat) : State :=
  match s.homeKey d off with
  | some k => s.wrKey 0 k data n
  | none => s
/-- `n` dwords of `data` from a die offset aligned to 8. -/
def State.wrPhysRun (s : State) (d off data : Nat) : Nat → State
  | 0 => s
  | n + 1 => (s.wrPhys d off (data % 2 ^ 64) 8).wrPhysRun d (off + 8) (data / 2 ^ 64) n

/-- Pieces of `n` bytes at `ea` split at line boundaries: byte offset within the range, address, length. -/
def linePieces (ea n : Nat) : List (Nat × Nat × Nat) :=
  (List.range ((ea + n + 63) / 64 - ea / 64)).map (fun i =>
    let lo := max ea (64 * (ea / 64 + i))
    let hi := min (ea + n) (64 * (ea / 64 + i + 1))
    (lo - ea, lo, hi - lo))

/-- `n` bytes at vault offset `o` of the context's window (06 R137): the first byte's home key. -/
def State.vaultKey (s : State) (ck o : Nat) : Nat := vaultKeyOf (ckDie ck) (ckCore ck) (winVbase (s.win ck) * 0x10000 + o)
/-- The access lies inside the slot's vault window (06 R137). -/
def State.inWindow (s : State) (ck o n : Nat) : Bool := decide (o + n ≤ winVsize (s.win ck) * 0x10000)
/-- Bytes of a vault; vaults are not encrypted (17 R354). -/
def State.vread (s : State) (ck o n : Nat) : Nat := Mem.readLE s.mem (s.vaultKey ck o) n
/-- A vault write: bytes, and poison cleared where a whole granule is written (08 R204). -/
def State.wrVaultKey (s : State) (key data n : Nat) : State :=
  (linePieces key n).foldl (fun s p => s.wrKey 0 p.2.1 (data / 2 ^ (8 * p.1) % 2 ^ (8 * p.2.2)) p.2.2) s
def State.vwrite (s : State) (ck o data n : Nat) : State := s.wrVaultKey (s.vaultKey ck o) data n
def State.vpoisoned (s : State) (ck o n : Nat) : Bool := s.poisonedRun (s.vaultKey ck o) n

/-- Notification queue of a die (17 R353, R362). -/
def nqCtl : Nat := 0x340000000028
def nqSize (w : Word) : Nat := if fld w 15 0 = 0 then 65536 else fld w 15 0
def nqFree (w : Word) : Nat := nqSize w - 1 - (fld w 47 32 + 65536 * nqSize w - fld w 31 16) % nqSize w
/-- Field of NQLOST that counts a kind: CTR, FLT or PSN. -/
def nqClass (kind : Nat) : Nat := if kind = 1 then 0 else if kind = 2 then 1 else 2
def State.nqLose (s : State) (d kind : Nat) : State :=
  let lo := 16 * nqClass kind
  s.dmod d 0x340000000030 (fun w => setFld w (lo + 15) lo (min (fld w (lo + 15) lo + 1) 65535))
/-- The hardware writes entry TAIL and advances TAIL (17 R362). -/
def State.nqPut (s : State) (d : Nat) (e : BitVec 256) : State :=
  let w := s.dget d nqCtl
  let base := fld (s.dget d 0x340000000020) 45 12 * 4096
  let s := s.wrPhysRun d (base + 32 * fld w 47 32) e.toNat 4
  s.dput d nqCtl (setFld w 47 32 ((fld w 47 32 + 1) % nqSize w))
/-- A notification entry (17 R362). -/
def nqEntry (kind addr aux aux2 : Nat) : BitVec 256 :=
  BitVec.ofNat 256 (kind + addr % 2 ^ 64 * 2 ^ 64 + aux % 2 ^ 64 * 2 ^ 128 + aux2 % 2 ^ 64 * 2 ^ 192)
/-- Posting rules of 17 R363: the new state, and whether the notification was posted or is held. -/
def State.notify (s : State) (d kind addr aux aux2 : Nat) : State × Bool :=
  let w := s.dget d nqCtl
  let e := nqEntry kind addr aux aux2
  if !bit w 48 then (s.nqLose d kind, false)
  else if kind = 1 then (if 64 ≤ nqFree w then (s.nqPut d e, true) else (s.nqLose d kind, false))
  else if kind = 2 then (if 32 ≤ nqFree w then (s.nqPut d e, true) else (s.nqLose d kind, false))
  else if 0 < nqFree w ∧ (s.die d).held = [] then (s.nqPut d e, true)
  else if (s.die d).held.length < 64 then (s.modDie d (fun x => { x with held := x.held ++ [e] }), true)
  else (s.nqLose d kind, false)

/-- One request performed at the home of die offset `phys`, counted for its frame (17 R364). `far` says that the requester
is another die or package, `rd` names the die: 16 above the number of a die of another package (17 R362). -/
def State.touch (s : State) (d phys rd : Nat) (far : Bool) : State :=
  let cfg := s.dget d 0x340000000038
  if !bit cfg 0 || !(bit cfg 1 || far) || decide (0x200000000000 ≤ phys) then s
  else
    let f := phys / 0x10000
    let at_ := fld cfg 45 12 * 4096 + 4 * f
    let c := s.rdPhys d at_ 4
    let n := min (c % 2 ^ 24 + 1) 0xFFFFFF
    let c1 := c / 2 ^ 24 * 2 ^ 24 + n
    if n = fld (s.dget d 0x340000000040) 23 0 ∧ c % 2 ^ 24 < n then
      if c.testBit 24 then s.wrPhys d at_ c1 4
      else
        let (s1, ok) := s.notify d 1 (f * 0x10000) (n + rd % 32 * 2 ^ 24) 0
        if ok then s1.wrPhys d at_ (c1 + 2 ^ 24) 4
        else s1.wrPhys d at_ (if c1.testBit 25 then c1 else c1 + 2 ^ 25) 4
    else s.wrPhys d at_ c1 4

/-- Size of the page of a leaf at walk level 1, 2 or 3 (17 R357). -/
def pageBytes (level : Nat) : Nat := if level = 1 then 2 ^ 30 else if level = 2 then 2 ^ 21 else 2 ^ 16
/-- Index of a table level (17 R357). -/
def walkIndex (level off : Nat) : Nat :=
  if level = 0 then off / 2 ^ 39 % 128 else if level = 1 then off / 2 ^ 30 % 512 else if level = 2 then off / 2 ^ 21 % 512 else off / 2 ^ 16 % 32
/-- A frame wholly inside backed bytes or device register space (17 R357). What is backed begins and ends at multiples of 64 KiB. -/
def State.framed (s : State) (d frame size : Nat) : Bool :=
  if 0x300000000000 ≤ frame then decide (frame + size ≤ 0x400000000000)
  else if 0x100000000000 ≤ frame ∧ frame < 0x200000000000 then (List.range (size / 0x10000)).all (fun i => (s.homeKey d (frame + 0x10000 * i)).isSome)
  else (s.homeKey d frame).isSome && (s.homeKey d (frame + size - 1)).isSome
/-- The four-level walk from a table (17 R357): frame, page size, writable. -/
def State.walkTable (s : State) (d off : Nat) : Nat → Nat → Option (Nat × Nat × Bool)
  | 0, _ => none
  | n + 1, table =>
    let level := 3 - n
    let e := s.rdPhys d (table + 8 * walkIndex level off) 8
    let addr := e / 2 ^ 12 % 2 ^ 34 * 4096
    if !e.testBit 0 ∨ e / 8 % 512 ≠ 0 ∨ e / 2 ^ 46 % 2 ^ 18 ≠ 0 then none
    else if level = 3 ∨ e.testBit 1 then
      if level = 0 ∨ addr % pageBytes level ≠ 0 ∨ !s.framed d addr (pageBytes level) then none
      else some (addr, pageBytes level, e.testBit 2)
    else s.walkTable d off n addr
/-- The table that a walk reads at a level (17 R357, R358). -/
def State.tableAt (s : State) (d off level : Nat) : Nat → Nat → Option Nat
  | 0, _ => none
  | n + 1, table =>
    if 3 - n = level then some table
    else
      let e := s.rdPhys d (table + 8 * walkIndex (3 - n) off) 8
      if !e.testBit 0 ∨ e / 8 % 512 ≠ 0 ∨ e / 2 ^ 46 % 2 ^ 18 ≠ 0 ∨ e.testBit 1 then none
      else s.tableAt d off level n (e / 2 ^ 12 % 2 ^ 34 * 4096)
/-- Bytes that one table of a level covers (17 R357). -/
def tableSpan (level : Nat) : Nat := if level = 0 then 2 ^ 46 else if level = 1 then 2 ^ 39 else if level = 2 then 2 ^ 30 else 2 ^ 21
/-- The root table of an ASID for a partition (17 R357). -/
def State.rootTable (s : State) (d : Nat) (asid : BitVec 16) (part : BitVec 4) : Option Nat :=
  let b := s.dget d 0x340000000010
  if !bit b 0 then none
  else
    let e := s.rdPhys d (fld b 45 12 * 4096 + 16 * asid.toNat) 16
    if !e.testBit 0 ∨ e / 2 % 16 ≠ part.toNat ∨ e / 32 % 128 ≠ 0 ∨ e / 2 ^ 46 ≠ 0 then none else some (e / 2 ^ 12 % 2 ^ 34 * 4096)
/-- Where a walk begins (17 R358): at the deepest intermediate entry that the die keeps for the offset, though the tables may have
changed since, else at the root table. -/
def State.walkStart (s : State) (d : Nat) (asid : BitVec 16) (part : BitVec 4) (off : Nat) : Option (Nat × Nat) :=
  ((s.die d).mids.filter (fun m => m.asid == asid && m.part == part && m.span == off / tableSpan m.level)).foldl
    (fun r m => match r with | some x => if x.1 < m.level then some (m.level, m.table) else r | none => some (m.level, m.table)) none
  |>.orElse (fun _ => (s.rootTable d asid part).map (fun t => (0, t)))
/-- A walk by ASID and partition (17 R357, R358). -/
def State.walk (s : State) (d : Nat) (asid : BitVec 16) (part : BitVec 4) (off : Nat) : Option (Nat × Nat × Bool) :=
  (s.walkStart d asid part off).bind (fun x => s.walkTable d off (4 - x.1) x.2)
/-- A translation held by the TLB of die `d` (17 R358). -/
def State.tlbHit (s : State) (d : Nat) (asid : BitVec 16) (part : BitVec 4) (off : Nat) : Option (Nat × Nat × Bool) :=
  (((s.die d).tlb.find? (fun t => t.asid == asid && t.part == part && t.page == off / t.size)).map
    (fun t => (t.frame, t.size, t.w)))
/-- A frame of a die meets the request area (20 R392): no translation may name it. -/
def State.inRequests (s : State) (d frame size : Nat) : Bool :=
  let r := s.dget 8 0x390000000000
  bit r 0 && decide (fld r 49 46 = d) && decide (frame < fld r 45 25 * 2 ^ 25 + 2 ^ 25) && decide (fld r 45 25 * 2 ^ 25 < frame + size)
/-- Translation of a die offset at its home: physical die offset and whether the page is writable; none on failure. -/
def State.translate (s : State) (d : Nat) (asid : BitVec 16) (part : BitVec 4) (off : Nat) : Option (Nat × Bool) :=
  match (s.tlbHit d asid part off).orElse (fun _ => s.walk d asid part off) with
  | some (frame, size, w) => if s.inRequests d frame size then none else some (frame + off % size, w)
  | none => none

/-- HSTATE.DDIS: the die is disabled (20 R391, 21 R423). -/
def State.dieDown (s : State) (d : Nat) : Bool := bit s.hstate (2 + d) && decide (d < 8)

/-- Where a request is performed. A host address stands behind its port, at port * 2^64 on (21 R415, R418); a remote byte is named by its address with the ASID and
the partition under which its home translates it (23 R441). -/
inductive Place where
  | mem (die phys key : Nat)
  | dev (die off : Nat)
  | host (addr : Nat)
  | remote (key : Nat)
deriving DecidableEq, Repr

/-- Why a request is not performed: translation failure (17 R360) or error response (23 R439). -/
inductive Miss where
  | fail
  | err
deriving DecidableEq, Repr

/-- Registers of the hub fabric block (23 R436). -/
def fabOff (o : Nat) : Nat := 0x3B0000000000 + o
def State.fid (s : State) : Word := s.dget 8 (fabOff 0)
def State.devt (s : State) (k : Nat) : Word := s.dget 8 (fabOff (0x100 + 8 * k))
def State.brdt (s : State) (b : Nat) : Word := s.dget 8 (fabOff (0x80 + 8 * b))
def State.podt (s : State) (q : Nat) : Word := s.dget 8 (fabOff (0x1000 + 8 * q))
def State.cmap (s : State) (g : Nat) : Word := s.dget 8 (fabOff (0x400 + 8 * g))
/-- FPMASK[p] as one 512-bit value. -/
def State.fpmask (s : State) (p : Nat) : Nat := packLE 64 ((List.range 8).map (fun i => (s.dget 8 (fabOff (0x2000 + 0x40 * p + 8 * i))).toNat))
/-- Package index of the issuing package: 4 * board + device. -/
def State.ownIndex (s : State) : Nat := 4 * fld s.fid 10 8 + fld s.fid 12 11
/-- A local peer cannot be reached: disabled, or its link down (23 R439). -/
def State.peerDown (s : State) (k : Nat) : Bool :=
  bit (s.devt k) 1 || bit (s.brdt (k / 4)) 1 || NSet.mem s.linksDown (fld (s.devt k) 6 2)
/-- The route of a remote address meets a condition of 23 R439. -/
def State.routeDown (s : State) (ea : Nat) : Bool :=
  let q := ea / 2 ^ 55 % 256
  let k := ea / 2 ^ 50 % 32
  if q = fld s.fid 7 0 then s.peerDown k
  else
    let r := s.podt q
    if bit r 1 then s.peerDown (fld r 10 6) else let c := s.cmap (fld r 5 2); !bit c 0 || bit c 18

/-- PARTCTL.PORT of a partition (21 R416). -/
def State.portOf (s : State) (p : Nat) : Nat := fld (s.dget 8 (0x3A0000000800 + 8 * p)) 1 1
/-- The place of the byte at a virtual address for a request of `asid` and `part` (07 R162, 17 R357, 21 R418). -/
def State.place (s : State) (asid : BitVec 16) (part : BitVec 4) (ea : Nat) (write : Bool) : Except Miss Place :=
  if ea.testBit 63 then
    if s.routeDown ea then .error .err
    else match Config.remoteAnswer s.free ea with
      | 1 => .error .err
      | 2 => .error .fail
      | _ => .ok (.remote (ea + 2 ^ 64 * (asid.toNat + 2 ^ 16 * (s.fpmask part.toNat / 2 ^ 288 % 16))))
  else
    let d := ea / 2 ^ 46 % 16
    let off := ea % 2 ^ 46
    if s.dieDown d then .error .err
    else if d = 8 ∧ 0x040000000000 ≤ off ∧ off < 0x050000000000 then
      let w := (off - 0x040000000000) / 2 ^ 34
      let x := off % 2 ^ 34
      let base := 0x3A0000000000 + 0x20 * w
      let c := s.dget 8 base
      if bit c 0 ∧ fld c 4 1 = part.toNat ∧ x < fld (s.dget 8 (base + 16)) 34 0 then .ok (.host (s.portOf part.toNat * 2 ^ 64 + ((s.dget 8 (base + 8)).toNat + x) % 2 ^ 64))
      else .error .fail
    else match s.translate d asid part off with
      | none => .error .fail
      | some (phys, w) =>
        if write && !w then .error .fail
        else if 0x300000000000 ≤ phys then .ok (.dev d phys)
        else match s.homeKey d phys with
          | some key => .ok (.mem d phys key)
          | none => .error .fail

/-- `n` bytes of host memory. -/
def State.rdHost (s : State) (a n : Nat) : Nat := Mem.readLE s.host a n
def State.wrHost (s : State) (a data n : Nat) : State := { s with host := Mem.writeLE s.host a data n }
/-- `n` bytes of another package: what this package has written there or seen change, else free (23 R441, log 8). -/
def State.rdRemote (s : State) (k : Nat) : Nat → Nat
  | 0 => 0
  | n + 1 => ((Map.get? s.rmem k).getD (Config.remoteByte k)).toNat + 256 * s.rdRemote (k + 1) n
/-- Bytes of `data` whose bit of `mask` is set, written to another package from `k` on. -/
def Map.writeMasked (m : Map Byte) (k data mask : Nat) : Nat → Map Byte
  | 0 => m
  | n + 1 => Map.writeMasked (if mask % 2 = 1 then Map.put m k (BitVec.ofNat 8 data) else m) (k + 1) (data / 256) (mask / 2) n
def State.wrRemote (s : State) (k data mask : Nat) : State := { s with rmem := Map.writeMasked s.rmem k data mask 64 }

/-- `n` bytes of data that could not be fetched and carry poison: free (23 R439). -/
def State.rdFail (s : State) (a : Nat) : Nat → Nat
  | 0 => 0
  | n + 1 => (Config.failByte s.free a).toNat + 256 * s.rdFail (a + 1) n

/-- Who makes a request: ASID, partition and die. -/
structure Agent where
  asid : BitVec 16
  part : BitVec 4
  die  : Nat
deriving DecidableEq, Repr

def State.me? (s : State) (ck : Nat) : Agent := { asid := ctxAsid (s.ctx ck), part := ctxPart (s.ctx ck), die := ckDie ck }
/-- The agent of the executing strand. -/
def State.agent (s : State) : Agent := s.me? s.cur.ck

/-- Bytes of one line written at their home: `data` and `mask` aligned to the line address `ea`. -/
def State.wrHome (s : State) (g : Agent) (ea data mask : Nat) : Except Miss State :=
  match s.place g.asid g.part ea true with
  | .error m => .error m
  | .ok (.mem d phys key) => .ok ((s.wrLine g.part key data mask).touch d phys g.die (d != g.die))
  | .ok (.host a) => .ok { s with host := Mem.writeMasked s.host a data mask 64 }
  | .ok (.remote k) => .ok (s.wrRemote k data mask)
  | .ok (.dev _ _) => .error .fail

/-- `a` is the lesser, signed or unsigned (07 R178). -/
def lesser (signed : Bool) (n a b : Nat) : Bool := if signed then decide (sval (8 * n) a < sval (8 * n) b) else decide (a < b)
/-- The new value of an atomic from the old one, b and e (07 R178). -/
def AtomKind.apply (k : AtomKind) (signed : Bool) (n old b e : Nat) : Nat :=
  match k with
  | .swap => b
  | .cas => if old = e then b else old
  | .addF => (f32c (fadd (f32d old) (f32d b))).1
  | .addI => old + b
  | .lo => if lesser signed n b old then b else old
  | .hi => if lesser signed n old b then b else old
  | .band => old &&& b
  | .bor => old ||| b
  | .bxor => old ^^^ b
/-- An atomic performed at its home (07 R179, R181, R182): state, old value, mark; none on a translation failure. At a poisoned line nothing is
written, and an error response has the same outcome. -/
def State.atomHome (s : State) (g : Agent) (ea n : Nat) (f : Nat → Nat) : Option (State × Nat × Bool) :=
  match s.place g.asid g.part ea true with
  | .ok (.mem d phys key) =>
    let old := s.rdKey g.part key n
    if s.poisoned key then some (s.touch d phys g.die (d != g.die), old, true)
    else some ((s.wrKey g.part key (f old % 2 ^ (8 * n)) n).touch d phys g.die (d != g.die), old, false)
  | .ok (.host a) => let old := s.rdHost a n; some (s.wrHost a (f old % 2 ^ (8 * n)) n, old, false)
  | .ok (.remote k) =>
    let old := s.rdRemote k n
    if Config.remoteAnswer s.free ea == 3 then some (s, old, true) else some (s.wrRemote k (f old) (2 ^ n - 1), old, false)
  | .error .err => some (s, s.rdFail ea n, true)
  | _ => none

/-- TGEN.GEN, TGEN.FRZ (23 R450). -/
def State.gen (s : State) : BitVec 32 := s.tgen.extractLsb' 0 32
def State.frz (s : State) : Bool := bit s.tgen 32
/-- A virtual address names another pod: a global send (23 R438). -/
def State.global (s : State) (ea : Word) : Bool := bit ea 63 && decide (fld ea 62 55 ≠ fld s.fid 7 0)

/-- A key of `dev` that stands for FID, BRDT, DEVT or FPMASK (23 R436). -/
def isFabTab (k : Nat) : Bool :=
  let o := k - (8 * 2 ^ 46 + fabOff 0)
  decide (8 * 2 ^ 46 + fabOff 0 ≤ k) && (o == 0 || (decide (0x80 ≤ o) && decide (o < 0x200)) || (decide (0x2000 ≤ o) && decide (o < 0x2400)))
def State.fabTabs (s : State) : Map Word := s.dev.filter (fun p => isFabTab p.1)
def State.setTabs (s : State) (m : Map Word) : State := { s with dev := m.foldl (fun d p => Map.put d p.1 p.2) (s.dev.filter (fun p => !isFabTab p.1)) }
/-- The number of the fabric tables as they stand. -/
def State.tabs (s : State) : Nat := s.fabOld.length
/-- The state as a request sees it that was routed by the tables of number `v`: a write of them concerns the words that issue after it (23 R436). -/
def State.asOf (s : State) (v : Nat) : State := match s.fabOld[v]? with | some m => s.setTabs m | none => s
def State.underTabs (s : State) (v : Nat) (f : State → State) : State :=
  if v < s.tabs then (f (s.asOf v)).setTabs s.fabTabs else f s
/-- A write of a fabric table: the tables as they stood are kept for the requests that have been routed by them. -/
def State.fabPut (s : State) (off : Nat) (v : Word) : State :=
  let t : State := { s with fabOld := s.fabOld ++ [s.fabTabs] }
  t.dput 8 off v

/-- The line in which an access of `g` is performed, as a number: a line of this package, of host memory, of another package, or none. -/
def State.lineName (s : State) (g : Agent) (ea : Nat) : Nat :=
  match s.place g.asid g.part ea false with
  | .ok (.mem _ _ key) => key / 64 | .ok (.host a) => 2 ^ 80 + a / 64 | .ok (.remote k) => 2 ^ 100 + k / 64 | _ => 2 ^ 121 + ea / 64
/-- The line of a near-path store. -/
def nearLine : Nat := 2 ^ 120
/-- The egresses between an agent of die `die` and a line (13 R285, R286): none, that of its die, that of the package too. -/
def egresses (die line : Nat) : Nat := if 2 ^ 120 ≤ line then 0 else if 2 ^ 80 ≤ line then 2 else if keyDie (64 * line) = die then 0 else 1

/-- Whose reading of memory a posted request carries. -/
def Posted.agent (p : Posted) : Agent := { asid := p.asid, part := p.part, die := p.die }
def Posted.isLoad (p : Posted) : Bool := match p.kind with | .load .. => true | _ => false
/-- Egresses that accept the request before it is performed; a load passes them as it is performed, but for one that names another pod: that is a global send
(23 R438). -/
def Posted.last (p : Posted) : Nat := if p.isLoad && !p.glob then 0 else egresses p.die p.line
/-- Bytes of its line that the request reads or writes at the home. -/
def Posted.mask (p : Posted) : Nat :=
  match p.kind with
  | .store _ m => m
  | .write _ m _ => m
  | .atom _ _ n _ _ _ _ pm => (2 ^ n - 1) * 2 ^ (p.ea % 64) ||| pm
  | .load _ _ n _ _ own _ => (2 ^ n - 1 - own) * 2 ^ (p.ea % 64)
  | .entry _ m => m
  | .vault .. => 1
  | .miss _ => 0
/-- The request publishes an entry of its line. -/
def Posted.publishes (p : Posted) : Bool := match p.kind with | .store .. => true | .atom _ _ _ _ _ _ _ pm => pm != 0 | _ => false
/-- Request `p` has to be performed before `q`. Of one path of one strand: the earlier of two at the same bytes (07 R168, 06 R139), and a load before the
publication of an entry of its line (13 R297); the earlier of two global sends of one generation (13 R300, 23 R442). Of any: what an egress has accepted before, at one
line (13 R286). -/
def Posted.before (p q : Posted) : Bool :=
  let own := p.ck == q.ck && decide (p.id < q.id)
  (own && p.glob && q.glob && p.gen == q.gen) ||
  (p.line == q.line &&
    ((own && p.path == q.path && (p.mask &&& q.mask != 0 || (p.isLoad && q.publishes))) ||
     (p.id != q.id && p.stage == 2 && q.stage == 2 && decide (p.seq < q.seq)) ||
     (p.die == q.die && decide (1 ≤ q.stage) && (decide (q.stage < p.stage) || (p.stage == q.stage && decide (p.seq < q.seq))))))
/-- Count of elements or entries of a copy (09 R228). -/
def cpCount (imm : BitVec 48) : Nat := if fld imm 31 16 = 0 then 65536 else fld imm 31 16
/-- Length c[39:0] (09 R229). -/
def cpLen (c : Word) : Nat := fld c 39 0
/-- A copy's units: bytes, elements or list entries. -/
def CopyOp.total (c : CopyOp) : Nat :=
  match c.kind with
  | .cpy => cpLen c.c | .cfill => cpLen c.c | _ => cpCount c.imm
/-- A copy names another pod, or, where its entries are a list still to be read, may do so. -/
def State.copyGlobal (s : State) (c : CopyOp) : Bool :=
  match c.kind with
  | .clist => true
  | .cpy => (!bit c.fn 3 && s.global c.a) || (!bit c.fn 4 && s.global c.b)
  | .cfill => !bit c.fn 3 && s.global c.a
  | _ => (!bit c.fn 3 && s.global c.a) || (!bit c.fn 4 && s.global c.b) || s.global c.c
/-- A global send of a copy or an `xsend` that the strand of context `ck` issued before number `id` on the same generation has not been performed (13 R300,
23 R442). -/
def State.sendAhead (s : State) (ck id : Nat) (gen : BitVec 32) : Bool :=
  s.ops.any (fun o => o.ck == ck && o.saved.isNone && !o.fin && !o.dead && decide (o.id < id) && (match o.kind with
    | .copy c => c.gen == gen && s.copyGlobal c && decide (c.done < c.total)
    | .send x => x.gen == gen && s.global x.a && !x.acked
    | _ => false))
/-- The same for an access to `ea` that the strand makes now. -/
def State.mustFollow (s : State) (ck : Nat) (ea : Word) : Bool := s.global ea && s.sendAhead ck s.nextId (s.strand ck).tgb
/-- Some request, or an earlier global send, has to be performed before `p`. -/
def State.blocked (s : State) (p : Posted) : Bool := s.posted.any (fun q => q.before p) || (p.glob && s.sendAhead p.ck p.id p.gen)
/-- A published or direct write counts as complete at a scope (13 R285): G and P, D, S. -/
def Posted.reached (p : Posted) (scope : Nat) : Bool := !p.isLoad && (if scope = 1 then decide (1 ≤ p.stage) else scope != 3 && decide (2 ≤ p.stage))

/-- A result that a request brings: `v`, with its mark, to the flight that awaits it. A predicate that awaits a value takes 0, as from a spurious return (07 R185). -/
def State.fillRequest (s : State) (ck id : Nat) (v : Word) (mark : Bool) : State :=
  s.modStrand ck (fun st => st.modEng .a (fun e =>
    { e with flight := e.flight.map (fun f => match f.val with
        | .request r _ _ => if r = id then { f with val := match f.dest with | .p _ => .pred false | _ => .word v mark } else f
        | _ => f) }))
/-- The `8n`-bit value `v` extended to 64 bits (07 R165). -/
def extend (n v : Nat) (signed : Bool) : Word := if signed then BitVec.ofInt 64 (sval (8 * n) v) else w64 v
/-- A piece of a load has come (07 R167): its bytes, but for those that the strand's own stores gave; with the last piece the value is known. -/
def State.fillPiece (s : State) (p : Posted) (x : Nat) (mark : Bool) : State :=
  match p.kind with
  | .load req off n tot signed own bytes =>
    let v := packLE 8 ((List.range n).map (fun j => (if own.testBit j then bytes else x) / 2 ^ (8 * j)))
    let more := s.posted.any (fun q => match q.kind with | .load r .. => r == req | _ => false)
    let had := ((s.strand p.ck).eng .a).flight.findSome? (fun f => match f.val with | .request r a m => if r = req then some (a, m) else none | _ => none)
    match had with
    | none => s
    | some (a, m) =>
      let w := a + v * 2 ^ (8 * off)
      if more then s.modStrand p.ck (fun st => st.modEng .a (fun e =>
        { e with flight := e.flight.map (fun f => if f.val = .request req a m then { f with val := .request req w (m || mark) } else f) }))
      else s.fillRequest p.ck req (extend tot w signed) (m || mark)
  | _ => s
/-- A request receives an error response (23 R439): a load and an atomic give a marked value, any other sets CERR. -/
def State.answerErr (s : State) (p : Posted) : State :=
  match p.kind with
  | .load _ _ n .. => s.fillPiece p (s.rdFail p.ea n) true
  | .atom _ _ n _ _ true .. => s.fillRequest p.ck p.id (w64 (s.rdFail p.ea n)) true
  | _ => s.modStrand p.ck (fun st => { st with cerr := true })
/-- The translation of a request fails (17 R360): of a copy or a stream entry, its context error bit is set (07 R174, 09 R231); of another access the failure comes back
to the core. -/
def State.answerFail (s : State) (p : Posted) : State :=
  s.modStrand p.ck (fun st => if p.path = 3 || (match p.kind with | .entry .. => true | _ => false) then { st with cerr := true } else { st with failed := st.failed.orElse (fun _ => some (w64 p.ea)) })
/-- `n` bytes `v` read at a home key by path `path` of a strand, as they may appear to it: older ones where one of its other paths has written (13 R299). -/
def State.stale (s : State) (ck path key n v : Nat) : Nat :=
  if s.shadows.all (fun x => x.ck != ck || !x.hides.testBit path) then v
  else packLE 8 ((List.range n).map (fun i =>
    match s.shadows.find? (fun x => x.ck == ck && x.hides.testBit path && x.line == (key + i) / 64 && x.mask.testBit ((key + i) % 64)) with
    | some x => x.bytes / 2 ^ (8 * ((key + i) % 64))
    | none => v / 2 ^ (8 * i)))
/-- Vault bytes as they appear to a path of the strand (13 R299). -/
def State.vsee (s : State) (ck path o n : Nat) : Nat := s.stale ck path (s.vaultKey ck o) n (s.vread ck o n)
/-- The `vld` operations of a strand issued before number `id` read their bytes, where they have not: near-path accesses are performed in issue order (06 R139). -/
def State.readVlds (s : State) (ck id : Nat) : State :=
  { s with ops := s.ops.map (fun o => match o.kind with
      | .vld off n phys tile whole none =>
        if o.ck = ck ∧ o.saved.isNone ∧ !o.fin ∧ o.id < id then { o with kind := .vld off n phys tile whole (some (s.vsee ck 1 off n, s.vpoisoned ck off n)) } else o
      | _ => o) }
/-- What a request does at its home (07 R181, R182, 13 R289), by the tables it was routed by. -/
def State.performAt (s : State) (p : Posted) : State :=
  let line := p.ea / 64 * 64
  let answer (r : Except Miss State) : State := match r with | .ok t => t | .error .err => s.answerErr p | .error .fail => s.answerFail p
  match p.kind with
  | .store data mask => answer (s.wrHome p.agent line data mask)
  | .entry data mask => answer (s.wrHome p.agent line data mask)
  | .miss write =>
    match s.place p.asid p.part p.ea write with
    | .error .fail => s.answerFail p
    | .ok (.dev _ _) => s.answerFail p
    | _ => s
  | .write data mask bad => answer ((s.wrHome p.agent line data mask).map (fun t => if bad then (match t.place p.asid p.part line true with
      | .ok (.mem _ _ key) => t.mark key | _ => t) else t))
  | .atom k x n b e res pre pm => answer (
      match (if pm = 0 then .ok s else s.wrHome p.agent line pre pm) with
      | .error m => .error m
      | .ok s => match s.atomHome p.agent p.ea n (fun old => k.apply x n old b e) with
        | none => .error .fail
        | some r =>
          let t := if r.2.2 && (!res || s.discards p.ck p.id) then r.1.modStrand p.ck (fun st => { st with cerr := true }) else r.1
          .ok (if res then t.fillRequest p.ck p.id (w64 r.2.1) r.2.2 else t))
  | .load _ _ n .. =>
    match s.place p.asid p.part p.ea false with
    | .error .err => s.answerErr p
    | .error .fail => s.answerFail p
    | .ok (.mem d phys key) => (s.touch d phys p.die (d != p.die)).fillPiece p (s.rdKey p.part key n) (s.poisoned key)
    | .ok (.host a) => s.fillPiece p (s.rdHost a n) false
    | .ok (.remote k) => s.fillPiece p (s.rdRemote k n) (Config.remoteAnswer s.free p.ea == 3)
    | .ok (.dev _ _) => s.answerFail p
  | .vault off data n bad =>
    let t := (s.readVlds p.ck p.id).vwrite p.ck off data n
    if bad then t.mark (t.vaultKey p.ck off) else t
/-- The request leaves the list of those to be performed, and is performed; bound to a generation that has passed, it receives an error response (23 R442). -/
def State.perform1 (s : State) (p : Posted) : State :=
  let s : State := { s with posted := s.posted.filter (fun q => q.id != p.id) }
  if p.glob && p.gen != s.gen then s.answerErr p else s.underTabs p.tabs (fun s => s.performAt p)
/-- The posted requests that `sel` names, and those that come before one of them, are performed in order, at most `n`. -/
def State.drainBy (act : State → Posted → State) (sel : Posted → Bool) : Nat → State → State
  | 0, s => s
  | n + 1, s =>
    match s.posted.find? (fun p => (sel p || s.posted.any (fun q => sel q && p.before q)) && !s.blocked p) with
    | some p => State.drainBy act sel n (act s p)
    | none => s
/-- A line has been reached by an access of die `die` behind what the egresses on its way have accepted (13 R286). -/
def State.drainEgress (s : State) (die line : Nat) : State :=
  State.drainBy State.perform1 (fun p => p.line == line && ((decide (1 ≤ p.stage) && p.die == die) || (p.stage == 2))) s.posted.length s
/-- A posted request performed at its home: a load behind what the egresses on its way have accepted (13 R286). -/
def State.perform (s : State) (p : Posted) : State := (if p.isLoad && p.stage == 0 then s.drainEgress p.die p.line else s).perform1 p
def State.drain (s : State) (sel : Posted → Bool) : State := State.drainBy State.perform sel s.posted.length s

/-- The state in which an access of `g` to `ea` is performed: behind what the egresses on its way have accepted (13 R286). -/
def State.behind (s : State) (g : Agent) (ea : Nat) : State := if s.posted = [] then s else s.drainEgress g.die (s.lineName g ea)
/-- The same for every line of a range. -/
def State.behindRange (s : State) (g : Agent) (ea n : Nat) : State :=
  if s.posted = [] then s else (linePieces ea n).foldl (fun s q => s.behind g (q.2.1 % 2 ^ 64)) s
/-- `n` bytes within one line read at their home: value and poison, in the state `behind` gives; device register space fails (07 R163). -/
def State.rdPiece (s : State) (g : Agent) (ea n : Nat) : Except Miss (Nat × Bool) :=
  match s.place g.asid g.part ea false with
  | .error m => .error m
  | .ok (.mem _ _ key) => let t := s.behind g ea; .ok (t.rdKey g.part key n, t.poisoned key)
  | .ok (.host a) => .ok ((s.behind g ea).rdHost a n, false)
  | .ok (.remote k) => .ok ((s.behind g ea).rdRemote k n, Config.remoteAnswer s.free ea == 3)
  | .ok (.dev _ _) => .error .fail
/-- One request has been performed (13 R286, R295): what it came behind is performed too, and it is counted (17 R364). -/
def State.count (s : State) (g : Agent) (ea : Nat) (write : Bool) : State :=
  let s := s.behind g ea
  match s.place g.asid g.part ea write with
  | .ok (.mem d phys _) => s.touch d phys g.die (d != g.die)
  | _ => s
/-- Bytes of one line written behind what the egresses on their way have accepted (13 R286). -/
def State.wrPiece (s : State) (g : Agent) (ea data mask : Nat) : Except Miss State := (s.behind g ea).wrHome g ea data mask

/-- A request is posted: it has issued, and an event of its own performs it (13 R295, R297). `stage` says which egresses have accepted it. -/
def State.postAs (s : State) (ck path ea stage : Nat) (gen : BitVec 32) (tabs : Nat) (k : PostKind) : State :=
  let g := s.me? ck
  let line := match k with | .vault .. => nearLine | _ => (s.asOf tabs).lineName g ea
  { s with nextId := s.nextId + 1,
           posted := s.posted ++ [{ id := s.nextId, ck, asid := g.asid, part := g.part, die := g.die, path, line, ea, stage, seq := s.nextId,
                                    glob := (match k with | .vault .. => false | _ => s.global (w64 ea)), gen, tabs, kind := k }] }
/-- The same for a word that issues now. -/
def State.post (s : State) (ck ea : Nat) (k : PostKind) : State := s.postAs ck 0 ea 0 (s.strand ck).tgb s.tabs k
/-- The next egress accepts a posted request (13 R286); one that names another pod waits at the package's while the pod is frozen, and there receives an error
response if its generation has passed (23 R442). -/
def State.accept (s : State) (p : Posted) : State :=
  if p.stage = 1 ∧ p.glob ∧ s.frz then s
  else if p.stage = 1 ∧ p.glob ∧ p.gen ≠ s.gen then s.perform1 p
  else { s with nextId := s.nextId + 1, posted := s.posted.map (fun q => if q.id = p.id then { q with stage := q.stage + 1, seq := s.nextId } else q) }
/-- The event of a posted request (07 R181): it goes one step on its way, unless another has to be performed before it. -/
def State.homeRequest (s : State) (p : Posted) : State :=
  if s.blocked p then s
  else if p.stage < p.last then s.accept p
  else s.perform p
/-- A request of a path in `paths` of the strand has not reached the point of a scope (09 R237, 13 R299). -/
def State.unreached (s : State) (ck paths scope : Nat) : Bool := s.posted.any (fun p => p.ck == ck && paths.testBit p.path && !p.reached scope)
/-- What a path of the strand has posted is performed: it sees its own stores (06 R139). -/
def State.settlePath (s : State) (ck path : Nat) : State := if s.posted = [] then s else s.drain (fun p => p.ck == ck && p.path == path)
/-- The near-path accesses of a strand issued before number `id` are performed, in issue order (06 R139). -/
def State.settleVault (s : State) (ck id : Nat) : State :=
  (if s.posted = [] then s else s.drain (fun p => p.ck == ck && p.path == 1 && decide (p.id < id))).readVlds ck id
/-- A near-path store of a strand's V path (06 R139, 13 R299): performed at the vault, or posted to be performed later. -/
def State.nearStore (s : State) (ck off data n : Nat) : State :=
  if s.late then s.postAs ck 1 off 0 0 s.tabs (.vault off data n false) else (s.settleVault ck s.nextId).vwrite ck off data n
/-- `n` bytes at a home key are about to be written by path `path` of a strand: while requests are late, its other paths may go on reading what stands there (13 R299). -/
def State.shade (s : State) (ck path key n : Nat) : State :=
  if !s.late then s
  else { s with shadows := s.shadows ++ (linePieces key n).map (fun q =>
    { ck, path, line := q.2.1 / 64, bytes := s.rdKey (s.me? ck).part (q.2.1 / 64 * 64) 64, mask := (2 ^ q.2.2 - 1) * 2 ^ (q.2.1 % 64), hides := 0x3F - 2 ^ path }) }
/-- What is written to `n` bytes at a key is seen by every path (09 R232). -/
def State.clearShades (s : State) (key n : Nat) : State :=
  if s.shadows = [] then s
  else { s with shadows := ((linePieces key n).foldl (fun l q => l.map (fun x =>
    if x.line = q.2.1 / 64 then { x with mask := x.mask - (x.mask &&& (2 ^ q.2.2 - 1) * 2 ^ (q.2.1 % 64)) } else x)) s.shadows).filter (fun x => x.mask != 0) }
/-- The paths in `paths` of a strand see what those among them have written (09 R237). -/
def State.unshade (s : State) (ck paths : Nat) : State :=
  { s with shadows := (s.shadows.map (fun x => if x.ck = ck ∧ paths.testBit x.path then { x with hides := x.hides &&& (0x3F - paths % 64) } else x)).filter (fun x => x.hides != 0) }
/-- Every request of a strand is performed, and all its paths see them (10 R248). -/
def State.performOwn (s : State) (ck : Nat) : State :=
  let s := s.unshade ck 0x3F
  if s.posted = [] then s
  else
    let t := s.drain (fun p => p.ck == ck)
    (t.posted.filter (fun p => p.ck == ck)).foldl State.perform1 t
/-- Earlier requests of the strand's A path at bytes of a range are performed, and its earlier global sends of the generation where the range is in another pod: the
access that follows comes after them (07 R168, 13 R297, R300). -/
def State.settleOwn (s : State) (ck ea n : Nat) : State :=
  if s.posted = [] then s
  else (linePieces ea n).foldl (fun s q =>
    let line := s.lineName (s.me? ck) (q.2.1 % 2 ^ 64)
    let glob := s.global (w64 q.2.1)
    s.drain (fun p => p.ck == ck && p.path == 0 && ((p.line == line && p.mask &&& ((2 ^ q.2.2 - 1) * 2 ^ (q.2.1 % 64)) != 0) ||
      (p.glob && glob && p.gen == (s.strand ck).tgb)))) s
/-- The same for requests of the strand at a line that an entry of it is published to (13 R297): loads too. -/
def State.settleLine (s : State) (ck ea mask : Nat) : State :=
  if s.posted = [] then s
  else
    let line := s.lineName (s.me? ck) ea
    let glob := s.global (w64 ea)
    s.drain (fun p => p.ck == ck && p.path == 0 && ((p.line == line && (p.isLoad || p.mask &&& mask != 0)) || (p.glob && glob)))

/-- A range read piece by piece: value, whether a byte was poisoned, the first miss. -/
def State.rdRange (s : State) (g : Agent) (ea n : Nat) : Nat × Bool × Option Miss :=
  (linePieces ea n).foldl (fun (v, p, m) q =>
    match s.rdPiece g (q.2.1 % 2 ^ 64) q.2.2 with
    | .ok (x, y) => (v + x * 2 ^ (8 * q.1), p || y, m)
    | .error e => (v, p, m.orElse (fun _ => some e))) (0, false, none)
/-- A range written piece by piece; pieces that miss are not written, and the first miss is reported. -/
def State.wrRange (s : State) (g : Agent) (ea n data : Nat) : State × Option Miss :=
  (linePieces ea n).foldl (fun (s, m) q =>
    let sh := q.2.1 % 64
    match s.wrPiece g ((q.2.1 - sh) % 2 ^ 64) (data / 2 ^ (8 * q.1) % 2 ^ (8 * q.2.2) * 2 ^ (8 * sh)) ((2 ^ q.2.2 - 1) * 2 ^ sh) with
    | .ok s => (s, m)
    | .error e => (s, m.orElse (fun _ => some e))) (s, none)
/-- `n` bytes `v` read from `ea` on, as they may appear to a path of a strand (13 R299). -/
def State.staleRange (s : State) (g : Agent) (ck path ea n v : Nat) : Nat :=
  if s.shadows = [] then v
  else (linePieces ea n).foldl (fun a q =>
    let x := v / 2 ^ (8 * q.1) % 2 ^ (8 * q.2.2)
    a + (match s.place g.asid g.part (q.2.1 % 2 ^ 64) false with | .ok (.mem _ _ key) => s.stale ck path key q.2.2 x | _ => x) * 2 ^ (8 * q.1)) 0
/-- The granules of a range become poisoned. -/
def State.markRange (s : State) (g : Agent) (ea n : Nat) : State :=
  (linePieces ea n).foldl (fun s q =>
    match s.place g.asid g.part (q.2.1 % 2 ^ 64) true with
    | .ok (.mem _ _ key) => s.mark key
    | _ => s) s

end Sys2Proof.Machine
end

