-- ==== Sys2Proof/Machine/Operands.lean ====
section
/-! DEFINITION. Reading operands: the scalar view (02 R40, R42), predicates (01 R34), landing windows (01 R30) and poison
marks (07 R169); specifiers of results; the effective address of W2 (02 R47). -/

namespace Sys2Proof.Machine

/-- A register as a key of `EStream.wrote`. -/
def Dest.key : Dest → Nat
  | .none => 0 | .s r => 8 * r + 1 | .a r => 8 * r + 2 | .p r => 8 * r + 3 | .v r => 8 * r + 4 | .m r => 8 * r + 5 | .z r => 8 * r + 6 | .q r => 8 * r + 7
/-- `d` is undefined: a result issued in an earlier aclk is on its way to it, and the last one issued has not landed (01 R30, R31). -/
def EStream.window (e : EStream) (d : Dest) (now : Nat) : Bool :=
  e.flight.any (fun f => f.dest == d && decide (f.born < now)) && e.flight.any (fun f => f.dest == d && !f.stale)
/-- The larger count of two, engine by engine. -/
def joinCounts (m n : Map Nat) : Map Nat := n.foldl (fun m p => Map.put m p.1 (max (Map.get 0 m p.1) p.2)) m
/-- How many sections of each engine come before the section at which stream `r` stands: those before its own section before, those that its dependence
distances name, and those that come before them in turn (01 R33, log 77). -/
def Strand.knows (st : Strand) (r : Engine) : Map Nat :=
  let x := st.eng r
  x.sec.waits.foldl (fun m p => joinCounts (joinCounts m [(p.1.num, p.2 + 1)]) (Map.get [] (st.eng p.1).known p.2)) (Map.get [] x.known (x.sec.ord - 1))
/-- The section at which the stream stands is entered, with the sections that come before it; those that no distance reaches any more are forgotten. -/
def EStream.learn (x : EStream) (m : Map Nat) : EStream :=
  { x with known := Map.put (x.known.filter (fun p => decide (x.sec.ord ≤ p.1 + 512))) x.sec.ord m }
/-- The section of engine `w` that last issued a word with destination `d` is one that does not come before the section of stream `r`: what `r` reads
there is undefined (01 R33, log 77). -/
def Strand.unordered (st : Strand) (r w : Engine) (d : Dest) : Bool :=
  r != w && (match Map.get? (st.eng w).wrote d.key with | some n => decide (Map.get 0 (st.knows r) w.num ≤ n) | none => false)
/-- `d`, a register of engine `w`, has no definite value for the executing stream. -/
def State.undefined (s : State) (st : Strand) (w : Engine) (d : Dest) : Bool := (st.eng w).window d s.time || st.unordered s.cur.eng w d

/-- The class of a trap with CODE 0. -/
def trapOf (c : TrapClass) (info : Word) : Stop := .trap { cls := c, code := 0, info }

/-- s register `r` of a strand as a word issuing now reads it; `k` tells uses of the free value apart. -/
def State.readS (s : State) (st : Strand) (r k : Nat) : Word :=
  if r = 0 then 0
  else if s.undefined st .s (.s r) then Config.undefWord s.free k else Map.get 0 st.s r
/-- a register `r` likewise. -/
def State.readA (s : State) (st : Strand) (r k : Nat) : Word :=
  if r = 0 then 0
  else if s.undefined st .a (.a r) then Config.undefWord s.free k else Map.get 0 st.a r

/-- A scalar-view operand (02 R40): the value, or poison-consumed where the register is marked (07 R169). A register that is undefined gives a value
and no trap (00 R10). -/
def State.rd (s : State) (spec : BitVec 7) (k : Nat) : Except Stop Word :=
  let x := spec.toNat
  if x < 0x40 then .ok (s.readS s.me x k)
  else if bit s.me.amark (x - 0x40) && x != 0x40 && !s.undefined s.me .a (.a (x - 0x40)) then .error (trapOf .poisonConsumed (w64 x))
  else .ok (s.readA s.me (x - 0x40) k)

/-- Predicate `r` of the executing engine as a word issuing now reads it (01 R34): p0 is true, a predicate in its window is
either. -/
def State.readP (s : State) (r : Nat) : Bool :=
  if r = 0 then true
  else if s.myEng.window (.p r) s.time then Config.undefPred s.free r else bit s.myEng.preds r
/-- The effective predicate of a word (01 R34). -/
def State.predTrue (s : State) (h : Head) : Bool := s.readP h.pr.toNat != h.pn

/-- Destination named by an s, a or predicate specifier (02 R40, R41); s0, a0 and p0 take nothing (02 R42). -/
def destOf (spec : BitVec 7) : Dest :=
  let x := spec.toNat
  if x = 0 ∨ x = 0x40 ∨ x = 0x60 then .none
  else if x < 0x40 then .s x
  else if x < 0x60 then .a (x - 0x40)
  else if x < 0x70 then .p (x - 0x60)
  else .none

/-- Operand B of a sequencer or access word: the register, or sext(IMM40, 64) where I = 1 (02 R46). -/
def State.rdB (s : State) (w : W1) : Except Stop Word :=
  if Legal.fnI w.fn then .ok (sx w.imm) else s.rd w.b 1

/-- Bytes of an access size code 0 to 3 (02 R47). -/
def szBytes (sz : BitVec 3) : Nat := 2 ^ sz.toNat
/-- The effective address of a W2 word whose index is an address part, with the unit of a scaled index (02 R47). -/
def State.ea (s : State) (w : W2) (unit : Nat) : Except Stop Word := do
  let b ← s.rd w.base 0
  let i ← s.rd w.idx 1
  let i := if w.sc then i * w64 unit else i
  .ok (if w.pi then b + i else b + i + sx w.off)
/-- The effective address of an atomic or `waita`, whose IDX is data (02 R47, 07 R179). -/
def State.eaAtomic (s : State) (w : W2) : Except Stop Word := do
  let b ← s.rd w.base 0
  .ok (b + sx w.off)

/-- check(ea) of 07 R162 and 23 R438, made at issue. -/
def State.check (s : State) (ea : Word) : Except Stop Unit :=
  if !bit ea 63 then
    if fld ea 62 50 ≠ 0 ∨ 9 ≤ fld ea 49 46 then .error (trapOf .noRoute ea) else .ok ()
  else
    let m := BitVec.ofNat 512 (s.fpmask s.myPart.toNat)
    let q := fld ea 62 55
    let k := 4 * fld ea 54 52 + fld ea 51 50
    if !bit m 292 ∨ !bit m q ∨ !bit m (256 + k) then .error (trapOf .partition ea)
    else if 9 ≤ fld ea 49 46 then .error (trapOf .noRoute ea)
    else if q = fld s.fid 7 0 then
      if k = s.ownIndex ∨ !bit (s.brdt (fld ea 54 52)) 0 ∨ !bit (s.devt k) 0 then .error (trapOf .noRoute ea) else .ok ()
    else if !bit (s.podt q) 0 then .error (trapOf .noRoute ea)
    else if s.frz then .error .wait
    else if s.me.tgb ≠ s.gen then .error (trapOf .staleTopology s.tgen)
    else .ok ()

end Sys2Proof.Machine
end

