-- ==== Sys2Proof/Machine/Landing.lean ====
section
/-! DEFINITION. Results in flight and where they land (01 R30, R31, 04 R83, 07 R169, 08 R190, R191), semaphore posts
(06 R149), arrival at barrier objects (12 R265), and the phase buffer (13 R287 to R289). -/

namespace Sys2Proof.Machine

/-- Monitor unit `u` (21 R425). -/
def monOff (u o : Nat) : Nat := 0x360000000000 + 0x100 * u + o
/-- Bin of a value. -/
def monBin (v : Nat) : Nat := if v = 0 then 0 else min (Nat.log2 v + 1) 15
/-- A unit takes a value: every field in one step (21 R425). -/
def State.monTake (s : State) (die u n : Nat) : State :=
  let k := monBin n
  let s := s.dmod die (monOff u 8) (fun w => w64 (min w.toNat n))
  let s := s.dmod die (monOff u 0x10) (fun w => w64 (max w.toNat n))
  let s := s.dmod die (monOff u 0x18) (fun w => w + 1)
  let s := s.dmod die (monOff u 0x20) (fun w => w64 (min (w.toNat + n) (2 ^ 64 - 1)))
  let lo := 32 * (k % 2)
  s.dmod die (monOff u (0x40 + 8 * (k / 2))) (fun w => setFld w (lo + 31) lo (min (fld w (lo + 31) lo + 1) 0xFFFFFFFF))
/-- The units of a die that count a source for a core. -/
def State.monUnits (s : State) (d src sel : Nat) : List Nat :=
  s.dev.filterMap (fun p =>
    let o := p.1 % 2 ^ 46
    if p.1 / 2 ^ 46 = d ∧ monOff 0 0 ≤ o ∧ o < monOff 64 0 ∧ o % 0x100 = 0 ∧ bit p.2 13 ∧ fld p.2 7 0 = src ∧ fld p.2 12 8 = sel then some ((o - monOff 0 0) / 0x100)
    else none)
/-- A source gives a value to every unit that counts it (21 R425). -/
def State.monitor (s : State) (d src sel n : Nat) : State := (s.monUnits d src sel).foldl (fun s u => s.monTake d u (min n 0xFFFFFFFF)) s
/-- What the landing of a result of a context's A stream gives the monitors (21 R425): the aclk from the issue of a load on. -/
def State.monLanding (s : State) (ck : Nat) (f : Flight) : State :=
  if f.load then s.monitor (ckDie ck) 1 (ckCore ck) (s.time - f.born) else s
/-- A `waita` is parked no more (21 R425). -/
def State.monParked (s : State) (ck : Nat) (f : Flight) : State := s.monitor (ckDie ck) 5 (ckCore ck) (s.time - f.born)
/-- The same for everything that lands at a stop. -/
def State.monLandings (s : State) (ck : Nat) : State :=
  ((s.strand ck).eng .a).flight.foldl (fun s f => match f.val with | .waita .. => s.monParked ck f | _ => s.monLanding ck f) s
/-- Entries of a stream and elements of an accumulator are not one destination: each result lands, in issue order. -/
def Dest.shared : Dest → Bool
  | .none => true | .q _ => true | .z _ => true | _ => false
/-- A result issued now by the executing word: an earlier result on its way to the same destination is superseded
(01 R31). -/
def State.put (s : State) (h : Head) (d : Dest) (v : Val) (fl : BitVec 7) : State :=
  s.modMyEng (fun e =>
    { e with wrote := if d = .none then e.wrote else Map.put e.wrote d.key e.sec.ord,
             flight := e.flight.map (fun f => if f.dest = d ∧ !d.shared then { f with stale := true } else f) ++
        [{ dest := d, val := v, born := s.time, lb := h.lb.toNat, sec := e.sec.ord, widx := e.widx, flags := fl, stale := false, slot := false, load := false }] })
/-- The result just put is that of a request: it holds a slot until it lands (07 R170). -/
def State.holdSlot (s : State) : State :=
  s.modMyEng (fun e => { e with flight := e.flight.map (fun f => if f.born = s.time then { f with slot := true } else f) })
/-- The same for a load. -/
def State.holdLoad (s : State) : State :=
  s.modMyEng (fun e => { e with flight := e.flight.map (fun f => if f.born = s.time then { f with slot := true, load := true } else f) })
/-- The word's effect comes at the end of this aclk, and its section does not retire before (01 R20, log 42). -/
def State.deferred (s : State) (h : Head) : State := s.put h .none .defer 0
/-- A scalar result; a discarded destination takes none. -/
def State.result (s : State) (h : Head) (spec : BitVec 7) (v : Word) (mark : Bool) : State :=
  if destOf spec = .none then s else s.put h (destOf spec) (.word v mark) 0
/-- A predicate result. -/
def State.resultP (s : State) (h : Head) (spec : BitVec 7) (b : Bool) : State :=
  if destOf spec = .none then s else s.put h (destOf spec) (.pred b) 0

/-- Accumulator element keys: one file of 2^18 elements to an accumulator. -/
def zKey (z i : Nat) : Nat := z * 2 ^ 18 + i

/-- A value reaches its destination in the strand (01 R30); marks are set or cleared with it (07 R169, 08 R191). -/
def Strand.write (st : Strand) (e : Engine) (d : Dest) (v : Val) : Strand :=
  match d, v with
  | .s r, .word w _ => { st with s := Map.put st.s r w }
  | .s r, .rqstat _ w => { st with s := Map.put st.s r w }
  | .a r, .word w pm => { st with a := Map.put st.a r w, amark := setBit st.amark r pm }
  | .p r, .pred b => st.modEng e (fun x => { x with preds := setBit x.preds r b })
  | .v r, .tile t pm => { st with v := Map.put st.v r t, vmark := setBit st.vmark r pm }
  | .m r, .mask m => { st with m := Map.put st.m r m }
  | .z r, .acc els tag =>
    { st with z := els.foldl (fun z p => Map.put z (zKey r p.1) p.2) st.z,
              ztag := match tag with | some t => Map.put st.ztag r t | none => st.ztag }
  | .q r, .push es =>
    let q := st.stream r
    if q.state = .outS then st.setStream r { q with buf := q.buf ++ es, done := q.done + es.length } else st
  | _, _ => st

/-- The result at position `i` of a stream lands: FSTAT takes its flags (04 R83), its destination its value, unless a later
word has taken the destination (01 R31). -/
def Strand.land (st : Strand) (e : Engine) (i : Nat) : Strand :=
  match (st.eng e).flight[i]? with
  | none => st
  | some f =>
    let st := st.modEng e (fun x => { x with flight := x.flight.eraseIdx i })
    let st := { st with fstat := st.fstat ||| f.flags }
    if f.stale then st else st.write e f.dest f.val

/-- A result whose value is known may land in a later aclk than its issue. -/
def Flight.landable (f : Flight) (now : Nat) : Bool :=
  decide (f.born < now) && (match f.val with | .waita .. => false | .matrix _ => false | .defer => false | .request .. => false | _ => true)

/-- Results of one stream land, oldest first: a parked `waita` with 0 (07 R186); an array operation that holds the stream stays. -/
def Strand.landAll (st : Strand) (e : Engine) : List Flight → Strand
  | [] => st
  | f :: r =>
    match f.val with
    | .matrix _ => (st.landAll e r).modEng e (fun x => { x with flight := f :: x.flight })
    | v =>
      let st := { st with fstat := st.fstat ||| f.flags }
      let v := match v with | .waita .. => .pred false | v => v
      (if f.stale then st else st.write e f.dest v).landAll e r
/-- At a stop every result lands (10 R248). -/
def Strand.landEvery (st : Strand) : Strand :=
  Engine.all.foldl (fun st e =>
    let fs := (st.eng e).flight
    (st.modEng e (fun x => { x with flight := [] })).landAll e fs) st

/-- The word issues: its place in the section is taken, and after the last word the stream stands at the next header
(01 R19). -/
def EStream.advance (e : EStream) (now : Nat) : EStream :=
  let w := e.widx + 1
  { e with widx := if w < hdrLen e.sec.hdr then w else 0, walk := e.walk + 12, acted := some now,
           pos := if w < hdrLen e.sec.hdr then .words else .header }
def State.advance (s : State) : State := s.modMyEng (fun e => e.advance s.time)

/-- A post made by a completion (06 R149): it is applied at the end of an aclk in which the value lies below the ceiling, after the posts of
words (06 R150). -/
def Sem.complete (x : Sem) : Sem := { x with held := x.held + 1 }
/-- A held post is applied while the value lies below the ceiling (06 R149): it counts once the waits and the posts by words of the aclk have been made (06 R150). -/
def Sem.release (x : Sem) : Sem :=
  if 0 < x.held ∧ x.value + x.posted + x.applied < x.ceil then { x with held := x.held - 1, applied := x.applied + 1 } else x
/-- The end of an aclk: the posts of its words become part of the value, and then held posts as far as there is room (06 R150). -/
def Sem.settle (x : Sem) : Sem :=
  let v := x.value + x.posted
  let k := min (x.held + x.applied) (x.ceil - v)
  { x with value := v + k, held := x.held + x.applied - k, posted := 0, applied := 0 }
def Strand.complete (st : Strand) (n : Nat) : Strand := st.setSem n (st.sem n).complete

/-- Fields of a barrier object (12 R264) in its 20 hardware bytes, and one arrival (12 R265). -/
def arriveAt (o st fl : Nat) : Nat :=
  let pend := o % 2 ^ 32
  let reload := o / 2 ^ 32 % 2 ^ 32
  let gen := o / 2 ^ 64 % 2 ^ 64
  let flags := o / 2 ^ 128 % 128
  let ovr := o / 2 ^ 135 % 2
  let first := o / 2 ^ 136 % 16
  let nfail := o / 2 ^ 140 % 2 ^ 16
  let pack (pend gen flags ovr first nfail : Nat) : Nat :=
    pend + reload * 2 ^ 32 + gen * 2 ^ 64 + flags * 2 ^ 128 + ovr * 2 ^ 135 + first * 2 ^ 136 + nfail * 2 ^ 140 + o / 2 ^ 156 * 2 ^ 156
  if pend = 0 then pack pend gen flags 1 first nfail
  else
    let flags := flags ||| fl
    let first := if st ≠ 0 ∧ first = 0 then st else first
    let nfail := if st ≠ 0 then min (nfail + 1) 65535 else nfail
    if pend = 1 then pack reload ((gen + 1) % 2 ^ 64) flags ovr first nfail else pack (pend - 1) gen flags ovr first nfail

/-- A 64-byte object in memory of the package: its bytes, or the miss; poison and error response are told apart by the
second component. -/
def State.rdObject (s : State) (g : Agent) (o : Nat) : Except Miss (Nat × Bool) := s.rdPiece g o 64
/-- An object's low `n` bytes written back at its home. -/
def State.wrObject (s : State) (g : Agent) (o data n : Nat) : State :=
  match s.wrPiece g o data (2 ^ n - 1) with | .ok s => s | .error _ => s

/-- Referrer scans under way on a die (17 R367, R373): those that poison started, and `kvfind`. -/
def State.scansBusy (s : State) (d : Nat) : Nat :=
  (s.die d).scanQ.length + (s.ops.filter (fun o => !o.fin && (match o.kind with | .kvfind _ x _ _ => x == d | _ => false))).length
/-- Die offset of the line of a home key: in the interleaved region for a lane of it (16 R329). -/
def State.lineOff (s : State) (key : Nat) : Nat :=
  let d := keyDie key
  match keyBank? key with
  | some (n, o) =>
    let lt := (s.die d).ltab
    let lane := lt.findIdx (fun x => x == n)
    if s.interleavedPart d o ∧ lane < lt.length then
      let r := o - s.kvb d * 2 ^ 20
      (r / 4096 * lt.length + lane) * 4096 + r % 4096 / 64 * 64
    else key % 2 ^ 46 / 64 * 64
  | none => key % 2 ^ 46 / 64 * 64
/-- A block word of a poisoned line and the SEQ of its header, for a notification (17 R367). -/
def State.poisonNote (s : State) (key : Nat) : State :=
  let d := keyDie key
  if 8 ≤ d then s
  else
    match keyBank? key with
    | some (n, o) =>
      if o < s.kvb d * 2 ^ 20 then
        let slot := o / 16384
        let blk := slot + n % 64 * 2 ^ 11 + n / 64 * 2 ^ 17
        let seq := s.rdPhys d (bankDirect n (0x1FE0000 + 64 * slot + 16)) 8
        let ok := decide (s.scansBusy d < 64)
        let (s, _) := s.notify d 3 (s.lineOff key) blk (b2n ok + seq * 2)
        if ok then s.modDie d (fun x => { x with scanQ := x.scanQ ++ [BitVec.ofNat 22 blk] }) else s
      else (s.notify d 3 (s.lineOff key) (2 ^ 64 - 1) 0).1
    | none => (s.notify d 3 (s.lineOff key) (2 ^ 64 - 1) 0).1

/-- A line becomes poisoned; one that newly does is notified (17 R367). -/
def State.markNew (s : State) (key : Nat) : State := if s.poisoned key then s else (s.mark key).poisonNote key

/-- An arrival at a barrier object (12 R265): none at 0, none at a line that misses, and at a poisoned line only a
notification. It is performed behind what the hub egress of its die has accepted (13 R286). -/
def State.arrive (s : State) (g : Agent) (o : Word) (st : Nat) (fl : BitVec 7) : State :=
  if o = 0 then s
  else
    let s := s.behind g o.toNat
    match s.place g.asid g.part o.toNat true with
    | .ok (.mem d phys key) =>
      if s.poisoned key then s.poisonNote key
      else (s.wrKey g.part key (arriveAt (s.rdKey g.part key 20) st fl.toNat) 20).touch d phys g.die (d != g.die)
    | _ => s

/-- The phase-buffer entry of a line. -/
def Strand.entry? (st : Strand) (line : Nat) : Option PEntry := st.pbuf.find? (fun p => p.line == line)
/-- `n` bytes within one line entered into the phase buffer (13 R287), as already published where `pub` says so (07 R184); room is made beforehand (13 R288). Bytes that
wait there from an earlier generation stay bound to it (23 R442). The entry takes the routes of its latest store (DESIGN CHOICE, log 93). -/
def Strand.buffer (st : Strand) (ea data n : Nat) (gen : BitVec 32) (tabs : Nat) (pub : Bool) : Strand :=
  let line := ea / 64
  let sh := ea % 64
  let mask : BitVec 64 := BitVec.ofNat 64 ((2 ^ n - 1) * 2 ^ sh)
  let bmask : BitVec 512 := BitVec.ofNat 512 ((2 ^ (8 * n) - 1) * 2 ^ (8 * sh))
  let bits : BitVec 512 := BitVec.ofNat 512 (data * 2 ^ (8 * sh)) &&& bmask
  match st.entry? line with
  | some p =>
    let dead := if gen = p.gen then p.dead else p.valid &&& ~~~p.pub
    let p' := { p with bytes := (p.bytes &&& ~~~bmask) ||| bits, valid := p.valid ||| mask, dead := dead &&& ~~~mask,
                       pub := if pub then p.pub ||| mask else p.pub &&& ~~~mask, gen, tabs }
    { st with pbuf := st.pbuf.map (fun q => if q.line = line then p' else q) }
  | none => { st with pbuf := st.pbuf ++ [{ line, bytes := bits, valid := mask, pub := if pub then mask else 0, dead := 0, gen, tabs }] }
/-- The bytes of an entry that are still to be published, those of an earlier generation apart. -/
def PEntry.todo (p : PEntry) (global : Bool) : BitVec 64 := p.valid &&& ~~~p.pub &&& (if global then ~~~p.dead else BitVec.allOnes 64)

/-- Buffered bytes over bytes read at the home: each byte from the buffer where valid there (13 R287, R295). -/
def Strand.overlay (st : Strand) (ea n v : Nat) : Nat :=
  match st.entry? (ea / 64) with
  | none => v
  | some p => packLE 8 ((List.range n).map (fun i =>
      if bit p.valid (ea % 64 + i) then p.bytes.toNat / 2 ^ (8 * (ea % 64 + i)) else v / 2 ^ (8 * i)))
/-- Every byte of the piece is buffered: nothing is read at the home. -/
def Strand.covered (st : Strand) (ea n : Nat) : Bool :=
  match st.entry? (ea / 64) with
  | none => false
  | some p => (List.range n).all (fun i => bit p.valid (ea % 64 + i))

/-- A request routed by the fabric tables of number `v` (23 R436), which may wait or fail. -/
def State.byTabs (s : State) (v : Nat) (f : State → Except Stop State) : Except Stop State :=
  if v < s.tabs then (f (s.asOf v)).map (fun t => t.setTabs s.fabTabs) else f s
/-- Egresses that have accepted a write at a scope where it counts as complete before it is performed (13 R285): at D that of the strand's die, at G and P the package's
too; none where it is to be performed. -/
def State.scopeStage (s : State) (ck scope ea : Nat) : Nat :=
  let last := egresses (ckDie ck) (s.lineName (s.me? ck) ea)
  if s.late ∧ scope = 1 then min last 1 else if s.late ∧ scope ≠ 3 ∧ last = 2 then 2 else 0
/-- A write of one line is posted that egresses have accepted. It enters the package's behind what it follows in its die's (13 R286). -/
def State.postAt (s : State) (ck path ea stage : Nat) (gen : BitVec 32) (tabs : Nat) (k : PostKind) : State :=
  let line := s.lineName (s.me? ck) ea
  let s := if stage = 2 then State.drainBy State.accept (fun q => q.stage == 1 && q.die == ckDie ck && q.line == line) s.posted.length s else s
  s.postAs ck path ea stage gen tabs k
/-- One entry published at a scope (13 R289) by the routes of its stores (23 R436), after the strand's loads of its line (13 R297): performed at its home, or posted
where it counts as complete before that (13 R285), in a request slot (07 R170). An error response, or a generation that has passed, sets CERR (23 R442); a translation
failure ends the context. While the pod is frozen, and before an earlier global send, a global piece waits. -/
def State.publishRouted (s : State) (ck scope : Nat) (p : PEntry) : Except Stop State :=
  let ea := p.line * 64
  let glob := s.global (w64 ea)
  let mask := (p.todo glob).toNat
  let s := s.settleLine ck ea mask
  let cerr (s : State) : State := s.modStrand ck (fun st => { st with cerr := true })
  let s := if glob ∧ p.valid &&& ~~~p.pub &&& p.dead ≠ 0 then cerr s else s
  let stage := s.scopeStage ck scope ea
  if mask = 0 then .ok s
  else if glob && ((s.frz && stage != 1) || (stage = 0 && s.mustFollow ck (w64 ea))) then .error .wait
  else if glob && p.gen != s.gen then .ok (cerr s)
  else match s.place (s.me? ck).asid (s.me? ck).part ea true with
    | .error .err => .ok (cerr s)
    | .error .fail => .error (.fatal (w64 ea))
    | .ok _ =>
      if stage ≠ 0 then (if s.slotFree ck then .ok (s.postAt ck 0 ea stage p.gen p.tabs (.store p.bytes.toNat mask)) else .error .wait)
      else match s.wrPiece (s.me? ck) ea p.bytes.toNat mask with
        | .ok s => .ok s
        | .error .err => .ok (cerr s)
        | .error .fail => .error (.fatal (w64 ea))
def State.publishEntry (s : State) (ck scope : Nat) (p : PEntry) : Except Stop State := s.byTabs p.tabs (fun s => s.publishRouted ck scope p)
/-- Some byte waits in the buffer to be published. -/
def Strand.buffered (st : Strand) : Bool := st.pbuf.any (fun p => p.valid &&& ~~~p.pub != 0)
/-- An `astrel` of the strand has not been performed: a store buffered after it is not published before (07 R184). -/
def State.storePosted (s : State) (ck : Nat) : Bool :=
  s.posted.any (fun p => p.ck == ck && p.path == 0 && (match p.kind with | .write .. => true | _ => false))
/-- Every buffered store published at a scope (13 R283) and every entry freed (13 R289). Each line takes a request slot (07 R170). -/
def State.publishAt (s : State) (ck scope : Nat) : Except Stop State :=
  if (s.strand ck).buffered && (s.storePosted ck || !s.slotFree ck) then .error .wait
  else do
    let s' ← (s.strand ck).pbuf.foldlM (fun s p => s.publishEntry ck scope p) s
    .ok (s'.modStrand ck (fun st => { st with pbuf := [] }))
/-- Publication at P. -/
def State.publish (s : State) (ck : Nat) : Except Stop State := s.publishAt ck 2
/-- Writes of the strand that bypass the buffer, and at S stores too, are complete at a scope (13 R291). -/
def State.bypassDone (s : State) (ck scope : Nat) : Bool :=
  s.posted.all (fun p => p.ck != ck || p.path != 0 || p.reached scope || (match p.kind with | .load .. => true | .store .. => scope != 3 | _ => false))
/-- The entry of a line leaves the buffer. -/
def State.dropEntry (s : State) (ck line : Nat) : State := s.modStrand ck (fun st => { st with pbuf := st.pbuf.filter (fun q => q.line != line) })
/-- A line publication (07 R464): the entry of one line, and nothing else. What follows at that line is performed behind the strand's earlier
requests to it (07 R168), and a store buffered after an `astrel` behind that (07 R184). -/
def State.publishLine (s : State) (ck : Nat) (ea n : Nat) : Except Stop State :=
  match (s.strand ck).entry? (ea / 64) with
  | none => .ok ((s.settleOwn ck ea n).behind (s.me? ck) ea)
  | some p => do
    if p.valid &&& ~~~p.pub != 0 && s.storePosted ck then .error .wait else .ok ()
    let s' ← s.publishEntry ck 3 p
    .ok (((s'.dropEntry ck p.line).settleOwn ck ea n).behind (s.me? ck) ea)

/-- `n` bytes read at an address, as they may appear to a path of the strand (13 R299). -/
def State.staleAt (s : State) (ck path ea n v : Nat) : Nat :=
  match s.place (s.me? ck).asid (s.me? ck).part ea false with | .ok (.mem _ _ key) => s.stale ck path key n v | _ => v
/-- `n` bytes read through the phase buffer, piece by line (07 R165), after the strand's earlier requests at those bytes (07 R168): value, poison or error
response; a translation failure is a fatal context error (17 R360). -/
def State.loadRange (s : State) (ck : Nat) (ea n : Nat) : Except Stop (Nat × Bool) :=
  (linePieces ea n).foldlM (fun (v, p) q =>
    let a := q.2.1 % 2 ^ 64
    if (s.strand ck).covered a q.2.2 then .ok (v + (s.strand ck).overlay a q.2.2 0 * 2 ^ (8 * q.1), p)
    else match (s.settleOwn ck a q.2.2).rdPiece (s.me? ck) a q.2.2 with
      | .ok (x, y) => .ok (v + (s.strand ck).overlay a q.2.2 (s.staleAt ck 0 a q.2.2 x) * 2 ^ (8 * q.1), p || y)
      | .error .err => .ok (v + (s.strand ck).overlay a q.2.2 (s.rdFail a q.2.2) * 2 ^ (8 * q.1), true)
      | .error .fail => .error (.fatal (w64 a))) (0, false)
/-- The requests of a range have been performed at their homes (13 R286), and are counted there (17 R364). -/
def State.countRange (s : State) (ck : Nat) (ea n : Nat) (write : Bool) : State :=
  (linePieces ea n).foldl (fun s p => (s.settleOwn ck p.2.1 p.2.2).count (s.me? ck) (p.2.1 % 2 ^ 64) write) s

/-- Pieces of `n` bytes at `ea` split at 8-byte boundaries (07 R167): offset, address, length. -/
def wordPieces (ea n : Nat) : List (Nat × Nat × Nat) :=
  (List.range ((ea + n + 7) / 8 - ea / 8)).map (fun i =>
    let lo := max ea (8 * (ea / 8 + i))
    let hi := min (ea + n) (8 * (ea / 8 + i + 1))
    (lo - ea, lo, hi - lo))
/-- Bytes of a piece that the strand's own buffered stores give (13 R295): a mask. -/
def Strand.ownMask (st : Strand) (ea n : Nat) : Nat := packLE 1 ((List.range n).map (fun i => b2n (st.covered (ea + i) 1)))
/-- A load of the executing word to be performed after its issue (13 R295): its pieces are posted, but for those that the strand's own stores give wholly. -/
def State.postLoad (s : State) (h : Head) (dest : Dest) (ea : Word) (n : Nat) (signed : Bool) : State :=
  let ck := s.cur.ck
  let own := (wordPieces ea.toNat n).map (fun q =>
    let a := q.2.1 % 2 ^ 64
    (q.1, a, q.2.2, s.me.ownMask a q.2.2, s.me.overlay a q.2.2 0))
  let todo := own.filter (fun q => q.2.2.2.1 != 2 ^ q.2.2.1 - 1)
  let acc := (own.filter (fun q => q.2.2.2.1 == 2 ^ q.2.2.1 - 1)).foldl (fun v q => v + q.2.2.2.2 * 2 ^ (8 * q.1)) 0
  if todo = [] then s.put h dest (.word (extend n acc signed) false) 0
  else
    let req := s.nextId
    let s := s.put h dest (.request req acc false) 0
    todo.foldl (fun s q => s.post ck q.2.1 (.load req q.1 q.2.2.1 n signed q.2.2.2.1 q.2.2.2.2)) s

/-- An `rqstat` of the strand on its way to a register, which a stop has read again on resume (20 R414). -/
def Strand.heldStats (st : Strand) : List HeldLoad :=
  (st.eng .s).flight.filterMap (fun f => match f.val with
    | .rqstat q _ => if f.stale then none else some { dest := f.dest, ea := w64 q, n := 8, signed := false }
    | _ => none)
/-- Loads of the strand that have not been performed and that a stop holds (07 R186): those on their way to a register for which no other result is
on its way, with the number of their request. -/
def State.heldLoads (s : State) (ck : Nat) : List (Nat × HeldLoad) :=
  let e := (s.strand ck).eng .a
  e.flight.filterMap (fun f => match f.dest, f.val with
    | .a r, .request req _ _ =>
      if (e.flight.filter (fun g => g.dest == .a r)).length ≠ 1 then none
      else (s.posted.find? (fun p => p.ck == ck && (match p.kind with | .load q .. => q == req | _ => false))).bind (fun p => match p.kind with
        | .load _ off _ tot signed _ _ => some (req, { dest := .a r, ea := w64 (p.ea + 2 ^ 64 - off), n := tot, signed })
        | _ => none)
    | _, _ => none)
/-- They leave with the stop: their results do not land. -/
def State.holdLoads (s : State) (ck : Nat) (held : List (Nat × HeldLoad)) : State :=
  let mine (req : Nat) : Bool := held.any (fun h => h.1 == req)
  let s : State := { s with posted := s.posted.filter (fun p => match p.kind with | .load req .. => !mine req | _ => true) }
  s.modStrand ck (fun st => { (st.modEng .a (fun e => { e with flight := e.flight.filter (fun f => match f.val with | .request r _ _ => !mine r | _ => true) }) : Strand) with
    loads := held.map (fun h => h.2) ++ st.heldStats })

end Sys2Proof.Machine
end

