-- ==== Sys2Proof/Machine/Groups.lean ====
section
/-! DEFINITION. Group objects (12 R267 to R271): reading and writing one at its home, removal of a member, the flip that ends
an episode, and the effective class of a strand. -/

namespace Sys2Proof.Machine

/-- NMEM, NARR, MAXC, DIS and GEN of a group object (12 R267), from its low 16 bytes. -/
structure GroupObj where
  nmem : Nat
  narr : Nat
  maxc : Nat
  dis  : Bool
  gen  : Nat
deriving DecidableEq, Repr

def GroupObj.ofBits (o : Nat) : GroupObj :=
  { nmem := o % 2 ^ 16, narr := o / 2 ^ 16 % 2 ^ 16, maxc := o / 2 ^ 32 % 4, dis := o.testBit 48, gen := o / 2 ^ 64 % 2 ^ 64 }
def GroupObj.bits (g : GroupObj) : Nat :=
  g.nmem % 2 ^ 16 + g.narr % 2 ^ 16 * 2 ^ 16 + g.maxc % 4 * 2 ^ 32 + b2n g.dis * 2 ^ 48 + g.gen % 2 ^ 64 * 2 ^ 64

/-- The home key of the line of an object, for an agent; none where no line of memory stands there. -/
def State.homeOf (s : State) (g : Agent) (o : Word) : Option Nat :=
  match s.place g.asid g.part o.toNat true with | .ok (.mem _ _ key) => some key | _ => none
/-- The group object at a home key, and the same written back. -/
def State.groupAt (s : State) (part : BitVec 4) (key : Nat) : GroupObj := GroupObj.ofBits (s.rdKey part key 16)
def State.setGroup (s : State) (part : BitVec 4) (key : Nat) (o : GroupObj) : State := s.wrKey part key o.bits 16

/-- The home key of a member's group object as it is reached now. -/
def State.memberHome (s : State) (m : Member) : Option Nat := s.homeOf { asid := m.asid, part := m.part, die := 0 } m.addr
/-- Every member's ARRIVED bit of the group at `key` becomes 0. -/
def State.unarrive (s : State) (key : Nat) (st : Strand) : Strand :=
  { st with groups := st.groups.map (fun m => if s.memberHome m = some key then { m with arrived := false } else m) }
def State.unarriveAll (s : State) (key : Nat) : State :=
  { s with strands := s.strands.map (fun p => (p.1, s.unarrive key p.2)), saved := s.saved.map (fun p => (p.1, s.unarrive key p.2)) }
/-- flip(g) of 12 R269. -/
def State.flip (s : State) (part : BitVec 4) (key : Nat) (o : GroupObj) : State :=
  (s.setGroup part key { o with gen := o.gen + 1, narr := 0, maxc := 0 }).unarriveAll key
/-- remove(g) of 12 R269 for a member whose ARRIVED bit is `arrived`. -/
def State.removeAt (s : State) (part : BitVec 4) (key : Nat) (arrived : Bool) : State :=
  let o := s.groupAt part key
  let o := { o with nmem := (o.nmem + 65535) % 65536, narr := if arrived then (o.narr + 65535) % 65536 else o.narr }
  if o.nmem = 0 then s.setGroup part key { o with dis := true, narr := 0, maxc := 0 }
  else if o.narr = o.nmem ∧ 0 < o.narr then s.flip part key o
  else s.setGroup part key o
/-- Every membership of a strand is removed (12 R270), behind what an egress has accepted for the object's line (13 R286). -/
def State.removeGroups (s : State) (part : BitVec 4) (ms : List Member) : State :=
  ms.foldl (fun s m => match s.memberHome m with
    | some key => (s.drain (fun p => decide (1 ≤ p.stage) && p.line == key / 64)).removeAt part key m.arrived
    | none => s) s

/-- PRIOC.EFF (05 R129, 12 R271): the greatest of CLS and of MAXC of each group in which the strand has not arrived. -/
def State.eff (s : State) (ck : Nat) : Nat :=
  (s.strand ck).groups.foldl (fun c m => if m.arrived then c else match s.memberHome m with
    | some key => max c (s.groupAt (ctxPart (s.ctx ck)) key).maxc
    | none => c)
    (fld (s.strand ck).prioc 1 0)
/-- PRIOC as it reads: EFF above MAX and CLS. -/
def State.prioc (s : State) (ck : Nat) : BitVec 6 := setFld (s.strand ck).prioc 5 4 (s.eff ck)

end Sys2Proof.Machine
end

