-- ==== Sys2Proof/Machine/Snapshot.lean ====
section
/-! DEFINITION. Save areas (06 R157 to R159) and trap control blocks (10 R240, R242): the layout as a list of dwords, writing
and reading it, and the pending-operation records (07 R186, 08 R210, 09 R238, 12 R282, 13 R302, 15 R323, R327, 16 R352, 17 R374,
20 R414, 23 R449). -/

namespace Sys2Proof.Machine

/-- Size of the save area of a profile (06 R157). -/
def areaBytes : Profile → Nat
  | .crown => 0x36000 | .d => 0x46000 | .p => 0xF6000 | .mc => 0x1080

/-- Dwords by byte offset. -/
abbrev Image := List (Nat × Nat)
/-- `n` dwords of `v` from offset `off` on. -/
def dwords (off v n : Nat) : Image := (List.range n).map (fun i => (off + 8 * i, v / 2 ^ (64 * i) % 2 ^ 64))

/-- Bits of a stream entry by ETYPE (02 R49). -/
def entryBits (ety : BitVec 4) : Nat :=
  match ety.toNat with
  | 0 => 4 | 1 => 8 | 2 => 16 | 3 => 32 | 4 => 64 | 5 => 512 | 6 => 4096 | _ => 16384

/-- An engine stream record (06 R159). `lost` says that the stop met the stream inside a bypass-live section (01 R37), at whose word 0 it then
stands again. -/
def EStream.record (e : EStream) (lost : Bool) : Nat :=
  e.walk.toNat + e.secn % 2 ^ 64 * 2 ^ 64 + e.widx % 2 ^ 16 * 2 ^ 128 + e.dqpos % 64 * 2 ^ 144 +
  (3 * b2n lost + 4 * (e.pass % 8)) * 2 ^ 152 + (e.preds ||| 1).toNat * 2 ^ 160 + e.retc % 2 ^ 64 * 2 ^ 192 +
  packLE 64 ((List.range 5).map (fun i => Map.get 0 e.seen i)) * 2 ^ 256 + (if lost then e.sec.shape.toNat else 0) * 2 ^ 576

def DecisionKind.num : DecisionKind → Nat
  | .fallThrough => 0 | .taken => 1 | .loopBack => 2 | .call => 3 | .ret => 4 | .endWalk => 5
def DecisionKind.ofNum : Nat → DecisionKind
  | 1 => .taken | 2 => .loopBack | 3 => .call | 4 => .ret | 5 => .endWalk | _ => .fallThrough
/-- A decision queue record, in the model's own layout (log 27). -/
def Decision.record (d : Decision) : Nat :=
  1 + d.kind.num * 2 + d.addr.toNat * 2 ^ 8 + d.rot % 32 * 2 ^ 56 +
    (match d.newp with | some p => 2 ^ 64 + p.toNat * 2 ^ 65 | none => 0)
def Decision.ofRecord (r : Nat) : Option Decision :=
  if r.testBit 0 then
    some { kind := DecisionKind.ofNum (r / 2 % 8), addr := BitVec.ofNat 48 (r / 2 ^ 8), rot := r / 2 ^ 56 % 32,
           newp := if r.testBit 64 then some (BitVec.ofNat 8 (r / 2 ^ 65)) else none }
  else none

/-- A stream binding record (06 R159). -/
def Stream.record (q : Stream) : Nat :=
  (match q.state with | .unbound => 0 | .inS => 1 | .outS => 2) + q.ety.toNat * 2 ^ 8 + q.scope.toNat * 2 ^ 16 +
  q.base.toNat * 2 ^ 64 + q.count * 2 ^ 128 + q.done * 2 ^ 192 + q.buf.length * 2 ^ 256 + q.pattern.toNat * 2 ^ 512
/-- The buffer contents, oldest entry first. -/
def Stream.bytes (q : Stream) : Nat := packLE (entryBits q.ety) (q.buf.map (fun e => e.bits.toNat))

/-- The word bits [79:0] and the opcode of a matrix or bank word. -/
def MatKind.op : MatKind → Nat
  | .mma => 0x10 | .mmaz => 0x11 | .msp => 0x12 | .mscacc => 0x13 | .mdrain => 0x14 | .mload => 0x15 | .mmv => 0x17 | .mzero => 0x02
def MatKind.ofOp : Nat → MatKind
  | 0x11 => .mmaz | 0x12 => .msp | 0x13 => .mscacc | 0x14 => .mdrain | 0x15 => .mload | 0x17 => .mmv | 0x02 => .mzero | _ => .mma
def CopyKind.op : CopyKind → Nat
  | .cpy => 1 | .cgath => 2 | .cscat => 3 | .clist => 4 | .cfill => 5
def CopyKind.ofOp : Nat → CopyKind
  | 2 => .cgath | 3 => .cscat | 4 => .clist | 5 => .cfill | _ => .cpy
def BankKind.op : BankKind → Nat
  | .bqry => 1 | .bapp => 2 | .bmv => 3 | .bflt => 5 | .bsk => 6 | .bmap => 7 | .berr => 8
def BankKind.ofOp : Nat → BankKind
  | 2 => .bapp | 3 => .bmv | 5 => .bflt | 6 => .bsk | 7 => .bmap | 8 => .berr | _ => .bqry

/-- Pending-operation records of one operation (06 R159, 08 R210, 09 R238); `snd` marks the queued second matrix operation. A `vld` has its byte count from bit 79 on
(DESIGN CHOICE, log 100). -/
def Op.records (o : Op) (snd : Bool) : List Nat :=
  let tag (k : Nat) (e : Engine) := k + e.num * 2 ^ 8
  let post := o.hn % 16 * 2 ^ 16 + b2n o.sp * 2 ^ 20
  match o.kind with
  | .vld off n phys tile whole _ => [tag 0x20 .v + off % 2 ^ 48 * 2 ^ 16 + b2n whole * 2 ^ 64 + phys % 64 * 2 ^ 65 +
      tile % 256 * 2 ^ 71 + n * 2 ^ 79]
  | .mat m => [tag 0x30 .m + m.w.bits.toNat * 2 ^ 16 + m.lb % 8 * 2 ^ 96 + m.kdone % 4096 * 2 ^ 99 + m.ashape.toNat * 2 ^ 111 +
      m.bv % 2 ^ 24 * 2 ^ 121 + m.ms % 2 ^ 24 * 2 ^ 145 + b2n snd * 2 ^ 169 + m.kind.op * 2 ^ 170 + m.flags.toNat * 2 ^ 178]
  | .copy c => [tag 0x40 .c + c.fn.toNat * 2 ^ 16 + c.imm.toNat * 2 ^ 27 + c.kind.op * 2 ^ 75 + c.a.toNat * 2 ^ 83 + c.b.toNat * 2 ^ 147,
      tag 0x41 .c + c.c.toNat * 2 ^ 16 + c.done % 2 ^ 64 * 2 ^ 80]
  | .bank b => [tag 0x70 .b + b.w.bits.toNat * 2 ^ 16 + b.c.toNat * 2 ^ 96 + b.doneI.toNat * 2 ^ 160 + b.kind.op * 2 ^ 224,
      tag 0x71 .b + b.a.toNat * 2 ^ 16 + b.b.toNat * 2 ^ 80]
  | .cgate on => [tag 0x61 .s + post + b2n on * 2 ^ 21]
  | .send x => [tag 0x81 .c + x.fn.toNat % 8 * 2 ^ 16 + b2n o.sp * 2 ^ 19 + o.hn % 16 * 2 ^ 20]
  | .tlbinv .. | .mpage .. | .kvfind .. | .rqhand .. | .rqcan .. | .publish .. | .recirc .. => [tag 0x80 .s + post]
  | .rqdone .. => []

/-- The operations of a context that a stop has not taken away: not those of a strand that was stopped in it before. -/
def State.opsOf (s : State) (ck : Nat) : List Op := s.ops.filter (fun o => o.ck == ck && o.saved.isNone && !o.dead)
/-- A held load (07 R186). -/
def HeldLoad.record (l : HeldLoad) : Nat :=
  0x10 + 0x100 + l.ea.toNat * 2 ^ 16 + l.n.log2 % 8 * 2 ^ 80 + b2n l.signed * 2 ^ 83 + (match l.dest with | .a d => 0x40 + d % 32 | _ => 0) * 2 ^ 84
/-- The level of a strand's region, or that for which it waits since a resume (15 R327). -/
def State.heldLevel (s : State) (ck : Nat) : Option Nat :=
  (s.strand ck).level.orElse (fun _ => ((s.die (ckDie ck)).waitPwr.find? (fun p => p.1 == ck && p.2.2)).map (fun p => p.2.1))
/-- Every pending-operation record of a strand, in the model's order: marks, engine work, waits and bits. -/
def State.records (s : State) (ck : Nat) : List Nat :=
  let st := s.strand ck
  let ops := s.opsOf ck
  (st.loads.filter (fun l => match l.dest with | .a _ => true | _ => false)).map (fun l => l.record) ++
  (if st.amark = 0 then [] else [0x12 + 0x100 + st.amark.toNat * 2 ^ 16]) ++
  (if st.vmark = 0 then [] else [0x21 + 0x200 + st.vmark.toNat * 2 ^ 16]) ++
  (ops.foldl (fun (a : List Nat × Bool) o =>
    (a.1 ++ o.records a.2, a.2 || (match o.kind with | .mat _ => true | _ => false))) ([], false)).1 ++
  (match st.park with
    | some p => [0x50 + p.obj.toNat * 2 ^ 16 + p.gen.toNat * 2 ^ 80 + b2n p.group * 2 ^ 144]
    | none => []) ++
  (if st.groups = [] then [] else
    [0x51 + packLE 44 (st.groups.map (fun m => fld m.addr 49 6)) * 2 ^ 16 + (2 ^ st.groups.length - 1) * 2 ^ 192 +
      packLE 1 (st.groups.map (fun m => b2n m.arrived)) * 2 ^ 196]) ++
  (if st.cerr then [0x52 + 2 ^ 16] else []) ++
  (match s.heldLevel ck with | some l => [0x60 + l % 256 * 2 ^ 16] | none => []) ++
  (if st.berr = 0 then [] else [0x72 + 5 * 2 ^ 8 + st.berr.toNat / 2 ^ 8 % 2 ^ 120 * 2 ^ 16])

/-- The engines whose bypass values a stop now loses (01 R37). -/
def Strand.lostNow (st : Strand) : List Engine := [Engine.v, .m].filter (fun e => (st.eng e).inside)

/-- The snapshot header (06 R158). -/
def State.headerDwords (s : State) (ck npend : Nat) (y : Option YieldPoint) (lost : List Engine) : Nat :=
  let st := s.strand ck
  let c := s.ctx ck
  let y' := y.getD { secn := 0, v := BitVec.allOnes 64, s := BitVec.allOnes 64, a := BitVec.allOnes 32, m := BitVec.allOnes 8, z := BitVec.allOnes 2 }
  1 + (ckProfile ck).code * 2 ^ 32 + b2n y.isSome * 2 ^ 34 + b2n (lost.contains .v) * 2 ^ 35 + b2n (lost.contains .m) * 2 ^ 36 +
  ckCtx ck * 2 ^ 40 + ctxSlot c * 2 ^ 43 + (ctxAsid c).toNat * 2 ^ 48 +
  y'.v.toNat * 2 ^ 64 + y'.s.toNat * 2 ^ 128 + y'.a.toNat * 2 ^ 192 + y'.m.toNat * 2 ^ 224 + y'.z.toNat * 2 ^ 232 +
  packLE 64 [st.prioc.toNat + fld st.prioc 1 0 * 2 ^ 4, st.slipw, st.fstat.toNat, st.rotb.toNat, st.vshape.toNat, st.ashape.toNat,
    st.tgb.toNat, st.rsdep, st.rsbase.toNat] * 2 ^ 256 +
  npend % 2 ^ 16 * 2 ^ 832 + b2n st.accp * 2 ^ 864

/-- Rows and columns of the accumulators of a profile (09 R211). -/
def accDims : Profile → Nat × Nat
  | .p => (256, 384) | .d => (16, 512) | _ => (0, 0)
/-- Offset of accumulator `z` in the save area. -/
def zOff (pf : Profile) (z : Nat) : Nat := 0x36000 + z * (4 * (accDims pf).1 * (accDims pf).2)

/-- The dwords of a snapshot that are not zero by the state alone; regions that a profile lacks are absent (06 R157). -/
def State.image (s : State) (ck : Nat) (y : Option YieldPoint) (lost : List Engine) : Image :=
  let st := s.strand ck
  let pf := ckProfile ck
  let rs := (s.records ck).take 256
  dwords 0 (s.headerDwords ck rs.length y lost) 32 ++
  Engine.all.flatMap (fun e =>
    if pf.has e then dwords (0x100 + 0x80 * e.num) ((st.eng e).record (lost.contains e)) 16 else []) ++
  (List.range (min st.dq.length 64)).flatMap (fun i =>
    match st.dq[i]? with | some d => dwords (0x400 + 0x20 * i) d.record 4 | none => []) ++
  st.s.filterMap (fun p => if p.1 < 64 then some (0xC00 + 8 * p.1, p.2.toNat) else none) ++
  st.a.filterMap (fun p => if p.1 < 32 then some (0xE00 + 8 * p.1, p.2.toNat) else none) ++
  (List.range 16).map (fun i => (0xF00 + 8 * i, (st.sem i).value + (st.sem i).posted + (st.sem i).ceil * 2 ^ 16 + ((st.sem i).held + (st.sem i).applied) % 2 ^ 16 * 2 ^ 32)) ++
  (List.range 8).map (fun i => (0xF80 + 8 * i, Map.get 0 st.n i)) ++
  (List.range 16).map (fun i => (0x1000 + 8 * i, ((st.rstack.reverse)[i]?.getD 0).toNat)) ++
  (if pf = .mc then [] else
    (List.range rs.length).flatMap (fun i => dwords (0x2000 + 0x20 * i) (rs.getD i 0) 4) ++
    (List.range 16).flatMap (fun q => dwords (0x4000 + 0x100 * q) (st.stream q).record 16) ++
    (List.range 16).flatMap (fun q =>
      if (st.stream q).buf = [] then [] else dwords (0x5000 + 0x1000 * q) (st.stream q).bytes 512) ++
    (st.m.filter (fun p => decide (p.1 < 8))).flatMap (fun p => dwords (0x15000 + 0x200 * p.1) p.2.toNat 64) ++
    (st.v.filter (fun p => decide (p.1 < 64))).flatMap (fun p => dwords (0x16000 + 0x800 * p.1) p.2.toNat 256) ++
    (if (accDims pf).1 = 0 then [] else
      (List.range 2).flatMap (fun z => (List.range ((accDims pf).1 * (accDims pf).2 / 2)).filterMap (fun i =>
        let v := (Map.get (0 : BitVec 48) st.z (zKey z (2 * i))).toNat % 2 ^ 32 + (Map.get (0 : BitVec 48) st.z (zKey z (2 * i + 1))).toNat % 2 ^ 32 * 2 ^ 32
        if v = 0 then none else some (zOff pf z + 8 * i, v)))))

/-- A mask of v registers by physical number (05 R121, R126). -/
def physMask (rotb v : Nat) : Nat :=
  (onesOf v 64).foldl (fun m r => m ||| 2 ^ (if r < 32 then r else 32 + (r - 32 + rotb) % 32)) 0
/-- The ranges, as offset and size, that a save writes (10 R248): all of the area, or those of a compact save. -/
def State.areaRanges (s : State) (ck : Nat) : Option YieldPoint → List (Nat × Nat)
  | none => [(0, areaBytes (ckProfile ck))]
  | some y =>
    let st := s.strand ck
    let pf := ckProfile ck
    [(0, 0x400)] ++ (onesOf y.s.toNat 64).map (fun i => (0xC00 + 8 * i, 8)) ++ (onesOf y.a.toNat 32).map (fun i => (0xE00 + 8 * i, 8)) ++
    [(0xF00, 0xC0), (0x1000, 0x80)] ++
    (if pf = .mc then [] else
      [(0x2000, 0x20 * min (s.records ck).length 256), (0x4000, 0x1000)] ++
      (List.range 16).filterMap (fun q => if (st.stream q).state = .unbound then none else some (0x5000 + 0x1000 * q, 0x1000)) ++
      (onesOf y.m.toNat 8).map (fun i => (0x15000 + 0x200 * i, 0x200)) ++
      (onesOf (physMask st.rotb.toNat y.v.toNat) 64).map (fun i => (0x16000 + 0x800 * i, 0x800)) ++
      (if (accDims pf).1 = 0 then [] else
        (onesOf y.z.toNat 2).map (fun z => (zOff pf z, 4 * (accDims pf).1 * (accDims pf).2))))

/-- The lines of a run of one granule have been written: the units of the die that watch it see so (16 R350, 17 R366, R372). -/
def State.noteWrites (s : State) (key n : Nat) : State :=
  if s.rcPhase (keyDie key) ≠ 1 ∧ (s.die (keyDie key)).mover.isNone then s
  else (linePieces key n).foldl (fun s p => s.noteWrite p.2.1) s
/-- The bytes of a run of one 4 KiB granule become zero, unpoisoned and partition 0's (17 R354, log 13). -/
def State.zeroRun (s : State) (d off n : Nat) : State :=
  match s.homeKey d off with
  | none => s
  | some key =>
    if s.lostBank key then s else
    let inB (k : Nat) := decide (key ≤ k) && decide (k < key + n)
    let inL (k : Nat) := decide (key ≤ 64 * k) && decide (64 * k + 64 ≤ key + n)
    ({ s with mem := s.mem.filter (fun p => !inB p.1), poison := s.poison.filter (fun k => !inL k),
              tags := if s.encrypted key then s.tags.map (fun p => if inL p.1 then (p.1, s.keyTag 0) else p) else s.tags } : State).noteWrites key n
/-- A range of a die becomes zero, granule by granule. -/
def State.zeroRange (s : State) (d off n : Nat) : State :=
  (List.range ((off + n + 4095) / 4096 - off / 4096)).foldl (fun s i =>
    let lo := max off (4096 * (off / 4096 + i))
    let hi := min (off + n) (4096 * (off / 4096 + i + 1))
    s.zeroRun d lo (hi - lo)) s
/-- A snapshot written at the context's save area (10 R248); the strand is kept beside it (log 28). -/
def State.writeArea (s : State) (ck : Nat) (y : Option YieldPoint) (lost : List Engine) : State :=
  let d := ckDie ck
  let base := s.snapa ck
  let rs := s.areaRanges ck y
  let img := s.image ck y lost
  let kept := s.strand ck
  let s := rs.foldl (fun s r =>
    if r.1 % 64 = 0 ∧ r.2 % 64 = 0 then s.zeroRange d (base + r.1) r.2 else s.wrPhysRun d (base + r.1) 0 (r.2 / 8)) s
  let s := img.foldl (fun s p =>
    if p.2 = 0 ∨ !(rs.any (fun r => decide (r.1 ≤ p.1) && decide (p.1 < r.1 + r.2))) then s else s.wrPhys d (base + p.1) p.2 8) s
  { s with saved := Map.put s.saved (d * 2 ^ 46 + base) kept }

/-- A dword of a context's trap control block and save area: offset as in 10 R251; offsets below 0 wrap modulo 2^46 (DESIGN CHOICE, log 95). -/
def State.areaDword (s : State) (ck o : Nat) : Nat := s.rdPhys (ckDie ck) ((s.snapa ck + o + 2 ^ 46 - 0x80) % 2 ^ 46) 8
/-- `n` dwords of the save area from a snapshot offset on. -/
def State.areaRead (s : State) (ck off n : Nat) : Nat := s.rdPhys (ckDie ck) (s.snapa ck + off) (8 * n)

/-- Class code of a trap class (10 R239). -/
def TrapClass.code : TrapClass → Nat
  | .illegalInstruction => 0x01 | .illegalSection => 0x02 | .engineAbsent => 0x03 | .privilege => 0x04 | .software => 0x05
  | .stackOverflow => 0x06 | .stackUnderflow => 0x07 | .alignment => 0x08 | .vaultRange => 0x09 | .tileRange => 0x0A
  | .streamBinding => 0x0B | .vectorShape => 0x0C | .matrixShape => 0x0D | .semaphoreCeiling => 0x0E | .poisonConsumed => 0x0F
  | .noRoute => 0x10 | .partition => 0x11 | .staleTopology => 0x12 | .powerExceeded => 0x13 | .fifoClosed => 0x14
  | .contextError => 0x15 | .probeFault => 0x18 | .fatalContext => 0x20 | .powerKill => 0x30 | .machineCheck => 0x31
  | .softwareKill => 0x32
/-- An in-kernel handler may receive the class (10 R239). -/
def TrapClass.eligible (c : TrapClass) : Bool := decide (c.code ≤ 0x15)

/-- The position of an engine stream for a trap at its next word or header. -/
def EStream.trapAt (e : EStream) (x : Engine) : TrapAt :=
  match e.pos with
  | .words => { eng := x.num, widx := e.widx, dsec := e.secn - 1, text := e.walk.toNat }
  | _ => { eng := x.num, widx := 0x7FF, dsec := e.secn, text := e.walk.toNat }
/-- The position that a kill records (10 R242). -/
def Strand.killAt (st : Strand) : TrapAt :=
  { eng := 7, widx := 0x7FF, dsec := (st.eng .s).secn, text := (st.eng .s).walk.toNat }

/-- The virtual address of a text address (01 R13, R18): WALK holds its low 48 bits; the bits above are those of the strand's text segment,
zero where none is known (DEDUCED, log 43). -/
def Strand.textVA (st : Strand) (a : Nat) : Nat :=
  match st.text with | some (b, _) => b / 2 ^ 48 * 2 ^ 48 + a % 2 ^ 48 | none => a
/-- Now, for a trap of the context. -/
def State.trapNow (s : State) (ck : Nat) : TrapWhen := ⟨s.time, s.ftime, s.requested ck⟩
/-- The trap record written in the trap control block (10 R242). -/
def State.writeTrap (s : State) (ck : Nat) (t : TrapInfo) (p : TrapAt) (w : TrapWhen) (hdl : Bool) (lost : List Engine) : State :=
  let st := s.strand ck
  let r := t.cls.code + p.eng * 2 ^ 8 + b2n hdl * 2 ^ 11 + b2n st.hdl * 2 ^ 12 + b2n (lost.contains .v) * 2 ^ 13 + b2n (lost.contains .m) * 2 ^ 14 +
    b2n w.asked * 2 ^ 15 + t.code.toNat * 2 ^ 16 + p.widx * 2 ^ 32 + p.dsec % 2 ^ 64 * 2 ^ 64 + st.textVA p.text % 2 ^ 64 * 2 ^ 128 +
    t.info.toNat * 2 ^ 192 + (s.snapa ck + ckDie ck * 2 ^ 46) * 2 ^ 256 + w.ft / 11 % 2 ^ 64 * 2 ^ 320
  s.wrPhysRun (ckDie ck) ((s.snapa ck + 2 ^ 46 - 0x40) % 2 ^ 46) r 8

/-- Die and offset of a context's save area as one key. -/
def State.areaKey (s : State) (ck : Nat) : Nat := ckDie ck * 2 ^ 46 + s.snapa ck
/-- The strand last stopped into the context's save area. -/
def State.kept (s : State) (ck : Nat) : Strand := Map.get Strand.init s.saved (s.areaKey ck)

/-- `n` bytes of program text at a virtual address as the context reads them; none where a byte is not mapped. -/
def State.rdText (s : State) (ck addr n : Nat) : Option (Nat × Bool) :=
  match s.rdRange (s.me? ck) addr n with | (v, p, none) => some (v, p) | _ => none

/-- Registers of a file read back: `n` entries of `w` bytes from a snapshot offset, those outside the live mask zero. -/
def State.areaFile (s : State) (ck off n w live : Nat) : Map Nat :=
  (onesOf live n).filterMap (fun i =>
    let v := s.rdPhys (ckDie ck) (s.snapa ck + off + w * i) w
    if v = 0 then none else some (i, v))

/-- An engine stream read back from its record (06 R159): where the strand kept beside the area stands at the recorded position,
its section is taken from there (log 28); otherwise WIDX 0 stands at a header and a later word finds its header below it. -/
def State.restoreEng (s : State) (ck : Nat) (r : Nat) (kept : EStream) (useKept : Bool) (dqpos : Nat) : EStream :=
  let walk := BitVec.ofNat 48 r
  let secn := r / 2 ^ 64 % 2 ^ 64
  let widx := r / 2 ^ 128 % 2 ^ 16
  let lost := r.testBit 153
  let retc := r / 2 ^ 192 % 2 ^ 64
  let seen : Map Nat := (List.range 5).map (fun i => (i, r / 2 ^ (256 + 64 * i) % 2 ^ 64))
  let h := walk.toNat - 12 * widx - 8
  let base : EStream :=
    if useKept then { kept with seen := seen, dqpos := dqpos }
    else
      let e0 : EStream := { EStream.init walk with secn := secn, secn0 := secn, seen := seen, dqpos := dqpos, owned := retc }
      match (if widx = 0 ∧ !lost then none else s.rdText ck ((s.kept ck).textVA h) 8) with
      | some (hd, _) => { e0 with
          widx := widx, owned := retc + 1, pos := .words,
          sec := { Section.init with hdr := BitVec.ofNat 64 hd, addr := BitVec.ofNat 48 h, dsec := secn - 1, ord := retc, begun := true } }
      | none => e0
  let base := { base with preds := BitVec.ofNat 16 (r / 2 ^ 160), pass := r / 2 ^ 154 % 8, flight := [], bypass := [], secn0 := secn, acted := none }
  if lost then { base with pos := .words, widx := 0, sec := { base.sec with begun := false, waits := [] } } else base

/-- The strand that a save area holds, registers not named live at zero (10 R250), with what the layout has no room for taken from the
strand kept beside it (log 28). Outstanding operations are rebuilt apart. -/
def State.restoreStrand (s : State) (ck : Nat) : Strand :=
  let kept := s.kept ck
  let pf := ckProfile ck
  let hd := s.areaRead ck 0 32
  let ys := hd.testBit 34
  let live (lo n : Nat) : Nat := if ys then hd / 2 ^ lo % 2 ^ n else 2 ^ n - 1
  let sysr (i : Nat) : Nat := hd / 2 ^ (256 + 64 * i) % 2 ^ 64
  let dq := if ys then [] else (List.range 64).filterMap (fun i => Decision.ofRecord (s.areaRead ck (0x400 + 0x20 * i) 4))
  let er (e : Engine) : Nat := s.areaRead ck (0x100 + 0x80 * e.num) 16
  let useKept := (enginesOf pf).all (fun e =>
    let k := kept.eng e
    let r := er e
    k.walk == BitVec.ofNat 48 r && decide (k.secn = r / 2 ^ 64 % 2 ^ 64) && decide (k.widx = r / 2 ^ 128 % 2 ^ 16)) && kept.dq == dq
  let sdq := er .s / 2 ^ 144 % 64
  let b := if useKept then kept.dqbase else (sdq + 64 - dq.length % 64) % 64
  let dqp (e : Engine) : Nat := if useKept then (kept.eng e).dqpos else b + (er e / 2 ^ 144 + 64 - b) % 64
  let es : Map EStream := (enginesOf pf).map (fun e => (e.num, s.restoreEng ck (er e) (kept.eng e) useKept (dqp e)))
  let np := if pf = .mc then 0 else min (hd / 2 ^ 832 % 2 ^ 16) 256
  let recs := (List.range np).map (fun i => s.areaRead ck (0x2000 + 0x20 * i) 4)
  let find (k : Nat) : Option Nat := recs.find? (fun r => r % 256 == k)
  let stk := (List.range (if kept.rsdep = sysr 7 ∧ useKept then kept.rstack.length else min (sysr 7) 16)).map (fun i => w64 (s.areaRead ck (0x1000 + 8 * i) 1))
  let streams : Map Stream := if pf = .mc then [] else (List.range 16).filterMap (fun q =>
    let r := s.areaRead ck (0x4000 + 0x100 * q) 16
    if r % 256 = 0 then none
    else
      let ety := BitVec.ofNat 4 (r / 2 ^ 8)
      let occ := min (r / 2 ^ 256 % 2 ^ 64) (32768 / entryBits ety)
      let bytes := s.areaRead ck (0x5000 + 0x1000 * q) 512
      let marks := (kept.stream q).buf.map (fun e => e.mark)
      let buf := (List.range occ).map (fun i =>
        { bits := BitVec.ofNat 16384 (bytes / 2 ^ (entryBits ety * i) % 2 ^ entryBits ety), mark := marks.getD i false })
      some (q, { state := if r % 256 = 1 then BindState.inS else .outS, ety, scope := BitVec.ofNat 2 (r / 2 ^ 16), base := w64 (r / 2 ^ 64),
                 count := r / 2 ^ 128 % 2 ^ 64, done := r / 2 ^ 192 % 2 ^ 64, pattern := BitVec.ofNat 512 (r / 2 ^ 512), buf, gen := (kept.stream q).gen, tabs := (kept.stream q).tabs }))
  let accp := hd.testBit 864
  let zs : Map (BitVec 48) :=
    if !accp then [] else (onesOf (live 232 2) 2).flatMap (fun z =>
      (List.range ((accDims pf).1 * (accDims pf).2)).filterMap (fun i =>
        let lo := s.rdPhys (ckDie ck) (s.snapa ck + zOff pf z + 4 * i) 4
        let v : BitVec 48 := BitVec.ofNat 48 (lo + (Map.get (0 : BitVec 48) kept.z (zKey z i)).toNat / 2 ^ 32 * 2 ^ 32)
        if v = 0 then none else some (zKey z i, v)))
  let word (p : Nat × Nat) : Nat × Word := (p.1, w64 p.2)
  { kept with
    s := (s.areaFile ck 0xC00 64 8 (live 128 64)).map word,
    a := (s.areaFile ck 0xE00 32 8 (live 192 32)).map word,
    amark := BitVec.ofNat 32 ((find 0x12).getD 0 / 2 ^ 16 &&& live 192 32),
    v := if pf = .mc then [] else (s.areaFile ck 0x16000 64 2048 (physMask (sysr 3) (live 64 64))).map (fun p => (p.1, BitVec.ofNat 16384 p.2)),
    vmark := BitVec.ofNat 64 ((find 0x21).getD 0 / 2 ^ 16 &&& physMask (sysr 3) (live 64 64)),
    m := if pf = .mc then [] else (s.areaFile ck 0x15000 8 512 (live 224 8)).map (fun p => (p.1, BitVec.ofNat 4096 p.2)),
    z := zs,
    ztag := if accp then kept.ztag.filter (fun p => decide (live 232 2 / 2 ^ p.1 % 2 = 1)) else [],
    accp,
    q := streams,
    h := (List.range 16).map (fun i =>
      let x := s.areaRead ck (0xF00 + 8 * i) 1
      (i, { value := x % 2 ^ 16, ceil := x / 2 ^ 16 % 2 ^ 16, held := x / 2 ^ 32 % 2 ^ 16, posted := 0, applied := 0 })),
    n := (List.range 8).map (fun i => (i, s.areaRead ck (0xF80 + 8 * i) 1 % 2 ^ 16)),
    rstack := stk.reverse,
    rsdep := sysr 7 % 512, rsbase := w64 (sysr 8 / 2 ^ 11 % 2 ^ 12 * 2 ^ 11), prioc := BitVec.ofNat 6 (sysr 0 % 16), slipw := sysr 1 % 128,
    fstat := BitVec.ofNat 7 (sysr 2), fstat0 := BitVec.ofNat 7 (sysr 2), rotb := BitVec.ofNat 5 (sysr 3),
    vshape := if (er .v).testBit 153 then BitVec.ofNat 13 (er .v / 2 ^ 576) else BitVec.ofNat 13 (sysr 4),
    ashape := if (er .m).testBit 153 then BitVec.ofNat 10 (er .m / 2 ^ 576) else BitVec.ofNat 10 (sysr 5),
    tgb := BitVec.ofNat 32 (sysr 6), phs := false,
    cerr := if pf = .mc then kept.cerr else (find 0x52).getD 0 / 2 ^ 16 % 2 == 1,
    es, dq, dqbase := b, pbuf := [], loads := [], failed := none,
    groups := if pf = .mc then kept.groups else match find 0x51 with
      | none => []
      | some r => ((List.range 4).filter (fun i => r.testBit (192 + i))).map (fun i =>
          let addr := w64 (r / 2 ^ (16 + 44 * i) % 2 ^ 44 * 2 ^ 6)
          let old := kept.groups.find? (fun m => m.addr == addr)
          { addr, asid := ctxAsid (s.ctx ck), part := ctxPart (s.ctx ck),
            arrived := r.testBit (196 + i) && (match old with | some m => m.arrived | none => true) }),
    park := if pf = .mc then kept.park else (find 0x50).map (fun r =>
      { obj := w64 (r / 2 ^ 16), gen := w64 (r / 2 ^ 80), group := r.testBit 144 }),
    yieldp := none, bout := 0, grants := [], regionAt := 0, hdl := false, pend := none, slow := false, closing := false, full := false, skip := none, recIn := none, await := [],
    later := [], laterQ := [], laterH := [], posts := [], fullAt := 0, bandW := false,
    berr := BitVec.ofNat 512 ((find 0x72).getD 0 / 2 ^ 16 % 2 ^ 120 * 2 ^ 8)
    level := (find 0x60).map (fun r => r / 2 ^ 16 % 256) }

/-- A strand that is not running, as its save area names it: S's position (10 R242) and the memberships (12 R270) are the recorded ones, where the area holds a snapshot
of this core's profile (10 R250). -/
def State.stoppedStrand (s : State) (ck : Nat) : Strand :=
  let r := s.areaRead ck 0x100 16
  let hd := s.areaRead ck 0 1
  let st := (s.kept ck).modEng .s (fun e => { e with walk := BitVec.ofNat 48 r, secn := r / 2 ^ 64 % 2 ^ 64 })
  if hd % 2 ^ 32 = 1 ∧ hd / 2 ^ 32 % 4 = (ckProfile ck).code then { st with groups := (s.restoreStrand ck).groups } else st

end Sys2Proof.Machine
end

