-- ==== Sys2Proof/Machine/Ops.lean ====
section
/-! DEFINITION. The shared operations of the core: stopping a strand, taking a trap and returning from one (01 R38, 10 R243 to
R248), kills and fatal errors (10 R247), the decision queue (01 R25 to R27), the checks made as a word issues (02 R62), and the
frame of every word: predicate, plan, effect (01 R32, R34, R35). -/

namespace Sys2Proof.Machine

/-- What a step answers. -/
abbrev Out := Host.Outcome State Fault Refusal

/-- DONE, CAUSE and REQ of CSTOP when a stop or a request is answered (10 R247). -/
def State.answer (s : State) (ck cause : Nat) : State :=
  s.setCstop ck (setBit (setBit (setFld (s.cstop ck) 39 32 cause) 40 true) 0 false)
/-- The context is free: VALID 0, its strand gone, and with it the older bytes that its paths might have read (13 R299). -/
def State.freeCtx (s : State) (ck : Nat) : State :=
  { s.setCtx ck (setBit (s.ctx ck) 0 false) with strands := Map.del s.strands ck, shadows := s.shadows.filter (fun x => x.ck != ck) }

/-- A binding may take the state that `qbind` or `qfree` left to the end of the aclk (07 R175): an OUT binding once every entry pushed has
been stored. -/
def Strand.bindingFree (st : Strand) (q : Nat) : Bool :=
  (st.stream q).state != .outS || ((st.stream q).buf == [] && Engine.all.all (fun e => (st.eng e).flight.all (fun f => f.dest != .q q)))
/-- The word that the stream issued in this aclk waits after all: it stands there again. -/
def EStream.unissue (e : EStream) : EStream :=
  { e with walk := e.walk - 12, widx := (if e.pos = .words then e.widx else hdrLen e.sec.hdr) - 1, pos := .words }
/-- What this aclk's words left to its end takes effect as the next begins (06 R150, 05 R122, R130, 09 R236, 07 R175, 15 R327). `fstat0` keeps FSTAT as it
stands before the writes of this aclk clear it (04 R84), a write of ROTB comes after a rotation of its aclk (05 R122), and the `semi` words of the aclk stand in engine
order (09 R236). A `qfree` of an OUT binding to which an entry has been pushed since has not issued (07 R175, R186). -/
def Strand.endAclk (st : Strand) : Strand :=
  let st : Strand := { st with fstat0 := st.fstat, h := st.h.map (fun p => (p.1, p.2.settle)) }
  let st := Engine.all.foldl (fun st e => (st.laterH.filter (fun p => p.1 == e.num)).foldl (fun st p => st.setSem p.2.1 p.2.2) st) st
  let waits := st.laterQ.any (fun p => !st.bindingFree p.1)
  let st := (st.laterQ.filter (fun p => st.bindingFree p.1)).foldl (fun st p => st.setStream p.1 p.2) { st with laterQ := [] }
  let st := if waits then st.modEng .a EStream.unissue else st
  let st := (st.later.filter (fun p => p.1 == 0x1001) ++ st.later.filter (fun p => p.1 != 0x1001)).foldl (fun st p =>
    match p.1 with
    | 0 => { st with slipw := p.2.toNat }
    | 1 => { st with prioc := setFld st.prioc 1 0 p.2.toNat }
    | 2 => { st with fstat := st.fstat &&& ~~~(p.2.setWidth 7) }
    | 0x11 => { st with rotb := p.2.setWidth 5 }
    | 0x1001 => { st with rotb := st.rotb - p.2.setWidth 5 }
    | 0x1000 => { st with level := none }
    | _ => st) st
  { st with
    laterH := [], later := [],
    es := st.es.map (fun p => (p.1, { p.2 with flight := p.2.flight.filter (fun f => f.val != .defer) })) }

/-- An operation of the strand that runs in the context: not one of a strand that was stopped there before (15 R323). -/
def Op.mine (o : Op) (ck : Nat) : Bool := o.ck == ck && !o.dead && o.saved.isNone
/-- An operation that goes on: its strand is neither stopped nor in a handler (10 R244, R248). -/
def Op.live (o : Op) : Bool := o.saved.isNone && !o.held
/-- Entries of a matrix operand that the operation popping them has taken go back to their binding, whose DONE names the first entry with a bit
of k-step KDONE and whose buffer is emptied (09 R238). A binding that none pops keeps its buffer (06 R159). -/
def State.rewindMat (s : State) (ck : Nat) : State :=
  { (s.ops.foldl (fun s o =>
      match o.kind with
      | .mat m => if o.mine ck ∧ (m.got ≠ 0 ∨ m.kdone ≠ 0) then
          s.modStrand ck (fun st =>
            let q := st.stream m.w.qa.toNat
            st.setStream m.w.qa.toNat { q with done := q.done - m.got, buf := [] })
        else s
      | _ => s) s) with
    ops := s.ops.map (fun o =>
      match o.kind with
      | .mat m => if o.mine ck then { o with kind := .mat { m with got := 0, abits := 0, alen := 0 } } else o
      | _ => o) }

/-- A stop captures the operation's work in a record and takes it away; one that proceeds whatever becomes of its strand stays
(15 R323, 17 R374, 20 R414, 21 R419, 23 R449, R455). -/
def OpKind.proceeds : OpKind → Bool
  | .vld .. => false | .mat _ => false | .copy _ => false | .bank _ => false
  | .cgate _ => true | .tlbinv .. => true | .mpage .. => true | .kvfind .. => true | .rqhand .. => true | .rqcan .. => true
  | .rqdone .. => false | .publish .. => true | .recirc _ _ _ _ stage => stage != .sent | .send _ => true

/-- A new operation of the executing strand: its number is the one `nextId` names. -/
def State.addOp (s : State) (sp : Bool) (hn : Nat) (k : OpKind) : State :=
  { s with nextId := s.nextId + 1,
           ops := s.ops ++ [{ id := s.nextId, born := s.time, ck := s.cur.ck, sid := s.me.sid, core := s.cur.ck / 8, asid := s.myAsid, part := s.myPart, saved := none, held := false, dead := false, sp, hn, fin := false, kind := k }] }
/-- The die whose core issued the operation. -/
def Op.die (o : Op) : Nat := o.core / 64
def State.op? (s : State) (id : Nat) : Option Op := s.ops.find? (fun o => o.id == id)
/-- An operation that may complete now: outstanding, issued before this aclk, not taken away by a stop, and no engine of its core has issued in this aclk:
completions come first (06 R148, R151). -/
def State.ready (s : State) (o : Op) : Bool :=
  decide (o.born < s.time) && !o.fin && (o.live || o.kind.proceeds) && Map.get 0 s.issued o.core == 0
def State.setOp (s : State) (o : Op) : State := { s with ops := s.ops.map (fun p => if p.id = o.id then o else p) }
def State.dropOp (s : State) (id : Nat) : State := { s with ops := s.ops.filter (fun p => p.id != id) }
/-- The end of a full or compact save (10 R248): what is in flight has landed and the buffer is published; the save area is written,
the operations leave with it, and the context shows STOP. PHS is cleared (23 R452). -/
def State.finishStop (s : State) (ck : Nat) (y : Option YieldPoint) (lost : List Engine) (cause : Nat) : State :=
  let s := (s.rewindMat ck).modStrand ck (fun st => { st with phs := false })
  let key := s.areaKey ck
  let s := s.writeArea ck y lost
  let s : State := { s with ops := s.ops.filterMap (fun o =>
    if o.mine ck then (if o.kind.proceeds then some { o with saved := some key, held := false } else none) else some o) }
  let s := s.modStrand ck (fun st => { st with level := none, grants := [], full := false, bout := 0, pend := none, slow := false, recIn := none })
  let s := s.modDie (ckDie ck) (fun d => { d with waitPwr := d.waitPwr.filter (fun p => p.1 != ck) })
  (s.setCtx ck (setBit (s.ctx ck) 1 true)).answer ck cause

/-- Status carried to the completion barrier object by a kill (12 R265). -/
def killStatus (c : TrapClass) : Nat := if c = .powerKill then 2 else 1

/-- A kill or a fatal error (10 R247, 12 R265, R270, 20 R396): record, no snapshot, operations cancelled at piece boundaries or left to
proceed without their posts, memberships removed, the completion object reached, the context freed. A fatal error is recorded
as a kill is (DESIGN CHOICE, log 103). -/
def State.killWith (s : State) (ck : Nat) (t : TrapInfo) : State :=
  let s := s.performOwn ck
  let run := s.running? ck
  let key := s.areaKey ck
  let st := if run then s.strand ck else s.stoppedStrand ck
  let s := (s.setStrand ck st).writeTrap ck t st.killAt (s.trapNow ck) false st.lostNow
  let mine (o : Op) : Bool := if run then o.mine ck else o.saved == some key
  let s : State := { s with ops := s.ops.filterMap (fun o =>
    if mine o then (if o.kind.proceeds then some { o with dead := true } else none) else some o) }
  let s := s.modDie (ckDie ck) (fun d => { d with waitPwr := d.waitPwr.filter (fun p => p.1 != ck) })
  let g := s.me? ck
  let s := s.removeGroups g.part st.groups
  let s := s.arrive g st.bar (killStatus t.cls) 0
  let s : State := match st.rq with
    | some (r, l) => { s with reports := s.reports ++ [(r, l, decide (t.cls = .powerKill))] }
    | none => s
  (s.answer ck 6).freeCtx ck
def State.fatal (s : State) (ck : Nat) (va : Word) : State := s.killWith ck { cls := .fatalContext, code := 0, info := va }

/-- A region that `pwrrel` ends in this aclk keeps its level granted while array operations issued in it are outstanding (15 R327; DEDUCED, log 91). -/
def State.regionEnd (s : State) (ck : Nat) : State :=
  let st := s.strand ck
  match st.level with
  | some l =>
    if st.later.any (fun p => p.1 == 0x1000) then
      s.setStrand ck { st with grants := (st.grants.filter (fun g => g.2.any (fun i => (s.op? i).isSome))) ++
        [(l, (s.ops.filter (fun o => o.mine ck && decide (st.regionAt ≤ o.id) && (match o.kind with | .mat m => m.kind != .mzero | _ => false))).map (fun o => o.id))] }
    else s
  | none => s

/-- Requests of a stopping strand are performed and its results land, this aclk's writes among them (10 R248). -/
def State.landStop (s : State) (ck : Nat) : State :=
  (((s.regionEnd ck).performOwn ck).monLandings ck).modStrand ck (fun st => { st.endAclk.landEvery with loads := [] })

/-- The same, where loads still on their way are held: they are captured, and performed again on resume (07 R186). -/
def State.holdStop (s : State) (ck : Nat) : State :=
  let s := s.holdLoads ck (if ckProfile ck = .mc then [] else s.heldLoads ck)
  let held := (s.strand ck).loads
  (s.landStop ck).modStrand ck (fun st => { st with loads := held })

/-- The streams that lose bypass values stand again at word 0 of their sections (01 R37). -/
def State.rewindLost (s : State) (ck : Nat) (lost : List Engine) : State :=
  if lost = [] then s else s.modStrand ck (fun st => lost.foldl (fun st e => st.modEng e (fun x => x.restart)) st)
/-- A request of the strand whose translation failed has its failure answered (17 R360). -/
def State.failing (s : State) (ck : Nat) : State :=
  match (s.strand ck).failed with | some va => if s.running? ck then s.fatal ck va else s | none => s
/-- A full or compact save (10 R248): the buffer is published at P before the area is written; a publication that fails translation is a
fatal context error instead (13 R289). One that waits for a frozen pod (23 R442) keeps the streams stopped until it is over. `record` writes the record of a trap
that stops the strand. -/
def State.saveStop (s : State) (ck : Nat) (y : Option YieldPoint) (lost : List Engine) (cause : Nat) (record : State → State := id) : State :=
  let t := (s.rewindLost ck lost).holdStop ck
  if (t.strand ck).failed.isSome then t.failing ck
  else match t.publish ck with
    | .ok t => (record t).finishStop ck y lost cause
    | .error (.fatal va) => t.fatal ck va
    | .error _ => if y.isSome then s else s.modStrand ck (fun st => { st with full := true, fullAt := min st.fullAt s.time })

/-- The handler descriptor (10 R240): entry, and whether class `c` goes to it (10 R241). -/
def State.handlerFor (s : State) (ck : Nat) (c : TrapClass) : Option (BitVec 48) :=
  let d := s.areaDword ck 0
  if d.testBit 63 ∧ (s.areaDword ck 8).testBit c.code ∧ c.eligible ∧ !(s.strand ck).hdl then some (BitVec.ofNat 48 (d % 2 ^ 48 / 4 * 4)) else none

/-- The strand at the first header of its handler (10 R244): walk, counters, decisions and p1 to p15 fresh, everything else as it stands. -/
def Strand.enterHandler (st : Strand) (entry : BitVec 48) (pf : Profile) (now : Nat) : Strand :=
  { st with es := (enginesOf pf).map (fun e => (e.num, { EStream.init entry with acted := some now })), dq := [], dqbase := 0, hdl := true, phs := false,
            park := none, yieldp := none, full := false, skip := none, posts := [], pend := none, slow := false, await := [], recIn := none }

/-- Taking a synchronous trap (01 R38, 10 R239 to R246): results in flight land, the record and the snapshot are written, and the strand
begins its handler or stops for system software. -/
def State.takeTrapAt (s : State) (ck : Nat) (at_ : TrapAt) (t : TrapInfo) : State :=
  let st := s.strand ck
  let lost := st.lostNow
  match s.handlerFor ck t.cls with
  | some entry =>
    let s := ((s.rewindLost ck lost).landStop ck).rewindMat ck
    if (s.strand ck).failed.isSome then s.failing ck else
    let s := (s.writeTrap ck t at_ st.pendW true lost).modStrand ck (fun st => { st with phs := false })
    let s := s.writeArea ck none lost
    let s : State := { s with ops := s.ops.filterMap (fun o =>
      if o.mine ck then (match o.kind with | .recirc _ _ _ _ .sent => none | _ => some { o with held := true }) else some o) }
    let s := s.modDie (ckDie ck) (fun d => { d with waitPwr := d.waitPwr.filter (fun p => p.1 != ck) })
    s.modStrand ck (fun st => st.enterHandler entry (ckProfile ck) s.time)
  | none =>
    s.saveStop ck none lost (if s.requested ck then 3 else 4) (fun s => s.writeTrap ck t at_ st.pendW false lost)

/-- A trap is raised (10 R243). Of the traps of one aclk the one with the smallest DSEC, then the first engine, is the one that occurs
(10 R249). It is delivered as the aclk ends, or, where the capture takes longer, by TRAP_DELIVERY in a later aclk (10 R243, R248). -/
def State.raiseAt (s : State) (ck : Nat) (at_ : TrapAt) (t : TrapInfo) : State :=
  let w := s.trapNow ck
  s.modStrand ck (fun st =>
    match st.pend with
    | some (p, _) => if p.dsec < at_.dsec ∨ (p.dsec = at_.dsec ∧ p.eng ≤ at_.eng) then st else { st with pend := some (at_, t), pendW := w }
    | none => { st with pend := some (at_, t), pendW := w })
/-- A trap at the word or header where stream `e` stands. -/
def State.raise (s : State) (ck : Nat) (e : Engine) (t : TrapInfo) : State :=
  s.raiseAt ck (((s.strand ck).eng e).trapAt e) t
/-- The trap that a strand's words have raised is delivered (10 R243). -/
def State.deliver (s : State) (ck : Nat) : State :=
  match (s.strand ck).pend with
  | some (a, t) => s.takeTrapAt ck a t
  | none => s
/-- Array operations that hold their engine stream (LB 0 to 6) hold it again after a return or resume, in the order of the sections kept
beside the area (09 R225, R238), and no word of the strand issues before they have completed (01 R33). -/
def State.rehold (s : State) (ck : Nat) (ids : List (Nat × Nat)) (kept : EStream) : State :=
  let secs := (kept.flight.filter (fun f => match f.val with | .matrix _ => true | _ => false)).map (fun f => (f.sec, f.widx))
  s.modStrand ck (fun st => ({ st with await := ids.map (fun p => p.1) } : Strand).modEng .m (fun e =>
    { e with flight := e.flight ++ (List.range ids.length).map (fun i =>
        let p := ids.getD i (0, 0)
        let q := secs.getD i (e.retc, 0)
        { dest := Dest.none, val := Val.matrix p.1, born := s.time, lb := p.2, sec := q.1, widx := q.2, flags := 0, stale := false, slot := false, load := false }) }))
/-- The synchronous matrix operations of a context: number and latency code. -/
def State.syncMats (s : State) (ck : Nat) : List (Nat × Nat) :=
  s.ops.filterMap (fun o => match o.kind with
    | .mat m => if o.mine ck ∧ m.lb ≠ 7 then some (o.id, m.lb) else none
    | _ => none)

/-- A decision takes effect on an engine stream (01 R25, R26, 05 R117, R120, R121). -/
def EStream.takes (e : EStream) (d : Decision) : EStream :=
  let e : EStream := match d.newp with
    | some p => { e with
        preds := (e.preds &&& 0xFF) ||| (p.setWidth 16 <<< 8),
        flight := e.flight.map (fun f : Flight => match f.dest with | .p r => if 8 ≤ r then { f with stale := true } else f | _ => f) }
    | none => e
  { e with walk := d.addr, dqpos := e.dqpos + 1, pos := if d.kind = .endWalk then .ended else .header }
/-- The first decision that a stream may still take: a stream inside a bypass-live section may have to take again those behind it (01 R37). -/
def EStream.needs (e : EStream) : Nat := match e.liveSec with | some x => min x.dqpos e.dqpos | none => e.dqpos
/-- Entries that every engine stream has taken leave the queue (01 R26). -/
def Strand.trimQueue (st : Strand) (pf : Profile) : Strand :=
  let m := (enginesOf pf).foldl (fun n e => min n (st.eng e).needs) (st.eng .s).needs
  { st with dq := st.dq.drop (m - st.dqbase), dqbase := max m st.dqbase }
/-- The sequencer appends a decision and takes it (01 R25, R26). Its stream has already passed the control word. -/
def State.resolve (s : State) (d : Decision) : State :=
  s.modMe (fun st =>
    let st : Strand := { st with dq := st.dq ++ [d] }
    (st.modEng .s (fun e => e.takes d)).trimQueue s.myProfile)
/-- The fall-through decision of the junction whose control word has just been passed. -/
def State.fallThrough (s : State) : State :=
  s.resolve { kind := .fallThrough, addr := (s.me.eng .s).walk, rot := 0, newp := none }

/-- The counter of a completed operation (06 R151). -/
def Strand.countDown (st : Strand) (k : Nat) : Strand := { st with n := Map.put st.n k (Map.get 0 st.n k - 1) }
/-- What the completion of a send does to its strand besides the post (23 R448, R449). -/
def Strand.sendDone (st : Strand) (x : SendOp) : Strand :=
  let st := st.countDown (fld x.fn 2 0)
  if x.failed then { st with cerr := true } else st
/-- An operation that completed while its strand was stopped or in its handler reaches the strand (15 R323, 23 R449); the predicate of a
`recirc` whose plan was taken reads 1, and its word has issued (23 R455). -/
def Strand.finished (st : Strand) (o : Op) : Strand :=
  let st := match o.kind with
    | .send x => st.sendDone x
    | .recirc _ _ _ a _ => st.modEng .s (fun e =>
        ({ e with preds := match destOf a with | .p r => setBit e.preds r true | _ => e.preds } : EStream).advance 0)
    | _ => st
  if o.sp then st.complete o.hn else st

/-- A strand that trapped before the level it held at a stop was granted again waits for it again (15 R327). -/
def State.askLevel (s : State) (ck : Nat) (kept : Strand) (l : Option Nat) : State :=
  if kept.level.isSome then s
  else match l with
    | some l => s.modDie (ckDie ck) (fun d => { d with waitPwr := d.waitPwr ++ [(ck, l, true)] })
    | none => s
/-- A trap's handler left by `trap 0xFFFF` or `trap 0xFFFE` (10 R245): the strand goes on from its snapshot, on the live registers; a
pending request is taken before its first word. Skipping an array operation that stopped on poison (09 R226) ends it where it stands. -/
def State.handlerReturn (s : State) (skip : Bool) : State :=
  let ck := s.cur.ck
  let s := s.landStop ck
  let l := s.strand ck
  let kept := s.kept ck
  let r : Strand := s.restoreStrand ck
  let rec0 := s.areaDword ck 0x40
  let te := Engine.ofNum? (rec0 / 2 ^ 8 % 8)
  let tw := rec0 / 2 ^ 32 % 2 ^ 11
  let lost := (rec0.testBit 13 && te == some .v) || (rec0.testBit 14 && te == some .m)
  let st : Strand := { r with
    s := l.s, a := l.a, amark := l.amark, v := l.v, vmark := l.vmark, m := l.m, z := l.z, ztag := l.ztag, accp := l.accp, h := l.h, n := l.n,
    sid := l.sid, failed := l.failed, regionAt := l.regionAt, fstat := l.fstat, fstat0 := l.fstat0, tgb := l.tgb, pbuf := l.pbuf, level := l.level, grants := l.grants, bout := l.bout,
    bindAt := l.bindAt, bindFt := l.bindFt, bandW := kept.bandW, full := s.requested ck, fullAt := s.time }
  let s := s.setStrand ck st
  let s := if l.level.isSome then s else s.askLevel ck kept r.level
  let done := s.ops.filter (fun o : Op => o.mine ck && o.fin)
  let s : State := { s with ops := s.ops.filterMap (fun o : Op =>
    if o.mine ck ∧ o.held then (if o.fin then none else some { o with held := false }) else some o) }
  let s := done.foldl (fun s o => s.modStrand ck (fun st => st.finished o)) s
  let s := s.rehold ck (s.syncMats ck) (kept.eng .m)
  match te with
  | none => s
  | some e =>
    let stood := s.ops.find? (fun o : Op => o.mine ck && (match o.kind with
      | .mat m => e == .m && m.lb != 7 && m.dsec == s.areaDword ck 0x48 && m.widx == tw
      | _ => false))
    if !skip ∨ tw = 0x7FF then s
    else if let some o := stood then
      (s.dropOp o.id).modStrand ck (fun st => st.modEng .m (fun x => { x with flight := x.flight.filter (fun f => f.val != .matrix o.id) }))
    else if lost then s.modStrand ck (fun st => { st with skip := some (e, s.areaDword ck 0x48, tw) })
    else
      let hdr := (st.eng e).sec.hdr
      let s := s.modStrand ck (fun st => st.modEng e (fun x =>
        { x.advance s.time with sec := if tw = 0 then { x.sec with begun := true, shape := w64 (if e = .m then l.ashape.toNat else l.vshape.toNat) } else x.sec }))
      if e = .s ∧ hdrJct hdr ∧ tw + 1 = hdrLen hdr then { s with cur := ⟨ck, .s⟩ }.fallThrough else s

/-- Placement of control and `yield` words (01 R24, R28). -/
def placed (hdr : Word) (widx : Nat) (i : Instr) : Bool :=
  let last := decide (widx + 1 = hdrLen hdr)
  (if i.control then hdrJct hdr && last else !(hdrJct hdr && last)) && (if i.isYield then hdrYld hdr && last else !(hdrYld hdr && last))
/-- Bypass names and restrictions of a bypass-live section (01 R36, R37). -/
def EStream.bypassOk (e : EStream) (i : Instr) : Bool :=
  (i.bypassNames.all (fun n => hdrBpl e.sec.hdr && decide (n ≤ e.widx) &&
    e.bypass.any (fun b => b.widx + n == e.widx && b.val.isSome))) &&
  !(hdrBpl e.sec.hdr && i.bplForbidden)
/-- The word runs in a context of system software, or needs none (02 R64, 10 R251). -/
def State.privOk (s : State) (i : Instr) : Bool :=
  !i.privileged || s.myPriv || (match i with | .snaprd _ w => s.me.hdl && !w.fn.getLsbD 0 | _ => false)
/-- The trap that decoding raises for the word at the executing stream (02 R62), whatever its predicate. -/
def State.decodeTrap (s : State) (i : Instr) : Option TrapInfo :=
  let ill : TrapInfo := { cls := .illegalInstruction, code := 0, info := (encode i).extractLsb' 32 64 }
  let bad := !placed s.myEng.sec.hdr s.myEng.widx i || !s.myEng.bypassOk i
  match i.reject? s.myProfile with
  | some .engineAbsent => some (if bad then ill else { cls := .engineAbsent, code := 0, info := 0 })
  | some _ => some ill
  | none =>
    if bad then some ill
    else if !s.privOk i then some { cls := .privilege, code := 0, info := 0 }
    else none

/-- Word 0 of an own section issues: the section is entered, and the shape that a bypass-live restart restores is kept (01 R37). -/
def EStream.enter (e : EStream) (shape : Word) (before : Map Nat) : EStream :=
  if e.widx = 0 ∧ !e.sec.begun then { e.learn before with bypass := [], sec := { e.sec with begun := true, shape } } else e
def State.enter (s : State) : State :=
  s.modMyEng (fun e => e.enter (w64 (if s.cur.eng = .m then s.me.ashape.toNat else s.me.vshape.toNat)) (s.me.knows s.cur.eng))

/-- Physical number of v register `r` (05 R121). -/
def Strand.phys (st : Strand) (r : Nat) : Nat := if r < 32 then r else 32 + (r - 32 + st.rotb.toNat) % 32
/-- A word whose predicate is false, or that a handler's return skips: it passes with no effect but its place in bypass numbering
(01 R35; an undefined value there carries no mark, 00 R10), and a control word appends a fall-through decision (01 R25). -/
def State.pass (s : State) (i : Instr) : State :=
  let s := s.enter
  let s : State := match i.vectorDest with
    | some r =>
      let p := s.me.phys r
      let t := if s.undefined s.me .v (.v p) then Config.undefTile s.free 9 else Map.get 0 s.me.v p
      s.modMyEng (fun e => { e with bypass := e.bypass ++ [Bypass.mk e.widx (some (t, bit s.me.vmark p && !s.undefined s.me .v (.v p)))] })
    | none => s
  let s := s.advance
  if i.control then s.fallThrough else s
/-- The word at the executing stream is the one that a handler's return skips (10 R245). -/
def State.skipped (s : State) : Bool :=
  s.me.skip == some (s.cur.eng, s.myEng.secn - 1, s.myEng.widx)

/-- A request of the executing word whose translation fails waits for its response (17 R360): until then the word stands. -/
def State.missing (s : State) (va : Word) : State :=
  if s.posted.any (fun p => p.ck == s.cur.ck && p.kind == .miss true) then { s with waited := true } else s.post s.cur.ck va.toNat (.miss true)
/-- How a word that does not take effect ends (01 R32, R38, 17 R360). -/
def stopped (s : State) : Stop → Out
  | .wait => .next { s with waited := true }
  | .trap t => .next (s.raise s.cur.ck s.cur.eng t)
  | .fatal va => .next (s.missing va)

/-- The word is neither skipped nor refused nor predicated false: it comes to its waits and checks. -/
def State.reaches (s : State) (i : Instr) (h : Head) : Bool := !s.skipped && (s.decodeTrap i).isNone && s.predTrue h
/-- The frame of every word: decode checks (02 R62), predicate (01 R34, R35), then `plan`, which makes the word's waits, checks and
reads, and `eff`, its effect as it issues. -/
def wordRaw {α : Type} (i : Instr) (h : Head) (s : State) (plan : State → Except Stop α) (eff : α → State → State) : Out :=
  if s.skipped then .next ((s.modMe (fun st => { st with skip := none })).pass i)
  else
    match s.decodeTrap i with
    | some t => stopped s (.trap t)
    | none =>
      if s.predTrue h then
        match plan s with
        | .error e => stopped s e
        | .ok x => .next (eff x s.enter)
      else .next (s.pass i)
/-- A word whose place in its section is taken as it issues; `fin` is what a control word does after that. -/
def wordThen {α : Type} (i : Instr) (h : Head) (s : State) (plan : State → Except Stop α) (eff fin : α → State → State) : Out :=
  wordRaw i h s plan (fun x s => fin x (eff x s).advance)
/-- A word that is no control word. -/
def word {α : Type} (i : Instr) (h : Head) (s : State) (plan : State → Except Stop α) (eff : α → State → State) : Out :=
  wordThen i h s plan eff (fun _ s => s)

/-- A word whose address names another pod is a global send: it clears PHS (23 R438, R452). -/
def State.sent (s : State) (ea : Word) : State := if s.global ea then s.modMe (fun st => { st with phs := false }) else s
/-- A completion of an operation that posts (06 R149): to its strand, to the resumed strand later, or to none. -/
def State.finishOp (s : State) (o : Op) : State :=
  if o.dead then s.dropOp o.id
  else if !o.live then s.setOp { o with fin := true }
  else
    let s := s.dropOp o.id
    if o.sp then s.modStrand o.ck (fun st => st.complete o.hn) else s

end Sys2Proof.Machine
end

