-- ==== Sys2Proof/Machine/Flags.lean ====
section
/-! DEFINITION. Condition codes (05 R115), the bit counts and divisions of the sequencer (05 R110 to R112), and the state of the
vertical FIFOs as VFFREE shows it (15 R318, R319). FSTAT takes its flags where results land (Landing). -/

namespace Sys2Proof.Machine

/-- A condition of 05 R115 on two operands. Codes from 0x0C up are refused at decode. -/
def condHolds (cc : Nat) (a b : Word) : Bool :=
  match cc with
  | 0x00 => a == b
  | 0x01 => a != b
  | 0x02 => a.slt b
  | 0x03 => !(a.slt b)
  | 0x04 => !(b.slt a)
  | 0x05 => b.slt a
  | 0x06 => a.ult b
  | 0x07 => !(a.ult b)
  | 0x08 => !(b.ult a)
  | 0x09 => b.ult a
  | 0x0A => (a &&& b) != 0
  | 0x0B => (a &&& b) == 0
  | _ => false

/-- `div` (05 R110). -/
def divS (a b : Word) : Word := if b = 0 then 0 else BitVec.ofInt 64 (Int.tdiv a.toInt b.toInt)
/-- `divn` (05 R110). -/
def divU (a b : Word) : Word := if b = 0 then 0 else w64 (a.toNat / b.toNat)
/-- `rem` (05 R110). -/
def remS (a b : Word) : Word := if b = 0 then a else BitVec.ofInt 64 (Int.tmod a.toInt b.toInt)
/-- `mulh` and `mulhn` (05 R109). -/
def mulhS (a b : Word) : Word := BitVec.ofInt 64 (a.toInt * b.toInt / 2 ^ 64)
def mulhU (a b : Word) : Word := w64 (a.toNat * b.toNat / 2 ^ 64)
/-- The shift amount b[5:0] (05 R109). -/
def shAmt (b : Word) : Nat := b.toNat % 64

/-- Leading and trailing zero bits (05 R111). -/
def clz64 (a : Word) : Nat := if a = 0 then 64 else 63 - Nat.log2 a.toNat
def ctzFrom (x : Nat) : Nat → Nat
  | 0 => 0
  | n + 1 => if x % 2 = 1 then 0 else 1 + ctzFrom (x / 2) n
def ctz64 (a : Word) : Nat := ctzFrom a.toNat 64
/-- `bfx` (05 R112). -/
def bfx64 (a : Word) (pos width : Nat) (sxt : Bool) : Word :=
  let v := a.toNat / 2 ^ pos % 2 ^ width
  if sxt then BitVec.ofInt 64 (sval width v) else w64 v
/-- `bfi` (05 R112). -/
def bfi64 (a b : Word) (pos width : Nat) : Word := setFld b (pos + width - 1) pos a.toNat

/-- FIFO of P-core `c` of die `d`: up is pushed by the P-core, down by the crown core (15 R318). -/
def fifoKey (d c : Nat) (up : Bool) : Nat := (d * 16 + c) * 2 + (if up then 0 else 1)
def State.fifo (s : State) (d c : Nat) (up : Bool) : Fifo := Map.get Fifo.init s.fifos (fifoKey d c up)
def State.setFifo (s : State) (d c : Nat) (up : Bool) (f : Fifo) : State := { s with fifos := Map.put s.fifos (fifoKey d c up) f }
/-- Gate state of the crown core above P-core `c` (15 R319, R322), kept at a key no register block names. -/
def gateOff (c : Nat) : Nat := 0x3F0100000000 + 8 * c
def State.gate (s : State) (d c : Nat) : Nat := (s.dget d (gateOff c)).toNat
def State.setGate (s : State) (d c g : Nat) : State := s.dput d (gateOff c) (w64 g)

/-- Free slots and poppable entries for a word that issues now (15 R318). -/
def Fifo.ofree (f : Fifo) (now : Nat) : Nat := 8 - f.entries.length - (f.freed.filter (fun x => decide (now < x.1 + 4))).length
def Fifo.iocc (f : Fifo) (now : Nat) : Nat := (f.entries.filter (fun e => decide (e.2 + 4 ≤ now))).length
/-- The same at the end of the aclk before `now` (15 R319): what this aclk pushed is left out, what it popped counts. -/
def Fifo.ofreeBefore (f : Fifo) (now : Nat) : Nat :=
  8 - (f.entries.filter (fun e => decide (e.2 < now))).length - (f.freed.filter (fun x => decide (now ≤ x.1 + 4))).length
def Fifo.ioccBefore (f : Fifo) (now : Nat) : Nat :=
  (f.entries.filter (fun e => decide (e.2 + 4 < now))).length + (f.freed.filter (fun x => decide (x.1 = now ∧ x.2 + 4 < now))).length
/-- VFFREE of core `c` of die `d` by the FIFOs and the gate as they stand (15 R319). -/
def State.vffNow (s : State) (d c : Nat) : Word :=
  let pc := c % 16
  let out := s.fifo d pc (decide (c < 16))
  let inn := s.fifo d pc (decide (16 ≤ c))
  w64 (out.ofreeBefore s.time + inn.ioccBefore s.time * 2 ^ 8 + b2n out.closed * 2 ^ 16 + b2n inn.closed * 2 ^ 17 + s.gate d pc * 2 ^ 18)
/-- The cores of a pair read VFFREE as it stands now until this aclk ends, whatever becomes of their gate and FIFOs meanwhile (15 R319). -/
def State.keepVff (s : State) (d c : Nat) : State :=
  { s with vffOld := [c % 16, c % 16 + 16].foldl (fun m x => if (Map.get? m (coreKey d x)).isSome then m else Map.put m (coreKey d x) (s.vffNow d x)) s.vffOld }
/-- VFFREE of core `c` of die `d`: the state at the end of the aclk before (15 R319). -/
def State.vffree (s : State) (d c : Nat) : Word := (Map.get? s.vffOld (coreKey d c)).getD (s.vffNow d c)
/-- BAVAIL of core `c` of D-die `d` (16 R346): bit b is 1 when bank b of the column is live. -/
def State.bavail (s : State) (d c : Nat) : Word := w64 (packLE 1 ((List.range 64).map (fun b => b2n (s.bankLive d (64 * c + b)))))

end Sys2Proof.Machine
end

