-- ==== Sys2Proof/Machine/Scalar.lean ====
section
/-! DEFINITION. Integer and logic words of the sequencer (05 R109 to R116) and address arithmetic of the access engine (07 R161). -/

namespace Sys2Proof.Machine

/-- Two operands and one result (05 R109, 07 R161). -/
def alu (i : Instr) (h : Head) (w : W1) (s : State) (f : Word → Word → Word) : Out :=
  word i h s (fun s => do let a ← s.rd w.a 0; let b ← s.rdB w; .ok (a, b)) (fun p s => s.result h w.d (f p.1 p.2) false)
/-- One operand and one result (05 R111, R112, R114). -/
def alu1 (i : Instr) (h : Head) (w : W1) (s : State) (f : Word → Word) : Out :=
  word i h s (fun s => s.rd w.a 0) (fun a s => s.result h w.d (f a) false)

def execAdd (h : Head) (w : W1) (s : State) : Out := alu (.add h w) h w s (fun a b => a + b)
def execSub (h : Head) (w : W1) (s : State) : Out := alu (.sub h w) h w s (fun a b => a - b)
def execMul (h : Head) (w : W1) (s : State) : Out := alu (.mul h w) h w s (fun a b => a * b)
def execMulh (h : Head) (w : W1) (s : State) : Out := alu (.mulh h w) h w s mulhS
def execMulhn (h : Head) (w : W1) (s : State) : Out := alu (.mulhn h w) h w s mulhU
def execDiv (h : Head) (w : W1) (s : State) : Out := alu (.div h w) h w s divS
def execDivn (h : Head) (w : W1) (s : State) : Out := alu (.divn h w) h w s divU
def execRem (h : Head) (w : W1) (s : State) : Out := alu (.rem h w) h w s remS
def execAndS (h : Head) (w : W1) (s : State) : Out := alu (.andS h w) h w s (fun a b => a &&& b)
def execOrS (h : Head) (w : W1) (s : State) : Out := alu (.orS h w) h w s (fun a b => a ||| b)
def execXorS (h : Head) (w : W1) (s : State) : Out := alu (.xorS h w) h w s (fun a b => a ^^^ b)
def execAndn (h : Head) (w : W1) (s : State) : Out := alu (.andn h w) h w s (fun a b => a &&& ~~~b)
def execShl (h : Head) (w : W1) (s : State) : Out := alu (.shl h w) h w s (fun a b => a <<< shAmt b)
def execShr (h : Head) (w : W1) (s : State) : Out := alu (.shr h w) h w s (fun a b => a >>> shAmt b)
def execSar (h : Head) (w : W1) (s : State) : Out := alu (.sar h w) h w s (fun a b => a.sshiftRight (shAmt b))
def execRot (h : Head) (w : W1) (s : State) : Out := alu (.rot h w) h w s (fun a b => a.rotateLeft (shAmt b))
def execMinS (h : Head) (w : W1) (s : State) : Out := alu (.minS h w) h w s (fun a b => if b.slt a then b else a)
def execMaxS (h : Head) (w : W1) (s : State) : Out := alu (.maxS h w) h w s (fun a b => if a.slt b then b else a)
def execMinn (h : Head) (w : W1) (s : State) : Out := alu (.minn h w) h w s (fun a b => if b.ult a then b else a)
def execMaxn (h : Head) (w : W1) (s : State) : Out := alu (.maxn h w) h w s (fun a b => if a.ult b then b else a)
def execClz (h : Head) (w : W1) (s : State) : Out := alu1 (.clz h w) h w s (fun a => w64 (clz64 a))
def execCtz (h : Head) (w : W1) (s : State) : Out := alu1 (.ctz h w) h w s (fun a => w64 (ctz64 a))
def execPopc (h : Head) (w : W1) (s : State) : Out := alu1 (.popc h w) h w s (fun a => w64 (popcount a.toNat 64))
def execBfx (h : Head) (w : W1) (s : State) : Out :=
  alu1 (.bfx h w) h w s (fun a => bfx64 a (Legal.bfPos w) (Legal.bfWidth w) (bit w.imm 12))
def execBfi (h : Head) (w : W1) (s : State) : Out :=
  word (.bfi h w) h s (fun s => do let a ← s.rd w.a 0; let b ← s.rd w.b 1; .ok (a, b))
    (fun p s => s.result h w.d (bfi64 p.1 p.2 (Legal.bfPos w) (Legal.bfWidth w)) false)
/-- 05 R113. -/
def execSel (h : Head) (w : W1) (s : State) : Out :=
  word (.sel h w) h s (fun s => do let a ← s.rd w.a 0; let b ← s.rdB w; .ok (if s.readP (w.c.toNat - 0x60) then a else b))
    (fun v s => s.result h w.d v false)
/-- 05 R114. -/
def execLi (h : Head) (w : W1) (s : State) : Out :=
  word (.li h w) h s (fun _ => .ok ()) (fun _ s => s.result h w.d (sx w.imm) false)
def execLih (h : Head) (w : W1) (s : State) : Out :=
  alu1 (.lih h w) h w s (fun a => (w.imm.extractLsb' 0 24 ++ a.extractLsb' 0 40 : BitVec 64))
/-- 05 R116. -/
def execCmp (h : Head) (w : W1) (s : State) : Out :=
  word (.cmp h w) h s (fun s => do let a ← s.rd w.a 0; let b ← s.rdB w; .ok (condHolds (Legal.fnCC w.fn) a b))
    (fun v s => s.resultP h w.d v)

def execAadd (h : Head) (w : W1) (s : State) : Out := alu (.aadd h w) h w s (fun a b => a + b)
def execAsub (h : Head) (w : W1) (s : State) : Out := alu (.asub h w) h w s (fun a b => a - b)
def execAmul (h : Head) (w : W1) (s : State) : Out := alu (.amul h w) h w s (fun a b => a * b)
def execAshl (h : Head) (w : W1) (s : State) : Out := alu (.ashl h w) h w s (fun a b => a <<< shAmt b)
def execAshr (h : Head) (w : W1) (s : State) : Out := alu (.ashr h w) h w s (fun a b => a >>> shAmt b)
def execAand (h : Head) (w : W1) (s : State) : Out := alu (.aand h w) h w s (fun a b => a &&& b)
def execAor (h : Head) (w : W1) (s : State) : Out := alu (.aor h w) h w s (fun a b => a ||| b)
def execAli (h : Head) (w : W1) (s : State) : Out :=
  word (.ali h w) h s (fun _ => .ok ()) (fun _ s => s.result h w.d (sx w.imm) false)

end Sys2Proof.Machine
end

