-- ==== Sys2Proof/Machine/Control.lean ====
section
/-! DEFINITION. Junction words, `yield`, `trap`, `nop`, `prio` and the system registers (05 R117 to R131). -/

namespace Sys2Proof.Machine

/-- Target of a junction word: TGT48 counts text units from the word (02 R48). -/
def State.target (s : State) (w : W3) : BitVec 48 := s.myEng.walk + w.tgt * 4
/-- A plain decision. -/
def Decision.plain (k : DecisionKind) (addr : BitVec 48) : Decision := { kind := k, addr, rot := 0, newp := none }
/-- The decision to go on behind the word. -/
def State.onward (s : State) : Decision := Decision.plain .fallThrough (s.myEng.walk + 12)

/-- A junction word (05 R117): the decision its operands give is appended once the word has issued. -/
def junction (i : Instr) (h : Head) (s : State) (plan : State → Except Stop Decision) (eff : State → State) : Out :=
  wordThen i h s plan (fun _ s => eff s) (fun d s => s.resolve d)

/-- 05 R119. -/
def execJct (h : Head) (w : W3) (s : State) : Out :=
  junction (.jct h w) h s (fun s =>
    if w.k then .ok (if s.readP (w.cond.toNat % 16) != bit w.cond 4 then Decision.plain .taken (s.target w) else s.onward)
    else do
      let a ← s.rd w.a 0
      let b ← s.rd w.b 1
      .ok (if condHolds w.cond.toNat a b then Decision.plain .taken (s.target w) else s.onward)) id
/-- 05 R120. -/
def execJmp (h : Head) (w : W3) (s : State) : Out :=
  junction (.jmp h w) h s (fun s =>
    .ok { kind := .taken, addr := s.target w, rot := 0, newp := if bit w.fn 11 then some 1 else none }) id

/-- NST and RSTEP of `loop` (05 R118). -/
def loopNst (w : W3) : Nat := fld w.fn 6 4
def loopRstep (w : W3) : Nat := fld w.fn 11 7
/-- The stage predicates of a loop-back (05 R121), p8 in bit 0. -/
def State.stagePreds (s : State) (c : Int) (nst : Nat) : BitVec 8 :=
  BitVec.ofNat 8 (b2n (decide (c > 0)) + packLE 1 ((List.range 7).map (fun j => b2n (decide (j + 1 ≤ nst) && s.readP (8 + j)))) * 2)
/-- 05 R121. -/
def execLoop (h : Head) (w : W3) (s : State) : Out :=
  wordThen (.loop h w) h s (fun s =>
    let c : Word := s.readS s.me w.a.toNat 0 - 1
    .ok (c, if c.toInt > -Int.ofNat (loopNst w) then
      { kind := .loopBack, addr := s.target w, rot := loopRstep w, newp := some (s.stagePreds c.toInt (loopNst w)) }
    else s.onward))
    (fun p s => s.result h w.a p.1 false) (fun p s => s.resolve p.2)

/-- Home key of spill entry `n` (05 R123). -/
def State.spillKey (s : State) (n : Nat) : Nat := vaultKeyOf s.myDie s.myCore (fld s.me.rsbase 22 11 * 2048 + 8 * n)
/-- A push: with 16 entries on the core the oldest is spilled first (05 R123). -/
def State.pushReturn (s : State) (a : Word) : State :=
  let st := s.me
  let s := if st.rstack.length < 16 then s else s.wrVaultKey (s.spillKey (st.rsdep - 16)) (st.rstack.getLastD 0).toNat 8
  s.modMe (fun st => { st with rstack := a :: (if st.rstack.length < 16 then st.rstack else st.rstack.dropLast), rsdep := st.rsdep + 1 })
/-- The entry a pop takes: the newest on the core, else the one most recently spilled (05 R123). -/
def State.topReturn (s : State) : Word :=
  match s.me.rstack with
  | a :: _ => a
  | [] => w64 (Mem.readLE s.mem (s.spillKey (s.me.rsdep - 1)) 8)
/-- 05 R123, R124. -/
def execCall (h : Head) (w : W3) (s : State) : Out :=
  junction (.call h w) h s (fun s =>
    if s.me.rsdep = 272 then .error (trapOf .stackOverflow (w64 s.me.rsdep)) else .ok (Decision.plain .call (s.target w)))
    (fun s => s.pushReturn (zx (s.myEng.walk + 12)))
def execRet (h : Head) (w : W3) (s : State) : Out :=
  junction (.ret h w) h s (fun s =>
    if s.me.rsdep = 0 then .error (trapOf .stackUnderflow (w64 s.me.rsdep))
    else .ok (Decision.plain .ret (s.topReturn.extractLsb' 0 48)))
    (fun s => s.modMe (fun st => { st with rstack := st.rstack.drop 1, rsdep := st.rsdep - 1 }))
/-- 05 R125: the end decision; what follows it is `strandEnd`. -/
def execEndWord (h : Head) (w : W3) (s : State) : Out :=
  junction (.endWord h w) h s (fun s => .ok (Decision.plain .endWalk (s.myEng.walk + 12))) id

/-- 05 R126: the yield point after this section, with its live masks. -/
def execYieldWord (h : Head) (w : W6) (s : State) : Out :=
  word (.yieldWord h w) h s (fun s => do let a ← s.rd w.a 0; let b ← s.rd w.b 1; .ok (a, b))
    (fun p s => s.modMe (fun st => { st with
      yieldp := some { secn := (st.eng .s).secn, v := p.1, s := p.2, a := w.imm.extractLsb' 0 32, m := w.imm.extractLsb' 32 8, z := w.imm.extractLsb' 40 2 } }))

/-- 05 R127, 10 R245: the software trap, or the return from a handler. -/
def execTrapWord (h : Head) (w : W6) (s : State) : Out :=
  let imm16 := w.imm.extractLsb' 0 16
  wordThen (.trapWord h w) h s (fun s =>
    if s.me.hdl ∧ (imm16 = 0xFFFF ∨ imm16 = 0xFFFE) then .ok ()
    else .error (.trap { cls := .software, code := imm16, info := 0 }))
    (fun _ s => s) (fun _ s => s.handlerReturn (imm16 == 0xFFFE))

/-- 05 R128. -/
def execNop (h : Head) (w : W1) (s : State) : Out := word (.nop h w) h s (fun _ => .ok ()) (fun _ s => s)

/-- CLS clamped to MAX (05 R129), in force from the next aclk. -/
def State.setClass (s : State) (a : Nat) : State :=
  s.modMe (fun st => { st with later := st.later ++ [(1, w64 (min a (fld st.prioc 3 2)))] })
/-- 05 R129. -/
def execPrio (h : Head) (w : W6) (s : State) : Out :=
  word (.prio h w) h s (fun s => if Legal.f0 w then s.rd w.a 0 else .ok (w64 (w.imm.toNat % 4))) (fun a s => (s.deferred h).setClass a.toNat)

/-- What `sysrd` reads (05 R130, R131). -/
def State.sysRead (s : State) (n : Nat) : Word :=
  let st := s.me
  match n with
  | 0x000 => w64 st.slipw
  | 0x001 => zx (s.prioc s.cur.ck)
  | 0x002 => zx st.fstat0
  | 0x003 => w64 st.rsdep
  | 0x004 => st.rsbase
  | 0x008 => w64 s.fabricTime
  | 0x009 => zx st.tgb
  | 0x00A => s.tgen
  | 0x00B => s.hstate
  | 0x00C => 1
  | 0x010 => zx st.vshape
  | 0x011 => zx st.rotb
  | 0x012 => s.vffree s.myDie s.myCore
  | 0x018 => zx st.ashape
  | 0x020 => s.bavail s.myDie s.myCore
  | _ => 0
/-- 05 R130. -/
def execSysrd (h : Head) (w : W6) (s : State) : Out :=
  word (.sysrd h w) h s (fun s => .ok (s.sysRead (w.imm.toNat % 4096))) (fun v s => s.result h w.a v false)

/-- What `syswr` leaves to the next aclk (05 R130, R131, 01 R23, 04 R84). -/
def State.sysWrite (s : State) (n : Nat) (a : Word) : State :=
  match n with
  | 0x000 => s.modMe (fun st => { st with later := st.later ++ [(0, w64 (max 1 (min a.toNat 64)))] })
  | 0x001 => s.setClass a.toNat
  | _ => s.modMe (fun st => { st with later := st.later ++ [(n, a)] })
def execSyswr (h : Head) (w : W6) (s : State) : Out :=
  word (.syswr h w) h s (fun s => s.rd w.a 0) (fun a s => (s.deferred h).sysWrite (w.imm.toNat % 4096) a)

end Sys2Proof.Machine
end

