-- ==== Sys2Proof/Machine/Tiles.lean ====
section
/-! DEFINITION. The tile table (06 R146 to R148, 08 R205), vault windows and their checks (06 R137), and accumulator pairs (06 R136). -/

namespace Sys2Proof.Machine

/-- STATE, BASE and LEN of a tile table entry (06 R146), the latter two in bytes. -/
def tileState (w : Word) : Nat := fld w 1 0
def tileBase (w : Word) : Nat := fld w 24 8 * 64
def tileLen (w : Word) : Nat := (if fld w 40 25 = 0 then 65536 else fld w 40 25) * 64
/-- Tile table entry `i` of the core of a context. -/
def State.tile (s : State) (ck i : Nat) : Word := s.dget (ckDie ck) (ttabOff (ckCore ck) i)
def State.setTile (s : State) (ck i : Nat) (w : Word) : State := s.dput (ckDie ck) (ttabOff (ckCore ck) i) w
def State.setTileState (s : State) (ck i st : Nat) : State := s.setTile ck i (setFld (s.tile ck i) 1 0 st)
/-- Physical entry of tile name `t` in the strand's slot, or the tile-range trap (06 R146). -/
def State.tileIdx (s : State) (ck t : Nat) : Except Stop Nat :=
  let w := s.win ck
  if winTcnt w ≤ t ∨ 255 < winTbase w + t then .error (trapOf .tileRange (w64 t)) else .ok (winTbase w + t)
/-- Physical entries of the slot's tiles. -/
def State.slotTiles (s : State) (ck : Nat) : List Nat :=
  let w := s.win ck
  (List.range (min (winTcnt w) 256)).filterMap (fun t => if winTbase w + t ≤ 255 then some (winTbase w + t) else none)
/-- Tiles of the slot that meet `n` bytes at vault offset `o` (08 R205). -/
def State.tilesMet (s : State) (ck o n : Nat) : List Nat :=
  (s.slotTiles ck).filter (fun i =>
    let e := s.tile ck i
    tileState e != 0 && decide (tileBase e < o + n) && decide (o < tileBase e + tileLen e))
/-- Some tile that the bytes meet is filling or draining. -/
def State.tileBusy (s : State) (ck o n : Nat) : Bool :=
  (s.tilesMet ck o n).any (fun i => tileState (s.tile ck i) == 1 || tileState (s.tile ck i) == 3)
/-- The vault-range check (06 R137). -/
def State.vrange (s : State) (ck o n : Nat) : Except Stop Unit :=
  if s.inWindow ck o n then .ok () else .error (trapOf .vaultRange (w64 o))

/-- Contexts of a core, lowest number first. -/
def coreCtxs (ck : Nat) : List Nat := (List.range 8).map (fun x => ck / 8 * 8 + x)
/-- Accumulator pairs of the core that tile tasks hold (12 R279). -/
def State.taskPairs (s : State) (ck : Nat) : List Running := (s.running.filter (fun p => p.1 == ck / 8)).map (fun p => p.2)
/-- Running strands of a P-core that hold or claim a pair, in the order of their binding: the claims that stand before this one. -/
def State.pairsBefore (s : State) (ck : Nat) : Nat :=
  let b := (s.strand ck).bindAt
  ((coreCtxs ck).filter (fun c => c != ck && s.running? c && (s.strand c).accp &&
    (!(s.strand ck).accp || decide ((s.strand c).bindAt < b) || (decide ((s.strand c).bindAt = b) && decide (c < ck))))).length
/-- The strand holds an accumulator pair, or one is free for it (06 R136, 12 R279). A strand resumed with ACCP waits its turn. -/
def State.pairReady (s : State) (ck : Nat) : Bool :=
  match ckProfile ck with
  | .p => decide (s.pairsBefore ck + (s.taskPairs ck).length < 2)
  | .d => (s.taskPairs ck).all (fun r => r.ctx != ckCtx ck)
  | _ => false
/-- A tile task holds the pair of a strand's own context on a D-core: no M word of the strand issues (12 R279). -/
def State.taskHolds (s : State) (ck : Nat) : Bool := ckProfile ck == .d && !s.pairReady ck
/-- The pair is taken as the word issues: zero, tags Z (06 R136, 09 R215). -/
def State.takePair (s : State) : State :=
  s.modMe (fun st => if st.accp then st else { st with accp := true, z := [], ztag := [] })
def Strand.tag (st : Strand) (z : Nat) : AccTag := Map.get AccTag.z st.ztag z

/-- Some array operation of the strand still has entries of stream `q` to pop (09 R214). -/
def State.streamTaken (s : State) (ck q : Nat) : Bool :=
  s.ops.any (fun o => o.mine ck && (match o.kind with
    | .mat m => (m.kind == .mma || m.kind == .mmaz || m.kind == .msp || m.kind == .mmv) && m.w.qa.toNat == q && decide (m.got < m.need)
    | _ => false))
/-- An array operation issued with LB 7 that writes accumulator `z` is outstanding (08 R203). -/
def State.accBusy (s : State) (ck z : Nat) : Bool :=
  s.ops.any (fun o => o.mine ck && (match o.kind with
    | .mat m => m.lb == 7 && m.w.zd.toNat == z && m.kind != .mdrain
    | _ => false))
/-- A `vld` with LB 7 on its way to physical register `p` (08 R205). -/
def State.vldBusy (s : State) (ck p : Nat) : Bool :=
  s.ops.any (fun o => o.mine ck && !o.held && (match o.kind with | .vld _ _ phys .. => phys == p | _ => false))

end Sys2Proof.Machine
end

