-- ==== Sys2Proof/Machine/Streams.lean ====
section
/-! DEFINITION. Stream registers: pattern blocks and entry addresses (06 R144, R145, 07 R173), fetches and stores (07 R174), pops and
pushes (06 R141 to R143). -/

namespace Sys2Proof.Machine

/-- NDIM, extents and strides of a pattern block (06 R144). -/
def patNdim (b : BitVec 512) : Nat := fld b 450 448
def patExt (b : BitVec 512) (k : Nat) : Nat := fld b (287 + 32 * k) (256 + 32 * k)
def patStride (b : BitVec 512) (k : Nat) : Word := b.extractLsb' (64 * k) 64
def patCount (b : BitVec 512) : Nat := fld b 423 384
/-- Product of the extents below NDIM. -/
def patProduct (b : BitVec 512) : Nat := (List.range (patNdim b)).foldl (fun p k => p * patExt b k) 1
/-- The block meets the conditions of 06 R144. -/
def patOk (b : BitVec 512) : Bool :=
  decide (1 ≤ patNdim b) && decide (patNdim b ≤ 4) && fld b 447 424 == 0 && fld b 511 451 == 0 &&
  (List.range 4).all (fun k => if k < patNdim b then patExt b k != 0 else patExt b k == 0)
/-- Walking down the dimensions of 06 R145: `n` of them from `k` on. -/
def patAddr (b : BitVec 512) (addr : Word) (x k : Nat) : Nat → Word
  | 0 => addr
  | n + 1 =>
    let e := max 1 (patExt b k)
    patAddr b (addr + w64 (x % e) * patStride b k) (x / e) (k + 1) n
/-- Address of entry `e`: bytes, or nibbles for 4-bit entries (06 R145, 07 R173). -/
def Stream.addr (q : Stream) (e : Nat) : Word :=
  let b := if q.ety = 0 then q.base * 2 else q.base
  patAddr q.pattern b (e % max 1 (patProduct q.pattern)) 0 (patNdim q.pattern)
/-- Entries a buffer holds (06 R140). -/
def Stream.capacity (q : Stream) : Nat := 32768 / entryBits q.ety

/-- A request of a strand's A path that is checked apart from a word of its own (07 R174): passes, fails, or waits for a frozen pod. -/
def State.checkOf (s : State) (ck : Nat) (ea : Word) : Except Stop Unit := ({ s with cur := ⟨ck, .a⟩ } : State).check ea

/-- Address in bytes and size of entry `e` of a binding. -/
def Stream.entryAt (x : Stream) (e : Nat) : Word × Nat := (if x.ety = 0 then x.addr e >>> 1 else x.addr e, (entryBits x.ety + 7) / 8)
/-- One fetch of an IN binding, its state already checked (07 R174): the entry delivered, with a poison mark where the address fails its
check or translation, the data is poisoned or the response is an error (07 R174, 17 R360). -/
def State.fetchEntry (s : State) (ck q : Nat) : Except Stop State := s.byTabs ((s.strand ck).stream q).tabs (fun s =>
  let x := (s.strand ck).stream q
  let e := x.done + x.buf.length
  let a := x.addr e
  let n := (x.entryAt e).2
  let ea := (x.entryAt e).1
  let deliver (s : State) (v : Nat) (m : Bool) : State :=
    s.modStrand ck (fun st => st.setStream q { x with buf := x.buf ++ [{ bits := BitVec.ofNat 16384 v, mark := m }] })
  match s.checkOf ck ea with
  | .error .wait => .error .wait
  | .error _ => .ok (deliver s (s.rdFail ea.toNat n % 2 ^ entryBits x.ety) true)
  | .ok _ =>
    if s.global ea ∧ x.gen ≠ s.gen then .ok (deliver s (s.rdFail ea.toNat n % 2 ^ entryBits x.ety) true)
    else if s.mustFollow ck ea then .error .wait
    else match s.loadRange ck ea.toNat n with
      | .error .wait => .error .wait
      | .error (.trap t) => .error (.trap t)
      | .error (.fatal _) => .ok (deliver s (s.rdFail ea.toNat n % 2 ^ entryBits x.ety) true)
      | .ok (v, m) =>
        let v := if x.ety = 0 then (v / 2 ^ (4 * (a.toNat % 2))) % 16 else v % 2 ^ entryBits x.ety
        .ok (deliver (s.countRange ck ea.toNat n false) v m))
/-- Piece `i` of 8 bytes of buffered entry `j` is the one that a fetch reads now: pieces of one entry are fetched apart, each before the entry is popped
(07 R167, R174). -/
def State.refetch (s : State) (ck q j i : Nat) : State :=
  let x := (s.strand ck).stream q
  match x.buf[j]?, (wordPieces (x.entryAt (x.done + j)).1.toNat (x.entryAt (x.done + j)).2)[i]? with
  | some e, some p =>
    let ea : Word := w64 p.2.1
    let s' := s.asOf x.tabs
    if x.state != .inS || x.ety = 0 || e.mark || (match s'.checkOf ck ea with | .ok _ => false | _ => true) || (s.global ea && x.gen != s.gen) then s
    else match s'.loadRange ck ea.toNat p.2.2 with
      | .ok (v, m) =>
        let keep := e.bits.toNat - e.bits.toNat / 2 ^ (8 * p.1) % 2 ^ (8 * p.2.2) * 2 ^ (8 * p.1)
        let y : Entry := { bits := BitVec.ofNat 16384 (keep + v * 2 ^ (8 * p.1)), mark := m }
        (s.modStrand ck (fun st => st.setStream q { x with buf := x.buf.set j y })).countRange ck ea.toNat p.2.2 false
      | .error _ => s
  | _, _ => s

/-- One piece of an entry stored and published at the scope of its binding (07 R174): performed, or posted where it counts as complete before that (13 R285, R299), in a
request slot (07 R170). A failure sets CERR (13 R294, 17 R360). -/
def State.storePiece (s : State) (ck : Nat) (x : Stream) (ea data mask : Nat) : Except Stop State :=
  let cerr := s.modStrand ck (fun st => { st with cerr := true })
  match s.place (s.me? ck).asid (s.me? ck).part ea true with
  | .error _ => .ok cerr
  | .ok _ =>
    if s.scopeStage ck x.scope.toNat ea ≠ 0 then
      (if s.slotFree ck then .ok (s.postAt ck 0 ea (s.scopeStage ck x.scope.toNat ea) x.gen x.tabs (.entry data mask)) else .error .wait)
    else match s.wrPiece (s.me? ck) ea data mask with
      | .ok t => .ok t
      | .error _ => .ok cerr
/-- The oldest entry of an OUT binding stored and published (07 R174). -/
def State.storeEntry (s : State) (ck q : Nat) : Except Stop State := s.byTabs ((s.strand ck).stream q).tabs (fun s =>
  let x := (s.strand ck).stream q
  match x.buf with
  | [] => .ok s
  | e :: r =>
    let a := x.addr (x.done - x.buf.length)
    let ea := (x.entryAt (x.done - x.buf.length)).1
    let n := (x.entryAt (x.done - x.buf.length)).2
    let s1 := s.modStrand ck (fun st => st.setStream q { x with buf := r })
    let cerr := s1.modStrand ck (fun st => { st with cerr := true })
    match s.checkOf ck ea with
    | .error .wait => .error .wait
    | .error _ => .ok cerr
    | .ok _ =>
      if s.global ea ∧ x.gen ≠ s.gen then .ok cerr
      else if s.mustFollow ck ea then .error .wait
      else
        let v : Nat :=
          if x.ety = 0 then
            match s.rdPiece (s.me? ck) ea.toNat 1 with
            | .ok (b, _) => if a.toNat % 2 = 0 then b / 16 * 16 + e.bits.toNat % 16 else b % 16 + e.bits.toNat % 16 * 16
            | .error _ => 0
          else e.bits.toNat % 2 ^ entryBits x.ety
        (linePieces ea.toNat n).foldlM (fun s q =>
          let sh := q.2.1 % 64
          s.storePiece ck x ((q.2.1 - sh) % 2 ^ 64) (v / 2 ^ (8 * q.1) % 2 ^ (8 * q.2.2) * 2 ^ (8 * sh)) ((2 ^ q.2.2 - 1) * 2 ^ sh))
          (if x.ety = 0 then s1.behind (s.me? ck) ea.toNat else s1))

/-- The binding of a stream named by a word, for `k` pops: the trap of 10 R244, the stall of 09 R214, the trap and the wait of 06 R141. -/
def State.popCheck (s : State) (q k : Nat) : Except Stop Unit :=
  let x := s.me.stream q
  let bad : Except Stop Unit := .error (trapOf .streamBinding (w64 q))
  if s.me.hdl then bad
  else if s.streamTaken s.cur.ck q then .error .wait
  else if x.state ≠ .inS ∨ x.count < x.done + k then bad
  else if x.buf.length < k then .error .wait else .ok ()
/-- The same for `k` pushes; entries still on their way are reserved (08 R190). -/
def State.pushCheck (s : State) (q k : Nat) : Except Stop Unit :=
  let x := s.me.stream q
  let coming := (s.myEng.flight.filter (fun f => f.dest == .q q)).foldl (fun n f => n + (match f.val with | .push es => es.length | _ => 0)) 0
  let bad : Except Stop Unit := .error (trapOf .streamBinding (w64 q))
  if s.me.hdl then bad
  else if s.streamTaken s.cur.ck q then .error .wait
  else if x.state ≠ .outS ∨ x.count < x.done + coming + k then bad
  else if x.capacity < x.buf.length + coming + k then .error .wait else .ok ()
/-- `k` entries leave the head of an IN binding. -/
def State.popN (s : State) (q k : Nat) : State :=
  s.modMe (fun st =>
    let x := st.stream q
    st.setStream q { x with buf := x.buf.drop k, done := x.done + k })

end Sys2Proof.Machine
end

