-- ==== Sys2Proof/Machine/Lanes.lean ====
section
/-! DEFINITION. Lanes of a tile (08 R187), reading the operands of V words (08 R190, R191, 01 R36), and where their results go. -/

namespace Sys2Proof.Machine

/-- NR, NC and the widest element of a VSHAPE value (08 R187). -/
def shNr (x : BitVec 13) : Nat := 2 ^ fld x 2 0
def shNc (x : BitVec 13) : Nat := 16 * (fld x 10 3 + 1)
def shEw (x : BitVec 13) : Nat := 4 * 2 ^ fld x 12 11
/-- Number of lanes. -/
def shN (x : BitVec 13) : Nat := shNr x * shNc x
/-- Lane `e` of width `w` of a tile. -/
def lane {n : Nat} (t : BitVec n) (w e : Nat) : Nat := (t.toNat >>> (w * e)) % 2 ^ w
/-- A tile from its lanes of width `w`; the bytes beyond are zero. -/
def ofLanes (w : Nat) (xs : List Nat) : Tile := BitVec.ofNat 16384 (packLE w xs)
/-- A mask from its bits. -/
def ofBits (xs : List Bool) : Mask := BitVec.ofNat 4096 (packLE 1 (xs.map b2n))

/-- The floating format of a type code (02 R44). -/
def fmtOf? : Nat → Option Fmt
  | 1 => some .f32 | 2 => some .f16 | 3 => some .bf16 | 4 => some .e4m3 | 5 => some .e5m2 | 6 => some .e2m1 | 7 => some .e8m0 | _ => none
def fmtOf (t : Nat) : Fmt := (fmtOf? t).getD .f32
/-- A type with a sign among the integer types. -/
def tSigned (t : Nat) : Bool := decide (8 ≤ t) && decide (t ≤ 12)
/-- The integer that a lane of an integer type holds. -/
def laneInt (t c : Nat) : Int := if tSigned t then sval (Legal.tWidth t) c else Int.ofNat (c % 2 ^ Legal.tWidth t)

/-- A scalar read as B of a V word with X = 1. -/
def vscalar (w : W1) : Bool := Legal.fnX w.fn

/-- The power check of 15 R326 for a word with increment `inc`. -/
def State.powerCheck (s : State) (inc : Nat) : Except Stop Unit :=
  match s.me.level with
  | none => .ok ()
  | some l =>
    let meas := fld (s.dget s.myDie (0x320000000100 + 8 * s.myCore)) 11 0
    if l < meas + inc then .error (trapOf .powerExceeded (w64 l)) else .ok ()

/-- The value of bypass name `n` (01 R36), or a wait for it. -/
def State.bypassed (s : State) (n : Nat) : Except Stop (Tile × Bool) :=
  let e := s.myEng
  let i := e.widx - n
  if e.flight.any (fun f => f.sec == e.sec.ord && f.widx == i) then .error .wait
  else match (e.bypass.find? (fun b => b.widx == i)).bind (fun b => b.val) with
    | some v => .ok v
    | none => .ok (0, false)

/-- The physical register that a V-space specifier below 0x40 names. -/
def State.vphys (s : State) (x : BitVec 7) : Nat := s.me.phys x.toNat
/-- Waits that reading `x` as a tile makes (08 R205, 01 R36); `k` entries where it is a stream. -/
def State.vwait (s : State) (x : BitVec 7) (k : Nat) : Except Stop Unit :=
  if Legal.vreg x then (if s.vldBusy s.cur.ck (s.vphys x) then .error .wait else .ok ())
  else if Legal.qreg x then
    match s.popCheck (x.toNat - 0x40) k with | .error .wait => .error .wait | _ => .ok ()
  else if Legal.breg x then (s.bypassed (x.toNat - 0x57)).map (fun _ => ()) else .ok ()
/-- Traps that naming stream `x` for `k` entries makes (06 R141). -/
def State.vbind (s : State) (x : BitVec 7) (k : Nat) : Except Stop Unit :=
  if Legal.qreg x then s.popCheck (x.toNat - 0x40) k else .ok ()
/-- Vector register `p` as a word issuing now reads it; `k` tells uses apart. -/
def State.vget (s : State) (p k : Nat) : Tile :=
  if s.undefined s.me .v (.v p) then Config.undefTile s.free k else Map.get 0 s.me.v p
/-- A tile operand: the `j`-th entry of a stream, a register or a bypass value, or poison-consumed (08 R191). A register that is undefined gives a value and no
trap (00 R10). -/
def State.vopnd (s : State) (x : BitVec 7) (j k : Nat) : Except Stop Tile :=
  let psn : Except Stop Tile := .error (trapOf .poisonConsumed (w64 x.toNat))
  if Legal.vreg x then (if bit s.me.vmark (s.vphys x) && !s.undefined s.me .v (.v (s.vphys x)) then psn else .ok (s.vget (s.vphys x) k))
  else if Legal.qreg x then
    match (s.me.stream (x.toNat - 0x40)).buf[j]? with
    | some e => if e.mark then psn else .ok e.bits
    | none => .error .wait
  else if Legal.breg x then do
    let v ← s.bypassed (x.toNat - 0x57)
    if v.2 then psn else .ok v.1
  else .ok 0
/-- A mask register as a word issuing now reads it. -/
def State.mget (s : State) (x : BitVec 7) (k : Nat) : Mask :=
  let r := x.toNat - 0x50
  if s.myEng.window (.m r) s.time then Config.undefMask s.free k else Map.get 0 s.me.m r
/-- Lane `e` is active under mask operand `x` (08 R190). -/
def active (x : BitVec 7) (m : Mask) (e : Nat) : Bool := x == 0 || bit m e

/-- How many of the specifiers are stream `x`. -/
def countOf (xs : List (BitVec 7)) (x : BitVec 7) : Nat := (xs.filter (· == x)).length
/-- What every V word does before its own checks: waits for operands `xs`, for room in a stream destination, for a destination that a `vld`
still fills; the power check; the shape check over the widths used (08 R189); the binding checks (02 R43). -/
def State.vopen (s : State) (inc : Nat) (widths : List Nat) (xs : List (BitVec 7)) (d : Option (BitVec 7)) : Except Stop Unit := do
  xs.forM (fun x => s.vwait x (countOf xs x))
  (match d with
   | some x =>
     if Legal.qreg x then (match s.pushCheck (x.toNat - 0x40) 1 with | .error .wait => .error .wait | _ => .ok ())
     else s.vwait x 0
   | none => .ok ())
  s.powerCheck inc
  if widths.any (fun w => decide (shEw s.me.vshape < w)) then .error (trapOf .vectorShape (zx s.me.vshape))
  else
    xs.forM (fun x => s.vbind x (countOf xs x))
    match d with
    | some x => if Legal.qreg x then s.pushCheck (x.toNat - 0x40) 1 else .ok ()
    | none => .ok ()
/-- Every stream named in `xs` gives up one entry for each occurrence. -/
def State.vpops (s : State) (xs : List (BitVec 7)) : State :=
  xs.foldl (fun s x => if Legal.qreg x then s.popN (x.toNat - 0x40) 1 else s) s

/-- A result on its way to vector register `p`: it takes its place among the bypass values (01 R36). -/
def State.putV (s : State) (h : Head) (p : Nat) (t : Tile) (mark : Bool) (fl : Flags) : State :=
  (s.put h (.v p) (.tile t mark) fl).modMyEng (fun e => { e with bypass := e.bypass ++ [Bypass.mk e.widx (some (t, mark))] })
/-- A tile result: to a vector register, or one entry pushed to a stream (06 R142). -/
def State.vresult (s : State) (h : Head) (d : BitVec 7) (t : Tile) (fl : Flags) : State :=
  if Legal.vreg d then s.putV h (s.vphys d) t false fl
  else if Legal.qreg d then
    let q := d.toNat - 0x40
    let b := entryBits (s.me.stream q).ety
    s.put h (.q q) (.push [{ bits := BitVec.ofNat 16384 (t.toNat % 2 ^ b), mark := false }]) fl
  else s
/-- A mask result. -/
def State.mresult (s : State) (h : Head) (d : BitVec 7) (m : Mask) (fl : Flags) : State := s.put h (.m (d.toNat - 0x50)) (.mask m) fl

/-- The scalar that B names, as one element of width `w` (02 R46). -/
def State.vscal (s : State) (x : BitVec 7) (w : Nat) : Except Stop Nat := (s.rd x 1).map (fun v => v.toNat % 2 ^ w)

/-- Results of lanes and their flags put together. -/
def orFlags (fs : List Flags) : Flags := fs.foldl (fun a b => a ||| b) 0

/-- Operands of a lane-wise word: tiles A and B (B zero where it is no tile), the scalar B, C as a tile, mask, and the old destination. -/
structure VIn where
  a    : Tile
  b    : Tile
  sb   : Nat
  c    : Tile
  mask : Mask
  old  : Tile

/-- A lane-wise word (08 R193): `bT` and `cT` say that B and C are read as tiles, `cM` that C is a mask operand; `f` gives lane `e` of the
result and its flags. A lane that the mask excludes keeps its old value, or is zero where D is a stream. -/
def lanewise (i : Instr) (h : Head) (w : W1) (s : State) (inc wd : Nat) (widths : List Nat) (bT cT cM rdD : Bool)
    (f : BitVec 13 → VIn → Nat → Nat × Flags) : Out :=
  let xs := [w.a] ++ (if bT ∧ !vscalar w then [w.b] else []) ++ (if cT then [w.c] else [])
  let ka := 0
  let kb := countOf [w.a] w.b
  let kc := countOf ([w.a] ++ (if bT ∧ !vscalar w then [w.b] else [])) w.c
  let masked := cM && w.c != 0
  let keeps := (masked && Legal.vreg w.d) || rdD
  word i h s (fun s => do
    s.vopen inc widths xs (some w.d)
    let a ← s.vopnd w.a ka 0
    let b ← if bT ∧ !vscalar w then s.vopnd w.b kb 1 else .ok 0
    let sb ← if bT ∧ vscalar w then s.rd w.b 1 else .ok 0
    let c ← if cT then s.vopnd w.c kc 2 else .ok 0
    let old ← if keeps then s.vopnd w.d 0 3 else .ok 0
    let m := if masked then s.mget w.c 4 else 0
    let sh := s.me.vshape
    let v : VIn := { a, b, sb := sb.toNat, c, mask := m, old }
    let rs := (List.range (shN sh)).map (fun e =>
      if masked && !bit m e then ((if Legal.vreg w.d then lane old wd e else 0), (0 : Flags)) else f sh v e)
    .ok (ofLanes wd (rs.map (fun r => r.1 % 2 ^ wd)), orFlags (rs.map (fun r => r.2))))
    (fun r s => (s.vpops xs).vresult h w.d r.1 r.2)

end Sys2Proof.Machine
end

