-- ==== Sys2Proof/Machine/Vector.lean ====
section
/-! DEFINITION. Lane-wise, reduction, conversion and movement words of the vector engine (08 R188 to R202). -/

namespace Sys2Proof.Machine

def vTD (w : W1) : Nat := Legal.fnTD w.fn
def vTS (w : W1) : Nat := Legal.fnTS w.fn
def wTD (w : W1) : Nat := Legal.tWidth (vTD w)
def wTS (w : W1) : Nat := Legal.tWidth (vTS w)
/-- Lane `e` of B, or the scalar (02 R46). -/
def VIn.bl (v : VIn) (w : W1) (wb e : Nat) : Nat := if vscalar w then v.sb % 2 ^ wb else lane v.b wb e

/-- Two operands (08 R193): floating `ff`, exact integer `fi` saturated to TD. -/
def arith2 (w : W1) (ff : Fv → Fv → Fv × Bool) (fi : Int → Int → Int) (v : VIn) (e : Nat) : Nat × Flags :=
  let a := lane v.a (wTS w) e
  let b := v.bl w (wTS w) e
  if Legal.tFL (vTS w) then
    let r := ff ((fmtOf (vTS w)).decode a) ((fmtOf (vTS w)).decode b)
    let c := (fmtOf (vTD w)).cvt r.1
    (c.1, c.2 ||| inv r.2)
  else clampInt (tSigned (vTD w)) (wTD w) (fi (laneInt (vTS w) a) (laneInt (vTS w) b))
/-- One operand likewise. -/
def arith1 (w : W1) (ff : Fv → Fv) (fi : Int → Int) (v : VIn) (e : Nat) : Nat × Flags :=
  let a := lane v.a (wTS w) e
  if Legal.tFL (vTS w) then (fmtOf (vTD w)).cvt (ff ((fmtOf (vTS w)).decode a))
  else clampInt (tSigned (vTD w)) (wTD w) (fi (laneInt (vTS w) a))

def vec2 (i : Instr) (h : Head) (w : W1) (s : State) (ff : Fv → Fv → Fv × Bool) (fi : Int → Int → Int) : Out :=
  lanewise i h w s 2 (wTD w) [wTD w, wTS w] true false true false (fun _ v e => arith2 w ff fi v e)
def vec1 (i : Instr) (h : Head) (w : W1) (s : State) (ff : Fv → Fv) (fi : Int → Int) : Out :=
  lanewise i h w s 2 (wTD w) [wTD w, wTS w] false false true false (fun _ v e => arith1 w ff fi v e)

def execVadd (h : Head) (w : W1) (s : State) : Out := vec2 (.vadd h w) h w s Fv.add (fun a b => a + b)
def execVsub (h : Head) (w : W1) (s : State) : Out := vec2 (.vsub h w) h w s (fun a b => Fv.add a b.neg) (fun a b => a - b)
def execVmul (h : Head) (w : W1) (s : State) : Out := vec2 (.vmul h w) h w s Fv.mul (fun a b => a * b)
def execVmin (h : Head) (w : W1) (s : State) : Out := vec2 (.vmin h w) h w s (fun a b => (Fv.min a b, false)) (fun a b => min a b)
def execVmax (h : Head) (w : W1) (s : State) : Out := vec2 (.vmax h w) h w s (fun a b => (Fv.max a b, false)) (fun a b => max a b)
def execVabs (h : Head) (w : W1) (s : State) : Out := vec1 (.vabs h w) h w s Fv.abs (fun a => Int.ofNat a.natAbs)
def execVneg (h : Head) (w : W1) (s : State) : Out := vec1 (.vneg h w) h w s Fv.neg (fun a => -a)
/-- `vfma`: C is the addend (08 R193). -/
def execVfma (h : Head) (w : W1) (s : State) : Out :=
  lanewise (.vfma h w) h w s 3 (wTD w) [wTD w, wTS w] true true false false (fun _ v e =>
    let d (c : Nat) := (fmtOf (vTS w)).decode c
    fma (fmtOf (vTD w)) (d (lane v.a (wTS w) e)) (d (v.bl w (wTS w) e)) (d (lane v.c (wTS w) e)))
/-- Bounds of `vclamp` (08 R195). -/
def clampBound (w : W1) (hi : Bool) : Nat := if hi then w.imm.toNat / 2 ^ 20 else w.imm.toNat % 2 ^ 20
def execVclamp (h : Head) (w : W1) (s : State) : Out :=
  vec1 (.vclamp h w) h w s
    (fun a => Fv.min (Fv.max a (f32d (clampBound w false * 2 ^ 12))) (f32d (clampBound w true * 2 ^ 12)))
    (fun a => min (max a (sval 20 (clampBound w false))) (sval 20 (clampBound w true)))
/-- Conditions of `vcmp` (08 R195) on the sign of a - b, or on an unordered pair. -/
def vcond (cc : Nat) (uno : Bool) (c : Int) : Bool :=
  match cc with
  | 0 => !uno && decide (c = 0)
  | 1 => uno || decide (c ≠ 0)
  | 2 => !uno && decide (c < 0)
  | 3 => !uno && decide (c ≤ 0)
  | 4 => !uno && decide (c > 0)
  | 5 => !uno && decide (c ≥ 0)
  | 6 => uno
  | _ => false
/-- `vcmp` writes a mask; excluded lanes are written 0 (08 R195). -/
def execVcmp (h : Head) (w : W1) (s : State) : Out :=
  let xs := [w.a] ++ (if vscalar w then [] else [w.b])
  word (.vcmp h w) h s (fun s => do
    s.vopen 2 [wTS w] xs none
    let a ← s.vopnd w.a 0 0
    let b ← if vscalar w then .ok 0 else s.vopnd w.b (countOf [w.a] w.b) 1
    let sb ← if vscalar w then s.rd w.b 1 else .ok 0
    let m := if w.c = 0 then 0 else s.mget w.c 4
    let v : VIn := { a, b, sb := sb.toNat, c := 0, mask := m, old := 0 }
    .ok (ofBits ((List.range (shN s.me.vshape)).map (fun e =>
      active w.c m e &&
      (let x := lane v.a (wTS w) e
       let y := v.bl w (wTS w) e
       if Legal.tFL (vTS w) then
         let p := (fmtOf (vTS w)).decode x
         let q := (fmtOf (vTS w)).decode y
         vcond (w.imm.toNat % 8) (p.isNan || q.isNan) (Fv.cmp p q)
       else vcond (w.imm.toNat % 8) false (laneInt (vTS w) x - laneInt (vTS w) y))))))
    (fun m s => (s.vpops xs).mresult h w.d m 0)
/-- `vsel`: the mask chooses, and every lane is written (08 R193). -/
def execVsel (h : Head) (w : W1) (s : State) : Out :=
  let xs := [w.a] ++ (if vscalar w then [] else [w.b])
  word (.vsel h w) h s (fun s => do
    s.vopen 2 [wTD w, wTS w] xs (some w.d)
    let a ← s.vopnd w.a 0 0
    let b ← if vscalar w then .ok 0 else s.vopnd w.b (countOf [w.a] w.b) 1
    let sb ← if vscalar w then s.rd w.b 1 else .ok 0
    let m := s.mget w.c 4
    let v : VIn := { a, b, sb := sb.toNat, c := 0, mask := m, old := 0 }
    .ok (ofLanes (wTD w) ((List.range (shN s.me.vshape)).map (fun e => if bit m e then lane v.a (wTS w) e else v.bl w (wTS w) e))))
    (fun t s => (s.vpops xs).vresult h w.d t 0)

/-- Logic on codes (08 R194): typed lanes, or whole registers or masks where untyped, then every bit of a mask, those at or beyond N too (DESIGN CHOICE, log 85). -/
def vlogic (i : Instr) (h : Head) (w : W1) (s : State) (b : Bool) (f : Nat → Nat → Nat → Nat) : Out :=
  if vTS w = 0 then
    if Legal.mreg w.d then
      word i h s (fun s => do
        s.vopen 2 [] [] none
        .ok (BitVec.ofNat 4096 (f 4096 (s.mget w.a 0).toNat (if b then (s.mget w.b 1).toNat else 0))))
        (fun m s => s.mresult h w.d m 0)
    else
      let xs := [w.a] ++ (if b then [w.b] else [])
      word i h s (fun s => do
        s.vopen 2 [] xs (some w.d)
        let x ← s.vopnd w.a 0 0
        let y ← if b then s.vopnd w.b 0 1 else .ok 0
        .ok (BitVec.ofNat 16384 (f 16384 x.toNat y.toNat)))
        (fun t s => s.vresult h w.d t 0)
  else
    lanewise i h w s 2 (wTD w) [wTD w] b false true false (fun _ v e =>
      (f (wTS w) (lane v.a (wTS w) e) (if b then v.bl w (wTS w) e else 0), 0))
def execVand (h : Head) (w : W1) (s : State) : Out := vlogic (.vand h w) h w s true (fun _ a b => a &&& b)
def execVor (h : Head) (w : W1) (s : State) : Out := vlogic (.vor h w) h w s true (fun _ a b => a ||| b)
def execVxor (h : Head) (w : W1) (s : State) : Out := vlogic (.vxor h w) h w s true (fun _ a b => a ^^^ b)
def execVnot (h : Head) (w : W1) (s : State) : Out := vlogic (.vnot h w) h w s false (fun n a _ => 2 ^ n - 1 - a)
/-- Shifts (08 R195): the amount is SH or lane e of B, at most the width. -/
def vshift (i : Instr) (h : Head) (w : W1) (s : State) (f : Nat → Nat → Nat → Nat) : Out :=
  let isI := w.imm.getLsbD 6
  lanewise i h w s 2 (wTD w) [wTD w] (!isI) false true false (fun _ v e =>
    let amt := if isI then w.imm.toNat % 64 else v.bl w (wTS w) e
    (f (wTS w) (lane v.a (wTS w) e) (min amt (wTS w)), 0))
def execVshl (h : Head) (w : W1) (s : State) : Out := vshift (.vshl h w) h w s (fun n a k => a * 2 ^ k % 2 ^ n)
def execVshr (h : Head) (w : W1) (s : State) : Out := vshift (.vshr h w) h w s (fun _ a k => a / 2 ^ k)
def execVsar (h : Head) (w : W1) (s : State) : Out := vshift (.vsar h w) h w s (fun n a k => scode n (sval n a / 2 ^ k))

/-- A reduction (08 R196): `f` folds the lanes of one row or column, each with its position and whether the mask takes it. -/
def vreduce (i : Instr) (h : Head) (w : W1) (s : State) (f : List (Nat × Bool) → Nat × Flags) : Out :=
  word i h s (fun s => do
    s.vopen 2 [wTD w, wTS w] [w.a] (some w.d)
    let a ← s.vopnd w.a 0 0
    let m := if w.c = 0 then 0 else s.mget w.c 4
    let sh := s.me.vshape
    let at_ (r c : Nat) : Nat × Bool := (lane a (wTS w) (r * shNc sh + c), active w.c m (r * shNc sh + c))
    let col := Legal.fnRC w.fn
    let rs := if col then (List.range (shNc sh)).map (fun c => f ((List.range (shNr sh)).map (fun r => at_ r c)))
      else (List.range (shNr sh)).map (fun r => f ((List.range (shNc sh)).map (fun c => at_ r c)))
    let out (e : Nat) : Nat :=
      if col then (if e < shNc sh then (rs.getD e (0, 0)).1 else 0)
      else (if e % shNc sh = 0 then (rs.getD (e / shNc sh) (0, 0)).1 else 0)
    .ok (ofLanes (wTD w) ((List.range (shN sh)).map out), orFlags (rs.map (fun r => r.2))))
    (fun r s => (s.vpops [w.a]).vresult h w.d r.1 r.2)
/-- `vredsum` on one row or column: groups of 16 positions, each exact, one rounding to TD each. -/
def redSum (w : W1) (xs : List (Nat × Bool)) : Nat × Flags :=
  if Legal.tFL (vTS w) then
    let td := fmtOf (vTD w)
    (groups 16 xs).foldl (fun (z, fl) g =>
      let gs := groupSum ((g.filter (fun p => p.2)).map (fun p => ((fmtOf (vTS w)).decode p.1, Fv.one)))
      let r := Fv.add (td.decode z) gs.1
      let c := td.cvt r.1
      (c.1, fl ||| gs.2 ||| c.2 ||| inv r.2)) (0, 0)
  else clampInt (tSigned (vTD w)) (wTD w) (xs.foldl (fun t p => if p.2 then t + laneInt (vTS w) p.1 else t) 0)
/-- `vredmax` and `vredmin`. -/
def redPick (w : W1) (big : Bool) (xs : List (Nat × Bool)) : Nat × Flags :=
  let ys := (xs.filter (fun p => p.2)).map (fun p => p.1)
  if Legal.tFL (vTS w) then
    let f := fmtOf (vTS w)
    let pick (x y : Fv) := if big then Fv.max x y else Fv.min x y
    ((f.cvt (ys.foldl (fun m c => pick m (f.decode c)) (Fv.inf big))).1, 0)
  else
    let n := wTS w
    let lo : Int := if tSigned (vTS w) then -(2 ^ (n - 1) : Int) else 0
    let hi : Int := if tSigned (vTS w) then 2 ^ (n - 1) - 1 else 2 ^ n - 1
    (scode n (ys.foldl (fun m c => if big then max m (laneInt (vTS w) c) else min m (laneInt (vTS w) c)) (if big then lo else hi)), 0)
/-- `vamax`. -/
def redAmax (w : W1) (xs : List (Nat × Bool)) : Nat × Flags :=
  let ys := (xs.filter (fun p => p.2)).map (fun p => p.1)
  if Legal.tFL (vTS w) then
    let f := fmtOf (vTS w)
    ((f.cvt (ys.foldl (fun m c => Fv.max m (f.decode c).abs) Fv.zero)).1, 0)
  else
    let r := clampInt (tSigned (vTS w)) (wTS w) (ys.foldl (fun (m : Int) c => max m (Int.ofNat (laneInt (vTS w) c).natAbs)) 0)
    r
def execVredsum (h : Head) (w : W1) (s : State) : Out := vreduce (.vredsum h w) h w s (redSum w)
def execVredmax (h : Head) (w : W1) (s : State) : Out := vreduce (.vredmax h w) h w s (redPick w true)
def execVredmin (h : Head) (w : W1) (s : State) : Out := vreduce (.vredmin h w) h w s (redPick w false)
def execVamax (h : Head) (w : W1) (s : State) : Out := vreduce (.vamax h w) h w s (redAmax w)

/-- Special functions (08 R197, 04 R105): narrow destinations take a second rounding with its own flags. -/
def vspecial (i : Instr) (h : Head) (w : W1) (s : State) (f : Fv → Nat × Flags) : Out :=
  lanewise i h w s 3 (wTD w) [wTD w, wTS w] false false true false (fun _ v e =>
    let r := f ((fmtOf (vTS w)).decode (lane v.a (wTS w) e))
    if vTD w = 1 then r
    else
      let c := (fmtOf (vTD w)).cvt (f32d r.1)
      (c.1, c.2 ||| r.2))
def execVexp2 (h : Head) (w : W1) (s : State) : Out := vspecial (.vexp2 h w) h w s exp2ref
def execVlog2 (h : Head) (w : W1) (s : State) : Out := vspecial (.vlog2 h w) h w s log2ref
def execVrcp (h : Head) (w : W1) (s : State) : Out := vspecial (.vrcp h w) h w s rcpref
def execVrsq (h : Head) (w : W1) (s : State) : Out := vspecial (.vrsq h w) h w s rsqref
def execVtanh (h : Head) (w : W1) (s : State) : Out := vspecial (.vtanh h w) h w s tanhref

/-- cvt of a code between any two types (04 R89); a NaN converted to e2m1 keeps its sign bit. -/
def cvtCode (ts td c : Nat) : Nat × Flags :=
  match fmtOf? ts, fmtOf? td with
  | some f, some g =>
    let r := g.cvt (f.decode c)
    if g = .e2m1 ∧ (f.decode c).isNan ∧ f ≠ .e8m0 ∧ c.testBit (f.bits - 1) then (Fmt.e2m1.signed true 7, r.2) else r
  | some f, none => cvtToInt (tSigned td) (Legal.tWidth td) (f.decode c)
  | none, some g => g.cvt (Fv.ofInt (laneInt ts c))
  | none, none => clampInt (tSigned td) (Legal.tWidth td) (laneInt ts c)
/-- 08 R198. -/
def execVcvt (h : Head) (w : W1) (s : State) : Out :=
  lanewise (.vcvt h w) h w s 2 (wTD w) [wTD w, wTS w] false false true false (fun _ v e => cvtCode (vTS w) (vTD w) (lane v.a (wTS w) e))

/-- The quantisation target of a type code (04 R90). -/
def qfmtOf (t : Nat) : QFmt :=
  match t with
  | 8 => .i4 | 9 => .i8 | 17 => .q4 | 18 => .q8 | _ => .fl (fmtOf t)
/-- Types whose C holds zero points (08 R199). -/
def zeroPt (t : Nat) : Bool := t == 17 || t == 18
/-- 08 R199: B is f32 lanes, or with X = 1 one element of type TS. A zero point is the whole byte of its lane (DESIGN CHOICE, log 98). -/
def execVqnt (h : Head) (w : W1) (s : State) : Out :=
  let z := zeroPt (vTD w) && w.c != 0
  lanewise (.vqnt h w) h w s 2 (wTD w) ([wTD w, wTS w] ++ (if vscalar w then [] else [32]) ++ (if z then [8] else [])) true z (!zeroPt (vTD w)) false
    (fun _ v e =>
      let rs := if vscalar w then (fmtOf (vTS w)).decode (v.sb % 2 ^ wTS w) else f32d (lane v.b 32 e)
      quant ((fmtOf (vTS w)).decode (lane v.a (wTS w) e)) rs (qfmtOf (vTD w)) (if z then lane v.c 8 e else 0))
/-- dq (04 R91): the code's value less the zero point, times the scale, rounded once. -/
def dequant (ts td c z : Nat) (sc : Fv) : Nat × Flags :=
  let v := if zeroPt ts then Fv.ofInt (Int.ofNat (c % 2 ^ Legal.tWidth ts) - Int.ofNat z)
    else match fmtOf? ts with | some f => f.decode c | none => Fv.ofInt (laneInt ts c)
  let p := Fv.mul v sc
  let r := (fmtOf td).cvt p.1
  (r.1, r.2 ||| inv p.2)
def execVdq (h : Head) (w : W1) (s : State) : Out :=
  let z := zeroPt (vTS w) && w.c != 0
  lanewise (.vdq h w) h w s 2 (wTD w) ([wTD w, wTS w, 32] ++ (if z then [8] else [])) true z (!zeroPt (vTS w)) false (fun _ v e =>
    dequant (vTS w) (vTD w) (lane v.a (wTS w) e) (if z then lane v.c 8 e else 0) (f32d (lane v.b 32 e)))
/-- emax of a target (04 R92). -/
def emaxOf (t : Nat) : Int := if t = 4 then 8 else if t = 5 then 15 else 2
def execVscexp (h : Head) (w : W1) (s : State) : Out :=
  lanewise (.vscexp h w) h w s 2 8 [8, wTS w] false false true false (fun _ v e =>
    scexp ((fmtOf (vTS w)).decode (lane v.a (wTS w) e)) (emaxOf (vTD w)))
/-- 08 R200: B's column 0 and C's row 0 are scales; C = 0x00 is 1.0. -/
def execVscacc (h : Head) (w : W1) (s : State) : Out :=
  lanewise (.vscacc h w) h w s 2 32 [32, wTS w] true (w.c != 0) false true (fun sh v e =>
    let part := if vTS w = 1 then f32d (lane v.a 32 e) else Fv.ofInt (laneInt 11 (lane v.a 32 e))
    scacc (f32d (lane v.old 32 e)) part (f32d (lane v.b 32 (e / shNc sh * shNc sh))) (if w.c = 0 then Fv.one else f32d (lane v.c 32 (e % shNc sh))))

/-- 08 R201, `vmov`: untyped copies of a register or mask, typed lanes, or a scalar in every lane. -/
def execVmov (h : Head) (w : W1) (s : State) : Out :=
  if vTS w = 0 then
    if Legal.mreg w.d then
      word (.vmov h w) h s (fun s => do s.vopen 2 [] [] none; .ok (s.mget w.a 0)) (fun m s => s.mresult h w.d m 0)
    else
      word (.vmov h w) h s (fun s => do s.vopen 2 [] [w.a] (some w.d); s.vopnd w.a 0 0) (fun t s => (s.vpops [w.a]).vresult h w.d t 0)
  else if vscalar w then
    let masked := w.c != 0
    word (.vmov h w) h s (fun s => do
      s.vopen 2 [wTD w] [] (some w.d)
      let b ← s.rd w.b 1
      let old ← if masked ∧ Legal.vreg w.d then s.vopnd w.d 0 3 else .ok 0
      let m := if masked then s.mget w.c 4 else 0
      .ok (ofLanes (wTD w) ((List.range (shN s.me.vshape)).map (fun e =>
        if masked && !bit m e then (if Legal.vreg w.d then lane old (wTD w) e else 0) else b.toNat % 2 ^ wTD w))))
      (fun t s => s.vresult h w.d t 0)
  else lanewise (.vmov h w) h w s 2 (wTD w) [wTD w] false false true false (fun _ v e => (lane v.a (wTS w) e, 0))
/-- 08 R201, `vbcast`. -/
def execVbcast (h : Head) (w : W1) (s : State) : Out :=
  lanewise (.vbcast h w) h w s 2 (wTD w) [wTD w] false false true false (fun sh v e => (lane v.a (wTS w) (e / shNc sh * shNc sh), 0))
/-- 08 R201, `vtrans`: square blocks of NR columns. -/
def execVtrans (h : Head) (w : W1) (s : State) : Out :=
  lanewise (.vtrans h w) h w s 2 (wTD w) [wTD w] false false true false (fun sh v e =>
    let i := e / shNc sh
    let c := e % shNc sh
    (lane v.a (wTS w) (c % shNr sh * shNc sh + (c / shNr sh * shNr sh + i)), 0))
/-- 08 R201, `vperm`; C is a mask as 08 R193 has it. -/
def execVperm (h : Head) (w : W1) (s : State) : Out :=
  let masked := w.c != 0
  let mode := w.imm.toNat % 4
  let k := w.imm.toNat / 256 % 4096
  let xs := [w.a] ++ (if mode = 0 then [w.b] else [])
  word (.vperm h w) h s (fun s => do
    s.vopen 2 ([wTD w] ++ (if mode = 0 then [16] else [])) xs (some w.d)
    let sh := s.me.vshape
    let bad := (mode == 0 && decide (1024 < shN sh)) || (mode == 1 && decide (shNc sh ≤ k)) || (mode == 2 && decide (shNr sh ≤ k))
    if bad then .error (trapOf .vectorShape (zx sh)) else .ok ()
    let a ← s.vopnd w.a 0 0
    let b ← if mode = 0 then s.vopnd w.b (countOf [w.a] w.b) 1 else .ok 0
    let old ← if masked ∧ Legal.vreg w.d then s.vopnd w.d 0 3 else .ok 0
    let m := if masked then s.mget w.c 4 else 0
    .ok (ofLanes (wTD w) ((List.range (shN sh)).map (fun e =>
      if masked && !bit m e then (if Legal.vreg w.d then lane old (wTD w) e else 0)
      else if mode = 0 then (let x := lane b 16 e; if x < shN sh then lane a (wTS w) x else 0)
      else if mode = 1 then lane a (wTS w) (e / shNc sh * shNc sh + k)
      else lane a (wTS w) (k * shNc sh + e % shNc sh)))))
    (fun t s => (s.vpops xs).vresult h w.d t 0)

/-- 08 R188. -/
def execVshape (h : Head) (w : W6) (s : State) : Out :=
  word (.vshape h w) h s (fun s => do
    s.powerCheck 2
    if Legal.f0 w then
      let a ← s.rd w.a 0
      if a.toNat < 2 ^ 13 ∧ Legal.shape a.toNat then .ok (a.setWidth 13) else .error (trapOf .vectorShape (zx s.me.vshape))
    else .ok (w.imm.setWidth 13))
    (fun x s => s.modMe (fun st => { st with vshape := x }))

end Sys2Proof.Machine
end

