-- ==== Sys2Proof/Machine/VectorMem.lean ====
section
/-! DEFINITION. Vector words that reach accumulators, the vault, streams under a mask, attention states and the vertical FIFOs
(08 R202 to R209, 15 R320). -/

namespace Sys2Proof.Machine

/-- An array operation writes element `i` of its accumulator: its active rows and columns (09 R211, R223). -/
def MatOp.writes (pf : Profile) (m : MatOp) (i : Nat) : Bool :=
  let r := i / (accDims pf).2
  let c := i % (accDims pf).2
  if m.kind = .mmv then r == 0
  else match pf with
    | .p => bit m.ashape (r / 64) && bit m.ashape (4 + c / 64)
    | _ => true
/-- An earlier synchronous matrix operation is on its way to element `i` of accumulator `z` (09 R225, 01 R30). -/
def State.matWindow (s : State) (z i : Nat) : Bool :=
  s.ops.any (fun o => o.mine s.cur.ck && !o.held && (match o.kind with
    | .mat m => m.lb != 7 && m.kind != .mdrain && m.w.zd.toNat == z && m.writes s.myProfile i
    | _ => false))
/-- A V result is on its way to element `i` of accumulator `z`. -/
def Strand.putWindow (st : Strand) (z i now : Nat) : Bool :=
  (st.eng .v).flight.any (fun f => f.dest == .z z && decide (f.born < now) && (match f.val with
    | .acc els _ => els.any (fun p => p.1 == i)
    | _ => false))
/-- Element `i` of accumulator `z` as a V word issuing now reads it. -/
def State.zget (s : State) (z i : Nat) : BitVec 48 :=
  if s.me.putWindow z i s.time || s.matWindow z i || s.me.unordered s.cur.eng .m (.z z) then Config.undefAcc s.free i
  else if s.me.accp then Map.get 0 s.me.z (zKey z i) else 0
/-- The wait of 08 R203 for a word that names accumulator `z`: a pair, and no LB 7 operation that writes it. -/
def State.zwait (s : State) (z : Nat) : Except Stop Unit :=
  if !s.pairReady s.cur.ck ∨ s.accBusy s.cur.ck z then .error .wait else .ok ()
/-- The accumulator a V specifier names. -/
def zOf (x : BitVec 7) : Nat := x.toNat - 0x5C
/-- Index and offset of a row or column word, or the vector-shape trap (08 R202): `n` rows or columns stand. -/
def State.rcIndex (s : State) (w : W1) (n : Nat) : Except Stop (Nat × Nat) := do
  let b ← s.rd w.b 1
  let i := b.toNat % 65536
  if n ≤ i then .error (trapOf .vectorShape (zx s.me.vshape)) else .ok (i, b.toNat / 65536 % 65536)
/-- The element that position `j` of row or column `k` of an accumulator is, offset `o`; none beyond the extent. -/
def zElem (pf : Profile) (col : Bool) (k o j : Nat) : Option Nat :=
  let d := accDims pf
  if col then (if o + j < d.1 then some ((o + j) * d.2 + k) else none)
  else (if o + j < d.2 then some (k * d.2 + o + j) else none)
/-- The code of an accumulator element read as `.f32` or `.i32`. -/
def zCode (ty : Nat) (x : BitVec 48) : Nat × Flags := if ty = 1 then (x.toNat % 2 ^ 32, 0) else clampInt true 32 (sval 48 x.toNat)
/-- An f32 or i32 code as an accumulator element. -/
def zVal (ty c : Nat) : BitVec 48 := if ty = 1 then BitVec.ofNat 48 (c % 2 ^ 32) else BitVec.ofNat 48 (scode 48 (sval 32 c))
/-- Tag of accumulator `z` after elements of type `ty` were put (09 R215). -/
def State.putTag (s : State) (ty z : Nat) : Option AccTag :=
  if s.me.accp ∧ s.me.tag z ≠ .z then none else some (if ty = 1 then .f else .i)
/-- Lane of position `j` of row 0 or column 0. -/
def edgeLane (sh : BitVec 13) (col : Bool) (j : Nat) : Nat := if col then j * shNc sh else j

/-- `vrow` and `vcol` (08 R202). -/
def rowGet (i : Instr) (h : Head) (w : W1) (s : State) (col : Bool) : Out :=
  let n (sh : BitVec 13) : Nat := if col then shNr sh else shNc sh
  let ofEdge (sh : BitVec 13) (xs : List Nat) : Tile :=
    ofLanes (wTD w) ((List.range (shN sh)).map (fun e =>
      if col then (if e % shNc sh = 0 then xs.getD (e / shNc sh) 0 else 0) else (if e < shNc sh then xs.getD e 0 else 0)))
  if Legal.zreg w.a then
    word i h s (fun s => do
      s.zwait (zOf w.a)
      s.vopen 2 [wTD w] [] (some w.d)
      let d := accDims s.myProfile
      let (k, o) ← s.rcIndex w (if col then d.2 else d.1)
      let sh := s.me.vshape
      let rs := (List.range (n sh)).map (fun j =>
        match zElem s.myProfile col k o j with
        | some x => zCode (vTS w) (s.zget (zOf w.a) x)
        | none => (0, 0))
      .ok (ofEdge sh (rs.map (fun r => r.1)), orFlags (rs.map (fun r => r.2))))
      (fun r s => s.takePair.vresult h w.d r.1 r.2)
  else
    word i h s (fun s => do
      s.vopen 2 [wTD w] [w.a] (some w.d)
      let sh := s.me.vshape
      let (k, _) ← s.rcIndex w (if col then shNc sh else shNr sh)
      let a ← s.vopnd w.a 0 0
      .ok (ofEdge sh ((List.range (n sh)).map (fun j => lane a (wTS w) (if col then j * shNc sh + k else k * shNc sh + j)))))
      (fun t s => (s.vpops [w.a]).vresult h w.d t 0)
/-- `vrowput` and `vcolput` (08 R202). -/
def rowPut (i : Instr) (h : Head) (w : W1) (s : State) (col : Bool) : Out :=
  if Legal.zreg w.d then
    word i h s (fun s => do
      s.zwait (zOf w.d)
      s.vopen 2 [wTD w] [w.a] none
      let d := accDims s.myProfile
      let (k, o) ← s.rcIndex w (if col then d.2 else d.1)
      let a ← s.vopnd w.a 0 0
      let sh := s.me.vshape
      .ok ((List.range (if col then shNr sh else shNc sh)).filterMap (fun j =>
        (zElem s.myProfile col k o j).map (fun x => (x, zVal (vTS w) (lane a (wTS w) (edgeLane sh col j)))))))
      (fun els s => ((s.vpops [w.a]).takePair.put h (.z (zOf w.d)) (.acc els (s.putTag (vTS w) (zOf w.d))) 0))
  else
    word i h s (fun s => do
      s.vopen 2 [wTD w] [w.a] (some w.d)
      let sh := s.me.vshape
      let (k, _) ← s.rcIndex w (if col then shNc sh else shNr sh)
      let a ← s.vopnd w.a 0 0
      let old ← s.vopnd w.d 0 3
      .ok (ofLanes (wTD w) ((List.range (shN sh)).map (fun e =>
        let r := e / shNc sh
        let c := e % shNc sh
        if (if col then c else r) = k then lane a (wTS w) (edgeLane sh col (if col then r else c)) else lane old (wTD w) e))))
      (fun t s => (s.vpops [w.a]).vresult h w.d t 0)
def execVrow (h : Head) (w : W1) (s : State) : Out := rowGet (.vrow h w) h w s false
def execVcol (h : Head) (w : W1) (s : State) : Out := rowGet (.vcol h w) h w s true
def execVrowput (h : Head) (w : W1) (s : State) : Out := rowPut (.vrowput h w) h w s false
def execVcolput (h : Head) (w : W1) (s : State) : Out := rowPut (.vcolput h w) h w s true

/-- Bytes of a row or tile access (08 R204). -/
def vbytes (w : W2) (sh : BitVec 13) : Nat := shNc sh * shEw sh / 8 * (if w.sz = 5 then shNr sh else 1)
/-- The one tile that an LB 7 `vld` reads (08 R205): its name, or the tile-range trap with the tile's number (10 R239), which is free where
the bytes meet no tile or several (log 6). -/
def State.oneTile (s : State) (o n : Nat) : Except Stop Nat :=
  match s.tilesMet s.cur.ck o n with
  | [i] =>
    let e := s.tile s.cur.ck i
    let t := i - winTbase (s.win s.cur.ck)
    if tileBase e ≤ o ∧ o + n ≤ tileBase e + tileLen e then .ok t else .error (trapOf .tileRange (w64 t))
  | _ => .error (trapOf .tileRange (Config.tileNumber s.free))
/-- The wait of a near-path word at a tile that fills or drains (08 R205), its address known; the address is read again, and its poison met, once the power check
is made (15 R326). -/
def State.vtileWait (s : State) (w : W2) (n : Nat) (sel : Nat → Bool) : Except Stop Unit :=
  match s.ea w n with
  | .ok ea => if sel ea.toNat && s.tileBusy s.cur.ck ea.toNat n then .error .wait else .ok ()
  | .error _ => .ok ()
/-- 08 R204, R205. Near-path accesses are performed in issue order (06 R139). -/
def execVld (h : Head) (w : W2) (s : State) : Out :=
  word (.vld h w) h s (fun s => do
    s.vwait w.d 0
    let n := vbytes w s.me.vshape
    s.vtileWait w n (fun o => h.lb != 7 || (s.tilesMet s.cur.ck o n).length == 1)
    s.powerCheck 2
    let ea ← s.ea w n
    s.vrange s.cur.ck ea.toNat n
    let t ← if h.lb = 7 then (s.oneTile ea.toNat n).map some else .ok none
    .ok (ea.toNat, n, t))
    (fun r s =>
      let p := s.vphys w.d
      match r.2.2 with
      | none =>
        let s := s.settleVault s.cur.ck s.nextId
        s.putV h p (BitVec.ofNat 16384 (s.vsee s.cur.ck 1 r.1 r.2.1)) (s.vpoisoned s.cur.ck r.1 r.2.1) 0
      | some t =>
        let s := s.setTileState s.cur.ck (winTbase (s.win s.cur.ck) + t) 3
        let s := s.modMyEng (fun e => { e with flight := e.flight.map (fun f => if f.dest = .v p then { f with stale := true } else f) })
        s.addOp false 0 (.vld r.1 r.2.1 p t (w.sz == 5) none))
/-- 08 R205: the operation reads its bytes, where no later near-path access has had it do so (06 R139), D takes them, and the tile it drains becomes empty. -/
def execVldAsyncComplete (op : Nat) (s : State) : Out :=
  .next (match s.op? op with
  | some o =>
    match o.kind with
    | .vld off n phys t _ got =>
      if !s.ready o then s
      else
        let s := if got.isSome then s else s.settleVault o.ck o.id
        let v := BitVec.ofNat 16384 ((got.map (fun g => g.1)).getD (s.vsee o.ck 1 off n))
        let m := (got.map (fun g => g.2)).getD (s.vpoisoned o.ck off n)
        let s := s.modStrand o.ck (fun st => st.write .v (.v phys) (.tile v m))
        let i := winTbase (s.win o.ck) + t
        let s := if tileState (s.tile o.ck i) = 3 then s.setTileState o.ck i 0 else s
        s.finishOp o
    | _ => s
  | none => s)
/-- 08 R204. -/
def execVst (h : Head) (w : W2) (s : State) : Out :=
  word (.vst h w) h s (fun s => do
    s.vwait w.d 0
    let n := vbytes w s.me.vshape
    s.vtileWait w n (fun _ => true)
    s.powerCheck 2
    let ea ← s.ea w n
    s.vrange s.cur.ck ea.toNat n
    let d ← s.vopnd w.d 0 0
    .ok (ea.toNat, n, d.toNat % 2 ^ (8 * n)))
    (fun r s => s.nearStore s.cur.ck r.1 r.2.2 r.2.1)

/-- Active lanes of the shape under mask `m`, ascending. -/
def activeLanes (sh : BitVec 13) (m : Mask) : List Nat := (List.range (shN sh)).filter (fun e => bit m e)
/-- The entry size of a binding differs from the element width (08 R206). -/
def State.sizeOk (s : State) (q wd : Nat) : Except Stop Unit :=
  if entryBits (s.me.stream q).ety = wd then .ok () else .error (trapOf .streamBinding (w64 q))
/-- A check whose waits alone count. -/
def onlyWaits (x : Except Stop Unit) : Except Stop Unit := match x with | .error .wait => .error .wait | _ => .ok ()
/-- The checks of a word that moves entries one to a lane, and the waits among them: an array operation that still pops the stream (09 R214), then the binding, its
entry size, and last room or entries (08 R206, R207). -/
def State.laneCheck (s : State) (q wd : Nat) (check : Except Stop Unit) : Except Stop Unit :=
  if !s.me.hdl && s.streamTaken s.cur.ck q then .error .wait
  else match check with
    | .error .wait => do s.sizeOk q wd; .error .wait
    | .error e => .error e
    | .ok _ => s.sizeOk q wd
/-- 08 R206. -/
def execVcpush (h : Head) (w : W1) (s : State) : Out :=
  let q := w.d.toNat - 0x40
  word (.vcpush h w) h s (fun s => do
    let m := s.mget w.c 4
    let es := activeLanes s.me.vshape m
    onlyWaits (s.laneCheck q (wTS w) (s.pushCheck q es.length))
    s.vopen 2 [wTS w] [w.a] none
    s.laneCheck q (wTS w) (s.pushCheck q es.length)
    let a ← s.vopnd w.a 0 0
    .ok (es.map (fun e => { bits := BitVec.ofNat 16384 (lane a (wTS w) e), mark := false })))
    (fun es s => (s.vpops [w.a]).put h (.q q) (.push es) 0)
/-- Entries dealt to the lanes whose bit is set; the others keep their values (08 R206). -/
def deal : List Bool → List Nat → List Nat → List Nat
  | [], _, _ => []
  | b :: bs, xs, os => (if b then xs.headD 0 else os.headD 0) :: deal bs (if b then xs.drop 1 else xs) (os.drop 1)
def execVcpop (h : Head) (w : W1) (s : State) : Out :=
  let q := w.a.toNat - 0x40
  word (.vcpop h w) h s (fun s => do
    let m := s.mget w.c 4
    let k := (activeLanes s.me.vshape m).length
    onlyWaits (s.laneCheck q (wTS w) (s.popCheck q k))
    s.vopen 2 [wTS w] [] (some w.d)
    s.laneCheck q (wTS w) (s.popCheck q k)
    let es := ((s.me.stream q).buf.take k)
    if es.any (fun e => e.mark) then .error (trapOf .poisonConsumed (w64 w.a.toNat)) else .ok ()
    let old ← s.vopnd w.d 0 3
    let lanes := List.range (shN s.me.vshape)
    .ok (k, ofLanes (wTD w) (deal (lanes.map (fun e => bit m e)) (es.map (fun e => e.bits.toNat % 2 ^ wTS w)) (lanes.map (fun e => lane old (wTD w) e)))))
    (fun r s => (s.popN q r.1).vresult h w.d r.2 0)
/-- 08 R207. -/
def execVcbal (h : Head) (w : W1) (s : State) : Out :=
  let q := w.a.toNat - 0x40
  word (.vcbal h w) h s (fun s => do
    let x := s.me.stream q
    let k := min (x.count - x.done) (shN s.me.vshape)
    onlyWaits (s.laneCheck q (wTS w) (s.popCheck q k))
    s.vopen 2 [wTS w] [] none
    s.laneCheck q (wTS w) (s.popCheck q k)
    .ok (BitVec.ofNat 4096 (2 ^ k - 1)))
    (fun m s => s.mresult h w.d m 0)

/-- One fold of `vacomb` (08 R209): the state after it and its flags. A product of 0 and an infinity sets INV whatever the other operands are
(DESIGN CHOICE, log 101). -/
def acombFold (a d : Tile) : Tile × Flags :=
  let f (t : Tile) (i : Nat) : Fv := f32d (lane t 32 i)
  let i := lane a 8 0x208 % 64
  let done := lane d 64 0x41
  let fail := lane d 64 0x42
  let stat := lane a 8 0x209
  if done.testBit i then (d, 0)
  else if stat ≠ 0 ∧ stat ≠ 1 then (setFld d (64 * 0x42 + 63) (64 * 0x42) (fail ||| 2 ^ i), 0)
  else
    let fin (x : Tile) : Tile :=
      setFld (setFld x (64 * 0x41 + 63) (64 * 0x41) (done ||| 2 ^ i)) (64 * 0x42 + 63) (64 * 0x42) (fail - (if fail.testBit i then 2 ^ i else 0))
    if lane a 32 0x80 = 0xFF800000 then (fin d, 0)
    else if lane d 32 0x80 = 0xFF800000 then (fin (setFld d (8 * 0x208 - 1) 0 (a.toNat % 2 ^ (8 * 0x208))), 0)
    else
      let mx := Fv.max (f d 0x80) (f a 0x80)
      let fac (x : Fv) : Fv × Flags :=
        let (y, b1) := Fv.add x mx.neg
        let (c1, f1) := f32c y
        let (z, b2) := Fv.mul (f32d c1) kD1
        let (c2, f2) := f32c z
        let (c3, f3) := exp2ref (f32d c2)
        (f32d c3, f1 ||| f2 ||| f3 ||| inv b1 ||| inv b2)
      let fa := fac (f d 0x80)
      let fb := fac (f a 0x80)
      let acc (i : Nat) : Nat × Flags :=
        let (x, b1) := Fv.mul (f d i) fa.1
        let (y, b2) := Fv.mul (f a i) fb.1
        let (z, b3) := Fv.add x y
        let (c, g) := f32c z
        (c, g ||| inv b1 ||| inv b2 ||| inv b3)
      let rs := (List.range 128).map acc
      let sm := acc 0x81
      let x := setFld d (8 * 0x208 - 1) 0 (packLE 32 (rs.map (fun r => r.1) ++ [(f32c mx).1, sm.1]))
      (fin x, fa.2 ||| fb.2 ||| sm.2 ||| orFlags (rs.map (fun r => r.2)))
/-- 08 R208, R209. -/
def execVacomb (h : Head) (w : W1) (s : State) : Out :=
  word (.vacomb h w) h s (fun s => do
    s.vopen 2 [] [w.a] (some w.d)
    let a ← s.vopnd w.a 0 0
    let d ← s.vopnd w.d 0 3
    .ok (acombFold a d))
    (fun r s => (s.vpops [w.a]).vresult h w.d r.1 r.2)

/-- The FIFO key pair and direction of a core: its P-core, and whether it pushes up (15 R318). -/
def State.pairCore (s : State) : Nat := s.myCore % 16
def State.pushesUp (s : State) : Bool := decide (s.myCore < 16)
/-- VFCTL of the pair of P-core `c` (15 R317). -/
def vfctlOff (c : Nat) : Nat := 0x320000000200 + 8 * c
/-- The strand may use the pair's FIFOs: EN, and the slot that VFCTL permits its core (15 R317, R320). -/
def State.fifoPermit (s : State) : Except Stop Unit :=
  let v := s.dget s.myDie (vfctlOff s.pairCore)
  let slot := if s.myCore < 16 then fld v 2 1 else fld v 4 3
  if !bit v 0 ∨ ctxSlot (s.ctx s.cur.ck) ≠ slot then .error (trapOf .fifoClosed 0) else .ok ()
/-- The checks that `vfput` makes at the moment it would issue, again in every aclk in which it waits (15 R320). -/
def State.putCheck (s : State) (w : W1) : Except Stop Tile := do
  s.fifoPermit
  if (s.fifo s.myDie s.pairCore s.pushesUp).closed then .error (trapOf .fifoClosed 0) else .ok ()
  s.vopnd w.a 0 0
/-- Those of `vfget`. -/
def State.getCheck (s : State) : Except Stop Unit := do
  s.fifoPermit
  let f := s.fifo s.myDie s.pairCore (!s.pushesUp)
  if f.entries = [] ∧ f.closed then .error (trapOf .fifoClosed 0) else .ok ()
/-- 15 R320: a FIFO push. The power check comes after the waits and before every other check (15 R326). -/
def execVfput (h : Head) (w : W1) (s : State) : Out :=
  word (.vfput h w) h s (fun s => do
    s.vwait w.a 0
    match s.putCheck w with
    | .ok _ => if (s.fifo s.myDie s.pairCore s.pushesUp).ofree s.time = 0 then .error .wait else .ok ()
    | .error _ => .ok ()
    s.powerCheck 2
    s.putCheck w)
    (fun t s =>
      let f := s.fifo s.myDie s.pairCore s.pushesUp
      s.setFifo s.myDie s.pairCore s.pushesUp
        { f with entries := f.entries ++ [({ bits := BitVec.ofNat 16384 (t.toNat % 2 ^ 4096), mark := false }, s.time)] })
/-- 15 R320: a FIFO pop. -/
def execVfget (h : Head) (w : W1) (s : State) : Out :=
  word (.vfget h w) h s (fun s => do
    s.vwait w.d 0
    let f := s.fifo s.myDie s.pairCore (!s.pushesUp)
    match s.getCheck with
    | .ok _ => if f.iocc s.time = 0 then .error .wait else .ok ()
    | .error _ => .ok ()
    s.powerCheck 2
    s.getCheck
    match f.entries with
    | e :: _ => .ok e
    | [] => .error .wait)
    (fun e s =>
      let f := s.fifo s.myDie s.pairCore (!s.pushesUp)
      let s := s.setFifo s.myDie s.pairCore (!s.pushesUp) { f with entries := f.entries.drop 1, freed := f.freed ++ [(s.time, e.2)] }
      s.putV h (s.vphys w.d) e.1.bits e.1.mark 0)

end Sys2Proof.Machine
end

