-- ==== Sys2Proof/Machine/Matrix.lean ====
section
/-! DEFINITION. The matrix engine (09 R211 to R227): shapes, array operations over gathered stream entries and vault bytes, drains
and loads of accumulators, and `mstat`. -/

namespace Sys2Proof.Machine

/-- Active physical rows and columns (09 R211). -/
def matRows (pf : Profile) (sh : BitVec 10) : List Nat :=
  match pf with
  | .p => (onesOf (fld sh 3 0) 4).flatMap (fun b => (List.range 64).map (fun i => 64 * b + i))
  | _ => List.range 16
def matCols (pf : Profile) (sh : BitVec 10) : List Nat :=
  match pf with
  | .p => (onesOf (fld sh 9 4) 6).flatMap (fun g => (List.range 64).map (fun i => 64 * g + i))
  | _ => List.range 512
/-- R and C of a shape. -/
def matR (pf : Profile) (sh : BitVec 10) : Nat := match pf with | .p => 64 * popcount (fld sh 3 0) 4 | _ => 16
def matC (pf : Profile) (sh : BitVec 10) : Nat := match pf with | .p => 64 * popcount (fld sh 9 4) 6 | _ => 512

/-- Array operations (09 R219). -/
def MatKind.array : MatKind → Bool
  | .mma => true | .mmaz => true | .msp => true | .mmv => true | _ => false
/-- Physical rows that the operation reads and writes (09 R223). -/
def MatOp.rows (pf : Profile) (m : MatOp) : List Nat := if m.kind = .mmv then [0] else matRows pf m.ashape
def MatOp.nr (pf : Profile) (m : MatOp) : Nat := if m.kind = .mmv then 1 else matR pf m.ashape
def MatOp.nc (pf : Profile) (m : MatOp) : Nat := matC pf m.ashape
/-- Type code, element width, k-steps, group sizes (09 R214, 04 R94, R96, R97). -/
def MatOp.ty (m : MatOp) : Nat := m.w.ty.toNat
def MatOp.wd (m : MatOp) : Nat := Legal.tWidth m.ty
def MatOp.k (m : MatOp) : Nat := m.w.ks.toNat + 1
def MatOp.float (m : MatOp) : Bool := m.kind != .mmaz && m.ty != 9
def MatOp.g (m : MatOp) : Nat := if m.ty = 2 ∨ m.ty = 3 then 16 else 32
def MatOp.gz (m : MatOp) : Nat := 32 * 2 ^ m.w.gz.toNat
/-- The word reads metadata at MS (09 R218). -/
def MatOp.hasMs (m : MatOp) : Bool := m.w.ms != 0 && (m.kind == .mmaz || m.kind == .msp || m.kind == .mscacc)
/-- Bits of A, and entries of `eb` bits that hold them (09 R214). -/
def MatOp.aBits (pf : Profile) (m : MatOp) : Nat := m.k * m.nr pf * m.wd
/-- The entry that holds the first bit of k-step `k`. -/
def MatOp.entryOf (pf : Profile) (m : MatOp) (eb k : Nat) : Nat := k * m.nr pf * m.wd / eb
/-- Bytes at BV: B, or the drained or loaded elements. -/
def MatOp.bBytes (pf : Profile) (m : MatOp) : Nat :=
  if m.kind.array then m.k * m.nc pf * m.wd / 8
  else if m.kind = .mdrain ∨ m.kind = .mload then m.nr pf * m.nc pf * m.wd / 8 else 0
/-- Bytes at MS (09 R221, R222, R224). -/
def MatOp.msBytes (pf : Profile) (m : MatOp) : Nat :=
  if !m.hasMs then 0
  else match m.kind with
    | .msp => ceilDiv m.k m.g
    | .mmaz => ceilDiv m.k m.gz * (m.nr pf + m.nc pf)
    | _ => (m.nr pf + m.nc pf) * m.wd / 8
/-- Vault ranges that the word reads or writes: offset and size. -/
def MatOp.ranges (pf : Profile) (m : MatOp) : List (Nat × Nat) :=
  [(m.bv, m.bBytes pf), (m.ms, m.msBytes pf)].filter (fun r => r.2 != 0)

/-- The block of group `g` and physical column `c` is excluded by the bitmap of `msp` (09 R221). -/
def State.excluded (s : State) (ck : Nat) (m : MatOp) (g c : Nat) : Bool :=
  m.kind == .msp && !((s.vsee ck 2 (m.ms + g) 1).testBit (c / 64))
/-- B bytes of group `g` are poisoned, as far as they are read (09 R219, R221). -/
def State.groupPoisoned (s : State) (ck : Nat) (m : MatOp) (g : Nat) : Bool :=
  let pf := ckProfile ck
  let lo := g * m.g
  let hi := min (lo + m.g) m.k
  let row := m.nc pf * m.wd / 8
  if m.kind = .msp then
    let cgs := onesOf (fld m.ashape 9 4) 6
    (List.range cgs.length).any (fun i => !s.excluded ck m g (64 * cgs.getD i 0) &&
      (List.range (hi - lo)).any (fun k => s.vpoisoned ck (m.bv + (lo + k) * row + i * 64 * m.wd / 8) (64 * m.wd / 8)))
  else s.vpoisoned ck (m.bv + lo * row) ((hi - lo) * row)
/-- Groups of an array operation. -/
def MatOp.groups (m : MatOp) : Nat := ceilDiv m.k m.g
/-- Some byte that the word reads is poisoned as it issues (09 R217, R219): the offset of the first such range. -/
def State.matPoison (s : State) (ck : Nat) (m : MatOp) : Option Nat :=
  let pf := ckProfile ck
  if m.hasMs ∧ s.vpoisoned ck m.ms (m.msBytes pf) then some m.ms
  else if m.kind.array then ((List.range m.groups).find? (fun g => s.groupPoisoned ck m g)).map (fun g => m.bv + g * m.g * (m.nc pf * m.wd / 8))
  else if m.kind = .mload ∧ s.vpoisoned ck m.bv (m.bBytes pf) then some m.bv
  else none

/-- Tag that the word requires of ZD besides Z, and the tag it leaves (09 R215). -/
def MatOp.tagAfter (m : MatOp) : Option AccTag :=
  match m.kind with
  | .mzero => some .z
  | .mdrain => none
  | .mload => some (if m.ty = 11 then .i else .f)
  | .mscacc => some .f
  | _ => some (if m.float then .f else .i)
/-- The tag of accumulator `z` once every outstanding operation has been performed. -/
def State.tagAhead (s : State) (ck z : Nat) : AccTag :=
  s.ops.foldl (fun t o =>
    match o.kind with
    | .mat m => if o.mine ck ∧ !o.held ∧ m.w.zd.toNat = z then (m.tagAfter.getD t) else t
    | _ => t) (if (s.strand ck).accp then (s.strand ck).tag z else .z)
/-- INFO of a matrix-shape trap (10 R239). -/
def State.shapeInfo (s : State) : Word := if s.myProfile = .p then zx s.me.ashape else 0
/-- Matrix operations of a context outstanding, issued with LB 7. -/
def State.asyncMats (s : State) (ck : Nat) : Nat :=
  (s.ops.filter (fun o => o.mine ck && !o.held && (match o.kind with | .mat m => m.lb == 7 | _ => false))).length
/-- INC of an array word (15 R326). -/
def State.matInc (s : State) (m : MatOp) : Nat :=
  let nb := popcount (fld m.ashape 3 0) 4 * popcount (fld m.ashape 9 4) 6
  let a := max (fld (s.dget s.myDie (0x320000000100 + 8 * s.myCore)) 15 12) 3 + 1
  if m.kind.array then ceilDiv (nb * (if m.wd = 8 then 4 else if m.wd = 4 then 5 else 3) * a) 16 else 8

/-- The operation that a W5 word starts, but for its operands. -/
def MatOp.ofWord (kind : MatKind) (h : Head) (w : W5) (ashape : BitVec 10) : MatOp :=
  { kind, w, lb := h.lb.toNat, ashape, bv := 0, ms := 0, need := 0, got := 0, abits := 0, alen := 0, kdone := 0, flags := 0, dsec := 0, widx := 0, text := 0 }
/-- The operation that a W5 word starts, its operands read (09 R214, R218). -/
def State.matOf (s : State) (kind : MatKind) (h : Head) (w : W5) : Except Stop MatOp := do
  let usesB := kind.array || kind == .mdrain || kind == .mload
  let b ← if usesB then s.rd w.bv 0 else .ok 0
  let c ← if w.ms = 0 then .ok 0 else s.rd w.ms 1
  .ok { MatOp.ofWord kind h w s.me.ashape with
        bv := if usesB then (b + zx w.voff).toNat else 0, ms := c.toNat, dsec := s.myEng.secn - 1, widx := s.myEng.widx, text := s.myEng.walk.toNat }
/-- Row band `b` of core `c` is off (15 R314). -/
def Die.bandIsOff (d : Die) (c b : Nat) : Bool := d.bandOff.any (fun x => x == 4 * c + b)
/-- Some row band of a shape is off on a core: what names it waits on a power grant (15 R314). -/
def State.bandsOffAt (s : State) (d c ashape : Nat) : Bool := (onesOf (ashape % 16) 4).any (fun b => (s.die d).bandIsOff c b)
def State.bandsOff (s : State) (ashape : Nat) : Bool := s.bandsOffAt s.myDie s.myCore ashape
/-- Waits and checks of a matrix word (09 R217, R219, R224). Each waits for outstanding operations of LB 7 (DESIGN CHOICE for mzero, mdrain and mload, log 102). -/
def State.matPlan (s : State) (kind : MatKind) (h : Head) (w : W5) : Except Stop MatOp := do
  let ck := s.cur.ck
  let pf := s.myProfile
  let q := w.qa.toNat
  if !s.pairReady ck || s.bandsOff s.me.ashape.toNat then .error .wait else .ok ()
  if 0 < s.asyncMats ck ∧ (h.lb ≠ 7 ∨ 1 < s.asyncMats ck) then .error .wait else .ok ()
  match s.matOf kind h w with
  | .ok m => if (m.ranges pf).any (fun r => s.tileBusy ck r.1 r.2) then .error .wait else .ok ()
  | .error _ => .ok ()
  if kind.array then onlyWaits (s.popCheck q 1) else .ok ()
  if kind = .mzero then .ok () else s.powerCheck (s.matInc (MatOp.ofWord kind h w s.me.ashape))
  let m ← s.matOf kind h w
  let eb := entryBits (s.me.stream q).ety
  let m := { m with need := if kind.array then ceilDiv (m.aBits pf) eb else 0 }
  let want := m.tagAfter.getD .z
  if w.acc ∧ s.tagAhead ck w.zd.toNat ≠ .z ∧ s.tagAhead ck w.zd.toNat ≠ want then .error (trapOf .matrixShape s.shapeInfo) else .ok ()
  if kind.array ∧ m.bv % 64 ≠ 0 then .error (trapOf .matrixShape s.shapeInfo) else .ok ()
  (m.ranges pf).forM (fun r => s.vrange ck r.1 r.2)
  if kind.array then
    (let x := s.me.stream q
     if s.me.hdl ∨ x.state ≠ .inS ∨ x.count < x.done + m.need then .error (trapOf .streamBinding (w64 q)) else .ok ())
  else .ok ()
  match s.matPoison ck m with
  | some o => .error (trapOf .poisonConsumed (w64 o))
  | none => .ok m
/-- A matrix word issues: the pair is taken, the operation joins the strand's matrix operations, and unless its LB is 7 it holds the engine
stream until it completes (09 R225). -/
def matWord (i : Instr) (h : Head) (w : W5) (s : State) (kind : MatKind) : Out :=
  word i h s (fun s => s.matPlan kind h w)
    (fun m s =>
      let id := s.nextId
      let s := s.takePair.addOp false 0 (.mat m)
      let s := if kind = .mdrain then s else s.modMyEng (fun e => { e with wrote := Map.put e.wrote (Dest.z w.zd.toNat).key e.sec.ord })
      if h.lb = 7 then s else s.put h .none (.matrix id) 0)
def execMma (h : Head) (w : W5) (s : State) : Out := matWord (.mma h w) h w s .mma
def execMmaz (h : Head) (w : W5) (s : State) : Out := matWord (.mmaz h w) h w s .mmaz
def execMsp (h : Head) (w : W5) (s : State) : Out := matWord (.msp h w) h w s .msp
def execMmv (h : Head) (w : W5) (s : State) : Out := matWord (.mmv h w) h w s .mmv
def execMscacc (h : Head) (w : W5) (s : State) : Out := matWord (.mscacc h w) h w s .mscacc
def execMdrain (h : Head) (w : W5) (s : State) : Out := matWord (.mdrain h w) h w s .mdrain
def execMload (h : Head) (w : W5) (s : State) : Out := matWord (.mload h w) h w s .mload
def execMzero (h : Head) (w : W5) (s : State) : Out := matWord (.mzero h w) h w s .mzero

/-- Element `i` of accumulator `z` of a strand, as an operation reads it (01 R30). -/
def State.zat (s : State) (ck z i : Nat) : BitVec 48 :=
  if (s.strand ck).putWindow z i s.time || (s.strand ck).unordered .m .v (.z z) then Config.undefAcc s.free i else Map.get 0 (s.strand ck).z (zKey z i)

/-- One active element of an array operation over k-steps `lo` to `hi` - 1 (04 R94 to R97): `a` and `b` give codes by k-step. -/
def MatOp.element (m : MatOp) (z : BitVec 48) (lo hi : Nat) (a b : Nat → Nat) (za zb : Nat → Nat) (off : Nat → Bool) : BitVec 48 × Flags :=
  let ks := (List.range (hi - lo)).map (fun k => lo + k)
  if m.float then
    let f := fmtOf m.ty
    let r := dotF m.g (f32d (z.toNat % 2 ^ 32)) (ks.map (fun k => if off k then (Fv.zero, Fv.one) else (f.decode (a k), f.decode (b k))))
    (BitVec.ofNat 48 (f32c r.1).1, r.2)
  else
    let val (c zp : Nat) : Int := if m.kind = .mmaz then Int.ofNat c - Int.ofNat zp else sval 8 c
    let r := dotI (sval 48 z.toNat) (ks.map (fun k => if off k then (0, 0) else (val (a k) (za k), val (b k) (zb k))))
    (BitVec.ofNat 48 (scode 48 r.1), r.2)
/-- Every active element of an array operation over k-steps `m.kdone` to `hi` - 1; A stands in `m.abits` from entry `e0` of `eb` bits on. -/
def State.arrayRun (s : State) (ck : Nat) (m : MatOp) (eb hi : Nat) : List (Nat × BitVec 48) × Flags :=
  let pf := ckProfile ck
  let wd := m.wd
  let nr := m.nr pf
  let nc := m.nc pf
  let base := m.entryOf pf eb m.kdone * eb
  let bb := s.vsee ck 2 m.bv (m.bBytes pf)
  let zps := if m.hasMs ∧ m.kind = .mmaz then s.vsee ck 2 m.ms (m.msBytes pf) else 0
  let ng := ceilDiv m.k m.gz
  let zp (i : Nat) : Nat := zps / 2 ^ (8 * i) % 2 ^ wd
  let rows := m.rows pf
  let cols := matCols pf m.ashape
  let fresh := !m.w.acc && m.kdone == 0
  let rs := (List.range rows.length).flatMap (fun ii => (List.range cols.length).map (fun jj =>
    let r := rows.getD ii 0
    let c := cols.getD jj 0
    let e := r * (accDims pf).2 + c
    let z0 := if fresh then 0 else s.zat ck m.w.zd.toNat e
    let x := m.element z0 m.kdone hi (fun k => (m.abits >>> ((k * nr + ii) * wd - base)) % 2 ^ wd) (fun k => (bb >>> ((k * nc + jj) * wd)) % 2 ^ wd)
      (fun k => zp (k / m.gz * nr + ii)) (fun k => zp (ng * nr + k / m.gz * nc + jj)) (fun k => s.excluded ck m (k / m.g) c)
    (e, x.1, x.2)))
  (rs.map (fun x => (x.1, x.2.1)), orFlags (rs.map (fun x => x.2.2)))
/-- Elements and a tag written to an accumulator by a completed or stopped operation. -/
def State.putAcc (s : State) (ck z : Nat) (els : List (Nat × BitVec 48)) (tag : Option AccTag) : State :=
  s.modStrand ck (fun st => st.write .m (.z z) (.acc els tag))
/-- `mscacc` (09 R224). -/
def State.scaccRun (s : State) (ck : Nat) (m : MatOp) : List (Nat × BitVec 48) × Flags :=
  let pf := ckProfile ck
  let nr := m.nr pf
  let f := fmtOf m.ty
  let sc (i : Nat) : Fv := if m.hasMs then f.decode (s.vsee ck 2 (m.ms + i * m.wd / 8) (m.wd / 8)) else Fv.one
  let tag := (s.strand ck).tag m.w.zs.toNat
  let part (x : BitVec 48) : Fv := match tag with | .z => Fv.zero | .f => f32d (x.toNat % 2 ^ 32) | .i => Fv.ofInt (sval 48 x.toNat)
  let rows := m.rows pf
  let cols := matCols pf m.ashape
  let rs := (List.range rows.length).flatMap (fun ii =>
    let a := sc ii
    (List.range cols.length).map (fun jj =>
      let e := rows.getD ii 0 * (accDims pf).2 + cols.getD jj 0
      let acc := if m.w.acc then f32d ((s.zat ck m.w.zd.toNat e).toNat % 2 ^ 32) else Fv.zero
      let x := scacc acc (part (s.zat ck m.w.zs.toNat e)) a (sc (nr + jj))
      (e, x)))
  (rs.map (fun x => (x.1, BitVec.ofNat 48 x.2.1)), orFlags (rs.map (fun x => x.2.2)))
/-- The code that `mdrain` stores for an element (09 R217). -/
def drainCode (tag : AccTag) (ty : Nat) (x : BitVec 48) : Nat × Flags :=
  match tag with
  | .z => (0, 0)
  | .f => cvtCode 1 ty (x.toNat % 2 ^ 32)
  | .i => match fmtOf? ty with
    | some f => f.cvt (Fv.ofInt (sval 48 x.toNat))
    | none => clampInt (tSigned ty) (Legal.tWidth ty) (sval 48 x.toNat)
/-- The element that `mload` forms from a code (09 R217). -/
def loadElem (ty c : Nat) : BitVec 48 :=
  match fmtOf? ty with
  | some f => BitVec.ofNat 48 (f32c (f.decode c)).1
  | none => BitVec.ofNat 48 (scode 48 (sval 32 c))
/-- Active elements in the order of R217. -/
def MatOp.active (pf : Profile) (m : MatOp) : List Nat :=
  (m.rows pf).flatMap (fun r => (matCols pf m.ashape).map (fun c => r * (accDims pf).2 + c))
def State.drainRun (s : State) (ck : Nat) (m : MatOp) : State × Flags :=
  let tag := (s.strand ck).tag m.w.zd.toNat
  let cs := (m.active (ckProfile ck)).map (fun e => drainCode tag m.ty (s.zat ck m.w.zd.toNat e))
  let n := m.bBytes (ckProfile ck)
  ((s.shade ck 2 (s.vaultKey ck m.bv) n).vwrite ck m.bv (packLE m.wd (cs.map (fun c => c.1))) n, orFlags (cs.map (fun c => c.2)))
def State.loadRun (s : State) (ck : Nat) (m : MatOp) : List (Nat × BitVec 48) :=
  let v := s.vsee ck 2 m.bv (m.bBytes (ckProfile ck))
  let es := m.active (ckProfile ck)
  (List.range es.length).map (fun i => (es.getD i 0, loadElem m.ty ((v >>> (i * m.wd)) % 2 ^ m.wd)))

/-- The operation leaves the strand: its hold ends, its flags are set, and with LB 7 the next `mstat` counts it (09 R225, R227, 04 R83). -/
def State.matEnd (s : State) (o : Op) (m : MatOp) (fl : Flags) : State :=
  (s.dropOp o.id).modStrand o.ck (fun st =>
    let st := { st with fstat := st.fstat ||| fl }
    let st := st.modEng .m (fun e => { e with flight := e.flight.filter (fun f => f.val != .matrix o.id) })
    if m.lb = 7 then { st with mstat := { st.mstat with nops := st.mstat.nops + 1, flags := st.mstat.flags ||| fl } } else st)
/-- The operation with further entries of its operand. -/
def MatOp.taking (m : MatOp) (eb : Nat) (es : List Entry) : MatOp :=
  { m with got := m.got + es.length, abits := m.abits + packLE eb (es.map (fun e => e.bits.toNat)) * 2 ^ m.alen, alen := m.alen + es.length * eb }
/-- Entries of the operand that stand in the buffer are taken, up to the first that carries a poison mark: the operation after it, and
whether one was met (09 R214, R226). -/
def State.gather (s : State) (o : Op) (m : MatOp) : State × MatOp × Bool :=
  let q := m.w.qa.toNat
  let x := (s.strand o.ck).stream q
  let eb := entryBits x.ety
  let es := (x.buf.take (m.need - m.got)).takeWhile (fun e => !e.mark)
  let hit := decide (es.length < min (m.need - m.got) x.buf.length)
  let n := es.length + b2n hit
  let m' := { m.taking eb es with got := m.got + n }
  let s := s.modStrand o.ck (fun st => st.setStream q { x with buf := x.buf.drop n, done := x.done + n })
  (s.setOp { o with kind := .mat m' }, m', hit)
/-- An array operation stops on poison at k-step `hi` (09 R226): with LB 7 it ends there and the next `mstat` reports it; otherwise the word
raises the poison-consumed trap and keeps its progress. -/
def State.matHalt (s : State) (o : Op) (m : MatOp) (eb hi : Nat) (info : Word) : State :=
  let r := s.arrayRun o.ck m eb hi
  let s := if m.kdone < hi then s.putAcc o.ck m.w.zd.toNat r.1 m.tagAfter else s
  if m.lb = 7 then
    (s.matEnd o m 0).modStrand o.ck (fun st => { st with mstat := { st.mstat with poiss := true, kstop := hi } })
  else
    let pf := ckProfile o.ck
    let e0 := m.entryOf pf eb m.kdone
    let e1 := m.entryOf pf eb hi
    let m' := { m with kdone := hi, need := ceilDiv (m.aBits pf) eb - e1, got := 0, abits := 0, alen := 0, flags := m.flags ||| r.2 }
    let s := (s.setOp { o with kind := .mat m' }).modStrand o.ck (fun st =>
      let x := st.stream m.w.qa.toNat
      st.setStream m.w.qa.toNat { x with done := x.done - m.got + (e1 - e0), buf := [] })
    s.raiseAt o.ck { eng := 3, widx := m.widx, dsec := m.dsec, text := m.text } { cls := .poisonConsumed, code := 0, info }
/-- An array operation has completed the k-steps up to a group boundary `hi` short of its end, over the entries that `m'` shows: its accumulator and its progress
stand there (04 R98). Entries that it has consumed whole are popped; the one that k-step `hi` begins in stays, so that QA is taken until the operation ends (09 R214). -/
def State.matStep (s : State) (o : Op) (m m' : MatOp) (hi : Nat) : State :=
  let pf := ckProfile o.ck
  let q := m.w.qa.toNat
  let x := (s.strand o.ck).stream q
  let eb := entryBits x.ety
  let r := s.arrayRun o.ck m' eb hi
  let e := m.entryOf pf eb hi - m.entryOf pf eb m.kdone
  let p := e - m.got
  let n := m.taking eb (x.buf.take p)
  let s := s.modStrand o.ck (fun st => st.setStream q { x with buf := x.buf.drop p, done := x.done + p })
  (s.putAcc o.ck m.w.zd.toNat r.1 m.tagAfter).setOp { o with kind := .mat { n with
    kdone := hi, need := m.need - e, got := n.got - e, abits := n.abits / 2 ^ (e * eb), alen := n.alen - e * eb, flags := m.flags ||| r.2 } }
/-- The oldest matrix operation of a context, which is performed first (09 R225). -/
def State.matHead (s : State) (ck : Nat) : Option Nat :=
  (s.ops.find? (fun o => o.mine ck && !o.held && (match o.kind with | .mat _ => true | _ => false))).map (fun o => o.id)
/-- One move of a matrix operation: it takes the entries that have come, and completes once it has all it needs, or stops on poison (09 R214,
R225, R226). An operation behind one that stopped is discarded. -/
def State.matMove (s : State) (o : Op) (m : MatOp) : State :=
  if m.lb = 7 ∧ (s.strand o.ck).mstat.poiss then s.matEnd o m 0
  else if m.kind.array then
    let pf := ckProfile o.ck
    let eb := entryBits ((s.strand o.ck).stream m.w.qa.toNat).ety
    let (s, m, hit) := s.gather o m
    let o := { o with kind := .mat m }
    let k := m.k
    let have_ := (m.entryOf pf eb m.kdone * eb + m.alen) / (m.nr pf * m.wd)
    let ka := if k ≤ have_ then k else have_ / m.g * m.g
    let kb := match (List.range m.groups).find? (fun g => decide (m.kdone ≤ g * m.g) && s.groupPoisoned o.ck m g) with
      | some g => g * m.g
      | none => k
    let bad := m.hasMs && s.vpoisoned o.ck m.ms (m.msBytes pf)
    if bad then s.matHalt o m eb m.kdone (w64 m.ms)
    else if hit ∧ ka ≤ kb then s.matHalt o m eb (max m.kdone ka) (w64 (0x40 + m.w.qa.toNat))
    else if kb < k ∧ (hit ∨ m.got = m.need ∨ kb ≤ ka) then s.matHalt o m eb kb (w64 (m.bv + kb * (m.nc pf * m.wd / 8)))
    else if m.got = m.need then
      let r := s.arrayRun o.ck m eb k
      (s.putAcc o.ck m.w.zd.toNat r.1 m.tagAfter).matEnd o m (m.flags ||| r.2)
    else s
  else match m.kind with
    | .mscacc => let r := s.scaccRun o.ck m; (s.putAcc o.ck m.w.zd.toNat r.1 m.tagAfter).matEnd o m r.2
    | .mdrain => let r := s.drainRun o.ck m; r.1.matEnd o m r.2
    | .mload => (s.putAcc o.ck m.w.zd.toNat (s.loadRun o.ck m) m.tagAfter).matEnd o m 0
    | _ =>
      (s.modStrand o.ck (fun st => { st with
        z := st.z.filter (fun p => p.1 / 2 ^ 18 != m.w.zd.toNat), ztag := Map.put st.ztag m.w.zd.toNat .z })).matEnd o m 0
/-- The next group of the oldest matrix operation is done, with what its stream holds of A (04 R98, 09 R220): a turn of its own. -/
def State.groupDone (s : State) (op : Nat) : State :=
  match s.op? op with
  | some o =>
    match o.kind with
    | .mat m =>
      if !s.ready o || s.matHead o.ck != some op || !m.kind.array || (m.lb == 7 && (s.strand o.ck).mstat.poiss) || s.bandsOffAt (ckDie o.ck) (ckCore o.ck) m.ashape.toNat then s
      else
        let pf := ckProfile o.ck
        let x := (s.strand o.ck).stream m.w.qa.toNat
        let eb := entryBits x.ety
        let m' := m.taking eb ((x.buf.take (m.need - m.got)).takeWhile (fun e => !e.mark))
        let hi := (m.kdone / m.g + 1) * m.g
        if decide (m.k ≤ hi) || decide (m.entryOf pf eb m.kdone * eb + m'.alen < hi * m.nr pf * m.wd) || s.groupPoisoned o.ck m (m.kdone / m.g) ||
          (m.hasMs && s.vpoisoned o.ck m.ms (m.msBytes pf)) then s
        else s.matStep o m m' hi
    | _ => s
  | none => s
/-- 09 R225, R226. -/
def execMatrixOpComplete (op : Nat) (s : State) : Out :=
  .next (match s.op? op with
  | some o =>
    match o.kind with
    | .mat m => if s.ready o ∧ s.matHead o.ck = some op ∧ !s.bandsOffAt (ckDie o.ck) (ckCore o.ck) m.ashape.toNat then s.matMove o m else s
    | _ => s
  | none => s)

/-- 09 R213. -/
def execMshape (h : Head) (w : W6) (s : State) : Out :=
  word (.mshape h w) h s (fun s => do
    let v ← if Legal.f0 w then s.rd w.a 0 else .ok (w64 (w.imm.toNat % 1024))
    if v.toNat ≥ 1024 ∨ v.toNat % 16 = 0 ∨ v.toNat / 16 = 0 then .error (trapOf .matrixShape s.shapeInfo)
    else if s.bandsOff v.toNat ∨ s.taskHolds s.cur.ck then .error .wait
    else .ok (v.setWidth 10))
    (fun v s => s.modMe (fun st => { st with ashape := v }))

/-- The status word of `mstat` (09 R227). -/
def MStat.word (m : MStat) : Nat := m.flags.toNat + b2n m.poiss * 2 ^ 7 + min m.nops 255 * 2 ^ 8 + (if m.poiss then m.kstop % 2 ^ 16 else 0) * 2 ^ 16
/-- A store of the strand performed at its home: an error response sets CERR, a translation failure is a fatal context error (07 R162, 23 R439). -/
def State.storeHome (s : State) (ck : Nat) (ea : Word) (n v : Nat) : Except Stop State :=
  match s.wrRange (s.me? ck) ea.toNat n v with
  | (s, none) => .ok s
  | (s, some .err) => .ok (s.modStrand ck (fun st => { st with cerr := true }))
  | (_, some .fail) => .error (.fatal ea)
/-- 09 R227. -/
def execMstat (h : Head) (w : W6) (s : State) : Out :=
  word (.mstat h w) h s (fun s => do
    if 0 < s.asyncMats s.cur.ck ∨ s.taskHolds s.cur.ck then .error .wait else .ok ()
    let a ← s.rd w.a 0
    let b ← s.rd w.b 1
    if a.toNat % 64 ≠ 0 then .error (trapOf .alignment a) else if b.toNat % 8 ≠ 0 then .error (trapOf .alignment b) else .ok ()
    s.check a
    s.check b
    let _ ← s.storeHome s.cur.ck b 8 s.me.mstat.word
    .ok (a, b))
    (fun p s =>
      let s := match s.storeHome s.cur.ck p.2 8 s.me.mstat.word with | .ok x => x | .error _ => s
      ((s.sent p.1).sent p.2).arrive s.agent p.1 0 0 |>.modMe (fun st => { st with mstat := MStat.init }))

end Sys2Proof.Machine
end

