-- ==== Sys2Proof/Machine/Copy.lean ====
section
/-! DEFINITION. The copy engine (09 R228 to R234) and scheduled sends (23 R444 to R449). -/

namespace Sys2Proof.Machine

/-- FN11 and IMM48 fields of a copy (09 R228). -/
def cpTD (fn : BitVec 11) : Bool := bit fn 3
def cpTS (fn : BitVec 11) : Bool := bit fn 4
def cpSP (fn : BitVec 11) : Bool := bit fn 5
def cpN (fn : BitVec 11) : Nat := fld fn 2 0
def cpTN (imm : BitVec 48) : Nat := fld imm 7 0
def cpHN (imm : BitVec 48) : Nat := fld imm 11 8
def cpEl (imm : BitVec 48) : Nat := 2 ^ fld imm 15 12
/-- Bytes that the copy moves on its contiguous side (09 R230). -/
def CopyOp.moved (c : CopyOp) : Nat :=
  match c.kind with
  | .cpy => cpLen c.c | .cfill => cpLen c.c | .clist => 32 * cpCount c.imm | _ => cpCount c.imm * cpEl c.imm

/-- Address operands with the number of bytes that must lie in one die (09 R230): destination, source, list. -/
def CopyOp.addresses (c : CopyOp) : List (Word × Nat) :=
  let td := cpTD c.fn
  let ts := cpTS c.fn
  match c.kind with
  | .cpy => (if td then [] else [(c.a, c.moved)]) ++ (if ts then [] else [(c.b, c.moved)])
  | .cfill => if td then [] else [(c.a, c.moved)]
  | .cgath => (if td then [] else [(c.a, c.moved)]) ++ (if ts then [] else [(c.b, 0)]) ++ [(c.c, 4 * cpCount c.imm)]
  | .cscat => (if td then [] else [(c.a, 0)]) ++ (if ts then [] else [(c.b, c.moved)]) ++ [(c.c, 4 * cpCount c.imm)]
  | .clist => [(c.a, c.moved)]
/-- The side that names the tile holds all its bytes within it (09 R230): the scattered side of an indexed copy is not bounded. -/
def CopyOp.bounded (c : CopyOp) : Bool :=
  match c.kind with
  | .cgath => cpTD c.fn | .cscat => cpTS c.fn | _ => true

/-- Checks and waits of a copy as it issues (09 R230). The tile's bytes must lie in the slot's window too (06 R137). -/
def State.copyPlan (s : State) (kind : CopyKind) (w : W6) : Except Stop (CopyOp × Option Nat) := do
  let ck := s.cur.ck
  let td := cpTD w.fn
  let ts := cpTS w.fn
  let tile ← if td || ts then (s.tileIdx ck (cpTN w.imm)).map some else .ok none
  if 65535 ≤ Map.get 0 s.me.n (cpN w.fn) then .error .wait else .ok ()
  (match tile with
   | some i => if tileState (s.tile ck i) ≠ (if td then 0 else 2) then .error .wait else .ok ()
   | none => .ok ())
  let base := match tile with | some i => w64 (tileBase (s.tile ck i)) | none => 0
  let a ← if td then .ok base else s.rd w.a 0
  let b ← if ts then .ok base else if kind = .clist then .ok 0 else s.rd w.b 1
  let c ← if kind = .clist then .ok 0 else s.rd w.c 2
  let op : CopyOp := { kind, fn := w.fn, imm := w.imm, a, b, c, done := 0, gen := s.me.tgb, tabs := s.tabs }
  (match tile with
   | some i =>
     if op.bounded ∧ tileLen (s.tile ck i) < op.moved then .error (trapOf .tileRange (w64 (cpTN w.imm)))
     else if op.bounded ∧ 0 < op.moved then s.vrange ck (tileBase (s.tile ck i)) op.moved else .ok ()
   | none => .ok ())
  op.addresses.forM (fun p => do
    s.check p.1
    if 2 ^ 46 < fld p.1 45 0 + p.2 then .error (trapOf .noRoute p.1) else .ok ())
  .ok (op, tile)
/-- A copy word (09 R230): the counter, the tile, and the operation. -/
def copyWord (i : Instr) (h : Head) (w : W6) (s : State) (kind : CopyKind) : Out :=
  word i h s (fun s => s.copyPlan kind w)
    (fun p s =>
      let k := cpN w.fn
      let s := s.modMe (fun st => { st with n := Map.put st.n k (Map.get 0 st.n k + 1) })
      let s := match p.2 with | some t => s.setTileState s.cur.ck t (if cpTD w.fn then 1 else 3) | none => s
      let s := p.1.addresses.foldl (fun s q => s.sent q.1) s
      s.addOp (cpSP w.fn) (cpHN w.imm) (.copy p.1))
def execCpy (h : Head) (w : W6) (s : State) : Out := copyWord (.cpy h w) h w s .cpy
def execCgath (h : Head) (w : W6) (s : State) : Out := copyWord (.cgath h w) h w s .cgath
def execCscat (h : Head) (w : W6) (s : State) : Out := copyWord (.cscat h w) h w s .cscat
def execClist (h : Head) (w : W6) (s : State) : Out := copyWord (.clist h w) h w s .clist
def execCfill (h : Head) (w : W6) (s : State) : Out := copyWord (.cfill h w) h w s .cfill

/-- One side of a move: vault bytes of the window, memory, or an 8-byte pattern with the position of its first byte. -/
inductive CopySide where
  | vault (o : Nat)
  | mem (ea : Word)
  | fill (pat : Word) (x : Nat)
deriving DecidableEq, Repr
def CopySide.plus (x : CopySide) (n : Nat) : CopySide :=
  match x with
  | .vault o => .vault (o + n)
  | .mem ea => .mem (ea + w64 n)
  | .fill p y => .fill p (y + n)
/-- Position within a line. -/
def CopySide.line : CopySide → Nat
  | .vault o => o % 64 | .mem ea => ea.toNat % 64 | .fill _ _ => 0

/-- A request of a copy bound to generation `gen` (23 R442): it waits at a frozen pod (none), is carried out, or receives an error
response. -/
def State.copyGate (s : State) (ck : Nat) (gen : BitVec 32) (ea : Word) : Option Bool :=
  match s.checkOf ck ea with
  | .ok _ => some (!s.global ea || gen == s.gen)
  | .error .wait => none
  | .error (.trap t) => some (t.cls == .staleTopology && gen == s.gen)
  | .error (.fatal _) => some false
/-- How a copy's requests go: scope, generation, fabric tables (23 R436, R442). -/
structure Route where
  scope : Nat
  gen   : BitVec 32
  tabs  : Nat
deriving DecidableEq, Repr
/-- Source bytes of a move and their poison (09 R231). -/
def State.copyRead (s : State) (ck : Nat) (r : Route) (x : CopySide) (n : Nat) : Option (Nat × Bool) :=
  match x with
  | .vault o => some (if s.inWindow ck o n then (s.vsee ck 3 o n, s.vpoisoned ck o n) else (s.rdFail o n, true))
  | .fill p y => some (packLE 8 ((List.range n).map (fun i => p.toNat / 2 ^ (8 * ((y + i) % 8)))), false)
  | .mem ea => (s.copyGate ck r.gen ea).map (fun ok =>
      if !ok then (s.rdFail ea.toNat n, true)
      else match s.rdRange (s.me? ck) ea.toNat n with
        | (v, p, none) => (s.staleAt ck 3 ea.toNat n v, p)
        | (_, _, some _) => (s.rdFail ea.toNat n, true))
/-- Destination bytes of a move (09 R231): one piece within a line. Other paths of the strand may go on reading older bytes, but for those of a tile that the copy
fills (09 R232, R237). A piece beyond the package or the die is posted where it counts as complete at its scope before it is performed (09 R231, 13 R285, R299). -/
def State.copyWrite (s : State) (ck : Nat) (r : Route) (x : CopySide) (n v : Nat) (bad : Bool) : Option State :=
  let cerr := s.modStrand ck (fun st => { st with cerr := true })
  match x with
  | .vault o =>
    if s.inWindow ck o n then
      let s := (s.vwrite ck o v n).clearShades (s.vaultKey ck o) n
      some (if bad then s.mark (s.vaultKey ck o) else s)
    else some cerr
  | .fill _ _ => some s
  | .mem ea => (s.copyGate ck r.gen ea).map (fun ok =>
      if !ok then cerr
      else
        let s := match s.place (s.me? ck).asid (s.me? ck).part ea.toNat true with | .ok (.mem _ _ key) => s.shade ck 3 key n | _ => s
        let at_ := ea.toNat / 64 * 64
        let stage := s.scopeStage ck r.scope at_
        if stage != 0 && !s.global ea && (match s.place (s.me? ck).asid (s.me? ck).part at_ true with | .ok _ => true | _ => false) then
          s.postAt ck 3 at_ stage r.gen r.tabs (.write (v % 2 ^ (8 * n) * 2 ^ (8 * (ea.toNat % 64))) ((2 ^ n - 1) * 2 ^ (ea.toNat % 64)) bad)
        else match s.wrRange (s.me? ck) ea.toNat n v with
        | (s, none) => if bad then s.markRange (s.me? ck) ea.toNat n else s
        | (_, some _) => cerr)
/-- One piece from `src` to `dst`. -/
def State.copyPiece (s : State) (ck : Nat) (r : Route) (src dst : CopySide) (n : Nat) : Option State := do
  let v ← s.copyRead ck r src n
  let s := match src with | .mem ea => s.count (s.me? ck) ea.toNat false | _ => s
  s.copyWrite ck r dst n v.1 v.2
/-- `n` bytes moved piece by piece, split at the lines of the destination. -/
def State.copyMove (s : State) (ck : Nat) (r : Route) (src dst : CopySide) (n : Nat) : Option State :=
  (linePieces dst.line n).foldlM (fun s p => s.copyPiece ck r (src.plus p.1) (dst.plus p.1) p.2.2) s

/-- The sides of a copy. -/
def CopyOp.dst (c : CopyOp) : CopySide := if cpTD c.fn then .vault c.a.toNat else .mem c.a
def CopyOp.src (c : CopyOp) : CopySide := if c.kind = .cfill then .fill c.b 0 else if cpTS c.fn then .vault c.b.toNat else .mem c.b
/-- The next unit of a copy: the part of a line, an element or a list entry. None while it waits at a frozen pod. It keeps the routes that its word was given
(23 R436). A list entry that cannot be read sets the context error bit and is passed over (DESIGN CHOICE, log 37). -/
def State.copyUnit (s : State) (ck : Nat) (c : CopyOp) : Option (State × CopyOp) :=
  let tabs := s.fabTabs
  let old := decide (c.tabs < s.tabs)
  let s := s.asOf c.tabs
  let done (r : Option (State × CopyOp)) : Option (State × CopyOp) := r.map (fun r => if old then (r.1.setTabs tabs, r.2) else r)
  let fail (s : State) : State := s.modStrand ck (fun st => { st with cerr := true })
  let el := cpEl c.imm
  let rt : Route := { scope := fld c.fn 7 6, gen := c.gen, tabs := c.tabs }
  let list := c.c + w64 (4 * c.done)
  let idx : Option (Nat × Bool) := match s.copyGate ck c.gen list with
    | none => none
    | some ok => match s.rdRange (s.me? ck) list.toNat 4 with
      | (v, _, none) => some (v, ok)
      | (_, _, some _) => some (0, false)
  done <| match c.kind with
  | .cpy | .cfill =>
    let n := min (64 - (c.dst.plus c.done).line) (c.total - c.done)
    (s.copyPiece ck rt (c.src.plus c.done) (c.dst.plus c.done) n).map (fun s => (s, { c with done := c.done + n }))
  | .cgath => do
    let i ← idx
    let d := c.dst.plus (c.done * el)
    let s := s.behindRange (s.me? ck) list.toNat 4
    let s ← if i.2 then s.copyMove ck rt (c.src.plus (i.1 * el)) d el
      else (linePieces d.line el).foldlM (fun s p => s.copyWrite ck rt (d.plus p.1) p.2.2 (s.rdFail p.1 p.2.2) true) s
    some (s, { c with done := c.done + 1 })
  | .cscat => do
    let i ← idx
    let s := s.behindRange (s.me? ck) list.toNat 4
    let s ← if i.2 then s.copyMove ck rt (c.src.plus (c.done * el)) (c.dst.plus (i.1 * el)) el else some (fail s)
    some (s, { c with done := c.done + 1 })
  | .clist => do
    let ea := c.a + w64 (32 * c.done)
    let ok ← s.copyGate ck c.gen ea
    let s ← if !ok then some (fail s)
      else match s.rdRange (s.me? ck) ea.toNat 32 with
        | (v, _, none) =>
          let s := s.behindRange (s.me? ck) ea.toNat 32
          if v / 2 ^ 128 % 2 ^ 40 = 0 then some s else s.copyMove ck rt (.mem (w64 (v / 2 ^ 64))) (.mem (w64 v)) (v / 2 ^ 128 % 2 ^ 40)
        | (_, _, some _) => some (fail s)
    some (s, { c with done := c.done + 1 })
/-- The next unit of a copy that names another pod comes after the strand's earlier global sends of its generation (13 R300, 23 R442). -/
def State.copyHeld (s : State) (o : Op) (c : CopyOp) : Bool :=
  s.copyGlobal c && (s.sendAhead o.ck o.id c.gen || s.posted.any (fun p => p.ck == o.ck && p.glob && decide (p.id < o.id) && p.gen == c.gen))
/-- Units performed until the copy has none left, at most `n`, each in a request slot (07 R170). -/
def State.copyRun (s : State) (ck : Nat) (c : CopyOp) : Nat → State × CopyOp
  | 0 => (s, c)
  | n + 1 =>
    if c.total ≤ c.done ∨ !s.slotFree ck then (s, c)
    else match s.copyUnit ck c with
      | none => (s, c)
      | some (s, c) => s.copyRun ck c n

/-- A copy's units, bounded from above. -/
def CopyOp.units (c : CopyOp) : Nat := match c.kind with | .cpy => c.total / 64 + 2 | .cfill => c.total / 64 + 2 | _ => c.total
/-- 07 R181, 13 R295: a copy's next request is performed, or a posted request that none comes before goes on its way to its home. A
translation failure is a fatal context error (17 R360). -/
def execHomeRequest (op : Nat) (s : State) : Out :=
  .next (match s.op? op with
  | some o =>
    match o.kind with
    | .copy c =>
      if s.ready o ∧ c.done < c.total ∧ !s.copyHeld o c then
        let (s, c) := s.copyRun o.ck c 1
        s.setOp { o with kind := .copy c }
      else s
    | _ => s
  | none =>
    match s.posted.find? (fun p => p.id == op) with
    | some p => (s.homeRequest p).failing p.ck
    | none => s)
/-- A tile leaves the state its operation put it in, unless `tset` has changed it (09 R232). -/
def State.tileDone (s : State) (die core i st0 st1 : Nat) : State :=
  let w := s.dget die (ttabOff core i)
  if tileState w = st0 then s.dput die (ttabOff core i) (setFld w 1 0 st1) else s
/-- 09 R232. -/
def execCopyComplete (op : Nat) (s : State) : Out :=
  .next (match s.op? op with
  | some o =>
    match o.kind with
    | .copy c =>
      if s.ready o then
        let (s, c) := if s.copyHeld o c then (s, c) else s.copyRun o.ck c c.units
        if c.done < c.total then s.setOp { o with kind := .copy c }
        else
          let i := winTbase (s.win o.ck) + cpTN c.imm
          let s := if cpTD c.fn then s.tileDone (ckDie o.ck) (ckCore o.ck) i 1 2 else if cpTS c.fn then s.tileDone (ckDie o.ck) (ckCore o.ck) i 3 0 else s
          (s.modStrand o.ck (fun st => st.countDown (cpN c.fn))).finishOp o
      else s
    | _ => s
  | none => s)

/-- 09 R233. -/
def execCwait (h : Head) (w : W6) (s : State) : Out :=
  word (.cwait h w) h s (fun s => if Map.get 0 s.me.n (w.a.toNat % 16) ≤ fld w.imm 15 0 then .ok () else .error .wait) (fun _ s => s)
/-- 09 R234: the entry is written at the end of the aclk (06 R148). -/
def execTset (h : Head) (w : W6) (s : State) : Out :=
  let t := fld w.imm 7 0
  word (.tset h w) h s (fun s => do
    let i ← s.tileIdx s.cur.ck t
    if bit w.imm 10 then .ok (i, setFld (s.tile s.cur.ck i) 1 0 (fld w.imm 9 8))
    else do
      let b ← s.rd w.b 1
      let c ← s.rd w.c 2
      if b.toNat % 64 ≠ 0 ∨ c.toNat % 64 ≠ 0 ∨ c = 0 ∨ 2 ^ 22 < c.toNat then .error (trapOf .tileRange (w64 t)) else .ok ()
      s.vrange s.cur.ck b.toNat c.toNat
      .ok (i, w64 (fld w.imm 9 8 + b.toNat / 64 % 131072 * 2 ^ 8 + c.toNat / 64 % 65536 * 2 ^ 25)))
    (fun p s => { s.deferred h with laterT := Map.put s.laterT (s.myDie * 2 ^ 46 + ttabOff s.myCore p.1) p.2 })

/-- Fields of `xsend` (23 R444). -/
def sendSty (fn : BitVec 11) : Nat := match fld fn 5 4 with | 0 => 1 | 1 => 3 | _ => 4
def sendQty (fn : BitVec 11) : Nat := if bit fn 6 then 4 else 3
def sendNb (imm : BitVec 48) : Nat := fld imm 31 24 + 1
/-- Bytes of `nb` blocks of a type (23 R445). -/
def blockBytes (ty nb : Nat) : Nat := if ty = 1 then 512 * nb else if ty = 3 then 256 * nb else 129 * nb
/-- Checks and waits of `xsend` (23 R447). -/
def execXsend (h : Head) (w : W6) (s : State) : Out :=
  let k := fld w.fn 2 0
  word (.xsend h w) h s (fun s => do
    let t ← s.tileIdx s.cur.ck (fld w.imm 7 0)
    let a ← s.rd w.a 0
    let t0 ← s.rd w.b 1
    let e := s.tile s.cur.ck t
    if 65535 ≤ Map.get 0 s.me.n k ∨ tileState e ≠ 2 then .error .wait else .ok ()
    if tileLen e < blockBytes (sendSty w.fn) (sendNb w.imm) then .error (trapOf .tileRange (w64 (fld w.imm 7 0))) else .ok ()
    s.vrange s.cur.ck (tileBase e) (blockBytes (sendSty w.fn) (sendNb w.imm))
    s.check a
    .ok (a, t0, t))
    (fun p s =>
      let s := s.modMe (fun st => { st with n := Map.put st.n k (Map.get 0 st.n k + 1) })
      let s := (s.setTileState s.cur.ck p.2.2 3).sent p.1
      s.addOp (bit w.fn 3) (fld w.imm 35 32)
        (.send { fn := w.fn, imm := w.imm, a := p.1, t0 := p.2.1, tile := p.2.2, key := s.vaultKey s.cur.ck (tileBase (s.tile s.cur.ck p.2.2)),
                 gen := s.me.tgb, tabs := s.tabs, gone := false, begun := none, fills := none, acked := false, failed := false }))

/-- A block on its way (23 R445): type, element codes, e8m0 scale. -/
structure SBlock where
  ty    : Nat
  els   : List Nat
  scale : Nat
deriving DecidableEq, Repr
/-- 2^(e - 127) and 2^(127 - e). -/
def e8 (e : Nat) : Fv := .fin false 1 (Int.ofNat e - 127)
def e8inv (e : Nat) : Fv := .fin false 1 (127 - Int.ofNat e)
/-- Widening (23 R446). -/
def SBlock.widen (b : SBlock) : SBlock :=
  if b.ty = 1 then b
  else { ty := 1, scale := 0, els := b.els.map (fun c =>
    if b.ty = 3 then c * 65536 else if b.scale = 255 then 0x7FC00000 else (dequant 4 1 c 0 (e8 b.scale)).1) }
/-- Requantising (23 R446). -/
def SBlock.requant (b : SBlock) (q : Nat) : SBlock :=
  if b.ty ≠ 1 then b
  else if q = 3 then { ty := 3, scale := 0, els := b.els.map (fun c => (Fmt.bf16.cvt (f32d c)).1) }
  else
    let e := (scexp (b.els.foldl (fun m c => Fv.max m (f32d c).abs) Fv.zero) 8).1
    { ty := 4, scale := e, els := b.els.map (fun c => if e = 255 then 0x7F else (quant (f32d c) (e8inv e) (.fl .e4m3) 0).1) }
/-- The actions of the four hop positions in order (23 R444). -/
def SBlock.hops (b : SBlock) (q act : Nat) : SBlock :=
  (List.range 4).foldl (fun b h => match act / 4 ^ h % 4 with | 1 => b.widen | 2 => b.requant q | _ => b) b
/-- Width of an element. -/
def styBits (ty : Nat) : Nat := if ty = 1 then 32 else if ty = 3 then 16 else 8
/-- The blocks that stand in bytes `v`. -/
def blocksOf (ty nb v : Nat) : List SBlock :=
  (List.range nb).map (fun i =>
    { ty, els := (List.range 128).map (fun j => (v >>> ((i * 128 + j) * styBits ty)) % 2 ^ styBits ty),
      scale := if ty = 4 then (v >>> (8 * (128 * nb + i))) % 256 else 0 })
/-- The bytes of blocks of one type. -/
def blocksBytes (ty : Nat) (bs : List SBlock) : Nat :=
  packLE (styBits ty) (bs.flatMap (fun b => b.els)) +
    (if ty = 4 then packLE 8 (bs.map (fun b => b.scale)) * 2 ^ (8 * 128 * bs.length) else 0)
/-- f32 elements added each to each (23 R446). -/
def addF32s (n old v : Nat) : Nat :=
  packLE 32 ((List.range n).map (fun i => (f32c (fadd (f32d ((old >>> (32 * i)) % 2 ^ 32)) (f32d ((v >>> (32 * i)) % 2 ^ 32)))).1))
/-- What a send delivers: final type and bytes, from its source bytes and those the receiving tile holds (23 R445, R446). -/
def SendOp.deliver (x : SendOp) (src old : Nat) : Nat × Nat :=
  let ty := sendSty x.fn
  let bs := (blocksOf ty (sendNb x.imm) src).map (fun b => b.hops (sendQty x.fn) (fld x.imm 23 16))
  let fin := match bs with | b :: _ => b.ty | [] => ty
  let v := blocksBytes fin bs
  if bit x.fn 7 then (fin, addF32s (128 * sendNb x.imm) old v)
  else (fin, v)

/-- The final type of a send, which its fields alone decide (23 R445). -/
def SendOp.finTy (x : SendOp) : Nat := ((SBlock.mk (sendSty x.fn) [] 0).hops (sendQty x.fn) (fld x.imm 23 16)).ty
/-- A send of the table, still under way. -/
def State.send? (s : State) (op : Nat) : Option (Op × SendOp) :=
  match s.op? op with
  | some o => match o.kind with | .send x => if o.fin then none else some (o, x) | _ => none
  | none => none
def State.setSend (s : State) (o : Op) (x : SendOp) : State := s.setOp { o with kind := .send x }
/-- The strand's earlier sends that meet a condition. -/
def State.sendBefore (s : State) (o : Op) (f : Op → SendOp → Bool) : Bool :=
  s.ops.any (fun p => p.sid == o.sid && decide (p.id < o.id) && !p.fin && (match p.kind with | .send y => f p y | _ => false))
/-- 23 R447: departure, in the strand's send order, at T0 or after. A send handed to the hub before a freeze is accepted: it departs, and the drain waits for it
(23 R454). -/
def execSendDepart (op : Nat) (s : State) : Out :=
  .next (match s.send? op with
  | some (o, x) =>
    if x.gone || !decide (o.born < s.time) || s.sendBefore o (fun _ y => !y.gone) || decide (s.fabricTime < x.t0.toNat) then s
    else s.setSend o { x with gone := true }
  | none => s)
/-- Where a send arrives in this package: die, core and vault offset of the translated address (23 R448), by the tables it was routed by. -/
def State.sendTarget (s : State) (o : Op) (x : SendOp) : Except Miss (Option (Nat × Nat × Nat × Nat)) :=
  if s.global x.a && x.gen != s.gen then .error .err
  else match (s.asOf x.tabs).place o.asid o.part x.a.toNat true with
    | .error m => .error m
    | .ok (.remote _) => .ok none
    | .ok (.mem d phys key) =>
      if 0x200000000000 ≤ phys then .ok (some (d, (phys - 0x200000000000) / 2 ^ 24, phys % 2 ^ 24, key)) else .error .fail
    | .ok _ => .error .fail
/-- The core that a send names: where it arrives in this package, the package and the page it names elsewhere. -/
def State.sendCore (s : State) (o : Op) (x : SendOp) : Nat :=
  match s.sendTarget o x with | .ok (some (d, c, _, _)) => coreKey d c | _ => 2 ^ 16 + x.a.toNat / 2 ^ 24
/-- A send, or another global access, that has to be performed before this one: to the same receiving core (23 R442), or bound to the same generation (13 R300). -/
def State.sendHeld (s : State) (o : Op) (x : SendOp) : Bool :=
  s.sendBefore o (fun p y => !y.acked && (s.sendCore p y == s.sendCore o x || (s.global x.a && s.global y.a && x.gen == y.gen))) ||
  (s.global x.a && s.sendAhead o.ck o.id x.gen) ||
  s.posted.any (fun p => p.ck == o.ck && o.saved.isNone && p.glob && decide (p.id < o.id) && s.global x.a && p.gen == x.gen)
/-- Byte ranges of block `i` among `nb` of a type, within a tile: offset and size (23 R445). -/
def blockParts (ty nb i : Nat) : List (Nat × Nat) :=
  if ty = 1 then [(512 * i, 512)] else if ty = 3 then [(256 * i, 256)] else [(128 * i, 128), (128 * nb + i, 1)]
/-- Blocks `is` of a send written into the vault from bytes `v`, those of `bad` with poison (23 R448). -/
def State.fillTile (s : State) (key ty nb v : Nat) (is bad : List Nat) : State :=
  let put (s : State) (i : Nat) : State := (blockParts ty nb i).foldl (fun s p =>
    (s.wrVaultKey (key + p.1) (v / 2 ^ (8 * p.1) % 2 ^ (8 * p.2)) p.2).clearShades (key + p.1) p.2) s
  let mark (s : State) (i : Nat) : State := (blockParts ty nb i).foldl (fun s p => (linePieces (key + p.1) p.2).foldl (fun s q => s.mark q.2.1) s) s
  bad.foldl mark (is.foldl put s)
/-- Blocks of a send whose source bytes carry poison. -/
def State.badBlocks (s : State) (x : SendOp) : List Nat :=
  let nb := sendNb x.imm
  (List.range nb).filter (fun i => (blockParts (sendSty x.fn) nb i).any (fun p => s.poisonedRun (x.key + p.1) p.2))
/-- 23 R448: the receiving hub writes the first block, and the tile is filling; with the event's next turn the others, the tile is ready, and the hub acknowledges; the
completion stands before the issues of the core's aclk (06 R148). A failure after the first block leaves the others poisoned. At another package the send is acknowledged there (log 8). -/
def execSendArrive (op : Nat) (s : State) : Out :=
  .next (match s.send? op with
  | some (o, x) =>
    let nb := sendNb x.imm
    let ty := x.finTy
    let fails : State := s.setSend o { x with acked := true, failed := true }
    if !x.gone || x.acked || s.sendHeld o x then s
    else match s.sendTarget o x, x.fills with
      | .error _, none => fails
      | .ok none, _ => s.setSend o { x with acked := true, failed := Config.remoteAnswer s.free x.a.toNat == 3 }
      | .ok (some (d, c, off, key)), none =>
        let n := blockBytes ty nb
        let i := ttabOff c (fld x.imm 15 8)
        let e := s.dget d i
        if tileBase e ≠ off ∨ tileLen e < n then fails
        else if tileState e ≠ 0 then s.setSend o { x with begun := some (x.begun.getD s.ftime) }
        else
          let old := Mem.readLE s.mem key n
          let src := Mem.readLE s.mem x.key (blockBytes (sendSty x.fn) nb)
          let s := (s.fillTile key ty nb (x.deliver src old).2 [0] ((s.badBlocks x).filter (· == 0))).dput d i (setFld e 1 0 1)
          s.setSend o { x with begun := some (x.begun.getD s.ftime), fills := some (d, c, key, old) }
      | r, some (d, c, key, old) =>
        if Map.get 0 s.issued (coreKey d c) ≠ 0 then s else
        let failed := match r with | .error .err => true | _ => false
        let rest := (List.range nb).drop 1
        let src := Mem.readLE s.mem x.key (blockBytes (sendSty x.fn) nb)
        let s := (s.fillTile key ty nb (x.deliver src old).2 rest (if failed then rest else (s.badBlocks x).filter (· != 0))).tileDone d c (fld x.imm 15 8) 1 2
        s.setSend o { x with acked := true, failed }
  | none => s)
/-- 23 R448: the destination tile is still not empty 100 µs after the first block came. -/
def execSendDtTimeout (op : Nat) (s : State) : Out :=
  .next (match s.send? op with
  | some (o, x) =>
    match x.begun with
    | some t => if !x.acked && x.fills.isNone && decide (t + 1100000 ≤ s.ftime) then s.setSend o { x with acked := true, failed := true } else s
    | none => s
  | none => s)
/-- 23 R448, R449: among the completions of its aclk (06 R148, R151). -/
def execSendComplete (op : Nat) (s : State) : Out :=
  .next (match s.send? op with
  | some (o, x) =>
    if !x.acked || !s.ready o then s
    else
      let s := s.tileDone (o.core / 64) (o.core % 64) x.tile 3 0
      let s := if o.dead || !o.live then s else s.modStrand o.ck (fun st => st.sendDone x)
      s.finishOp o
  | none => s)

end Sys2Proof.Machine
end

