-- ==== Sys2Proof/Machine/Bank.lean ====
section
/-! DEFINITION. The bank engine of a D-core and the bank units above it (16 R330 to R347): commands, their items in bank order, queries,
appends, sketches, the filter, and the bank error record. -/

namespace Sys2Proof.Machine

/-- Fields of a block word (16 R330) and of a bank command (16 R331). -/
def bwSlot (b : BitVec 22) : Nat := fld b 10 0
def bwBank (b : BitVec 22) : Nat := fld b 16 11
def bwCol (b : BitVec 22) : Nat := fld b 21 17
/-- Bank number 64c + b. -/
def bwNum (b : BitVec 22) : Nat := 64 * bwCol b + bwBank b
def bkSP (w : W6) : Bool := bit w.fn 0
def bkOpt (w : W6) : Bool := bit w.fn 1
def bkHN (w : W6) : Nat := fld w.imm 3 0
def bkN (w : W6) : Nat := fld w.imm 9 4 + 1
def bkK (w : W6) : Nat := fld w.imm 15 10
/-- Die offset of byte `o` of a block's slot in the bank-direct window, and of its header. -/
def blockOff (b : BitVec 22) (o : Nat) : Nat := bankDirect (bwNum b) (16384 * bwSlot b + o)
def headerOff (b : BitVec 22) : Nat := bankDirect (bwNum b) (0x1FE0000 + 64 * bwSlot b)
/-- Home keys of the same. -/
def blockKey (d : Nat) (b : BitVec 22) (o : Nat) : Nat := d * 2 ^ 46 + blockOff b o
def headerKey (d : Nat) (b : BitVec 22) : Nat := d * 2 ^ 46 + headerOff b
/-- Offset of the dword of BPART that holds bank `n`, and its nibble (16 R351). -/
def bpartOff (n : Nat) : Nat := 0x330000002000 + 0x20 * (n / 64) + 8 * (n % 64 / 16)
def State.bpart (s : State) (d n : Nat) : Nat := fld (s.dget d (bpartOff n)) (4 * (n % 16) + 3) (4 * (n % 16))

/-- Vault ranges that a command reads as it issues, with the alignment of their offsets (16 R333, R338, R341 to R344). -/
def bankInputs (kind : BankKind) (w : W6) (a b c : Nat) : List (Nat × Nat × Nat) :=
  match kind with
  | .bqry => [(a, 320, 64), (b, 4 * bkN w, 4)] ++ (if bkOpt w then [(c, 8 * bkN w, 8)] else [])
  | .bapp => [(a, 256 * bkN w + (if bkOpt w then 32 else 0), 64)]
  | .bmv => [(a, 256, 64), (b, 4 * bkN w, 4)]
  | .bsk => [(a, 128 * bkN w, 1)]
  | .bflt => [(a, 16, 16), (c, 0x48, 64)]
  | .bmap => [] | .berr => []
/-- Ranges that only later steps read or write: outputs, and sketches, which the filter reads as it scores them. -/
def bankOthers (kind : BankKind) (w : W6) (a b c : Nat) : List (Nat × Nat × Nat) :=
  match kind with
  | .bqry => [] | .bapp => []
  | .bmv => [(c, 0x240 * bkN w, 64)]
  | .bsk => [(b, 1024, 1024)]
  | .bflt => [(b, 1024 * bkN w, 1024), (c, 256, 64)]
  | .bmap => [(a, 576, 64)] | .berr => [(a, 64, 64)]
/-- Block words of a command, with their token masks (16 R339). -/
def State.bankWords (s : State) (ck : Nat) (kind : BankKind) (w : W6) (b : Nat) (c : Word) : List BankItem :=
  let at_ (i : Nat) : Nat := s.vread ck (b + 4 * i) 4
  match kind with
  | .bqry => (List.range (bkN w)).map (fun i =>
      { idx := i, blk := BitVec.ofNat 22 (at_ i), word := BitVec.ofNat 32 (at_ i),
        mask := if bkOpt w then w64 (s.vread ck (c.toNat + 8 * i) 8) else if bit c i then BitVec.allOnes 64 else 0 })
  | .bmv => (List.range (bkN w)).map (fun i => { idx := i, blk := BitVec.ofNat 22 (at_ i), mask := BitVec.allOnes 64, word := BitVec.ofNat 32 (at_ i) })
  | .bapp => [{ idx := 0, blk := BitVec.ofNat 22 b, mask := BitVec.allOnes 64 }]
  | _ => []
/-- NO-ROUTE and PARTITION checks of block words (16 R333). -/
def State.blockCheck (s : State) (ck : Nat) (kind : BankKind) (xs : List BankItem) : Except Stop Unit := do
  let d := ckDie ck
  let col := match xs with | x :: _ => bwCol x.blk | [] => 0
  xs.forM (fun x =>
    if 64 * s.kvb d ≤ bwSlot x.blk ∨ (kind ≠ .bapp ∧ bwCol x.blk ≠ col) then .error (trapOf .noRoute (w64 (blockOff x.blk 0))) else .ok ())
  xs.forM (fun x => if s.bpart d (bwNum x.blk) ≠ (ctxPart (s.ctx ck)).toNat then .error (trapOf .partition (w64 (blockOff x.blk 0))) else .ok ())
/-- Vault input that stays with the command as it stood at its issue. -/
def State.bankData (s : State) (ck : Nat) (kind : BankKind) (w : W6) (a c : Nat) : Nat :=
  match kind with
  | .bqry => s.vread ck a 260 | .bmv => s.vread ck a 256 | .bsk => s.vread ck a (128 * bkN w)
  | .bflt => s.vread ck a 16 + s.vread ck c 0x48 * 2 ^ 128
  | _ => 0
/-- Commands in the queue of a column (16 R334): those with items that name a bank of it. -/
def State.columnQueue (s : State) (d col : Nat) : List Op :=
  s.ops.filter (fun o => o.die == d && o.live && !o.dead && (match o.kind with
    | .bank b => b.items.any (fun x => bwCol x.blk == col)
    | _ => false))
/-- A command with its inputs read and the checks of R333 and R338 made; `doneI` are the items already performed, `tiles` says that it waits
on the tiles it meets. -/
def State.bankPlan (s : State) (ck : Nat) (kind : BankKind) (w : W6) (a b c doneI : Word) (tiles : Bool) : Except Stop BankOp := do
  let ins := bankInputs kind w a.toNat b.toNat c.toNat
  let outs := bankOthers kind w a.toNat b.toNat c.toNat
  if tiles && (ins ++ outs).any (fun r => s.tileBusy ck r.1 r.2.1) then .error .wait else .ok ()
  (ins ++ outs).forM (fun r => if r.1 % r.2.2 ≠ 0 then .error (trapOf .alignment (w64 r.1)) else .ok ())
  (ins ++ outs).forM (fun r => s.vrange ck r.1 r.2.1)
  ins.forM (fun r => if kind ≠ .bapp ∧ s.vpoisoned ck r.1 r.2.1 then .error (trapOf .poisonConsumed (w64 r.1)) else .ok ())
  let res := if kind = .bqry then s.vread ck (a.toNat + 0x104) 4 else c.toNat
  if kind = .bqry ∧ res % 64 ≠ 0 then .error (trapOf .alignment (w64 res)) else .ok ()
  if kind = .bqry then s.vrange ck res (0x240 * bkN w) else .ok ()
  if tiles && kind = .bqry && s.tileBusy ck res (0x240 * bkN w) then .error .wait else .ok ()
  let items := (s.bankWords ck kind w b.toNat c).filter (fun x => x.mask != 0)
  s.blockCheck ck kind items
  let items := items.filter (fun x => !bit doneI x.idx)
  .ok { kind, w, a, b, c, res, items, doneI, data := s.bankData ck kind w a.toNat c.toNat }
/-- The queue of the command's column has room (16 R332). -/
def State.columnRoom (s : State) (ck : Nat) (b : BankOp) : Bool :=
  match b.items with
  | x :: _ => decide ((s.columnQueue (ckDie ck) (bwCol x.blk)).length < 64)
  | [] => true
/-- The command joins the strand's bank commands; a query of no token completes at once (16 R339). -/
def State.bankIssue (s : State) (b : BankOp) : State :=
  if b.kind = .bqry ∧ b.items = [] then (if bkSP b.w then s.modMe (fun st => st.complete (bkHN b.w)) else s)
  else (s.modMe (fun st => { st with bout := st.bout + 1 })).addOp (bkSP b.w) (bkHN b.w) (.bank b)
/-- An asynchronous bank command (16 R331 to R333): which of A, B and C it reads. -/
def bankWord (i : Instr) (h : Head) (w : W6) (s : State) (kind : BankKind) (rb rc : Bool) : Out :=
  word i h s (fun s => do
    if 16 ≤ s.me.bout then .error .wait else .ok ()
    let a ← s.rd w.a 0
    let b ← if rb then s.rd w.b 1 else .ok 0
    let c ← if rc then s.rd w.c 2 else .ok 0
    let o ← s.bankPlan s.cur.ck kind w a b c 0 true
    if s.columnRoom s.cur.ck o then .ok o else .error .wait)
    (fun o s => s.bankIssue o)
def execBqry (h : Head) (w : W6) (s : State) : Out := bankWord (.bqry h w) h w s .bqry true true
def execBapp (h : Head) (w : W6) (s : State) : Out := bankWord (.bapp h w) h w s .bapp true false
def execBmv (h : Head) (w : W6) (s : State) : Out := bankWord (.bmv h w) h w s .bmv true true
def execBflt (h : Head) (w : W6) (s : State) : Out := bankWord (.bflt h w) h w s .bflt true true
def execBsk (h : Head) (w : W6) (s : State) : Out := bankWord (.bsk h w) h w s .bsk true true
def execBmap (h : Head) (w : W6) (s : State) : Out := bankWord (.bmap h w) h w s .bmap false false
def execBerr (h : Head) (w : W6) (s : State) : Out := bankWord (.berr h w) h w s .berr false false
/-- 16 R345. -/
def execBwait (h : Head) (w : W6) (s : State) : Out :=
  word (.bwait h w) h s (fun s => if s.me.bout ≤ fld w.imm 6 0 then .ok () else .error .wait) (fun _ s => s)

/-- A 16-bit count of the bank error record goes up, at most to 65,535 (16 R347). -/
def berrCount (r : BitVec 512) (lo n : Nat) : BitVec 512 := setFld r (lo + 15) lo (min (fld r (lo + 15) lo + n) 65535)
/-- The first append failure is kept, and every one is counted. -/
def berrFail (r : BitVec 512) (cause : Nat) (b : BitVec 22) : BitVec 512 :=
  berrCount (if fld r 7 0 = 0 then setFld (setFld r 7 0 cause) 63 32 b.toNat else r) 16 1
def State.berrOf (s : State) (ck : Nat) (f : BitVec 512 → BitVec 512) : State := s.modStrand ck (fun st => { st with berr := f st.berr })
/-- Statuses of items returned (16 R339, R347). -/
def berrStatus (r : BitVec 512) (st : Nat) : BitVec 512 :=
  match st with | 1 => berrCount r 64 1 | 2 => berrCount r 80 1 | 3 => berrCount r 96 1 | _ => r

/-- The item at position `i` of a command comes next at its bank: in queue order no earlier item names the bank (16 R334). -/
def State.itemNext (s : State) (o : Op) (b : BankOp) (x : BankItem) : Bool :=
  let n := bwNum x.blk
  let before := s.ops.takeWhile (fun p => p.id != o.id)
  !(before.any (fun p => p.die == o.die && p.live && !p.dead && (match p.kind with
      | .bank y => y.items.any (fun z => bwNum z.blk == n)
      | _ => false))) &&
  !(b.items.any (fun y => decide (y.idx < x.idx) && bwNum y.blk == n))
/-- A bank command that is outstanding with an item of index `item` that may be performed now. -/
def State.bankItem? (s : State) (op item : Nat) : Option (Op × BankOp × BankItem) :=
  match s.op? op with
  | some o =>
    match o.kind with
    | .bank b => match b.items.find? (fun x => x.idx == item) with
      | some x => if s.ready o && s.itemNext o b x then some (o, b, x) else none
      | none => none
    | _ => none
  | none => none
/-- The item leaves its command, its record written. -/
def State.itemDone (s : State) (o : Op) (b : BankOp) (x : BankItem) : State :=
  s.setOp { o with kind := .bank { b with items := b.items.filter (fun y => y.idx != x.idx), doneI := setBit b.doneI x.idx true } }

/-- Header fields of a block (16 R330), from its 64 bytes. -/
def hdNtok (h : Nat) : Nat := min (h / 2 ^ 64 % 128) 64
def hdMoved (h : Nat) : Bool := h.testBit 71
def hdDim (h : Nat) : Nat := h / 2 ^ 72 % 128 + 1
def hdSeq (h : Nat) : Nat := h / 2 ^ 128 % 2 ^ 64
def State.header (s : State) (d : Nat) (b : BitVec 22) : Nat := Mem.readLE s.mem (headerKey d b) 64
/-- The block as the bank unit reads it (04 R106). -/
def State.block (s : State) (d : Nat) (b : BitVec 22) : Block :=
  let h := s.header d b
  let at_ (o : Nat) : Fv := Fmt.e4m3.decode (Mem.read s.mem (blockKey d b o)).toNat
  { n := hdNtok h, d := hdDim h, k := fun t x => at_ (128 * t + x), v := fun t x => at_ (0x2000 + 128 * t + x),
    ksc := f32d (h % 2 ^ 32), vsc := f32d (h / 2 ^ 32 % 2 ^ 32) }
/-- An uncorrectable read of a block (16 R340): its K and V lines are poisoned, with a notification for each line newly poisoned (17 R367,
log 44). -/
def State.blockLost (s : State) (d : Nat) (b : BitVec 22) : State :=
  (List.range 256).foldl (fun s i => s.markNew (blockKey d b (64 * i))) s
/-- A query's record (16 R339): index, block word as listed, status, tokens, SEQ, and the triple. -/
def queryRecord (i : Nat) (b : BitVec 32) (st toks seq m sm : Nat) (acc : List Nat) : Nat :=
  packLE 32 acc + m * 2 ^ 4096 + sm * 2 ^ 4128 + i * 2 ^ 4160 + st * 2 ^ 4168 + toks * 2 ^ 4176 + b.toNat * 2 ^ 4192 + seq * 2 ^ 4224
/-- The tokens that a query has scanned when it comes to a line it cannot read (16 R339, R340): none behind such a header, else those of `toks` before the
first whose lines are poisoned, or before the token that the read names. -/
def State.scanned (s : State) (d : Nat) (b : BitVec 22) (dim : Nat) (toks : List Nat) (rd : BankRead) : Nat :=
  let lost (t : Nat) : Bool := s.poisonedRun (blockKey d b (128 * t)) dim || s.poisonedRun (blockKey d b (0x2000 + 128 * t)) dim ||
    (match rd with | .uncorrectable k => decide (k ≤ t) | _ => false)
  if s.poisoned (headerKey d b) then 0 else (toks.takeWhile (fun t => !lost t)).length
/-- The read ends the item. -/
def readEnds : BankRead → Bool
  | .uncorrectable _ => true
  | _ => false
/-- 16 R339, R340: one item of a query. -/
def execBankQueryItem (op item : Nat) (rd : BankRead) (s : State) : Out :=
  .next (match s.bankItem? op item with
  | some (o, b, x) =>
    if b.kind ≠ .bqry then s
    else
      let d := o.die
      let retired := s.bankRetired d (bwNum x.blk)
      let h := s.header d x.blk
      let n := hdNtok h
      let mask (t : Nat) : Bool := bit x.mask t
      let toks := ((List.range n).filter mask)
      let hurt := s.poisoned (headerKey d x.blk) || toks.any (fun t =>
        s.poisonedRun (blockKey d x.blk (128 * t)) (hdDim h) || s.poisonedRun (blockKey d x.blk (0x2000 + 128 * t)) (hdDim h))
      let st := if retired then 3 else if hurt || readEnds rd then 2 else if rd == .corrected then 1 else 0
      let q (i : Nat) : Fv := Fmt.bf16.decode (b.data / 2 ^ (16 * i) % 2 ^ 16)
      let r := scan q (s.block d x.blk) (f32d (b.data / 2 ^ 2048 % 2 ^ 32)) mask
      let seen := s.scanned d x.blk (hdDim h) toks rd
      let rec_ := if 2 ≤ st then queryRecord x.idx x.word st (if st = 3 then 0 else seen) (if st = 3 then 0 else hdSeq h) 0xFF800000 0 []
        else queryRecord x.idx x.word st toks.length (hdSeq h) r.1 r.2.1 r.2.2
      let s := if st = 2 then s.blockLost d x.blk else s
      let s := s.vwrite o.ck (b.res + 0x240 * x.idx) rec_ 0x240
      (s.berrOf o.ck (fun r => berrStatus r st)).itemDone o b x
  | none => s)

/-- Why an append fails (16 R341): the cause, or none. -/
def State.appendCause (s : State) (d : Nat) (b : BitVec 22) (init : Bool) (k : Nat) : Option Nat :=
  let h := s.header d b
  if s.bankRetired d (bwNum b) ∨ (init ∧ !s.bankLive d (bwNum b)) then some 3
  else if s.poisoned (headerKey d b) then some 2
  else if !init ∧ hdMoved h then some 4
  else if 64 < (if init then 0 else hdNtok h) + k then some 1 else none
/-- One line of an append written from the vault, with its poison. -/
def State.appendLine (s : State) (ck off key : Nat) : State :=
  let bad := s.vpoisoned ck off 64
  let s := s.wrKey 0 key (s.vread ck off 64) 64
  if bad then s.mark key else s
/-- An append performed (16 R341). -/
def State.append (s : State) (ck : Nat) (b : BitVec 22) (a k : Nat) (init : Bool) : State :=
  let d := ckDie ck
  let h := s.header d b
  let n := if init then 0 else hdNtok h
  let s := (List.range (2 * k)).foldl (fun s j => s.appendLine ck (a + 64 * j) (blockKey d b (128 * n + 64 * j))) s
  let s := (List.range (2 * k)).foldl (fun s j => s.appendLine ck (a + 128 * k + 64 * j) (blockKey d b (0x2000 + 128 * n + 64 * j))) s
  let hk := headerKey d b
  let put (s : State) (o v n : Nat) : State := s.wrKey 0 (hk + o) v n
  if init then
    let tail := s.vread ck (a + 256 * k) 32
    let bad := s.vpoisoned ck (a + 256 * k) 32
    let s := put s 0 (tail % 2 ^ 64) 8
    let s := put s 8 (n + k + (h / 2 ^ 79 % 2 * 128 + tail / 2 ^ 64 % 128) * 256) 2
    let s := put s 16 (tail / 2 ^ 128 % 2 ^ 64) 8
    if bad then s.mark hk else s
  else put s 8 (n + k + b2n (hdMoved h) * 128) 1
/-- 16 R341: the item of an append. -/
def execBankAppendItem (op item : Nat) (s : State) : Out :=
  .next (match s.bankItem? op item with
  | some (o, b, x) =>
    if b.kind ≠ .bapp then s
    else match s.appendCause (o.die) x.blk (bkOpt b.w) (bkN b.w) with
      | some cause => (s.berrOf o.ck (fun r => berrFail r cause x.blk)).itemDone o b x
      | none => (s.append o.ck x.blk b.a.toNat (bkN b.w) (bkOpt b.w)).itemDone o b x
  | none => s)

/-- y[r] of a weight tile (16 R344). -/
def mvRow (x : Nat → Fv) (w : Nat → Fv) (ksc : Fv) : Nat :=
  (f32c (fmul ((List.range 8).foldl (fun a g => addGroup a ((List.range 16).map (fun j => (w (16 * g + j), x (16 * g + j))))) Fv.zero) ksc)).1
/-- 16 R344: one weight tile. -/
def execBankMvItem (op item : Nat) (rd : BankRead) (s : State) : Out :=
  .next (match s.bankItem? op item with
  | some (o, b, x) =>
    if b.kind ≠ .bmv then s
    else
      let d := o.die
      let retired := s.bankRetired d (bwNum x.blk)
      let hurt := s.poisoned (headerKey d x.blk) || s.poisonedRun (blockKey d x.blk 0) 16384
      let st := if retired then 3 else if hurt || readEnds rd then 2 else if rd == .corrected then 1 else 0
      let xs (i : Nat) : Fv := Fmt.bf16.decode (b.data / 2 ^ (16 * i) % 2 ^ 16)
      let ksc := f32d (s.header d x.blk % 2 ^ 32)
      let ys := if 2 ≤ st then [] else (List.range 128).map (fun r =>
        mvRow xs (fun c => Fmt.e4m3.decode (Mem.read s.mem (blockKey d x.blk (128 * r + c))).toNat) ksc)
      let s := if st = 2 then s.blockLost d x.blk else s
      let s := s.vwrite o.ck (b.res + 0x240 * x.idx) (packLE 32 ys + x.idx * 2 ^ 4160 + st * 2 ^ 4168) 0x240
      (s.berrOf o.ck (fun r => berrStatus r st)).itemDone o b x
  | none => s)

/-- Sketches of k rows (16 R342). -/
def sketchRows (rows sks k : Nat) : Nat :=
  packLE 4 ((List.range k).flatMap (fun j => (List.range 32).map (fun d =>
    let v := (List.range 4).foldl (fun (a : Fv) e => fadd a (Fmt.e4m3.decode (rows / 2 ^ (8 * (128 * j + 4 * d + e)) % 256))) Fv.zero
    (cvtToInt true 4 (fmul v (f32d sks))).1)))
/-- Score of a block with `nt` tokens (16 R343). -/
def scoreOf (q sk nt : Nat) : Int :=
  let s (t : Nat) : Int := (List.range 32).foldl (fun a d => a + sval 4 (q / 2 ^ (4 * d)) * sval 4 (sk / 2 ^ (4 * (32 * t + d)))) 0
  (List.range (nt - 1)).foldl (fun m t => max m (s (t + 1))) (s 0)
/-- The candidate that top-k takes next: greatest score, the lower index of equals. -/
def bestOf : List (Nat × Int) → Option (Nat × Int)
  | [] => none
  | x :: r => match bestOf r with
    | none => some x
    | some y => if x.2 < y.2 then some y else some x
def topK (xs : List (Nat × Int)) : Nat → List Nat
  | 0 => []
  | k + 1 => match bestOf xs with
    | none => []
    | some b => b.1 :: topK (xs.filter (fun x => x.1 != b.1)) k
/-- The filter engine's whole command (16 R343). -/
def State.filterRun (s : State) (ck : Nat) (b : BankOp) : State :=
  let q := b.data % 2 ^ 128
  let nt (i : Nat) : Nat := min (b.data / 2 ^ (128 + 8 * i) % 256) 64
  let force (i : Nat) : Bool := b.data.testBit (128 + 512 + i)
  let nb := bkN b.w
  let sk (i : Nat) : Nat := b.b.toNat + 1024 * i
  let lost (i : Nat) : Bool := nt i != 0 && s.vpoisoned ck (sk i) (16 * nt i)
  let score (i : Nat) : Int := if nt i = 0 then -32768 else if lost i then 32767 else scoreOf q (s.vread ck (sk i) (16 * nt i)) (nt i)
  let is := List.range nb
  let sc := is.map (fun i => (i, score i))
  let cand := sc.filter (fun p => !force p.1 && nt p.1 != 0)
  let sel := if bkOpt b.w then (cand.filter (fun p => decide (sval 16 (fld b.w.imm 31 16) ≤ p.2))).map (fun p => p.1) else topK cand (bkK b.w + 1)
  let surv := packLE 1 (is.map (fun i => b2n (force i || sel.contains i)))
  let s := s.vwrite ck (b.c.toNat + 0x48) surv 8
  let s := s.vwrite ck (b.c.toNat + 0x80) (packLE 16 (sc.map (fun p => scode 16 p.2))) (2 * nb)
  s.berrOf ck (fun r => berrCount r 112 (is.filter lost).length)
/-- The availability record (16 R346). -/
def State.availRecord (s : State) (d : Nat) : Nat :=
  let x := s.die d
  packLE 1 ((List.range 2048).map (fun n => b2n (s.bankLive d n))) +
  packLE 1 ((List.range 2048).map (fun n => b2n (fld (s.bankst d n) 1 0 == 1))) * 2 ^ 2048 +
  x.epoch % 2 ^ 64 * 2 ^ 4096 + (s.liveBanks d).length * 2 ^ 4160 + s.kvb d * 2 ^ 4176
/-- Work of a command that names no block, done as it completes (16 R342, R343, R346, R347). -/
def State.bankWork (s : State) (ck : Nat) (b : BankOp) : State :=
  match b.kind with
  | .bsk => s.vwrite ck (b.b.toNat + 16 * bkK b.w) (sketchRows b.data (fld b.c 31 0) (bkN b.w)) (16 * bkN b.w)
  | .bflt => s.filterRun ck b
  | .bmap => s.vwrite ck b.a.toNat (s.availRecord (ckDie ck)) 576
  | .berr => (s.vwrite ck b.a.toNat (s.strand ck).berr.toNat 64).modStrand ck (fun st => { st with berr := 0 })
  | _ => s
/-- A bank command that may complete: no item left, and `berr` after every earlier command of the strand (16 R332, R347). -/
def State.bankReady (s : State) (o : Op) (b : BankOp) : Bool :=
  s.ready o && b.items.isEmpty &&
  (b.kind != .berr || !(s.ops.takeWhile (fun p => p.id != o.id)).any (fun p => p.mine o.ck && (match p.kind with
    | .bank _ => true
    | _ => false)))
/-- 16 R332. -/
def execBankCmdComplete (op : Nat) (s : State) : Out :=
  .next (match s.op? op with
  | some o =>
    match o.kind with
    | .bank b =>
      if s.bankReady o b then ((s.bankWork o.ck b).modStrand o.ck (fun st => { st with bout := st.bout - 1 })).finishOp o else s
    | _ => s
  | none => s)

end Sys2Proof.Machine
end

