-- ==== Sys2Proof/Machine/Neutral.lean ====
section
/-! DEFINITION. The words that every engine executes: semaphores (06 R149, R150, 09 R235, R236) and `fencex` (09 R237). -/

namespace Sys2Proof.Machine

/-- hN of a semaphore word (09 R235). -/
def semNum (w : W6) : Nat := fld w.imm 3 0
/-- 09 R235, R236: value and ceiling, set after every other operation of the aclk. -/
def execSemi (h : Head) (w : W6) (s : State) : Out :=
  word (.semi h w) h s (fun _ => .ok ())
    (fun _ s => (s.deferred h).modMe (fun st => { st with
      laterH := st.laterH ++ [(s.cur.eng.num, semNum w, { value := fld w.imm 23 8, ceil := fld w.imm 39 24, held := 0, posted := 0, applied := 0 })] }))
/-- 06 R149: a wait. Posts of this aclk are not seen (06 R150). -/
def execSemw (h : Head) (w : W6) (s : State) : Out :=
  word (.semw h w) h s (fun s => if (s.me.sem (semNum w)).value = 0 then .error .wait else .ok ())
    (fun _ s => s.modMe (fun st => st.setSem (semNum w) { st.sem (semNum w) with value := (st.sem (semNum w)).value - 1 }))
/-- Room for one more post by a word, those of this aclk that are still to be decided among them (06 R150). -/
def Strand.semRoom (st : Strand) (n : Nat) : Bool :=
  decide ((st.sem n).value + (st.sem n).posted + (st.posts.filter (fun p => p.2 == n)).length < (st.sem n).ceil)
/-- 06 R149, R150: a post. At the ceiling the test is left to the end of the aclk, when every wait has been made. -/
def execSemp (h : Head) (w : W6) (s : State) : Out :=
  if s.reaches (.semp h w) h && !s.me.semRoom (semNum w) then
    .next (s.modMe (fun st => { st with posts := st.posts ++ [(s.cur.eng, semNum w)] }))
  else
    word (.semp h w) h s (fun _ => .ok ())
      (fun _ s => s.modMe (fun st => st.setSem (semNum w) { st.sem (semNum w) with posted := (st.sem (semNum w)).posted + 1 }))
/-- A post left to the end of the aclk: the word issues, or raises the semaphore-ceiling trap (06 R150). -/
def State.resolvePost (s : State) (ck : Nat) (e : Engine) (n : Nat) : State :=
  let x := (s.strand ck).sem n
  if x.value + x.posted < x.ceil then
    let s := s.modStrand ck (fun st => st.setSem n { x with posted := x.posted + 1 })
    (({ s with cur := ⟨ck, e⟩ } : State).enter).advance
  else s.raise ck e { cls := .semaphoreCeiling, code := 0, info := w64 n }
/-- The posts that a strand's words have left, in engine order. -/
def State.resolvePosts (s : State) (ck : Nat) : State :=
  Engine.all.foldl (fun s e =>
    match (s.strand ck).posts.find? (fun p => p.1 == e) with
    | some p => (s.modStrand ck (fun st => { st with posts := st.posts.filter (fun q => q.1 != e) })).resolvePost ck e p.2
    | none => s) s

/-- The access path of an operation (09 R237): bit of PATHS. -/
def OpKind.path : OpKind → Option Nat
  | .vld .. => some 1 | .mat _ => some 2 | .copy _ => some 3 | .send _ => some 3 | .bank _ => some 4 | _ => none
/-- An OUT binding of the strand still holds entries to store (07 R174). -/
def Strand.outPending (st : Strand) : Bool := st.q.any (fun p => p.2.state == .outS && p.2.buf != [])
/-- A parked `waita` of the strand issued before aclk `now` (07 R185). -/
def Strand.waitaPending (st : Strand) (now : Nat) : Bool :=
  (st.eng .a).flight.any (fun f => decide (f.born < now) && (match f.val with | .waita .. => true | _ => false))
/-- Some access of a path in `paths` that the strand issued before this aclk has not been performed, or a write has not reached the point of the scope
(09 R237, 13 R299). -/
def State.pathBusy (s : State) (ck paths scope : Nat) : Bool :=
  s.ops.any (fun o => o.mine ck && (o.live || o.kind.proceeds) && decide (o.born < s.time) && (match o.kind.path with | some p => paths.testBit p | none => false)) ||
  (paths.testBit 0 && ((s.strand ck).waitaPending s.time || (s.strand ck).outPending)) || s.unreached ck paths scope
/-- 09 R237: with A named, the buffered stores are published at SCOPE. -/
def execFencex (h : Head) (w : W6) (s : State) : Out :=
  word (.fencex h w) h s (fun s =>
    if s.pathBusy s.cur.ck (fld w.imm 5 0) (fld w.imm 7 6) then .error .wait
    else if bit w.imm 0 then s.publishAt s.cur.ck (fld w.imm 7 6) else .ok s) (fun p _ => (p.unshade p.cur.ck (fld w.imm 5 0)).enter)

end Sys2Proof.Machine
end

