-- ==== Sys2Proof/Machine/Sync.lean ====
section
/-! DEFINITION. Groups, barriers, phases and launches of the sequencer (12 R266 to R276, 13 R287 to R294). -/

namespace Sys2Proof.Machine

/-- The object that a group or barrier word names, its line checked (12 R266, R269): address, and the home key of a line of this package. The word
waits for what the hub egress of its die has accepted for the line (13 R286). -/
def State.objectCheck (s : State) (g : Word) (write : Bool) : Except Stop (Option Nat) := do
  if g.toNat % 64 ≠ 0 then .error (trapOf .alignment g) else .ok ()
  s.check g
  match s.place s.agent.asid s.agent.part g.toNat write with
  | .ok (.mem _ _ key) =>
    if s.posted.any (fun p => decide (1 ≤ p.stage) && p.die == s.myDie && p.line == key / 64) then .error .wait
    else if s.poisoned key then .error (trapOf .poisonConsumed g)
    else .ok (some key)
  | .ok (.dev _ _) => .error (.fatal g)
  | .ok _ => .ok none
  | .error .err => .error (trapOf .poisonConsumed g)
  | .error .fail => .error (.fatal g)
/-- The membership of the executing strand in the group at `g`. -/
def State.member (s : State) (g : Word) : Option Member := s.me.groups.find? (fun m => m.addr == g)

/-- 12 R269. -/
def execJoin (h : Head) (w : W6) (s : State) : Out :=
  word (.join h w) h s (fun s => do
    let g ← s.rd w.b 0
    let k ← s.objectCheck g true
    .ok (g, k))
    (fun p s =>
      let s := s.sent p.1
      match p.2 with
      | none => s.resultP h w.a false
      | some key =>
        let o := s.groupAt s.agent.part key
        if bit p.1 63 || decide (4 ≤ s.me.groups.length) || (s.member p.1).isSome || o.dis || decide (o.nmem = 4096) then s.resultP h w.a false
        else
          let s := s.setGroup s.agent.part key { o with nmem := o.nmem + 1 }
          let s := s.modMe (fun st => { st with groups := st.groups ++ [{ addr := p.1, asid := s.agent.asid, part := s.agent.part, arrived := false }] })
          s.resultP h w.a true)
/-- 12 R269. -/
def execLeave (h : Head) (w : W6) (s : State) : Out :=
  word (.leave h w) h s (fun s => do
    let g ← s.rd w.b 0
    let _ ← s.objectCheck g true
    .ok g)
    (fun g s =>
      let s := s.sent g
      match s.member g with
      | none => s
      | some m => (s.modMe (fun st => { st with groups := st.groups.filter (fun x => x.addr != g) })).removeGroups s.agent.part [m])

/-- The arrival of `gbar` and `phase.g` at the group (12 R269), after which the strand parks. -/
def State.groupArrive (s : State) (m : Member) : State :=
  match s.memberHome m with
  | none => s.advance
  | some key =>
    let part := s.agent.part
    let eff := s.eff s.cur.ck
    let o := s.groupAt part key
    let o1 := { o with narr := o.narr + 1, maxc := max o.maxc eff }
    let s := s.modMe (fun st => { st with
      groups := st.groups.map (fun x => if x.addr = m.addr then { x with arrived := true } else x),
      park := some { obj := m.addr, gen := w64 o.gen, group := true } })
    if o1.narr = o1.nmem then s.flip part key o1 else s.setGroup part key o1
/-- 12 R269. A parked word keeps its place until it wakes. -/
def execGbar (h : Head) (w : W6) (s : State) : Out :=
  wordRaw (.gbar h w) h s (fun s => do
    let g ← s.rd w.b 0
    let _ ← s.objectCheck g true
    .ok g)
    (fun g s => match (s.sent g).member g with | none => (s.sent g).advance | some m => (s.sent g).groupArrive m)
/-- GEN of the object at `g` as the strand's agent reads it at the home (12 R264, R267). -/
def State.objectGen (s : State) (ck : Nat) (g : Word) : Except Miss Word :=
  (s.rdPiece (s.me? ck) g.toNat 16).map (fun x => w64 (x.1 / 2 ^ 64))
/-- 12 R266. -/
def execBarw (h : Head) (w : W6) (s : State) : Out :=
  wordRaw (.barw h w) h s (fun s => do
    let o ← s.rd w.b 0
    let g ← s.rd w.c 1
    let _ ← s.objectCheck o false
    match s.objectGen s.cur.ck o with
    | .ok x => .ok (o, g, x)
    | .error .err => .error (trapOf .poisonConsumed o)
    | .error .fail => .error (.fatal o))
    (fun p s =>
      let s := (s.count s.agent p.1.toNat false).sent p.1
      if p.2.2 ≠ p.2.1 then s.advance else s.modMe (fun st => { st with park := some { obj := p.1, gen := p.2.1, group := false } }))
/-- The end of a park (12 R266, R269, 13 R292): GEN has passed the value awaited; a home disabled meanwhile answers with an error
response (23 R439). -/
def execBarrierWake (ck : Nat) (s : State) : Out :=
  .next (match (s.strand ck).park with
  | none => s
  | some p =>
    if !s.running? ck then s
    else match s.objectGen ck p.obj with
      | .ok g =>
        if g = p.gen then s
        else (({ s.count (s.me? ck) p.obj.toNat false with cur := ⟨ck, .s⟩ } : State).modMe (fun st => { st with park := none })).advance
      | .error .err => s.raise ck .s { cls := .poisonConsumed, code := 0, info := p.obj }
      | .error .fail => s.fatal ck p.obj)

/-- The waits of a solo boundary before it publishes (13 R291): entries of OUT bindings are still to be stored, or a write that bypasses the buffer is not yet
complete at the scope. Loads of earlier sections have landed. -/
def State.phaseWait (s : State) (scope : Nat) : Except Stop Unit := if s.me.outPending || !s.bypassDone s.cur.ck scope then .error .wait else .ok ()
/-- What a solo boundary does before it issues (13 R291): the published state. -/
def State.solo (s : State) (scope : Nat) : Except Stop State := do
  s.phaseWait scope
  s.publishAt s.cur.ck scope
/-- 13 R291. At S a set CERR is cleared and raises the context-error trap, and the publication stands; an issued `phase.s` sets PHS
(23 R452). -/
def execPhaseSolo (h : Head) (w : W6) (s : State) : Out :=
  let atS := decide (fld w.fn 1 0 = 3)
  match s.solo (fld w.fn 1 0) with
  | .ok p =>
    if s.reaches (.phaseSolo h w) h && atS && p.me.cerr then
      stopped (p.modMe (fun st => { st with cerr := false })) (.trap { cls := .contextError, code := 0, info := 0 })
    else word (.phaseSolo h w) h s (fun _ => .ok ()) (fun _ _ => p.enter.modMe (fun st => { st with phs := st.phs || atS }))
  | .error e => word (.phaseSolo h w) h s (fun _ => (.error e : Except Stop Unit)) (fun _ s => s)
/-- 13 R292. -/
def execPhaseG (h : Head) (w : W6) (s : State) : Out :=
  wordRaw (.phaseG h w) h s (fun s => do
    let g ← s.rd w.b 0
    let _ ← s.objectCheck g true
    let p ← s.solo 0
    .ok (g, p))
    (fun p _ =>
      let s := p.2.enter.sent p.1
      match s.member p.1 with
      | none => s.advance
      | some m => s.groupArrive m)

/-- KTAB[k] (12 R263). -/
def ktabOff (k : Nat) : Nat := 0x380000000000 + 0x20 * k
def State.ktabImage (s : State) (k : Nat) : Word := s.dget 8 (ktabOff k)
def State.kernelValid (s : State) (k : Nat) : Bool := bit (s.dget 8 (ktabOff k + 8)) 20
def State.kernelAsid (s : State) (k : Nat) : BitVec 16 := (s.dget 8 (ktabOff k + 8)).extractLsb' 0 16
def State.kernelPart (s : State) (k : Nat) : BitVec 4 := (s.dget 8 (ktabOff k + 8)).extractLsb' 16 4
/-- The hub reading for a kernel: its ASID and partition (12 R263). -/
def State.kernelAgent (s : State) (k : Nat) : Agent := { asid := s.kernelAsid k, part := s.kernelPart k, die := 8 }
/-- `n` bytes of a kernel's image from offset `o` on (03 R74); zero where they cannot be read. The spec gives no outcome for a line that is poisoned: the launch
unit takes its bytes as they stand (DESIGN CHOICE, log 46). -/
def State.imageBytes (s : State) (k o n : Nat) : Nat :=
  match s.rdRange (s.kernelAgent k) ((s.ktabImage k).toNat + o) n with | (v, _, none) => v | _ => 0
/-- PROF and NSTG of a kernel header, stage descriptors (03 R74). -/
def State.kernelProf (s : State) (k : Nat) : Profile :=
  match s.imageBytes k 5 1 % 4 with | 0 => .p | 1 => .d | 2 => .crown | _ => .mc
def State.kernelNstg (s : State) (k : Nat) : Nat := s.imageBytes k 5 1 / 4 % 8
def State.stageEntry (s : State) (k g : Nat) : Nat := s.imageBytes k (64 + 8 * g) 4
def State.stageDepth (s : State) (k g : Nat) : Nat := s.imageBytes k (64 + 8 * g + 4) 2 % 2 ^ 13

/-- Fields of a launch record (12 R272). -/
def QRec.kid (r : QRec) : Nat := fld r.data 15 0
def QRec.stage (r : QRec) : Nat := fld r.data 18 16
def QRec.prio (r : QRec) : Nat := fld r.data 20 19
def QRec.place (r : QRec) : Nat := fld r.data 22 21
def QRec.pdie (r : QRec) : Nat := fld r.data 26 23
def QRec.pcl (r : QRec) : Nat := fld r.data 29 27
def QRec.bar (r : QRec) : Word := r.data.extractLsb' 64 64
def QRec.arg (r : QRec) (i : Nat) : Word := r.data.extractLsb' (192 + 64 * i) 64
/-- OCC of a stage queue (12 R274). -/
def State.occ (s : State) (k g : Nat) : Nat := (s.queues.filter (fun r => r.kid == k && r.stage == g)).length
/-- Some core of die `d`, of cluster `cl` where one is named, runs profile `pf` (00 R1, 06 R132). -/
def placeRuns (d : Nat) (cl : Option Nat) (pf : Profile) : Bool :=
  (List.range 32).any (fun c => profileOf d c == some pf && (match cl with | some x => decide (c / 4 = x) | none => true))
/-- A launch record is acceptable from a strand of `asid` (12 R273). -/
def State.launchOk (s : State) (asid : BitVec 16) (r : QRec) : Bool :=
  let k := r.kid
  decide (k < 1024) && s.kernelValid k && s.kernelAsid k == asid && decide (r.stage ≤ s.kernelNstg k) && decide (r.place ≠ 3) &&
  (match r.place with
   | 1 => placeRuns r.pdie none (s.kernelProf k)
   | 2 => placeRuns r.pdie (some r.pcl) (s.kernelProf k)
   | _ => true) &&
  decide (r.bar.toNat % 64 = 0) && fld r.data 63 30 == 0 && fld r.data 191 128 == 0

/-- A task is refused where the pool or the issuing core has no matrix engine, or a field breaks 12 R278. -/
def taskOk (d c cl : Nat) (r : BitVec 512) : Bool :=
  let mat (c : Nat) : Bool := match profileOf d c with | some .p => true | some .d => true | _ => false
  mat c && mat (4 * cl) && fld r 69 64 == 0 && fld r 197 192 == 0 && fld r 323 320 ≤ 7 &&
  decide (fld r 447 428 + fld r 511 492 ≤ 4096) && (decide (2 ≤ d) || (fld r 51 48 != 0 && fld r 57 52 != 0))
/-- Records of a task pool (12 R279). -/
def State.poolOf (s : State) (d cl : Nat) : List Task := s.tasks.filter (fun t => t.die == d && t.cluster == cl)

/-- What a `launch` or `task` has to enqueue: the record, the cluster, and its address as long as nothing has been published for it. -/
structure Submission where
  data : BitVec 512
  cl   : Nat
  from? : Option Word
deriving DecidableEq, Repr
/-- The record that `launch` and `task` name, read through the phase buffer, once (12 R273): a word that waits for room keeps what it has read. -/
def State.recordAt (s : State) (b : BitVec 7) (cluster : Except Stop Nat) : Except Stop Submission :=
  match s.me.recIn with
  | some p => .ok { data := p.1, cl := p.2, from? := none }
  | none => do
    let c ← cluster
    let r ← s.rd b 0
    if r.toNat % 64 ≠ 0 then .error (trapOf .alignment r) else .ok ()
    s.check r
    let v ← s.loadRange s.cur.ck r.toNat 64
    if v.2 then .error (trapOf .poisonConsumed r) else .ok { data := BitVec.ofNat 512 v.1, cl := c, from? := some r }
/-- An accepted record, its strand's stores published, waits for room, is enqueued then, and gives 1 (12 R273). -/
def State.awaitRoom (s : State) (h : Head) (a : BitVec 7) (x : Submission) (room : State → Bool) (add : State → State) : State :=
  if room s then (((add s).modMe (fun st => { st with recIn := none })).resultP h a true).advance
  else { s.modMe (fun st => { st with recIn := some (x.data, x.cl) }) with waited := x.from?.isNone }
/-- The end of `launch` and `task` (12 R273): a refused record gives 0 and publishes nothing; for an accepted one the strand's stores are published at P, and
it waits for room. The reading counts at its home (17 R364), and an address in another pod is a global send (23 R452). -/
def State.enqueue (s : State) (h : Head) (a : BitVec 7) (x : Submission) (accepted : Bool) (room : State → Bool) (add : State → State) : State :=
  match x.from? with
  | none => s.awaitRoom h a x room add
  | some r =>
    let t := (s.countRange s.cur.ck r.toNat 64 false).sent r
    if !accepted then (t.resultP h a false).advance
    else match t.publish s.cur.ck with
      | .error (.fatal va) => s.missing va
      | .error _ => { s with waited := true }
      | .ok p => p.awaitRoom h a x room add
/-- A word that waits for room and whose predicate has since become false forgets the record it has read (01 R35). -/
def State.forget (s : State) (i : Instr) (h : Head) : State :=
  if s.me.recIn.isSome && !s.skipped && (s.decodeTrap i).isNone && !s.predTrue h then s.modMe (fun st => { st with recIn := none }) else s
/-- 12 R273. -/
def execLaunch (h : Head) (w : W6) (s : State) : Out :=
  let s := s.forget (.launch h w) h
  wordRaw (.launch h w) h s (fun s => s.recordAt w.b (.ok 0))
    (fun x s =>
      let r : QRec := { data := x.data, asid := s.myAsid, part := s.myPart, rq := none, tag := 0 }
      s.enqueue h w.a x (s.launchOk s.myAsid r) (fun p => decide (p.occ r.kid r.stage < p.stageDepth r.kid r.stage))
        (fun p => { p with queues := p.queues ++ [r] }))
/-- 12 R273. -/
def execTask (h : Head) (w : W6) (s : State) : Out :=
  let s := s.forget (.task h w) h
  wordRaw (.task h w) h s
    (fun s => s.recordAt w.b (if Legal.f0 w then (s.rd w.c 2).map (fun c => c.toNat % 8) else .ok (s.myCore / 4 % 8)))
    (fun x s =>
      let t : Task := { die := s.myDie, cluster := x.cl, data := x.data, asid := s.myAsid, part := s.myPart }
      s.enqueue h w.a x (taskOk s.myDie s.myCore x.cl x.data) (fun x => decide ((x.poolOf t.die t.cluster).length < 256))
        (fun x => { x with tasks := x.tasks ++ [t] }))

end Sys2Proof.Machine
end

