-- ==== Sys2Proof/Machine/Pdie.lean ====
section
/-! DEFINITION. The prefill die (15): crown gates, current grants, row bands, and writes of VFCTL. -/

namespace Sys2Proof.Machine

/-- The check of `cgate` (15 R321). -/
def State.gatePermit (s : State) : Except Stop Unit :=
  let v := s.dget s.myDie (vfctlOff s.pairCore)
  if !bit v 0 ∨ ctxSlot (s.ctx s.cur.ck) ≠ fld v 2 1 then .error (trapOf .fifoClosed 0) else .ok ()
/-- 15 R321: the request, which the gate meets at the end of the aclk (15 R322). -/
def execCgateOff (h : Head) (w : W6) (s : State) : Out :=
  word (.cgateOff h w) h s (fun s => s.gatePermit) (fun _ s => s.addOp (bit w.imm 4) (fld w.imm 3 0) (.cgate false))
def execCgateOn (h : Head) (w : W6) (s : State) : Out :=
  word (.cgateOn h w) h s (fun s => s.gatePermit) (fun _ s => s.addOp (bit w.imm 4) (fld w.imm 3 0) (.cgate true))

/-- A FIFO opens or closes; its entries stay (15 R322). -/
def State.fifoClose (s : State) (d c : Nat) (up closed : Bool) : State := s.setFifo d c up { s.fifo d c up with closed }
/-- Waiting `cgate` operations of a pair, of one kind, complete in issue order. -/
def State.gateComplete (s : State) (d c : Nat) (on : Bool) : State :=
  (s.ops.filter (fun o => o.core == coreKey d c && !o.fin && (match o.kind with | .cgate x => x == on | _ => false))).foldl
    (fun s o => s.finishOp o) s
/-- A `cgate` meets the gate of the core that issued it (15 R322, R323). -/
def State.gateMeets (s : State) (o : Op) (on : Bool) : State :=
  let d := o.core / 64
  let c := o.core % 64
  match s.gate d c, on with
  | 0, false => (s.setGate d c 1).fifoClose d c true true
  | 0, true => s.finishOp o
  | 1, true => ((((s.setGate d c 0).fifoClose d c true false).gateComplete d c false)).finishOp o
  | 2, false => s.finishOp o
  | 2, true => s.setGate d c 3
  | _, _ => s
/-- The `cgate` words of this aclk meet their gates, in issue order. -/
def State.gateIssues (s : State) : State :=
  s.ops.foldl (fun s o => match o.kind with
    | .cgate on => if o.born = s.time ∧ !o.fin then s.gateMeets o on else s
    | _ => s) s
/-- The crown core of a pair is quiet (15 R322). -/
def State.gateIsQuiet (s : State) (d c : Nat) : Bool :=
  (s.fifo d c true).entries == [] && (List.range 8).all (fun x => !s.running? (ckOf d (c + 16) x))
/-- Gating ends when the core is quiet (15 R322). -/
def State.gateSettle (s : State) (d c : Nat) : State :=
  if d < 2 ∧ c < 16 ∧ s.gate d c = 1 ∧ s.gateIsQuiet d c then ((((s.keepVff d c).setGate d c 2).fifoClose d c false true).gateComplete d c false) else s
/-- The gates in which gating has begun in an earlier aclk. -/
def State.gating (s : State) : List (Nat × Nat) :=
  ([0, 1].flatMap (fun d => (List.range 16).map (fun c => (d, c)))).filter (fun p => s.gate p.1 p.2 == 1)
def execGateQuiet (die core : Nat) (s : State) : Out := .next (s.gateSettle die core)
/-- 15 R322: power good; a `cgate.off` that waited acts as from on. -/
def execGatePowerGood (die core : Nat) (s : State) : Out :=
  .next (if die < 2 ∧ core < 16 ∧ s.gate die core = 3 then
    let s := ((((s.keepVff die core).setGate die core 0).fifoClose die core true false).fifoClose die core false false).gateComplete die core true
    if s.ops.any (fun o => o.core == coreKey die core && !o.fin && (match o.kind with | .cgate x => !x | _ => false)) then
      (s.setGate die core 1).fifoClose die core true true
    else s
  else s)

/-- VFCTL written (15 R317, R322): both FIFOs emptied and opened; no effect while the gate is other than on. -/
def State.vfctl (s : State) (d c : Nat) (v : Word) : State :=
  if 2 ≤ d ∨ 16 ≤ c ∨ s.gate d c ≠ 0 then s
  else (((s.keepVff d c).dput d (vfctlOff c) (w64 (v.toNat % 32))).setFifo d c true Fifo.init).setFifo d c false Fifo.init
def execVfctlWrite (die core : Nat) (v : Word) (s : State) : Out := .next (s.vfctl die core v)

/-- BUDGET, GRANTED and WAITING of a P-die (15 R317, R325, R327). -/
def State.budget (s : State) (d : Nat) : Nat := fld (s.dget d 0x320000000000) 15 0
def State.granted (s : State) (d : Nat) : Nat :=
  s.strands.foldl (fun n p =>
    if ckDie p.1 = d ∧ s.running? p.1 then
      n + p.2.level.getD 0 + p.2.grants.foldl (fun n g => if g.2.any (fun i => (s.op? i).isSome) then n + g.1 else n) 0
    else n) 0
def State.waiting (s : State) (d : Nat) : Nat := ((s.die d).waitPwr.filter (fun p => !p.2.2)).length
/-- What a request needs beyond the level its strand holds. -/
def State.pwrNeed (s : State) (p : Nat × Nat × Bool) : Nat := p.2.1 - ((s.strand p.1).level.getD 0)
/-- The request that the governor serves next: greatest effective class, then earliest (15 R325). -/
def State.pwrHead (s : State) (d : Nat) : Option (Nat × Nat × Bool) :=
  (s.die d).waitPwr.foldl (fun b p => match b with
    | none => some p
    | some q => if s.eff q.1 < s.eff p.1 then some p else some q) none
/-- The request fits under BUDGET. -/
def State.pwrFits (s : State) (p : Nat × Nat × Bool) : Bool := decide (s.granted (ckDie p.1) + s.pwrNeed p ≤ s.budget (ckDie p.1))
/-- The grant (15 R325): the level is the strand's, and the word that waited for it has issued. -/
def State.pwrGrant (s : State) (p : Nat × Nat × Bool) : State :=
  let s := s.modDie (ckDie p.1) (fun d => { d with waitPwr := d.waitPwr.filter (fun q => q.1 != p.1) })
  let s := s.modStrand p.1 (fun st => { st with level := some p.2.1, regionAt := if p.2.2 then 0 else if st.level.isNone then s.nextId else st.regionAt })
  if p.2.2 then s else s.modStrand p.1 (fun st => st.modEng .s (fun e => (e.enter 0 (st.knows .s)).advance s.time))
/-- 15 R325. -/
def execPwracq (h : Head) (w : W6) (s : State) : Out :=
  let lvl := fld w.imm 7 0
  wordRaw (.pwracq h w) h s (fun s => if s.budget s.myDie < lvl then .error (trapOf .powerExceeded (w64 lvl)) else .ok ())
    (fun _ s =>
      if lvl ≤ s.me.level.getD 0 then (s.modMe (fun st => { st with level := some lvl })).advance
      else
        let p := (s.cur.ck, lvl, false)
        let s := s.modDie s.myDie (fun d => { d with waitPwr := d.waitPwr.filter (fun q => q.1 != s.cur.ck) ++ [p] })
        if s.pwrHead s.myDie = some p ∧ s.pwrFits p then s.pwrGrant p else s)
/-- 15 R327: the region ends at the end of the aclk. -/
def execPwrrel (h : Head) (w : W6) (s : State) : Out :=
  word (.pwrrel h w) h s (fun _ => .ok ())
    (fun _ s => if s.me.level.isSome then (s.deferred h).modMe (fun st => { st with later := st.later ++ [(0x1000, 0)] }) else s)
/-- 15 R325: the governor grants the head request once it fits. -/
def execPowerGrant (die : Nat) (s : State) : Out :=
  .next (match s.pwrHead die with
  | some p => if s.pwrFits p then s.pwrGrant p else s
  | none => s)

/-- A row band is named by a running strand that holds an accumulator pair, or by a running task (15 R314). -/
def State.bandNamed (s : State) (d c b : Nat) : Bool :=
  (List.range 8).any (fun x => s.running? (ckOf d c x) && (s.strand (ckOf d c x)).accp && bit (s.strand (ckOf d c x)).ashape b) ||
  s.running.any (fun p => p.1 == coreKey d c && bit p.2.task.data (48 + b))
/-- 15 R314: a band unnamed for BOFFT µs is turned off. -/
def execBandOff (die core band : Nat) (s : State) : Out :=
  .next (if die < 2 ∧ core < 16 ∧ band < 4 ∧ !s.bandNamed die core band ∧ !(s.die die).bandIsOff core band ∧
      Map.get 0 (s.die die).bandAt (4 * core + band) + 11000 * fld (s.dget die 0x320000000008) 15 0 ≤ s.ftime then
    s.modDie die (fun d => { d with bandOff := NSet.add d.bandOff (4 * core + band) })
  else s)
/-- 15 R314: a band that is off is woken. -/
def execBandWake (die core band : Nat) (s : State) : Out :=
  .next (s.modDie die (fun d => { d with bandOff := NSet.del d.bandOff (4 * core + band), bandAt := Map.put d.bandAt (4 * core + band) s.ftime }))
/-- At the end of an aclk, the bands that are named now are unnamed from no earlier than now. -/
def State.bandTimes (s : State) (d : Nat) : State :=
  let named := (List.range 64).filter (fun i => s.bandNamed d (i / 4) (i % 4))
  if named = [] then s else s.modDie d (fun x => { x with bandAt := named.foldl (fun m i => Map.put m i s.ftime) x.bandAt })

end Sys2Proof.Machine
end

