-- ==== Sys2Proof/Machine/Health.lean ====
section
/-! DEFINITION. Package health (21 R423, R424): HSTATE and what follows a change of it, and the signals to the host (21 R415). -/

namespace Sys2Proof.Machine

def State.setBankst (s : State) (d n : Nat) (v : Word) : State := s.dput d (0x3F0000000000 + 8 * n) v
/-- PARTCTL[p] (21 R416). -/
def partctlOff (p : Nat) : Nat := 0x3A0000000800 + 8 * p
def State.partctl (s : State) (p : Nat) : Word := s.dget 8 (partctlOff p)
/-- Functions of the ports (21 R415), 33 to a port, the physical one first: those that hold partition `p`. A virtual function named by
two partitions belongs to the lower. -/
def State.functionsOf (s : State) (p : Nat) : List Nat :=
  let c := s.partctl p
  if !bit c 0 then []
  else (List.range 32).filterMap (fun v =>
    if bit c (8 + v) ∧ (List.range p).all (fun u => !(bit (s.partctl u) 0 && bit (s.partctl u) 1 == bit c 1 && bit (s.partctl u) (8 + v))) then
      some (33 * b2n (bit c 1) + 1 + v)
    else none)
/-- FWST (21 R426). -/
def fwstOff : Nat := 0x3A0000000910
/-- The firmware has enabled the ports (21 R426): until it runs they pass nothing between the host and the hub request block (log 96). -/
def State.portsOn (s : State) : Bool := fld (s.dget 8 fwstOff) 1 0 == 1
/-- An MSI-X vector signalled on functions (21 R415): `msix` counts the signals under function * 16 + vector. -/
def State.signal (s : State) (fs : List Nat) (vec : Nat) : State :=
  if !s.portsOn then s else { s with msix := fs.foldl (fun m f => Map.put m (16 * f + vec) (Map.get 0 m (16 * f + vec) + 1)) s.msix }
/-- Every enabled function: the physical ones and those that hold a partition. -/
def State.allFunctions (s : State) : List Nat := [0, 33] ++ (List.range 16).flatMap (fun p => s.functionsOf p)
/-- Banks retired in the package. -/
def State.retiredBanks (s : State) : Nat :=
  (s.dev.filter (fun p => decide (0x3F0000000000 ≤ p.1 % 2 ^ 46) && decide (p.1 % 2 ^ 46 < 0x3F0000004000) && fld p.2 1 0 == 2)).length
/-- The state that the conditions of R424 give: `ask` when the firmware requests replacement, `dead` on an uncontained error. -/
def State.healthOf (s : State) (h : Word) (ask dead : Bool) : Nat :=
  if dead || (bit h 2 && bit h 3) || (List.range 6).all (fun d => bit h (4 + d)) then 3
  else if fld h 9 2 != 0 || decide (fld (s.dget 8 0x3A0000000908) 13 0 ≤ fld h 23 10) || ask then 2
  else if fld h 23 10 != 0 || fld h 31 24 != 0 || fld h 39 32 != 0 then 1 else 0
/-- HSTATE with counts brought up to date and ST risen where a condition holds; a change advances CHG and is signalled (21 R424). -/
def State.healthTo (s : State) (f : Word → Word) (ask dead : Bool) : State :=
  let h := setFld (setFld (setFld (f s.hstate) 23 10 s.retiredBanks) 31 24 s.modsDown.length) 39 32 s.linksDown.length
  let h := setFld h 1 0 (max (fld h 1 0) (s.healthOf h ask dead))
  if h = s.hstate then s
  else { s with hstate := setFld h 47 40 (fld h 47 40 + 1) }.signal s.allFunctions 1
def State.health (s : State) (f : Word → Word) : State := s.healthTo f false false
/-- HSTATE.ST is failed. -/
def State.failed (s : State) : Bool := fld s.hstate 1 0 == 3

end Sys2Proof.Machine
end

