-- ==== Sys2Proof/Machine/DieMem.lean ====
section
/-! DEFINITION. The memory units of a die (16 R348 to R351, 17): TLB invalidation, L2 modes, page and block moves, remapping, poison,
notifications, and the block reclaimer. -/

namespace Sys2Proof.Machine

/-- Operations of the executing strand that hub and die engines perform whatever becomes of it (17 R374): posted to HN when SP = 1. -/
def State.issueOp (s : State) (w : W6) (k : OpKind) : State := s.addOp (bit w.fn 0) (fld w.imm 3 0) k
/-- A unit writes `n` bytes for an operation at a virtual address and publishes them (17 R365, R373, 20 R414): an error response sets CERR, a
failed translation is the issuing strand's fatal context error (17 R360). -/
def State.opWrite (s : State) (o : Op) (ea : Word) (n v : Nat) : State :=
  let live := o.mine o.ck
  match s.wrRange { asid := o.asid, part := o.part, die := o.die } ea.toNat n v with
  | (s, none) => s
  | (s, some .err) => if live then s.modStrand o.ck (fun st => { st with cerr := true }) else s
  | (s, some .fail) => if live then s.fatal o.ck ea else s
/-- The same, then the operation completes. -/
def State.opAnswer (s : State) (o : Op) (ea : Word) (n v : Nat) : State :=
  let s := s.opWrite o ea n v
  match s.op? o.id with | some o => s.finishOp o | none => s

/-- 17 R359. -/
def execTlbinv (h : Head) (w : W6) (s : State) : Out :=
  let kind := fld w.fn 2 1
  word (.tlbinv h w) h s (fun s => do
    let a ← if kind < 2 then s.rd w.a 0 else .ok 0
    let b ← s.rd w.b 1
    if fld b 63 50 ≠ 0 ∨ 9 ≤ fld b 49 46 then .error (trapOf .noRoute b) else .ok (a, b))
    (fun p s => s.issueOp w (.tlbinv (fld p.2 49 46) kind (p.1.setWidth 16) (fld p.2 45 0)))
/-- Translations of a die that an invalidation names leave its TLB. -/
def Die.invalidate (d : Die) (kind : Nat) (asid : BitVec 16) (off : Nat) : Die :=
  { d with
    tlb := d.tlb.filter (fun t => !(match kind with | 0 => t.asid == asid && t.page == off / t.size | 1 => t.asid == asid | _ => true)),
    mids := d.mids.filter (fun m => !(match kind with | 0 => m.asid == asid && m.span == off / tableSpan m.level | 1 => m.asid == asid | _ => true)) }
/-- A translation enters the TLB of a die, which holds 32,768 (17 R358). -/
def State.tlbAdd (s : State) (d : Nat) (t : TlbEntry) : State := s.modDie d (fun x => { x with tlb := (t :: x.tlb).take 32768 })
/-- The walk whose result is `r` gives the translation. -/
def TlbEntry.isResult (t : TlbEntry) (r : Option (Nat × Nat × Bool)) : Bool := r == some (t.frame, t.size, t.w)
/-- A translation kept by a die's TLB: one that a walk gives now (17 R358). -/
def State.tlbKeep (s : State) (d : Nat) (t : TlbEntry) : State :=
  if d < 9 ∧ t.isResult (s.walk d t.asid t.part (t.page * t.size)) then s.tlbAdd d t else s
/-- An intermediate entry kept by a die: the table that a walk comes to now (17 R358). -/
def State.midKeep (s : State) (d : Nat) (asid : BitVec 16) (part : BitVec 4) (off level : Nat) : State :=
  match (s.walkStart d asid part off).bind (fun x => s.tableAt d off level (4 - x.1) x.2) with
  | some table => if d < 9 ∧ level < 4 then s.modDie d (fun x => { x with mids := { asid, part, level, span := off / tableSpan level, table } :: x.mids }) else s
  | none => s
/-- A translation kept by a die's TLB: one that a walk gives now from an intermediate entry (17 R358). -/
def State.tlbVia (s : State) (d : Nat) (t : TlbEntry) (level : Nat) : State :=
  let off := t.page * t.size
  match (s.die d).mids.find? (fun m => m.asid == t.asid && m.part == t.part && m.level == level && m.span == off / tableSpan level) with
  | some m => if t.isResult (s.walkTable d off (4 - level) m.table) then s.tlbAdd d t else s
  | none => s
/-- A die drops a translation that it holds (17 R358). -/
def State.tlbDrop (s : State) (d i : Nat) : State := s.modDie d (fun x => { x with tlb := x.tlb.eraseIdx i })
/-- A die drops an intermediate entry that it keeps (17 R358). -/
def State.midDrop (s : State) (d i : Nat) : State := s.modDie d (fun x => { x with mids := x.mids.eraseIdx i })
/-- 17 R359. -/
def execTlbinvComplete (op : Nat) (s : State) : Out :=
  .next (match s.op? op with
  | some o => match o.kind with
    | .tlbinv d kind asid off => if s.ready o then (s.modDie d (fun x => x.invalidate kind asid off)).finishOp o else s
    | _ => s
  | none => s)

/-- 17 R356. Write-back and invalidation of lines change no outcome (17 R354). -/
def execL2mode (h : Head) (w : W6) (s : State) : Out :=
  word (.l2mode h w) h s (fun s => do
    let b ← s.rd w.b 1
    if fld b 63 4 ≠ 0 ∨ 8 ≤ fld b 3 0 then .error (trapOf .noRoute b) else .ok ()
    if s.pathBusy s.cur.ck 0x3F 3 then .error .wait else .ok (fld b 3 0))
    (fun d s =>
      if allCores.any (fun p => p.1 == d && (List.range 8).any (fun x => ckOf d p.2 x != s.cur.ck && s.running? (ckOf d p.2 x))) then
        s.resultP h w.a false
      else (s.dput d 0x340000000000 (w64 (fld w.imm 1 0))).resultP h w.a true)

/-- Offset, level and frame of the leaf that maps an offset (17 R357). -/
def State.leafFrom (s : State) (d off : Nat) : Nat → Nat → Option (Nat × Nat × Nat)
  | 0, _ => none
  | n + 1, table =>
    let level := 3 - n
    let at_ := table + 8 * walkIndex level off
    let e := s.rdPhys d at_ 8
    let addr := e / 2 ^ 12 % 2 ^ 34 * 4096
    if !e.testBit 0 ∨ e / 8 % 512 ≠ 0 ∨ e / 2 ^ 46 % 2 ^ 18 ≠ 0 then none
    else if level = 3 ∨ e.testBit 1 then
      if level = 0 ∨ addr % pageBytes level ≠ 0 ∨ !s.framed d addr (pageBytes level) then none else some (at_, level, addr)
    else s.leafFrom d off n addr
/-- Root table of an ASID, if its entry is valid. -/
def State.asidRoot (s : State) (d asid : Nat) : Option Nat :=
  let b := s.dget d 0x340000000010
  let e := s.rdPhys d (fld b 45 12 * 4096 + 16 * asid) 16
  if !bit b 0 ∨ !e.testBit 0 ∨ e / 32 % 128 ≠ 0 ∨ e / 2 ^ 46 ≠ 0 then none else some (e / 2 ^ 12 % 2 ^ 34 * 4096)
/-- Every leaf below a table: frame and size. -/
def State.leaves (s : State) (d : Nat) : Nat → Nat → List (Nat × Nat)
  | 0, _ => []
  | n + 1, table =>
    let level := 3 - n
    (List.range (if level = 0 then 128 else if level = 3 then 32 else 512)).flatMap (fun i =>
      let e := s.rdPhys d (table + 8 * i) 8
      let addr := e / 2 ^ 12 % 2 ^ 34 * 4096
      if !e.testBit 0 ∨ e / 8 % 512 ≠ 0 ∨ e / 2 ^ 46 % 2 ^ 18 ≠ 0 then []
      else if level = 3 ∨ e.testBit 1 then (if level = 0 then [] else [(addr, pageBytes level)])
      else s.leaves d n addr)
/-- A physical range lies in DRAM of the die. -/
def State.inDram (s : State) (d off n : Nat) : Bool :=
  decide (off + n ≤ 0x200000000000) && (s.homeKey d off).isSome && (s.homeKey d (off + n - 1)).isSome && s.framed d off n

/-- `n` bytes, whole lines, copied between home keys, with poison and partition tags (17 R366). -/
def State.moveRun (s : State) (ks kd n : Nat) : State :=
  let cells := s.mem.filter (fun p => decide (ks ≤ p.1) && decide (p.1 < ks + n))
  let rest := s.mem.filter (fun p => !(decide (kd ≤ p.1) && decide (p.1 < kd + n)))
  let s1 : State := { s with mem := cells.foldl (fun m p => Mem.write m (p.1 - ks + kd) p.2) rest }
  let s2 := (List.range (n / 64)).foldl (fun s i =>
    let a := ks / 64 + i
    let b := kd / 64 + i
    let s := { s with poison := if NSet.mem s.poison a || s.lostBank (64 * a) then NSet.add s.poison b else NSet.del s.poison b }
    if s.encrypted (64 * b) then
      { s with tags := match Map.get? s.tags a with | some t => Map.put s.tags b t | none => Map.del s.tags b }
    else s) s1
  s2.noteWrites kd n
/-- The lines that a mask names copied from a source to a destination of a die (17 R366). -/
def State.moveLines (s : State) (d : Nat) (m : Mover) (mask : Nat) : State :=
  let per := 4096 / m.unit
  (List.range (m.n / 4096)).foldl (fun s i =>
    let b := mask / 2 ^ (per * i) % 2 ^ per
    match s.homeKey d (m.src + 4096 * i), s.homeKey d (m.dst + 4096 * i) with
    | some a, some z =>
      if b = 2 ^ per - 1 then s.moveRun a z 4096
      else (onesOf b per).foldl (fun s j => s.moveRun (a + m.unit * j) (z + m.unit * j) m.unit) s
    | _, _ => s) s
/-- Lines in a mask. -/
def countOnes (m n : Nat) : Nat := (onesOf m n).length
def Mover.left (m : Mover) : Nat := countOnes m.marked (m.n / m.unit)
/-- A round of a move has ended (16 R350, 17 R366): it is the last if it is the eighth or few enough lines are marked, fewer than MTHR of a page, no more
than BMCTL.THR of a block; else the marked lines are the next. -/
def State.roundOver (s : State) (d : Nat) (m : Mover) : Mover :=
  let few := if m.n = 0x4000 then decide (m.left ≤ fld (s.dget d 0x330000000020) 3 1) else decide (m.left < fld (s.dget d 0x340000000048) 12 0)
  if m.rounds = 7 ∨ few then { m with rounds := m.rounds + 1, todo := 0, ended := true } else { m with rounds := m.rounds + 1, todo := m.marked }
def State.setMover (s : State) (d : Nat) (m : Option Mover) : State := s.modDie d (fun x => { x with mover := m })
/-- The lines in `mask` that are still to be copied in this round are copied, each losing its mark as it is read (17 R366). -/
def State.moveSome (s : State) (d : Nat) (m : Mover) (mask : Nat) : State :=
  let now := m.todo &&& mask
  let rest := m.todo - now
  let m := { m with todo := rest, marked := m.marked - (m.marked &&& now) }
  let s := (s.setMover d (some m)).moveLines d m now
  if rest = 0 then (match (s.die d).mover with | some m => s.setMover d (some (s.roundOver d m)) | none => s) else s
/-- A move begins: every line is marked, and is copied in the first round. -/
def State.moveStart (s : State) (d src dst n leaf : Nat) : State :=
  let m : Mover := { src, dst, n, leaf, marked := 0, todo := 0, rounds := 0, ended := false }
  s.setMover d (some { m with todo := 2 ^ (n / m.unit) - 1 })
/-- The next line of a move under way is copied. -/
def State.moveLine (s : State) (d line : Nat) : State :=
  match (s.die d).mover with
  | some m => if !m.ended && m.todo.testBit line then s.moveSome d m (2 ^ line) else s
  | none => s
/-- Registered and visited table pages of a frame move with it (17 R366, R372). -/
def State.movePages (s : State) (d src dst n : Nat) : State :=
  let shift (x : Nat) : Nat := if src ≤ x ∧ x < src + n then x - src + dst else x
  let keys := (List.range (n / 4096)).filterMap (fun i =>
    match s.homeKey d (src + 4096 * i), s.homeKey d (dst + 4096 * i) with | some a, some b => some (a / 4096, b / 4096) | _, _ => none)
  let key (k : Nat) : Nat := match keys.find? (fun p => p.1 == k) with | some p => p.2 | none => k
  s.modDie d (fun x => { x with roots := x.roots.map (fun p => (shift p.1, p.2)), work := x.work.map shift, visited := x.visited.map key, gray := x.gray.map key })

/-- Moves outstanding at the migration engine of a die (17 R365). -/
def State.movesOf (s : State) (d : Nat) : List Op :=
  s.ops.filter (fun o => !o.fin && (match o.kind with | .mpage va .. => fld va 49 46 == d | _ => false))
/-- Frame, new frame and size of a move (17 R366), with the place of its leaf; none where it is refused. -/
def State.movePlan (s : State) (va : Word) (dst : Nat) (asid : BitVec 16) : Option (Nat × Nat × Nat × Nat) :=
  let d := fld va 49 46
  match (s.asidRoot d asid.toNat).bind (fun r => s.leafFrom d (fld va 45 0) 4 r) with
  | none => none
  | some (at_, level, frame) =>
    let n := pageBytes level
    if level = 1 ∨ dst % n ≠ 0 ∨ !s.inDram d dst n then none else some (frame, dst, n, at_)
/-- An outstanding move of the die has the page or a frame of this one in hand (17 R365; DEDUCED, log 81). -/
def State.inMove (s : State) (va : Word) (dst : Nat) (asid : BitVec 16) : Bool :=
  let meets (a m b n : Nat) : Bool := decide (a < b + n) && decide (b < a + m)
  match s.movePlan va dst asid with
  | none => false
  | some (f, t, n, _) => (s.movesOf (fld va 49 46)).any (fun o => match o.kind with
    | .mpage va' dst' asid' .. => match s.movePlan va' dst' asid' with
      | some (f', t', n', _) => meets f n f' n' || meets f n t' n' || meets t n f' n' || meets t n t' n'
      | none => false
    | _ => false)
/-- 17 R365. -/
def execMpage (h : Head) (w : W6) (s : State) : Out :=
  word (.mpage h w) h s (fun s => do
    let a ← s.rd w.a 0
    let b ← s.rd w.b 1
    let c ← s.rd w.c 2
    if fld a 63 50 ≠ 0 ∨ 8 ≤ fld a 49 46 then .error (trapOf .noRoute a) else .ok ()
    if c.toNat % 8 ≠ 0 then .error (trapOf .alignment c) else .ok ()
    s.check c
    if 17 ≤ (s.movesOf (fld a 49 46)).length + b2n (s.die (fld a 49 46)).move.isSome then .error .wait else .ok (a, b, c))
    (fun p s =>
      let dst := fld p.2.1 45 0
      let asid := BitVec.ofNat 16 (fld w.imm 19 4)
      (s.sent p.2.2).issueOp w (.mpage p.1 dst asid p.2.2 (s.inMove p.1 dst asid)))
/-- The freeze of a page move (17 R366): the marked lines are copied, pages and counters follow, the leaf names the new frame, and the translations of the page
go. The status: rounds, lines copied in the freeze, whose length is free. -/
def State.moveEnd (s : State) (m : Mover) (va : Word) (asid : BitVec 16) : State × Nat :=
  let d := fld va 49 46
  let s := ((s.setMover d none).moveLines d m m.marked).movePages d m.src m.dst m.n
  let ctr := s.dget d 0x340000000038
  let s := if bit ctr 0 then (List.range (m.n / 0x10000)).foldl (fun s i => s.wrPhys d (fld ctr 45 12 * 4096 + 4 * (m.dst / 0x10000 + i)) 0 4) s else s
  let e := BitVec.ofNat 64 (s.rdPhys d m.leaf 8)
  let s := s.wrPhys d m.leaf (setFld e 45 12 (m.dst / 4096)).toNat 8
  (s.modDie d (fun x => x.invalidate 0 asid (fld va 45 0)), m.rounds * 2 ^ 4 + m.left * 2 ^ 32 + (Config.moveFreeze s.free).toNat % 313 * 2 ^ 48)
/-- The status word of a move that has ended or is refused (17 R365). -/
def State.moveAnswer (s : State) (o : Op) (st : Word) (v : Nat) : State := if st = 0 then s.finishOp o else s.opAnswer o st 8 v
/-- 17 R366: the next stage of the move of the oldest `mpage` of the die, before every block move asked for later (17 R365): its beginning or refusal, the rest
of a round, the freeze. -/
def execMpageComplete (op : Nat) (s : State) : Out :=
  .next (match s.op? op with
  | some o => match o.kind with
    | .mpage va dst asid st busy =>
      let d := fld va 49 46
      if s.ready o ∧ ((s.movesOf d).head?.map (fun x => x.id)) = some op ∧ ((s.die d).move.all (fun m => decide (op < m.seq))) then
        match (s.die d).mover with
        | none => match s.movePlan va dst asid with
          | none => s.moveAnswer o st 1
          | some (frame, dst, n, at_) => if busy then s.moveAnswer o st 2 else s.moveStart d frame dst n at_
        | some m =>
          if !m.ended then s.moveSome d m m.todo
          else
            let r := s.moveEnd m va asid
            r.1.moveAnswer o st r.2
      else s
    | _ => s
  | none => s)

/-- 17 R367: the line of physical address `addr` (die and die offset) becomes poisoned; a line newly poisoned is notified. -/
def execUncorrectableError (addr : Nat) (s : State) : Out :=
  .next (match s.homeKey (addr / 2 ^ 46 % 16) (addr % 2 ^ 46) with
  | some key => s.markNew key
  | none => s)
/-- A corrected error of a die changes no data and is counted (17 R353, R367). -/
def State.corrected (s : State) (d : Nat) : State :=
  if d < 8 then s.dmod d 0x340000000300 (fun w => w64 (min (fld w 31 0 + 1) 0xFFFFFFFF)) else s
/-- An uncorrectable error poisons an entry of a vertical FIFO (15 R320, 17 R367). -/
def State.poisonFifo (s : State) (d c : Nat) (up : Bool) (i : Nat) : State :=
  let f := s.fifo d c up
  match f.entries[i]? with
  | some (e, t) => if d < 2 ∧ c < 16 then s.setFifo d c up { f with entries := f.entries.set i ({ e with mark := true }, t) } else s
  | none => s
/-- 17 R363: the oldest held notification enters the ring once it has room. -/
def State.postHeld (s : State) (d : Nat) : State :=
  match (s.die d).held with
  | e :: r => if bit (s.dget d nqCtl) 48 ∧ 0 < nqFree (s.dget d nqCtl) then (s.nqPut d e).modDie d (fun x => { x with held := r }) else s
  | [] => s
def execHeldNotificationPost (die : Nat) (s : State) : Out := .next (s.postHeld die)

/-- Entries of a table page: its bytes at a die offset (17 R368). -/
def State.pageEntries (s : State) (d off : Nat) : List Nat := (List.range 512).map (fun i => s.rdPhys d (off + 8 * i) 8)
/-- Blocks that entries name, and pages they point to (17 R368). -/
def State.entryBlocks (s : State) (d : Nat) (es : List Nat) : List Nat :=
  es.filterMap (fun e => if e % 4 = 1 ∧ e / 4 % 2 ^ 11 < 64 * s.kvb d then some (e / 4 % 2 ^ 22) else none)
def State.entryPages (s : State) (d : Nat) (es : List Nat) : List Nat :=
  es.filterMap (fun e => let p := e / 2 ^ 12 % 2 ^ 34 * 4096; if e % 4 = 2 ∧ s.inDram d p 4096 then some p else none)
/-- The page of an offset is poisoned somewhere. -/
def State.pagePoisoned (s : State) (d off : Nat) : Bool :=
  (List.range 64).any (fun i => match s.homeKey d (off + 64 * i) with | some k => s.poisoned k | none => false)
/-- Name of a table page in the visited and gray sets. -/
def State.pageName (s : State) (d off : Nat) : Nat := ((s.homeKey d off).getD 0) / 4096
/-- A trace over table pages: names visited, blocks met, whether a poisoned page was met. -/
structure Trace where
  visited : List Nat
  blocks  : List Nat
  bad     : Bool
deriving DecidableEq, Repr
/-- Pages scanned from a frontier, each once, `n` rounds at most (17 R371). -/
def State.trace (s : State) (d : Nat) : Nat → List Nat → Trace → Trace
  | 0, _, t => t
  | n + 1, frontier, t =>
    let r := frontier.foldl (fun (x : List Nat × Trace) off =>
      let t := x.2
      if NSet.mem t.visited (s.pageName d off) then x
      else if s.pagePoisoned d off then (x.1, { t with visited := NSet.add t.visited (s.pageName d off), bad := true })
      else
        let es := s.pageEntries d off
        (x.1 ++ s.entryPages d es,
          { t with visited := NSet.add t.visited (s.pageName d off), blocks := (s.entryBlocks d es).foldl NSet.add t.blocks })) ([], t)
    if r.1 = [] then r.2 else s.trace d n r.1 r.2
/-- More rounds than any chain of table pages of a die has. -/
def traceFuel : Nat := 2 ^ 25
/-- Pages scanned, `n` rounds at most, with the marks and visited set of the cycle; a poisoned page ends it (17 R371). -/
def State.markPages (s : State) (d n : Nat) (pages : List Nat) : State :=
  if s.rcPhase d ≠ 1 then s else
  let t := s.trace d n pages { visited := (s.die d).visited, blocks := (s.die d).marks, bad := false }
  let s := s.modDie d (fun x => { x with visited := t.visited, marks := t.blocks })
  if t.bad then s.dmod d 0x340000000058 (fun w => setFld (setFld w 3 2 2) 1 0 0) else s
/-- PHASE of RCST takes a value (17 R353). -/
def State.setPhase (s : State) (d p : Nat) : State := s.dmod d 0x340000000058 (fun w => setFld w 1 0 p)
/-- The pages of the registered roots. -/
def Die.rootPages (x : Die) : List Nat := x.roots.map (fun p => p.1)
/-- A cycle starts (17 R371), if the reclaimer is idle: marks and visited bits are cleared, and the roots are to be scanned. -/
def State.cycleStart (s : State) (d : Nat) : State :=
  if d < 2 ∨ 8 ≤ d ∨ s.rcPhase d ≠ 0 then s
  else
    let s := s.dmod d 0x340000000058 (fun w => setFld (setFld (setFld w 3 2 0) 7 4 0) 1 0 1)
    s.modDie d (fun x => { x with marks := [], visited := [], gray := [], work := x.rootPages, swept := 0 })
/-- An overflow of the gray buffer (17 R372): a restart from the roots, at the fourth the end of the cycle. -/
def State.grayOver (s : State) (d : Nat) : State :=
  if s.rcPhase d ≠ 1 ∨ (s.die d).gray.length ≤ 4096 then s
  else
    let n := fld (s.dget d 0x340000000058) 7 4 + 1
    let s := s.dmod d 0x340000000058 (fun w => setFld w 7 4 n)
    let s := s.modDie d (fun x => { x with gray := [] })
    if 4 ≤ n then s.dmod d 0x340000000058 (fun w => setFld (setFld w 3 2 1) 1 0 0)
    else s.modDie d (fun x => { x with visited := [], work := x.rootPages })
def execGrayOverflow (die : Nat) (s : State) : Out := .next (s.grayOver die)
/-- Slots of a die below KVB × 64 in banks not retired, ascending by column, bank and slot. -/
def State.allSlots (s : State) (d : Nat) : List Nat :=
  (List.range 2048).flatMap (fun n =>
    if s.bankRetired d n then [] else (List.range (64 * s.kvb d)).map (fun i => i + n % 64 * 2 ^ 11 + n / 64 * 2 ^ 17))
/-- A slot returns to the end of its column's free list (17 R370, R371). -/
def Die.freeSlot (x : Die) (b : Nat) : Die := { x with freeL := Map.put x.freeL (b / 2 ^ 17) (Map.get [] x.freeL (b / 2 ^ 17) ++ [b]) }
/-- Slot `i` of a die in ascending order of column, bank and slot, below KVB × 64 (17 R371). -/
def State.slotAt (s : State) (d i : Nat) : Nat :=
  let n := i / (64 * s.kvb d)
  i % (64 * s.kvb d) + n % 64 * 2 ^ 11 + n / 64 * 2 ^ 17
def State.slotCount (s : State) (d : Nat) : Nat := 2048 * (64 * s.kvb d)
/-- One slot swept (17 R371): of a live or retiring bank, neither marked nor free. -/
def State.sweepSlot (s : State) (d i : Nat) : State :=
  let b := s.slotAt d i
  if s.bankRetired d (bwNum (BitVec.ofNat 22 b)) ∨ NSet.mem (s.die d).marks b ∨ (Map.get [] (s.die d).freeL (b / 2 ^ 17)).contains b then s
  else (s.wrKey 0 (headerKey d (BitVec.ofNat 22 b) + 8) 0 1).modDie d (fun x => x.freeSlot b)
/-- The offset of a visited page: its pages are named by home key, in the interleaved region by lane. -/
def State.namedPage (s : State) (d name : Nat) : Nat := if d < 2 then name * 4096 % 2 ^ 46 else s.lineOff (name * 4096)
/-- A page of the gray buffer is to be scanned again (17 R371, R372). -/
def Die.ungray (x : Die) (g off : Nat) : Die :=
  { x with gray := x.gray.filter (fun y => y != g), visited := x.visited.filter (fun y => y != g), work := x.work ++ [off] }
/-- The next piece of a cycle (17 R371): a page is scanned, a page of the gray buffer put among those to be scanned, a slot swept; or a phase ends. -/
def State.reclaim (s : State) (d : Nat) : State :=
  if s.rcPhase d = 1 then
    if 4096 < (s.die d).gray.length then s.grayOver d
    else match (s.die d).work with
      | p :: r =>
        let new := if NSet.mem (s.die d).visited (s.pageName d p) || s.pagePoisoned d p then [] else s.entryPages d (s.pageEntries d p)
        (s.modDie d (fun x => { x with work := r ++ new })).markPages d 1 [p]
      | [] => match (s.die d).gray with
        | g :: _ => let off := s.namedPage d g; s.modDie d (fun x => x.ungray g off)
        | [] => (s.modDie d (fun x => { x with swept := 0 })).setPhase d 2
  else if s.rcPhase d = 2 then
    let i := (s.die d).swept
    if i < s.slotCount d then (s.sweepSlot d i).modDie d (fun x => { x with swept := i + 1 })
    else s.dmod d 0x340000000058 (fun w => setFld (setFld w 1 0 0) 63 32 (fld w 63 32 + 1))
  else s
/-- The rest of a phase of a cycle (17 R371): what is still to be scanned, then the gray buffer, and the sweep begins; or the rest of the sweep. -/
def State.cycleEnd (s : State) (d : Nat) : State :=
  if s.rcPhase d = 1 then
    if 4096 < (s.die d).gray.length then s.grayOver d
    else
      let rest (s : State) : State := (s.modDie d (fun x => { x with work := [] })).markPages d traceFuel (s.die d).work
      let s := rest s
      let s := rest ((s.die d).gray.foldl (fun s g => let off := s.namedPage d g; s.modDie d (fun x => x.ungray g off)) s)
      if s.rcPhase d ≠ 1 then s else (s.modDie d (fun x => { x with swept := 0 })).setPhase d 2
  else if s.rcPhase d = 2 then
    let i := (s.die d).swept
    let s := (List.range (s.slotCount d - i)).foldl (fun s j => s.sweepSlot d (i + j)) s
    (s.modDie d (fun x => { x with swept := s.slotCount d })).dmod d 0x340000000058 (fun w => setFld (setFld w 1 0 0) 63 32 (fld w 63 32 + 1))
  else s
def execReclaimCycleEnd (die : Nat) (s : State) : Out := .next (s.cycleEnd die)
/-- A write of RCCTL (17 R353, R371): AUTO, PERIOD, and GO. -/
def State.rcctl (s : State) (d : Nat) (v : Word) : State :=
  if d < 2 ∨ 8 ≤ d then s
  else
    let s := s.dput d 0x340000000050 (w64 (b2n (bit v 1) * 2 + fld v 31 16 * 2 ^ 16))
    let s := if bit v 1 then s.modDie d (fun x => { x with period := s.ftime }) else s
    if bit v 0 then s.cycleStart d else s
def execRcctlGo (die : Nat) (v : Word) (s : State) : Out := .next (s.rcctl die v)
/-- 17 R371: the AUTO period has passed since the last. -/
def execReclaimPeriod (die : Nat) (s : State) : Out :=
  let c := s.dget die 0x340000000050
  .next (if bit c 1 ∧ 2 ≤ die ∧ die < 8 ∧ (s.die die).period + 11000000 * fld c 31 16 ≤ s.ftime then
    (s.modDie die (fun x => { x with period := s.ftime })).cycleStart die
  else s)

/-- Blocks are popped from a column's list (17 R370): slots of banks that are not live are discarded; a pop while a cycle runs sets the mark. -/
def State.popSlot (s : State) (d col : Nat) : State × Option Nat :=
  let l := (Map.get [] (s.die d).freeL col).dropWhile (fun b => !s.bankLive d (bwNum (BitVec.ofNat 22 b)))
  match l with
  | [] => (s.modDie d (fun x => { x with freeL := Map.put x.freeL col [] }), none)
  | b :: r =>
    let run := s.rcPhase d != 0
    (s.modDie d (fun x => { x with freeL := Map.put x.freeL col r, marks := if run then NSet.add x.marks b else x.marks }), some b)
/-- A read of FLPOP (17 R370): state after it, value. -/
def State.flpop (s : State) (d col : Nat) : State × Word :=
  if d < 2 ∨ 8 ≤ d ∨ 32 ≤ col then (s, 0)
  else match s.popSlot d col with | (s, some b) => (s, w64 b) | (s, none) => (s, 0xFFFFFFFF)
def execFlpopRead (die col : Nat) (s : State) : Out := .next (s.flpop die col).1
/-- A write of KVBOUND (16 R351, 17 R370): the first after reset fixes KVB and fills the free lists. -/
def State.kvbound (s : State) (d : Nat) (v : Word) : State :=
  if d < 2 ∨ 8 ≤ d ∨ (s.die d).kvset then s
  else
    let s := s.dput d 0x330000000000 (w64 (fld v 4 0))
    let slots := (s.allSlots d).filter (fun b => s.bankLive d (bwNum (BitVec.ofNat 22 b)))
    s.modDie d (fun x => { x with kvset := true, freeL := (List.range 32).map (fun c => (c, slots.filter (fun b => b / 2 ^ 17 == c))) })
def execKvboundWrite (die : Nat) (v : Word) (s : State) : Out := .next (s.kvbound die v)

/-- 17 R369: the root named by B, checked. -/
def rootOf (b : Word) : Except Stop (Nat × Nat) :=
  if fld b 63 50 ≠ 0 ∨ fld b 49 46 < 2 ∨ 8 ≤ fld b 49 46 then .error (trapOf .noRoute b)
  else if b.toNat % 4096 ≠ 0 then .error (trapOf .alignment b)
  else .ok (fld b 49 46, fld b 45 0)
/-- A root registered with the collector of a die, which scans it too while it marks (17 R369, R371). -/
def State.addRoot (s : State) (d page : Nat) (id : Word) : State :=
  let mark := s.rcPhase d == 1
  s.modDie d (fun y => { y with roots := y.roots ++ [(page, id)], work := if mark then y.work ++ [page] else y.work })
/-- 17 R369: registration; the strand's stores are published first. -/
def execKvrootAdd (h : Head) (w : W6) (s : State) : Out :=
  word (.kvrootAdd h w) h s (fun s => do
    let b ← s.rd w.b 1
    let c ← s.rd w.c 2
    let r ← rootOf b
    let p ← s.publish s.cur.ck
    .ok (r, c, p))
    (fun x _ =>
      let s := x.2.2.enter
      let d := x.1.1
      let rs := (s.die d).roots
      if rs.any (fun p => p.1 == x.1.2) ∨ 65536 ≤ rs.length then s.resultP h w.a false
      else
        (s.addRoot d x.1.2 x.2.1).resultP h w.a true)
def execKvrootDel (h : Head) (w : W6) (s : State) : Out :=
  word (.kvrootDel h w) h s (fun s => do
    let b ← s.rd w.b 1
    let r ← rootOf b
    let p ← s.publish s.cur.ck
    .ok (r, p))
    (fun x _ =>
      let s := x.2.enter
      let d := x.1.1
      if (s.die d).roots.any (fun p => p.1 == x.1.2) then
        (s.modDie d (fun y => { y with roots := y.roots.filter (fun p => p.1 != x.1.2) })).resultP h w.a true
      else s.resultP h w.a false)

/-- Roots whose tree holds block word `b` (17 R373), and whether a poisoned page was skipped. -/
def State.referrers (s : State) (d b : Nat) : List (Nat × Word) × Bool :=
  let rs := (s.die d).roots.map (fun p => (p, s.trace d traceFuel [p.1] { visited := [], blocks := [], bad := false }))
  ((rs.filter (fun x => x.2.blocks.contains b)).map (fun x => x.1), rs.any (fun x => x.2.bad))
/-- 17 R373: the oldest scan that poison started. -/
def execReferrerScan (die : Nat) (s : State) : Out :=
  .next (match (s.die die).scanQ with
  | [] => s
  | b :: r =>
    let rs := (s.referrers die b.toNat).1
    let s := s.modDie die (fun x => { x with scanQ := r })
    let s := rs.foldl (fun s p => (s.notify die 4 b.toNat p.2.toNat p.1).1) s
    (s.notify die 5 b.toNat rs.length 0).1)
/-- 17 R373. -/
def execKvfind (h : Head) (w : W6) (s : State) : Out :=
  word (.kvfind h w) h s (fun s => do
    let a ← s.rd w.a 0
    let b ← s.rd w.b 1
    let c ← s.rd w.c 2
    if fld a 63 26 ≠ 0 ∨ fld a 25 22 < 2 ∨ 8 ≤ fld a 25 22 then .error (trapOf .noRoute a) else .ok ()
    if b.toNat % 64 ≠ 0 then .error (trapOf .alignment b) else .ok ()
    s.check b
    if 64 ≤ s.scansBusy (fld a 25 22) then .error .wait else .ok (a, b, c))
    (fun p s => (s.sent p.2.1).issueOp w (.kvfind (p.1.setWidth 22) (fld p.1 25 22) p.2.1 (fld p.2.2 19 0)))
def execKvfindComplete (op : Nat) (s : State) : Out :=
  .next (match s.op? op with
  | some o => match o.kind with
    | .kvfind b d res cap =>
      if s.ready o then
        let r := s.referrers d b.toNat
        let ids := (r.1.take cap).map (fun p => p.2.toNat)
        s.opAnswer o res (16 + 8 * ids.length)
          (r.1.length + b2n (decide (cap < r.1.length)) * 2 ^ 64 + b2n r.2 * 2 ^ 65 + packLE 64 ids * 2 ^ 128)
      else s
    | _ => s
  | none => s)

/-- 16 R336: a refresh splits items at a token boundary; items are performed whole here, so nothing else changes (log 5). -/
def execBankRefresh (_die _bank : Nat) (s : State) : Out := .next s
def dDie (d n : Nat) : Bool := decide (2 ≤ d) && decide (d < 8) && decide (n < 2048)
/-- 16 R348. -/
def execBankRetiring (die bank : Nat) (s : State) : Out :=
  .next (if dDie die bank && s.bankLive die bank then
    ((s.setBankst die bank (setFld (s.bankst die bank) 1 0 1)).notify die 6 bank 0 0).1
  else s)
def execForcedRetirement (die bank : Nat) (s : State) : Out :=
  .next (if dDie die bank then (s.setBankst die bank (setBit (setFld (s.bankst die bank) 1 0 2) 2 true)).health id else s)

/-- BCMD (16 R351). -/
def State.bcmd (s : State) (d : Nat) : Word := s.dget d 0x330000000008
def State.bcmdSt (s : State) (d st : Nat) : State := s.dput d 0x330000000008 (setFld (s.bcmd d) 14 13 st)
/-- Some slot of a bank holds tokens not moved away. -/
def State.bankInUse (s : State) (d n : Nat) : Bool :=
  (List.range (64 * s.kvb d)).any (fun i =>
    let h := s.header d (BitVec.ofNat 22 (i + n % 64 * 2 ^ 11 + n / 64 * 2 ^ 17))
    decide (0 < h / 2 ^ 64 % 128) && !hdMoved h)
/-- BCMD with OP 1: refused or done at once. -/
def State.retireCmd (s : State) (d n : Nat) : State :=
  let s := s.dput d 0x330000000008 (w64 (1 + n % 2048 * 4))
  if fld (s.bankst d (n % 2048)) 1 0 ≠ 1 ∨ s.bankInUse d (n % 2048) then s.bcmdSt d 2
  else ((s.setBankst d (n % 2048) (setFld (s.bankst d (n % 2048)) 1 0 2)).bcmdSt d 3).health id
/-- CAP once every retired bank has left LTAB (16 R349). -/
def State.newLtab (s : State) (d : Nat) : List Nat := (s.die d).ltab.filter (fun n => !s.bankRetired d n)
def State.newCap (s : State) (d : Nat) : Nat := (s.newLtab d).length * (0x1FE0000 - s.kvb d * 2 ^ 20)
/-- Some translation of the die names an interleaved frame at or beyond the new CAP. -/
def State.capNamed (s : State) (d : Nat) : Bool :=
  let beyond (f n : Nat) : Bool := decide (f < 0x100000000000) && decide (s.newCap d < f + n)
  (s.die d).tlb.any (fun t => beyond t.frame t.size) ||
  (List.range 65536).any (fun a => match s.asidRoot d a with | some r => (s.leaves d 4 r).any (fun l => beyond l.1 l.2) | none => false)
/-- BCMD with OP 2: refused, or the remapping step starts. BANK takes what is written (16 R351). -/
def State.remapCmd (s : State) (d n : Nat) : State :=
  let s := s.dput d 0x330000000008 (w64 (2 + n % 2048 * 4))
  if s.capNamed d then s.bcmdSt d 2 else (s.bcmdSt d 1).modDie d (fun x => { x with remap := true })
/-- A write of BCMD; while a remapping step runs it has no effect (log 33). -/
def State.bcmdWrite (s : State) (d : Nat) (v : Word) : State :=
  if d < 2 ∨ 8 ≤ d ∨ (s.die d).remap then s
  else match fld v 1 0 with
    | 1 => s.retireCmd d (fld v 12 2)
    | 2 => s.remapCmd d (fld v 12 2)
    | _ => s.dput d 0x330000000008 (w64 (fld v 12 0 + fld (s.bcmd d) 14 13 * 2 ^ 13))
def execBcmdRetire (die bank : Nat) (s : State) : Out := .next (s.bcmdWrite die (w64 (1 + bank % 2048 * 4)))
def execBcmdRemap (die : Nat) (s : State) : Out := .next (s.bcmdWrite die 2)
/-- The interleaved offset of a home key under a lane table, if it has one. -/
def State.interOff (s : State) (d key : Nat) : Option Nat :=
  match keyBank? key with
  | some (n, o) =>
    let lt := (s.die d).ltab
    let lane := lt.findIdx (fun x => x == n)
    if keyDie key = d ∧ s.interleavedPart d o ∧ lane < lt.length then
      let r := o - s.kvb d * 2 ^ 20
      some ((r / 4096 * lt.length + lane) * 4096 + r % 4096)
    else none
  | none => none
/-- 16 R349: every byte below the new CAP holds its value under the map of the remaining banks; those above are gone. -/
def State.relay (s : State) (d : Nat) : State :=
  let x := { s.die d with ltab := s.newLtab d, epoch := (s.die d).epoch + 1, remap := false }
  let t := s.setDie d x
  let cap := t.cap d
  let keyTo (key : Nat) : Option Nat := match s.interOff d key with
    | some off => if off < cap then t.homeKey d off else none
    | none => none
  let lost := ((s.die d).ltab.filter (fun n => bit (s.bankst d n) 2 && s.bankRetired d n)).flatMap (fun n =>
    (List.range ((0x1FE0000 - s.kvb d * 2 ^ 20) / 64)).map (fun i => (d * 2 ^ 46 + bankDirect n (s.kvb d * 2 ^ 20 + 64 * i)) / 64))
  let line (l : Nat) : Option Nat := (keyTo (64 * l)).map (fun k => k / 64)
  let inter (key : Nat) : Bool := (s.interOff d key).isSome
  { t with
    mem := (s.mem.filter (fun p => inter p.1)).foldl (fun m p => match keyTo p.1 with | some k => Mem.write m k p.2 | none => m)
      (s.mem.filter (fun p => !inter p.1)),
    poison := ((s.poison.filter (fun l => inter (64 * l))) ++ lost).foldl (fun q l => match line l with | some k => NSet.add q k | none => q)
      (s.poison.filter (fun l => !inter (64 * l))),
    tags := (s.tags.filter (fun p => inter (64 * p.1))).foldl (fun m p => match line p.1 with | some k => Map.put m k p.2 | none => m)
      (s.tags.filter (fun p => !inter (64 * p.1))),
    dies := Map.put t.dies d { x with
      visited := x.visited.map (fun p => ((keyTo (4096 * p)).getD (4096 * p)) / 4096),
      gray := x.gray.map (fun p => ((keyTo (4096 * p)).getD (4096 * p)) / 4096) } }
def execRemapComplete (die : Nat) (s : State) : Out :=
  .next (if (s.die die).remap then (s.relay die).bcmdSt die 3 else s)

/-- BMCTL written (16 R350, R351): THR, and GO, which starts a move unless one runs; a block beyond the KV bound fails it (log 34). -/
def State.bmctl (s : State) (d : Nat) (v : Word) : State :=
  if d < 2 ∨ 8 ≤ d then s
  else
    let c := s.dget d 0x330000000020
    let s := s.dput d 0x330000000020 (setFld c 3 1 (fld v 3 1))
    if !bit v 0 || (s.die d).move.isSome then s
    else
      let src := (s.dget d 0x330000000010).setWidth 22
      let dst := (s.dget d 0x330000000018).setWidth 22
      let bad := decide (64 * s.kvb d ≤ bwSlot src) || decide (64 * s.kvb d ≤ bwSlot dst)
      let s := s.dmod d 0x330000000020 (fun w => setFld w 5 4 (if bad then 3 else 1))
      if bad then s else s.modDie d (fun x => { x with move := some { src, dst, seq := s.nextId } })
def execBmctlGo (die : Nat) (v : Word) (s : State) : Out := .next (s.bmctl die v)
/-- Some copy that is outstanding may write into the block (16 R350): its destination range meets it, or stands in a list or index. -/
def State.copyInto (s : State) (d : Nat) (b : BitVec 22) : Bool :=
  s.handoffs.any (fun h => h.begun && h.tdie == d && h.slots.contains b) ||
  s.ops.any (fun o => match o.kind with
    | .copy c =>
      match c.kind with
      | .clist => true
      | .cscat => !cpTD c.fn
      | _ => !cpTD c.fn &&
        (List.range (c.moved / 0x10000 + 2)).any (fun i =>
          let lo := max c.a.toNat ((c.a.toNat / 0x10000 + i) * 0x10000)
          let hi := min (c.a.toNat + c.moved) ((c.a.toNat / 0x10000 + i + 1) * 0x10000)
          decide (lo < hi) && (match s.place o.asid o.part lo true with
            | .ok (.mem _ _ key) => decide (key < blockKey d b 0 + 0x4000) && decide (blockKey d b 0 < key + (hi - lo))
            | _ => false))
    | _ => false)
/-- The freeze of a block move (16 R350): the last lines and the header copied, poison with them, and MOVED set in the source. -/
def State.moveBlock (s : State) (d : Nat) (b : BlockMove) (m : Mover) : State :=
  let s := (s.setMover d none).moveLines d m m.marked
  let bad := s.poisoned (headerKey d b.src)
  let s := s.wrKey 0 (headerKey d b.dst) (s.header d b.src) 64
  let s := if bad then s.mark (headerKey d b.dst) else s
  let s := s.wrKey 0 (headerKey d b.src + 8) (s.header d b.src / 2 ^ 64 % 256 ||| 0x80) 1
  (s.modDie d (fun x => { x with move := none })).dmod d 0x330000000020 (fun w => setFld w 5 4 2)
/-- The next stage of a block move (16 R350): its beginning, the rest of a round, and, once no copy into the source is outstanding, the freeze. Moves are
performed in arrival order (17 R365). -/
def execBlockMoveDone (die : Nat) (s : State) : Out :=
  .next (match (s.die die).move with
  | some b =>
    if (s.movesOf die).any (fun o => decide (o.id < b.seq)) then s
    else match (s.die die).mover with
      | none => s.moveStart die (blockKey die b.src 0 % 2 ^ 46) (blockKey die b.dst 0 % 2 ^ 46) 0x4000 0
      | some m =>
        if !m.ended then s.moveSome die m m.todo
        else if s.copyInto die b.src then s
        else s.moveBlock die b m
  | none => s)

end Sys2Proof.Machine
end

