-- ==== Sys2Proof/Machine/Hub.lean ====
section
/-! DEFINITION. The hub: the launch unit (12 R263, R274, R275), Columbine's requests (20 R392 to R398, R405 to R413, 21 R419, R420) and
Hollyhock's hand-offs (20 R399 to R404, R408, 22 R430). -/

namespace Sys2Proof.Machine

/-- RQBASE and the place of a request record (20 R392). -/
def rqOff (o : Nat) : Nat := 0x390000000000 + o
def State.rqEn (s : State) : Bool := bit (s.dget 8 (rqOff 0)) 0
def State.rqDie (s : State) : Nat := fld (s.dget 8 (rqOff 0)) 49 46
def State.rqAt (s : State) (q : Nat) : Nat := fld (s.dget 8 (rqOff 0)) 45 25 * 2 ^ 25 + 128 * q
/-- The request record of an id (20 R393), and its two lines written in one step (20 R395). -/
def State.rq (s : State) (q : Nat) : BitVec 1024 := BitVec.ofNat 1024 (s.rdPhys s.rqDie (s.rqAt q) 128)
def State.setRq (s : State) (q : Nat) (r : BitVec 1024) : State :=
  (s.wrPhys s.rqDie (s.rqAt q) (fld r 511 0) 64).wrPhys s.rqDie (s.rqAt q + 64) (fld r 1023 512) 64
def rqState (r : BitVec 1024) : Nat := fld r 2 0
def rqOwner (r : BitVec 1024) : Nat := fld r 6 3
def rqCreq (r : BitVec 1024) : Bool := bit r 7
def rqMoved (r : BitVec 1024) : Nat := fld r 47 32
def rqLnum (r : BitVec 1024) : Nat := fld r 55 48
def rqPart (r : BitVec 1024) : Nat := fld r 67 64
def rqRoot (r : BitVec 1024) : Nat := fld r 191 128
def rqNroot (r : BitVec 1024) : Nat := fld r 255 192
/-- A final completion entry of the id is still held (20 R394). -/
def State.finalHeld (s : State) (q : Nat) : Bool := s.cqHeld.any (fun p => fld p.2 7 0 == 3 && fld p.2 25 8 == q)
/-- The request is live (20 R394). -/
def State.rqLive (s : State) (q : Nat) : Bool :=
  s.rqEn && (decide (1 ≤ rqState (s.rq q)) && decide (rqState (s.rq q) ≤ 4) || (decide (5 ≤ rqState (s.rq q)) && s.finalHeld q))
/-- Registers of a partition (20 R392). -/
def partOff (p o : Nat) : Nat := rqOff (0x100 + 0x40 * p + o)
def ringSize (w : Word) : Nat := if fld w 15 0 = 0 then 65536 else fld w 15 0

/-- The completion ring has room and is enabled, its port too. -/
def State.cqRoom (s : State) (p : Nat) : Bool :=
  let w := s.dget 8 (partOff p 0x18)
  s.portsOn && bit w 48 && (fld w 47 32 + 1) % ringSize w != fld w 31 16
/-- A completion entry written complete at S, then TAIL advanced and signalled (20 R397, 21 R415, R420). -/
def State.cqWrite (s : State) (p : Nat) (e : BitVec 256) : State :=
  let w := s.dget 8 (partOff p 0x18)
  let s := s.wrHost (s.portOf p * 2 ^ 64 + fld (s.dget 8 (partOff p 0x10)) 63 12 * 4096 + 32 * fld w 47 32) e.toNat 32
  (s.dput 8 (partOff p 0x18) (setFld w 47 32 ((fld w 47 32 + 1) % ringSize w))).signal (s.functionsOf p) 0
/-- Entries of the partition are written in event order; one that finds the ring full is held (21 R420). -/
def State.cqPost (s : State) (p : Nat) (e : BitVec 256) : State :=
  if s.cqRoom p && s.cqHeld.all (fun x => x.1 != p) then s.cqWrite p e else { s with cqHeld := s.cqHeld ++ [(p, e)] }
/-- 21 R420: the oldest held entry of a partition is written once there is room. -/
def execCompletionEntryWrite (part : Nat) (s : State) : Out :=
  .next (match s.cqHeld.findIdx? (fun x => x.1 == part) with
  | some i =>
    match s.cqHeld[i]? with
    | some x => if s.cqRoom part then ({ s with cqHeld := s.cqHeld.eraseIdx i } : State).cqWrite part x.2 else s
    | none => s
  | none => s)
/-- A completion entry (20 R397). -/
def cqEntry (kind q moved cause st : Nat) (htag result froot : Nat) : BitVec 256 :=
  BitVec.ofNat 256 (kind + q % 2 ^ 18 * 2 ^ 8 + moved * 2 ^ 32 + cause * 2 ^ 48 + st * 2 ^ 56 + htag * 2 ^ 64 + result * 2 ^ 128 + froot * 2 ^ 192)

/-- The root of a request leaves its die's reclaimer (17 R369, 20 R398). -/
def State.unroot (s : State) (a : Nat) : State :=
  if a = 0 then s else s.modDie (a / 2 ^ 46 % 16) (fun x => { x with roots := x.roots.filter (fun p => p.1 != a % 2 ^ 46) })
/-- A hand-off that ends without its commit leaves its root page naming the pages it took (22 R430). -/
def State.dropHandoff (s : State) (q : Nat) : State :=
  let s := s.handoffs.foldl (fun s h =>
    if h.rq = q then
      let leaf := h.pages.drop 1
      (List.range 512).foldl (fun s i => s.wrPhys h.tdie (h.pages.headD 0 + 8 * i) (match leaf[i]? with | some p => p + 2 | none => 0) 8) s
    else s) s
  { s with handoffs := s.handoffs.filter (fun h => h.rq != q) }
/-- A launch of the request that is still unbound is withdrawn. -/
def State.withdraw (s : State) (q : Nat) : State :=
  { s with queues := s.queues.filter (fun r => match r.rq with | some x => x.1 != q | none => true),
           toLaunch := s.toLaunch.filter (fun x => x.1 != q) }
/-- A final state (20 R398): the record, with OWNER and CREQ as they were (22 R431), and the completion entry. -/
def State.finalRq (s : State) (q st cause result : Nat) (unreg : Bool) : State :=
  let r := s.rq q
  let hand := s.handoffs.any (fun h => h.rq == q)
  let froot := if hand then rqNroot r else rqRoot r
  let s := s.dropHandoff q
  let s := if unreg then s.unroot (rqRoot r) else s
  let s := s.setRq q (setFld (setFld r 2 0 st) 15 8 cause)
  let s := { s with creqBy := Map.del s.creqBy q, toLaunch := s.toLaunch.filter (fun x => x.1 != q) }
  s.cqPost (rqPart r) (cqEntry 3 q (rqMoved r) cause st (fld r 383 320) (if st = 5 then result else 0) froot)
/-- A pending cancellation takes effect: the request is CANCELLED with the cause that set CREQ (20 R398). -/
def State.cancelRq (s : State) (q : Nat) : State := s.finalRq q 6 (Map.get 1 s.creqBy q) 0 true

/-- The kernel of a launch of a request's partition: prefill or decode (20 R396). -/
def State.rqKid (s : State) (p : Nat) (decode : Bool) : Nat := fld (s.dget 8 (partOff p 0x20)) (if decode then 25 else 9) (if decode then 16 else 0)
/-- The launch record of a request in QUEUED or DECODE (20 R396), with s4 of the hand-off. -/
def State.rqLaunch (s : State) (q : Nat) (darg : Word) : QRec :=
  let r := s.rq q
  let dec := decide (rqState r = 4)
  let k := s.rqKid (rqPart r) dec
  let any := !dec && decide (fld r 73 70 = 15)
  let args := if dec then [q, rqRoot r, fld r 31 16, darg.toNat, 0] else [q, fld r 511 448, fld r 575 512, fld r 639 576, rqRoot r]
  { data := BitVec.ofNat 512 (k + fld r 69 68 * 2 ^ 19 + (if any then 0 else 2 ^ 21 + (if dec then rqOwner r else fld r 73 70) * 2 ^ 23) +
      q * 2 ^ 128 + rqLnum r * 2 ^ 146 + packLE 64 args * 2 ^ 192),
    asid := s.kernelAsid k, part := BitVec.ofNat 4 (rqPart r), rq := some (q, rqLnum r), tag := s.nextId + 1 }
/-- The kernel of the launch is valid, of the partition and of the profile (20 R396). -/
def State.kernelFits (s : State) (r : BitVec 1024) : Bool :=
  let dec := decide (rqState r = 4)
  let k := s.rqKid (rqPart r) dec
  s.kernelValid k && decide ((s.kernelPart k).toNat = rqPart r) && s.kernelProf k == (if dec then .d else .p)
/-- Columbine launches a request (20 R396, R397): with no valid kernel it fails; with no room in stage 0 the launch, as it is, waits. -/
def State.columbineLaunch (s : State) (q : Nat) (darg : Word) : State :=
  let r := s.rq q
  if !s.kernelFits r then s.finalRq q 7 0x14 0 true
  else
    let x := s.rqLaunch q darg
    let s : State := { s with nextId := s.nextId + 1, rqTag := Map.put s.rqTag q x.tag }
    if s.occ x.kid 0 < s.stageDepth x.kid 0 then { s with queues := s.queues ++ [x] } else { s with toLaunch := s.toLaunch ++ [(q, x)] }
/-- Launches that waited for room are made as it comes. -/
def State.drainLaunches (s : State) : State :=
  s.toLaunch.foldl (fun s p =>
    if s.occ p.2.kid 0 < s.stageDepth p.2.kid 0 then { s with queues := s.queues ++ [p.2], toLaunch := s.toLaunch.filter (fun x => x != p) } else s) s

/-- POOL entry of a context (12 R263). -/
def poolOff (ck : Nat) : Nat := 0x380100000000 + 8 * (ckDie ck * 256 + ckCore ck * 8 + ckCtx ck)
def State.pool (s : State) (ck : Nat) : Word := s.dget 8 (poolOff ck)
/-- The context is free for the launch unit (12 R274, R279, 15 R322): in its kernel's pool, not VALID, its crown core on, no tile task on its
pair, its die and the package in service. -/
def State.freeForLaunch (s : State) (ck : Nat) : Bool :=
  let d := ckDie ck
  let c := ckCore ck
  (profileOf d c).isSome && bit (s.pool ck) 16 && !ctxValid (s.ctx ck) && !s.dieDown d && !s.failed &&
  (d ≥ 2 || c < 16 || s.gate d (c - 16) == 0) &&
  (d < 2 || s.running.all (fun p => p.1 != coreKey d c || p.2.ctx != ckCtx ck))
/-- The context may take the record (12 R272). -/
def QRec.mayTake (r : QRec) (ck : Nat) : Bool :=
  match r.place with
  | 1 => r.pdie == ckDie ck
  | 2 => r.pdie == ckDie ck && r.pcl == ckCore ck / 4
  | _ => true
/-- Position in the queues of the record that a free context takes (12 R274). -/
def State.bindChoice (s : State) (ck : Nat) : Option Nat :=
  let k := fld (s.pool ck) 9 0
  let nstg := s.kernelNstg k
  let mine (g : Nat) (r : QRec) : Bool := r.kid == k && r.stage == g && r.mayTake ck
  let stages := (List.range (nstg + 1)).filter (fun g =>
    s.queues.any (mine g) && (g == nstg || decide (s.occ k (g + 1) < s.stageDepth k (g + 1))))
  let best := stages.foldl (fun b g => match b with
    | none => some g
    | some x => if s.occ k x < s.occ k g then some g else some x) (none : Option Nat)
  match best with
  | none => none
  | some g =>
    (List.range s.queues.length).foldl (fun b i =>
      match s.queues[i]? with
      | some r => if mine g r then (match b.bind (fun j => s.queues[j]?) with
          | some x => if x.prio < r.prio then some i else b
          | none => some i) else b
      | none => b) none
/-- The strand of a launched record (12 R275, 01 R18, 03 R76). -/
def State.launched (s : State) (ck : Nat) (r : QRec) : Strand :=
  let k := r.kid
  let img := (s.ktabImage k).toNat
  let toff := s.imageBytes k 8 8
  let entry := img + toff + 4 * s.stageEntry k r.stage
  let po := s.pool ck
  let mx := fld po 20 19
  let id := r.stage + ckCtx ck * 2 ^ 8 + ckCore ck * 2 ^ 16 + ckDie ck * 2 ^ 24
  { Strand.init with
    sid := s.nextId,
    s := [(1, r.arg 0), (2, r.arg 1), (3, r.arg 2), (4, r.arg 3), (5, r.arg 4), (6, r.bar), (7, w64 id)],
    a := [(1, w64 (img + s.imageBytes k 24 8))],
    es := (enginesOf (ckProfile ck)).map (fun e => (e.num, { EStream.init (BitVec.ofNat 48 entry) with acted := some s.time })),
    prioc := BitVec.ofNat 6 (min r.prio mx + 4 * mx), rsbase := w64 (fld po 32 21 * 2 ^ 11), bar := r.bar, rq := r.rq, rqTag := r.tag,
    text := some (img + toff, s.imageBytes k 16 8), bindAt := s.time, bindFt := s.fabricTime }
/-- 20 R398: the prefill record of a request in QUEUED has been bound on a die: its latest launch, no record of an earlier one. -/
def State.prefillBound (s : State) (q d : Nat) : State :=
  let r := s.rq q
  if rqState r = 1 then s.setRq q (setFld (setFld r 2 0 2) 6 3 d) else s
def execPrefillBound (rq die : Nat) (s : State) : Out :=
  .next (if s.rqEn && s.strands.any (fun p => ckDie p.1 == die && p.2.rqTag != 0 && p.2.rqTag == Map.get 0 s.rqTag rq) then s.prefillBound rq die else s)
/-- 12 R274, R275: the launch unit binds the record a free context takes; contexts of one kernel are served in ascending order. -/
def execLaunchBind (ck : Nat) (s : State) : Out :=
  .next (
    let able (c : Nat) : Bool := s.freeForLaunch c && (s.bindChoice c).isSome
    let before := (List.range ck).filter (fun c => (profileOf (ckDie c) (ckCore c)).isSome && fld (s.pool c) 9 0 == fld (s.pool ck) 9 0)
    if !able ck || before.any able then s
    else match (s.bindChoice ck).bind (fun i => (s.queues[i]?).map (fun r => (i, r))) with
      | none => s
      | some (i, r) =>
        let k := r.kid
        let st := s.launched ck r
        let v := 1 + fld (s.pool ck) 18 17 * 4 + (s.kernelAsid k).toNat * 2 ^ 8 + (s.kernelPart k).toNat * 2 ^ 24
        let s : State := { s with queues := s.queues.eraseIdx i, nextId := s.nextId + 1 }
        let s := (s.setCtx ck (w64 v)).setStrand ck st
        let s := match r.rq with | some (q, _) => if r.tag = Map.get 0 s.rqTag q then s.prefillBound q (ckDie ck) else s | none => s
        s.drainLaunches)

/-- The partition that owns an id (20 R392): the lowest whose range holds it. -/
def State.idPart (s : State) (q : Nat) : Option Nat :=
  (List.range 16).find? (fun p =>
    let w := s.dget 8 (partOff p 0x28)
    decide (fld w 17 0 ≤ q) && decide (q < fld w 17 0 + fld w 41 24))
/-- A cancellation (20 R398, R407): at once in QUEUED and for a hand-off that has not started, otherwise CREQ. -/
def State.cancelEvent (s : State) (q cause : Nat) (early : State → Nat → State) : State :=
  let r := s.rq q
  match rqState r with
  | 1 => (early (s.withdraw q) 6).finalRq q 6 cause 0 true
  | 0 => early s 0
  | 5 => early s 5
  | 6 => early s 6
  | 7 => early s 7
  | st =>
    let waiting := s.handoffs.any (fun h => h.rq == q && !h.begun)
    if st = 3 ∧ waiting then
      (early ({ (s.setRq q (setBit r 7 true)) with creqBy := if rqCreq r then s.creqBy else Map.put s.creqBy q cause }) 6).cancelRq q
    else
      let s : State := { (s.setRq q (setBit r 7 true)) with
        creqBy := if rqCreq r then s.creqBy else Map.put s.creqBy q cause,
        handoffs := s.handoffs.map (fun h => if h.rq = q ∧ h.stopAt.isNone then { h with stopAt := some (min (h.moved + 1) (fld r 31 16)) } else h) }
      early s st
/-- The entry at the head of a partition's submission ring, if Columbine may take it (20 R397, 21 R420, R424). -/
def State.sqEntry (s : State) (p : Nat) : Option (BitVec 512) :=
  let w := s.dget 8 (partOff p 0x08)
  if decide (p < 16) && s.rqEn && bit w 48 && fld w 31 16 != fld w 47 32 && s.cqRoom p && s.cqHeld.all (fun x => x.1 != p) && !s.failed then
    some (BitVec.ofNat 512 (s.rdHost (s.portOf p * 2 ^ 64 + fld (s.dget 8 (partOff p 0)) 63 12 * 4096 + 64 * fld w 31 16) 64))
  else none
def State.sqAdvance (s : State) (p : Nat) : State :=
  s.dmod 8 (partOff p 0x08) (fun w => setFld w 31 16 ((fld w 31 16 + 1) % ringSize w))
/-- A submit entry taken (20 R397). -/
def State.submit (s : State) (p : Nat) (e : BitVec 512) : State :=
  let q := fld e 25 8
  let htag := fld e 127 64
  let refuse (s : State) (c : Nat) : State := s.cqPost p (cqEntry 2 q 0 c (rqState (s.rq q)) htag 0 0)
  let pd := fld e 31 28
  if s.idPart q ≠ some p then s.cqPost p (cqEntry 2 q 0 0x20 0 htag 0 0)
  else if s.rqLive q then refuse s 0x21
  else if fld e 7 0 ≠ 1 ∨ fld e 63 32 ≠ 0 ∨ fld e 511 384 ≠ 0 ∨ (pd ≠ 0 ∧ pd ≠ 1 ∧ pd ≠ 15) then refuse s 0x22
  else
    let r : Nat := 1 + 8 * 8 + 2 ^ 48 + p * 2 ^ 64 + fld e 27 26 * 2 ^ 68 + pd * 2 ^ 70 + htag * 2 ^ 320 + fld e 191 128 * 2 ^ 384 +
      fld e 255 192 * 2 ^ 448 + fld e 383 256 * 2 ^ 512
    ((s.setRq q (BitVec.ofNat 1024 r)).cqPost p (cqEntry 1 q 0 0 1 htag 0 0)).columbineLaunch q 0
/-- A cancel entry taken (20 R397): its own completion entry comes first. -/
def State.hostCancel (s : State) (p : Nat) (e : BitVec 512) : State :=
  let q := fld e 25 8
  let htag := fld e 127 64
  if s.idPart q ≠ some p then s.cqPost p (cqEntry 2 q 0 0x20 0 htag 0 0)
  else if fld e 63 32 ≠ 0 ∨ fld e 511 384 ≠ 0 ∨ (fld e 31 28 ≠ 0 ∧ fld e 31 28 ≠ 1 ∧ fld e 31 28 ≠ 15) then s.cqPost p (cqEntry 2 q 0 0x22 (rqState (s.rq q)) htag 0 0)
  else if !s.rqLive q then s.cqPost p (cqEntry 2 q 0 0x23 (rqState (s.rq q)) htag 0 0)
  else s.cancelEvent q 1 (fun s st => s.cqPost p (cqEntry 4 q 0 0 st (fld (s.rq q) 383 320) 0 0))
def execSubmissionSubmit (part : Nat) (s : State) : Out :=
  .next (match s.sqEntry part with
  | some e => if fld e 7 0 = 2 then s else (s.submit part e).sqAdvance part
  | none => s)
def execSubmissionCancel (part : Nat) (s : State) : Out :=
  .next (match s.sqEntry part with
  | some e => if fld e 7 0 = 2 then (s.hostCancel part e).sqAdvance part else s
  | none => s)
/-- 20 R396, R398: a kill reported by the launch unit counts only for the current launch. -/
def execKillReport (rq lnum : Nat) (power : Bool) (s : State) : Out :=
  .next (if s.reports.contains (rq, lnum, power) then
    let s : State := { s with reports := s.reports.erase (rq, lnum, power) }
    let r := s.rq rq
    if s.rqEn ∧ rqLnum r = lnum ∧ (rqState r = 2 ∨ rqState r = 4) then s.finalRq rq 7 (if power then 0x11 else 0x10) 0 true else s
  else s)

/-- Fields of a hand-off descriptor (20 R399). -/
def hdSrc (x : BitVec 512) : Nat := fld x 63 0
def hdCnt (x : BitVec 512) : Nat := fld x 79 64
def hdDm1 (x : BitVec 512) : Nat := fld x 86 80
def hdNtl (x : BitVec 512) : Nat := fld x 94 88
def hdTdie (x : BitVec 512) : Nat := fld x 99 96
def hdAny (x : BitVec 512) : Bool := bit x 100
def hdSeqId (x : BitVec 512) : Nat := fld x 191 128
/-- Entries of the SRC list, read at the home under the strand's ASID and partition; none where it cannot be read (20 R401). -/
def State.srcList (s : State) (o : Op) (x : BitVec 512) : Option (List Word) :=
  let g : Agent := { asid := o.asid, part := o.part, die := o.die }
  match s.rdRange g (hdSrc x) (8 * hdCnt x) with
  | (v, false, none) => some ((List.range (hdCnt x)).map (fun i => w64 (v >>> (64 * i))))
  | _ => none
/-- R162 on the entries of a `.pd` list (20 R411). -/
def State.srcOk (s : State) (o : Op) (kind : Nat) (xs : List Word) : Bool :=
  kind != 0 || xs.all (fun a => match s.checkOf o.ck a with | .error (.trap _) => false | _ => true)
/-- The descriptor is malformed by itself (20 R411). -/
def descBad (kind : Nat) (x : BitVec 512) : Bool :=
  bit x 87 || bit x 95 || fld x 127 101 != 0 || fld x 511 256 != 0 || (kind != 2 && hdCnt x == 0) ||
  (kind == 0 && (hdNtl x == 0 || decide (64 < hdNtl x)))

/-- Free pages on a die's table-page ring, and free slots of a partition on it (20 R392, R401). -/
def tpOff (d o : Nat) : Nat := rqOff (0x800 + 0x20 * (d - 2) + o)
def State.tpFree (s : State) (d : Nat) : Nat :=
  let w := s.dget 8 (tpOff d 8)
  (fld w 47 32 + 65536 * ringSize w - fld w 31 16) % ringSize w
/-- A slot that Hollyhock may take: of a live bank of the partition. -/
def State.slotFor (s : State) (d p b : Nat) : Bool :=
  let n := bwNum (BitVec.ofNat 22 b)
  s.bankLive d n && decide (s.bpart d n = p)
def State.slotsFree (s : State) (d p : Nat) : Nat :=
  (s.die d).freeL.foldl (fun n c => n + (c.2.filter (fun b => s.slotFor d p b)).length) 0
/-- Pages needed (20 R401). -/
def pagesFor (n : Nat) : Nat := 1 + ceilDiv n 512
/-- The target die (20 R401 step 2): none where there is no candidate. -/
def State.handTarget (s : State) (o : Op) (kind : Nat) (x : BitVec 512) (p : Nat) : Option Nat :=
  if !hdAny x then (if 2 ≤ hdTdie x ∧ hdTdie x < 8 ∧ !s.dieDown (hdTdie x) then some (hdTdie x) else none)
  else ((List.range 6).map (fun i => i + 2)).foldl (fun b d =>
    if s.dieDown d ∨ (kind = 1 ∧ d = o.die) ∨ s.tpFree d < pagesFor (hdCnt x) then b
    else match b with
      | none => some d
      | some y => if s.slotsFree y p < s.slotsFree d p then some d else some y) none
/-- The next slot of the partition in the first column of `cols` that has one (20 R401 step 4). -/
def State.takeSlot (s : State) (d p : Nat) : List Nat → Option (State × Nat)
  | [] => none
  | c :: r =>
    match (Map.get [] (s.die d).freeL c).find? (fun b => s.slotFor d p b) with
    | some b =>
      let run := s.rcPhase d != 0
      some (s.modDie d (fun x => { x with freeL := Map.put x.freeL c ((Map.get [] x.freeL c).erase b), marks := if run then NSet.add x.marks b else x.marks }), b)
    | none => s.takeSlot d p r
/-- Slots for blocks `j` on, `n` of them. -/
def State.takeSlots (s : State) (d p q j : Nat) : Nat → Option (State × List (BitVec 22))
  | 0 => some (s, [])
  | n + 1 => do
    let r ← s.takeSlot d p ((List.range 32).map (fun i => (j + q % 32 + i) % 32))
    let t ← r.1.takeSlots d p q (j + 1) n
    some (t.1, BitVec.ofNat 22 r.2 :: t.2)
/-- Pages popped from the ring (20 R401 step 3). -/
def State.takePages (s : State) (d n : Nat) : Option (State × List Nat) :=
  if s.tpFree d < n then none
  else
    let w := s.dget 8 (tpOff d 8)
    let base := fld (s.dget 8 (tpOff d 0)) 45 12 * 4096
    some (s.dput 8 (tpOff d 8) (setFld w 31 16 ((fld w 31 16 + n) % ringSize w)),
      (List.range n).map (fun i => s.rdPhys d (base + 8 * ((fld w 31 16 + i) % ringSize w)) 8 % 2 ^ 46 / 4096 * 4096))
/-- What a commit does to the record, and the launch it enqueues (20 R406). -/
def State.commitRe (s : State) (q : Nat) (x : BitVec 512) : State :=
  let r := setFld (setFld (setFld (s.rq q) 31 16 0) 6 3 8) 2 0 1
  let r := setFld (setFld r 73 70 (if hdAny x then 15 else hdTdie x)) 55 48 (rqLnum r + 1)
  (s.setRq q r).columbineLaunch q 0
/-- Columbine takes an `rqhand` (20 R398, R401, R411): the answer code and the state after it. -/
def State.handoff (s : State) (o : Op) (q kind : Nat) (x : BitVec 512) : State × Nat :=
  let r := s.rq q
  let p := rqPart r
  if !s.rqLive q ∨ p ≠ o.part.toNat ∨ rqOwner r ≠ o.die ∨ rqState r ≠ (if kind = 0 then 2 else 4) then (s, 1)
  else if rqCreq r then (s.cancelRq q, 2)
  else if descBad kind x then (s, 3)
  else if kind = 2 then
    if hdAny x ∨ (hdTdie x < 2 ∧ !s.dieDown (hdTdie x)) then (s.commitRe q x, 0) else (s, 4)
  else match s.srcList o x with
    | none => (s, 3)
    | some xs =>
      let s := s.behindRange { asid := o.asid, part := o.part, die := o.die } (hdSrc x) (8 * hdCnt x)
      if !s.srcOk o kind xs then (s, 3)
      else match s.handTarget o kind x p with
        | none => (s, 4)
        | some d =>
          match (s.takePages d (pagesFor (hdCnt x))).bind (fun t => (t.1.takeSlots d p q 0 (hdCnt x)).map (fun u => (u.1, t.2, u.2))) with
          | none => (s, 5)
          | some (s, pages, slots) =>
            let run := (s.handoffs.filter (fun h => h.begun)).length
            let h : Handoff := { rq := q, kind, ck := o.ck, desc := x, srcs := xs, tdie := d, pages, slots, moved := 0, begun := decide (run < 64),
                                 stopAt := none, sdie := o.die, asid := o.asid, part := o.part }
            let r := setFld (setFld (setFld (setFld (setFld r 31 16 (hdCnt x)) 47 32 0) 255 192 (d * 2 ^ 46 + pages.headD 0)) 2 0 3) 6 3 8
            (({ s with handoffs := s.handoffs ++ [h] } : State).setRq q r, 0)
/-- The status word of `rqhand` and `rqcan` (20 R411); a request that the strand may not see shows state 0. -/
def State.rqAnswer (s : State) (o : Op) (q code : Nat) (st : Word) : State :=
  let seen := if rqPart (s.rq q) = o.part.toNat ∧ s.rqEn then rqState (s.rq q) else 0
  if st = 0 then s.finishOp o else s.opAnswer o st 8 (code + seen * 2 ^ 8)
/-- 20 R401, R411. -/
def execHandoffEvent (op : Nat) (s : State) : Out :=
  .next (match s.op? op with
  | some o => match o.kind with
    | .rqhand q kind x st => if s.ready o then let t := s.handoff o q kind x; t.1.rqAnswer o q t.2 st else s
    | _ => s
  | none => s)
/-- 20 R407, R411. -/
def execCancelEvent (op : Nat) (s : State) : Out :=
  .next (match s.op? op with
  | some o => match o.kind with
    | .rqcan q st =>
      if !s.ready o then s
      else if !s.rqLive q ∨ rqPart (s.rq q) ≠ o.part.toNat then s.rqAnswer o q 1 st
      else if 5 ≤ rqState (s.rq q) then s.rqAnswer o q 6 st
      else (s.cancelEvent q 2 (fun s _ => s)).rqAnswer o q 0 st
    | _ => s
  | none => s)
/-- The predicate of `rqdone` lands once Columbine has answered, and the word has issued (20 R413). -/
def State.rqdoneIssue (s : State) (o : Op) (h : Head) (a : BitVec 7) (b : Bool) : State :=
  let cur := s.cur
  let s := ({ (s.dropOp o.id) with cur := ⟨o.ck, .s⟩ } : State).enter
  { ((s.resultP h a b).advance) with cur := cur }
/-- 20 R413. -/
def execRqdoneEvent (op : Nat) (s : State) : Out :=
  .next (match s.op? op with
  | some o => match o.kind with
    | .rqdone q c h a =>
      let r := s.rq q
      if !s.ready o then s
      else if s.rqLive q ∧ rqOwner r = o.die ∧ rqPart r = o.part.toNat ∧ (rqState r = 2 ∨ rqState r = 4) then
        (if rqCreq r then s.finalRq q 6 (Map.get 1 s.creqBy q) c.toNat true else s.finalRq q 5 0 c.toNat true).rqdoneIssue o h a true
      else s.rqdoneIssue o h a false
    | _ => s
  | none => s)

/-- 20 R401: the first hand-off that waits starts when fewer than 64 are in progress. -/
def execHandoffStart (rq : Nat) (s : State) : Out :=
  .next (match s.handoffs.find? (fun h => !h.begun) with
  | some h =>
    if h.rq = rq ∧ (s.handoffs.filter (fun x => x.begun)).length < 64 then
      { s with handoffs := s.handoffs.map (fun x => if x.rq = rq then { x with begun := true } else x) }
    else s
  | none => s)
/-- Element K[t][d] of a tile-major source block (20 R400), as a bf16 code; `v` adds the K half. -/
def srcElem (blk dm t d : Nat) (v : Bool) : Nat :=
  let w := ceilDiv (dm + 1) 16
  (blk >>> (16 * (256 * (w * (t / 16) + d / 16) + 16 * (t % 16) + d % 16) + (if v then 8 * 128 * 16 * w else 0))) % 65536
/-- floor(log2 a) - 7, at least -126, for the greatest finite magnitude code; 0 for none (20 R402). -/
def scaleExp (m : Nat) : Int :=
  if m = 0 then 0
  else max ((if m / 128 = 0 then Int.ofNat (Nat.log2 m) - 133 else Int.ofNat (m / 128) - 127) - 7) (-126)
/-- K or V of a block converted (20 R402): scale code and 8,192 codes. -/
def convertHalf (blk dm n : Nat) (v : Bool) : Nat × Nat :=
  let els := (List.range 64).flatMap (fun t => (List.range 128).map (fun d => if t < n ∧ d ≤ dm then some (srcElem blk dm t d v) else none))
  let amax := els.foldl (fun m x => match x with
    | some c => if c % 32768 < 0x7F80 then max m (c % 32768) else m
    | none => m) 0
  let e := scaleExp amax
  let inv : Fv := .fin false 1 (-e)
  ((e + 127).toNat * 2 ^ 23,
   packLE 8 (els.map (fun x => match x with | some c => (quant (f32d (c * 65536)) inv (.fl .e4m3) 0).1 | none => 0)))
/-- A block's slot and header written at the destination (20 R402 to R404); a lost source leaves every line of the slot poisoned. -/
def State.writeBlock (s : State) (d : Nat) (b : BitVec 22) (bytes hdr : Nat) (lost : Bool) : State :=
  let s := s.wrKey 0 (headerKey d b) hdr 64
  if lost then s.blockLost d b
  else (List.range 256).foldl (fun s i => s.wrKey 0 (blockKey d b (64 * i)) (bytes >>> (512 * i) % 2 ^ 512) 64) s
/-- One block of a hand-off: read at its home on the hub engines' path (13 R299), converted or copied, and performed (20 R402 to R404). -/
def State.handBlock (s : State) (h : Handoff) : State :=
  let j := h.moved
  let dst := h.slots.getD j 0
  let n := if h.kind = 0 ∧ j + 1 = h.slots.length then hdNtl h.desc else 64
  let one := 0x3F800000
  if h.kind = 0 then
    let dm := hdDm1 h.desc
    let g : Agent := { asid := h.asid, part := h.part, die := h.sdie }
    let a := (h.srcs.getD j 0).toNat
    let hdr (k v : Nat) : Nat := k + v * 2 ^ 32 + n * 2 ^ 64 + dm * 2 ^ 72 + hdSeqId h.desc * 2 ^ 128
    match s.rdRange g a (256 * 16 * ceilDiv (dm + 1) 16) with
    | (blk, false, none) =>
      let blk := s.staleRange g h.ck 5 a (256 * 16 * ceilDiv (dm + 1) 16) blk
      let s := s.behindRange g a (256 * 16 * ceilDiv (dm + 1) 16)
      let k := convertHalf blk dm n false
      let v := convertHalf blk dm n true
      s.writeBlock h.tdie dst (k.2 + v.2 * 2 ^ 65536) (hdr k.1 v.1) false
    | _ => s.writeBlock h.tdie dst 0 (hdr one one) true
  else
    let src := (h.srcs.getD j 0).setWidth 22
    let hd := s.header h.sdie src
    let bad := s.poisonedRun (blockKey h.sdie src 0) 16384 || s.poisoned (headerKey h.sdie src)
    let hdr := if bad then one + one * 2 ^ 32 + hd / 2 ^ 64 % 128 * 2 ^ 64 + hd / 2 ^ 72 % 128 * 2 ^ 72 + hdSeqId h.desc * 2 ^ 128
      else hd / 2 ^ 192 * 2 ^ 192 + hd % 2 ^ 128 + hdSeqId h.desc * 2 ^ 128
    let s := s.writeBlock h.tdie dst (Mem.readLE s.mem (blockKey h.sdie src 0) 16384) hdr bad
    s.wrKey 0 (headerKey h.sdie src + 8) (hd / 2 ^ 64 % 256 ||| 0x80) 1
/-- 20 R404: the next block, unless a cancellation stops the hand-off before it. -/
def execHandoffBlock (rq : Nat) (s : State) : Out :=
  .next (match s.handoffs.find? (fun h => h.rq == rq && h.begun) with
  | some h =>
    if h.moved < h.slots.length ∧ h.stopAt.all (fun n => decide (h.moved < n)) then
      let s := s.handBlock h
      let s : State := { s with handoffs := s.handoffs.map (fun x => if x.rq = rq then { x with moved := x.moved + 1 } else x) }
      s.setRq rq (setFld (s.rq rq) 47 32 (h.moved + 1))
    else s
  | none => s)
/-- 20 R407, R408: the block under way when CREQ was set has been performed, and Hollyhock stops. -/
def execHandoffCancelStop (rq : Nat) (s : State) : Out :=
  .next (match s.handoffs.find? (fun h => h.rq == rq) with
  | some h => if h.stopAt.any (fun n => decide (n ≤ h.moved)) then s.cancelRq rq else s
  | none => s)
/-- Table pages of a finished hand-off (20 R404), written last. -/
def State.writeTables (s : State) (h : Handoff) : State :=
  let leaf := h.pages.drop 1
  let s := (List.range leaf.length).foldl (fun s i =>
    (List.range 512).foldl (fun s k =>
      s.wrPhys h.tdie (leaf.getD i 0 + 8 * k) (match h.slots[512 * i + k]? with | some b => b.toNat * 4 + 1 | none => 0) 8) s) s
  (List.range 512).foldl (fun s i => s.wrPhys h.tdie (h.pages.headD 0 + 8 * i) (match leaf[i]? with | some p => p + 2 | none => 0) 8) s
/-- 20 R405, R406: every block performed, the tables are written and Columbine commits; with CREQ set the request is cancelled instead. -/
def execCommit (rq : Nat) (s : State) : Out :=
  .next (match s.handoffs.find? (fun h => h.rq == rq && h.begun) with
  | some h =>
    if h.moved < h.slots.length then s
    else if rqCreq (s.rq rq) then s.cancelRq rq
    else
      let s := s.writeTables h
      let page := h.pages.headD 0
      let rs := (s.die h.tdie).roots
      if rs.any (fun p => p.1 == page) ∨ 65536 ≤ rs.length then s.finalRq rq 7 0x12 0 true
      else
        let s := s.addRoot h.tdie page (w64 (hdSeqId h.desc))
        let r := s.rq rq
        let old := rqRoot r
        let r' := setFld (setFld (setFld (setFld r 191 128 (rqNroot r)) 255 192 0) 319 256 (hdSeqId h.desc)) 55 48 (rqLnum r + 1)
        let s := s.setRq rq (setFld (setFld r' 2 0 4) 6 3 h.tdie)
        let s : State := { s with handoffs := s.handoffs.filter (fun x => x.rq != rq) }
        (s.unroot old).columbineLaunch rq (h.desc.extractLsb' 192 64)
  | none => s)

/-- Request ids that any partition owns. -/
def State.rqIds (s : State) : List Nat :=
  (List.range 16).flatMap (fun p =>
    let w := s.dget 8 (partOff p 0x28)
    (List.range (fld w 41 24)).map (fun i => fld w 17 0 + i)) |>.eraseDups
/-- A die has become disabled (20 R391, R398): requests that it owns, or that are handed off from or to it, fail. -/
def State.dieLost (s : State) (d : Nat) : State :=
  if !s.rqEn then s
  else s.rqIds.foldl (fun s q =>
    let r := s.rq q
    let hand := s.handoffs.any (fun h => h.rq == q && (h.sdie == d || h.tdie == d))
    if (rqState r = 2 ∨ rqState r = 4) ∧ rqOwner r = d then s.finalRq q 7 0x13 0 false
    else if rqState r = 3 ∧ hand then s.finalRq q 7 0x13 0 (!s.dieDown (rqRoot r / 2 ^ 46 % 16))
    else s) s
/-- The package has failed (21 R424): every running strand is killed, every live request fails. -/
def State.packageFailed (s : State) : State :=
  if !s.failed then s
  else
    let s := (s.strands.map (fun p => p.1)).foldl (fun s ck =>
      if s.running? ck then s.killWith ck { cls := .machineCheck, code := 0, info := 0 } else s) s
    if !s.rqEn then s
    else s.rqIds.foldl (fun s q =>
      if s.rqLive q ∧ rqState (s.rq q) ≤ 4 then (s.withdraw q).finalRq q 7 0x13 0 true else s) s
/-- Modules of a die (20 R390). -/
def modules (d : Nat) : Nat := if d < 2 then 4 else 2
/-- 20 R391: a module goes down; with the last, the die is disabled. -/
def execModuleDown (die m : Nat) (s : State) : Out :=
  .next (if die < 8 ∧ m < modules die ∧ !NSet.mem s.modsDown (4 * die + m) then
    let s : State := { s with modsDown := NSet.add s.modsDown (4 * die + m) }
    let all := (List.range (modules die)).all (fun i => NSet.mem s.modsDown (4 * die + i))
    let s := s.health (fun h => if all then setBit h (2 + die) true else h)
    (if all then s.dieLost die else s).packageFailed
  else s)

/-- 20 R411: what `rqhand` and `rqcan` check before the stores are published. -/
def State.statusCheck (s : State) (c : Word) : Except Stop Unit := if c = 0 then .ok () else s.check c
def execRqhand (h : Head) (w : W6) (s : State) : Out :=
  word (.rqhand h w) h s (fun s => do
    let a ← s.rd w.a 0
    let b ← s.rd w.b 1
    let c ← s.rd w.c 2
    if b.toNat % 64 ≠ 0 then .error (trapOf .alignment b) else .ok ()
    if c.toNat % 8 ≠ 0 then .error (trapOf .alignment c) else .ok ()
    s.check b
    s.statusCheck c
    let v ← s.loadRange s.cur.ck b.toNat 64
    if v.2 then .error (trapOf .poisonConsumed b) else .ok ()
    let p ← (s.countRange s.cur.ck b.toNat 64 false).publish s.cur.ck
    .ok (fld a 17 0, BitVec.ofNat 512 v.1, c, b, p))
    (fun x _ => (((x.2.2.2.2.enter).sent x.2.2.1).sent x.2.2.2.1).issueOp w (.rqhand x.1 (fld w.fn 2 1) x.2.1 x.2.2.1))
def execRqcan (h : Head) (w : W6) (s : State) : Out :=
  word (.rqcan h w) h s (fun s => do
    let a ← s.rd w.a 0
    let c ← s.rd w.c 2
    if c.toNat % 8 ≠ 0 then .error (trapOf .alignment c) else .ok ()
    s.statusCheck c
    let p ← s.publish s.cur.ck
    .ok (fld a 17 0, c, p))
    (fun x _ => ((x.2.2.enter).sent x.2.1).issueOp w (.rqcan x.1 x.2.1))
/-- 20 R412. A stop has an `rqstat` in flight performed again (20 R414): its value keeps the name of its request. -/
def execRqstat (h : Head) (w : W6) (s : State) : Out :=
  word (.rqstat h w) h s (fun s => s.rd w.b 1)
    (fun b s =>
      let q := fld b 17 0
      let v := if s.rqLive q ∧ rqPart (s.rq q) = s.myPart.toNat then w64 (fld (s.rq q) 63 0) else 0
      if destOf w.a = .none then s else s.put h (destOf w.a) (.rqstat q v) 0)
/-- 20 R413: the strand's accesses complete, the event goes to Columbine, and the word waits for its answer. -/
def execRqdone (h : Head) (w : W6) (s : State) : Out :=
  wordRaw (.rqdone h w) h s (fun s => do
    let b ← s.rd w.b 1
    let c ← s.rd w.c 2
    if s.ops.any (fun o => o.mine s.cur.ck && o.live && (match o.kind with | .rqdone .. => true | _ => false)) then .error .wait else .ok ()
    if s.pathBusy s.cur.ck 0x3F 3 then .error .wait else .ok ()
    let p ← s.publishAt s.cur.ck 3
    .ok (fld b 17 0, c, p))
    (fun x _ => x.2.2.addOp false 0 (.rqdone x.1 x.2.1 h w.a))

/-- 21 R419. The strand's buffered stores are published as the word issues. -/
def execPublish (h : Head) (w : W6) (s : State) : Out :=
  word (.publish h w) h s (fun s => do
    let a ← s.rd w.a 0
    let c ← s.rd w.c 2
    if c.toNat % 8 ≠ 0 then .error (trapOf .alignment c) else .ok ()
    s.statusCheck c
    let g := s.dget 8 (0x3A0000000000 + 0x20 * fld a 5 0)
    if !bit g 0 ∨ fld g 4 1 ≠ s.myPart.toNat then .error (trapOf .partition (w64 (fld a 5 0))) else .ok ()
    let p ← s.publish s.cur.ck
    .ok (fld a 5 0, c, p))
    (fun x _ => ((x.2.2.enter).sent x.2.1).issueOp w (.publish x.1 x.2.1))
/-- An access that the strand of an operation issued before it is outstanding. -/
def State.earlierBusy (s : State) (o : Op) : Bool :=
  s.ops.any (fun x => x.sid == o.sid && !x.dead && decide (x.id < o.id) && !x.fin && x.kind.path.isSome) ||
  (o.live && !o.dead && ((s.strand o.ck).outPending || s.posted.any (fun p => p.ck == o.ck && decide (p.id < o.id))))
/-- 21 R419, R420: the version advances in the window's order, reaches host memory, and is stored and posted. -/
def execPublishComplete (op : Nat) (s : State) : Out :=
  .next (match s.op? op with
  | some o => match o.kind with
    | .publish g c =>
      if !s.ready o ∨ s.earlierBusy o then s
      else
        let v : Word := Map.get 0 s.ver g + 1
        let s : State := { s with ver := Map.put s.ver g v }
        let w := s.dget 8 (0x3A0000000000 + 0x20 * g)
        let s := s.wrHost (s.portOf (fld w 4 1) * 2 ^ 64 + (s.dget 8 (0x3A0000000000 + 0x20 * g + 24)).toNat) v.toNat 8
        if c = 0 then s.finishOp o else s.opAnswer o c 8 v.toNat
    | _ => s
  | none => s)

end Sys2Proof.Machine
end

