-- ==== Sys2Proof/Machine/Host.lean ====
section
/-! DEFINITION. Partitions and keys, host windows, supply emergencies, monitors, boot and identity (21 R416 to R418, R421, R422,
R424 to R427). -/

namespace Sys2Proof.Machine

/-- A context of the partition is VALID, or a request of it is live (21 R417). -/
def State.partBusy (s : State) (p : Nat) : Bool :=
  allCores.any (fun c => (List.range 8).any (fun x =>
    let v := s.ctx (ckOf c.1 c.2 x)
    ctxValid v && decide ((ctxPart v).toNat = p))) ||
  s.rqIds.any (fun q => s.rqLive q && decide (rqPart (s.rq q) = p))
/-- New keys (21 R417): lines under the old ones read from now on as their ciphertext yields. -/
def State.drawKeys (s : State) (p : Nat) : State := { s with keyEp := Map.put s.keyEp p (Map.get 0 s.keyEp p + 1) }
/-- A write of PARTCTL (21 R416, R417): with a draw that is refused nothing but KREF changes. -/
def State.partctlWrite (s : State) (p : Nat) (v : Word) : State :=
  if 16 ≤ p then s
  else
    let old := s.partctl p
    let draw := bit v 2 || (bit v 0 && !bit old 0)
    let new := w64 (v.toNat % 4 + fld v 39 8 * 2 ^ 8)
    if !draw then s.dput 8 (partctlOff p) (setBit new 40 (bit old 40))
    else if p = 0 ∨ s.partBusy p then s.dput 8 (partctlOff p) (setBit old 40 true)
    else (s.drawKeys p).dput 8 (partctlOff p) new
def execPartctlEnable (part : Nat) (v : Word) (s : State) : Out := .next (s.partctlWrite part (setBit v 0 true))
def execPartctlRekey (part : Nat) (v : Word) (s : State) : Out := .next (s.partctlWrite part (setBit v 2 true))

/-- Dword `i` of HWIN[w] as it is kept (21 R418). -/
def hwinMask (i : Nat) (v : Word) : Word :=
  match i with
  | 0 => w64 (v.toNat % 32)
  | 1 => w64 (fld v 63 12 * 4096)
  | 2 => w64 (min (fld v 34 12 * 4096) (2 ^ 34))
  | _ => w64 (fld v 63 3 * 8)
/-- A write to HWIN[w] (21 R418): the version restarts at 0, at VADDR on the window's port too; no effect while a `publish` of the window is outstanding. -/
def State.hwinSet (s : State) (w : Nat) (xs : List (Nat × Word)) : State :=
  if 64 ≤ w ∨ s.ops.any (fun o => !o.fin && (match o.kind with | .publish g _ => g == w | _ => false)) then s
  else
    let base := 0x3A0000000000 + 0x20 * w
    let s := xs.foldl (fun s x => s.dput 8 (base + 8 * x.1) (hwinMask x.1 x.2)) s
    ({ s with ver := Map.put s.ver w 0 } : State).wrHost (s.portOf (fld (s.dget 8 base) 4 1) * 2 ^ 64 + (s.dget 8 (base + 24)).toNat) 0 8
def execHwinWrite (w : Nat) (v : BitVec 256) (s : State) : Out :=
  .next (s.hwinSet w ((List.range 4).map (fun i => (i, v.extractLsb' (64 * i) 64))))

/-- SUPEM (21 R421). -/
def supemOff : Nat := 0x3A0000000900
def State.supem (s : State) : Word := s.dget 8 supemOff
/-- Contexts that an emergency may take: running, on dies 0 to 7. -/
def State.victims (s : State) : List Nat :=
  (s.strands.map (fun p => p.1)).filter (fun ck => decide (ckDie ck < 8) && s.running? ck)
/-- `a` goes before `b` (21 R421): PRIV 0 first, then the lowest class, then the youngest, then the highest die, core and context. -/
def State.victimBefore (s : State) (a b : Nat) : Bool :=
  let pa := ctxPriv (s.ctx a)
  let pb := ctxPriv (s.ctx b)
  if pa != pb then !pa
  else if s.eff a ≠ s.eff b then decide (s.eff a < s.eff b)
  else if (s.strand a).bindFt ≠ (s.strand b).bindFt then decide ((s.strand b).bindFt < (s.strand a).bindFt)
  else decide (b < a)
def State.victim (s : State) : Option Nat :=
  s.victims.foldl (fun v c => match v with
    | none => some c
    | some x => if s.victimBefore c x then some c else some x) none
/-- Array and V issue is held: an emergency with no victim left (21 R421). -/
def State.supplyHold (s : State) : Bool := bit s.supem 0 && s.victims.isEmpty
def execSupplyEmergency (s : State) : Out :=
  .next (if bit s.supem 0 then s else s.dmod 8 supemOff (fun w => setFld (setBit w 0 true) 63 32 (min (fld w 63 32 + 1) 0xFFFFFFFF)))
/-- 21 R421, R422. -/
def execVictimKill (s : State) : Out :=
  .next (if !bit s.supem 0 then s
  else match s.victim with
    | some ck => (s.killWith ck { cls := .powerKill, code := 0, info := 0 }).dmod 8 supemOff (fun w => setFld w 31 16 (min (fld w 31 16 + 1) 0xFFFF))
    | none => s)
def execEmergencyClear (s : State) : Out := .next (s.dmod 8 supemOff (fun w => setBit w 0 false))

/-- A write of SRC, SEL and EN; one that sets EN clears the unit's other fields. -/
def State.monWrite (s : State) (d u : Nat) (v : Word) : State :=
  if 9 ≤ d ∨ 64 ≤ u then s
  else
    let s := if bit v 13 && !bit (s.dget d (monOff u 0)) 13 then
        ([0x10, 0x18, 0x20] ++ (List.range 8).map (fun k => 0x40 + 8 * k)).foldl (fun s o => s.dput d (monOff u o) 0) (s.dput d (monOff u 8) 0xFFFFFFFF)
      else s
    s.dput d (monOff u 0) (w64 (fld v 13 0))
def execMonitorEnable (die u : Nat) (v : Word) (s : State) : Out := .next (s.monWrite die u v)
/-- Sources whose values an event gives (21 R425). Those of 0x01 and 0x05 come with landings and wakes: State.monitor. -/
def monSource (d src : Nat) : Bool := (decide (2 ≤ src) && decide (src ≤ 4)) || src == 0x10 || src == 0x11 || (src == 0x12 && d == 8)
/-- The value that a source gives (21 R425): MEAS of core SEL, the occupancy of the stage queues; of the others, latencies and a temperature, what the event
says (log 16). -/
def State.monValue (s : State) (d src sel : Nat) (v : BitVec 32) : Nat :=
  if src = 0x10 then (if d < 2 then fld (s.dget d (0x320000000100 + 8 * sel)) 11 0 else 0)
  else if src = 0x12 then s.queues.length
  else v.toNat
/-- 21 R425: one value taken by a unit that counts. -/
def execMonitorValue (die u : Nat) (v : BitVec 32) (s : State) : Out :=
  let c := s.dget die (monOff u 0)
  .next (if 9 ≤ die ∨ 64 ≤ u ∨ !bit c 13 ∨ !monSource die (fld c 7 0) then s
  else
    let n := s.monValue die (fld c 7 0) (fld c 12 8) v
    s.monTake die u n)

/-- The ROM accepts the image: it is there, it is signed, and its version is at least the fused minimum (21 R426). -/
def accepted (img : FirmwareImage) : Bool := img.present && img.authOk && decide (Config.fusedMinimum.toNat ≤ img.svn.toNat)
/-- The firmware fills FID, which is fixed by that, DEVT and BRDT as it brings the package up (23 R463). -/
def State.bringUp (s : State) : State :=
  let fid := Config.straps s.free
  let i := 4 * fld fid 10 8 + fld fid 12 11
  let up (k : Nat) : Bool := k != i && Config.linkTrains s.free k
  let s := ({ s with fidSet := true } : State).dput 8 (fabOff 0) (fid.setWidth 64)
  let s := (List.range 32).foldl (fun s k =>
    if k = i then s else s.dput 8 (fabOff (0x100 + 8 * k)) (w64 (b2n (up k) + 4 * (if k < i then k else k - 1)))) s
  (List.range 8).foldl (fun s b => s.dput 8 (fabOff (0x80 + 8 * b)) (w64 (b2n (b == i / 4 || (List.range 4).any (fun j => up (4 * b + j)))))) s
/-- The ROM checks an image: running, with HSTATE set and the ports enabled, or recovery with what it found wrong. -/
def State.boot (s : State) (img : FirmwareImage) : State :=
  if accepted img then
    ((({ s.bringUp with digest := Config.imageDigest s.free s.loadArea } : State).dput 8 fwstOff (w64 (1 + img.svn.toNat * 2 ^ 16))).health id)
  else s.dput 8 fwstOff (w64 (2 + b2n (img.present && !img.authOk) * 4 + b2n (img.present && decide (img.svn.toNat < Config.fusedMinimum.toNat)) * 8))
/-- The image of the load area, as the ROM finds it (21 R426). -/
def State.loaded (s : State) : FirmwareImage :=
  { present := true, authOk := Config.imageSigned s.loadArea, svn := Config.imageVersion s.loadArea }
/-- In recovery the host writes a byte of the load area of 64 MiB (21 R426). -/
def State.loadWrite (s : State) (a : Nat) (b : Byte) : State :=
  if fld (s.dget 8 fwstOff) 1 0 = 2 ∧ a < 2 ^ 26 then { s with loadArea := Mem.write s.loadArea a b } else s
/-- 21 R426: the package is reset and its ROM runs. What lies outside it stays: host memory, schedule, nonvolatile index (log 35). -/
def execPackageReset (img : FirmwareImage) (s : State) : Out :=
  .next (({ State.reset with
    agenda := s.agenda, free := s.free, host := s.host, rmem := s.rmem, attIdx := s.attIdx, attest := s.attest } : State).boot img)
/-- 21 R426: in recovery the host has an image checked. -/
def execFirmwareReload (img : FirmwareImage) (s : State) : Out :=
  .next (if fld (s.dget 8 fwstOff) 1 0 = 2 then s.boot img else s)
/-- Signatures that a key of two levels of height 20 can make (21 R427). -/
def attLimit : Nat := 2 ^ 40
/-- 21 R427: a report of the running image's digest, SVN, HSTATE, SNAPVER and nonce under the next index; no rule gives the signature's bits (log 15). -/
def execAttestationReport (nonce : Word) (s : State) : Out :=
  .next (if fld (s.dget 8 fwstOff) 1 0 ≠ 1 ∨ attLimit ≤ s.attIdx then s
  else { s with attIdx := s.attIdx + 1,
                attest := s.attest ++ (List.range 4).map (fun i => s.digest.extractLsb' (64 * i) 64) ++ [w64 (fld (s.dget 8 fwstOff) 31 16), s.hstate, 1, nonce, Config.signature s.attIdx] })
/-- 21 R424. -/
def execHubUncontainedError (s : State) : Out := .next (s.healthTo id false true).packageFailed
def execFirmwareReplaceRequest (s : State) : Out := .next (s.healthTo id true false)

end Sys2Proof.Machine
end

