-- ==== Sys2Proof/Machine/Fabric.lean ====
section
/-! DEFINITION. Identity, fabric time, generations and circuits (23 R436, R437, R440, R443, R450 to R455). -/

namespace Sys2Proof.Machine

/-- 23 R451. -/
def execTbind (h : Head) (w : W6) (s : State) : Out :=
  word (.tbind h w) h s (fun s =>
    if Legal.f0 w then (s.rd w.b 1).map (fun b => b.extractLsb' 0 32)
    else if s.frz then .error .wait else .ok s.gen)
    (fun g s => s.modMe (fun st => { st with tgb := g }))

/-- 23 R436: the first write after reset fixes FID. -/
def State.fidPut (s : State) (v : Word) : State :=
  if s.fidSet then s else { s.fabPut (fabOff 0) (w64 (fld v 12 0)) with fidSet := true }
def execFidWrite (v : Word) (s : State) : Out := .next (s.fidPut v)
/-- 23 R440: a local link, or an optical port and with it its circuit. -/
def execLinkDown (port : Bool) (i : Nat) (s : State) : Out :=
  .next (if port then
    if i < 16 then
      ({ (s.dmod 8 (fabOff (0x400 + 8 * i)) (fun w => setBit w 18 true)) with linksDown := NSet.add s.linksDown (32 + i) } : State).health id
    else s
  else if i < 31 then ({ s with linksDown := NSet.add s.linksDown i } : State).health id else s)
/-- 23 R443: the first synchronisation steps the count forward, or has it held until system time has reached it; later ones slew it by at most a thousandth of
the ticks since the last, and no read goes back. -/
def execTimingFlit (slew : Int) (s : State) : Out :=
  .next (
    let up := slew.toNat
    let down := (-slew).toNat
    let t : Nat :=
      if !s.synced then s.ftime + up
      else
        let most := (s.ftime - s.slewAt) / 1000
        if 0 < down then max (s.ftime - min down most) (s.ftime / 11 * 11) else s.ftime + min up most
    { s with ftime := t, slewAt := t, fhold := if s.synced then s.fhold else down, synced := true })

/-- Entry 16k + g of a plan (23 R453), and the same in the form of CMAP. -/
def planV (e : BitVec 32) : Bool := bit e 0
def planPod (e : BitVec 32) : Nat := fld e 8 1
def planFar (e : BitVec 32) : Nat := fld e 17 1
/-- The circuit of port g of package k as it stands. -/
def State.circuit (s : State) (i : Nat) : Word := if i / 16 = s.ownIndex then s.cmap (i % 16) else Map.get 0 s.podMap i
def State.setCircuit (s : State) (i : Nat) (v : Word) : State :=
  if i / 16 = s.ownIndex then s.dput 8 (fabOff (0x400 + 8 * (i % 16))) v else { s with podMap := Map.put s.podMap i v }
/-- The plan changes this circuit. -/
def State.planChanges (s : State) (i : Nat) (e : BitVec 32) : Bool := decide (fld e 17 0 ≠ fld (s.circuit i) 17 0) && (planV e || bit (s.circuit i) 0)
/-- A far port is in a circuit of this pod. -/
def State.farKnown (s : State) (far : Nat) : Bool := (List.range 512).any (fun i => bit (s.circuit i) 0 && fld (s.circuit i) 17 1 == far)
/-- The plan is bad (23 R453), by what this package knows, or by what only the switches know. -/
def State.planBad (s : State) (plan : List (BitVec 32)) : Bool :=
  let es := (List.range 512).map (fun i => (i, plan.getD i 0))
  let on := es.filter (fun p => planV p.2)
  es.any (fun p => fld p.2 31 18 != 0) ||
  on.any (fun p => decide (planPod p.2 = fld s.fid 7 0)) ||
  on.any (fun p => decide (p.1 / 16 ≠ s.ownIndex) && !bit (s.devt (p.1 / 16)) 0) ||
  on.any (fun p => on.any (fun q => p.1 != q.1 && planFar p.2 == planFar q.2)) ||
  on.any (fun p => !(s.farKnown (planFar p.2)) && Config.farPortTaken s.free (planFar p.2))
/-- PODT derived from the circuit maps of the pod (23 R437). -/
def State.podtOf (s : State) (q : Nat) : Word :=
  let hit (k g : Nat) : Bool := let c := s.circuit (16 * k + g); bit c 0 && !bit c 18 && decide (fld c 8 1 = q)
  if q = fld s.fid 7 0 then 0
  else match (List.range 16).find? (fun g => hit s.ownIndex g) with
    | some g => w64 (1 + g * 4)
    | none =>
      match (List.range 32).find? (fun k => k != s.ownIndex && bit (s.devt k) 0 && (List.range 16).any (hit k)) with
      | some k => w64 (3 + ((List.range 16).find? (hit k)).getD 0 * 4 + k * 2 ^ 6)
      | none => 0
def State.derivePodt (s : State) : State :=
  (List.range 256).foldl (fun t q => t.dput 8 (fabOff (0x1000 + 8 * q)) (s.podtOf q)) s

/-- A word that waits for its plan has issued once it is answered (23 R454, R455): status word, predicate. -/
def State.recircDone (s : State) (o : Op) (st : Word) (h : Head) (a : BitVec 7) (r ndown settle : Nat) : State :=
  let v := r + min ndown 255 * 2 ^ 8 + s.gen.toNat * 2 ^ 16 + min settle 65535 * 2 ^ 48
  let s := if st = 0 then s else s.opWrite o st 8 v
  match s.op? o.id with
  | none => s
  | some o =>
    if o.dead then s.dropOp o.id
    else if !o.live then s.setOp { o with fin := true }
    else s.rqdoneIssue o h a (r == 0)
/-- The strand's outstanding `recirc`. -/
def State.recirc? (s : State) (ck : Nat) : Bool :=
  s.ops.any (fun o => o.mine ck && o.live && (match o.kind with | .recirc .. => true | _ => false))
/-- 23 R454: checks, the refusals that need no plan, and the plan sent to the switches. -/
def execRecirc (h : Head) (w : W6) (s : State) : Out :=
  wordRaw (.recirc h w) h s (fun s => do
    let b ← s.rd w.b 1
    let c ← s.rd w.c 2
    if s.recirc? s.cur.ck then .error .wait else .ok ()
    if b.toNat % 64 ≠ 0 then .error (trapOf .alignment b) else if c.toNat % 8 ≠ 0 then .error (trapOf .alignment c) else .ok ()
    s.check b
    if c = 0 then .ok () else s.check c
    match s.rdRange s.agent b.toNat 2048 with
    | (v, false, none) => .ok (v, b, c)
    | (_, _, some .fail) => .error (.fatal b)
    | _ => .error (trapOf .poisonConsumed b))
    (fun p s =>
      let phs := s.me.phs
      let s := ((s.countRange s.cur.ck p.2.1.toNat 2048 false).sent p.2.1).sent p.2.2
      let m := s.dget 8 (fabOff 8)
      let master := bit m 0 && decide (ckOf (fld m 4 1) (fld m 9 5) (fld m 12 10) = s.cur.ck)
      let answer (r : Nat) : State :=
        let v := r + s.gen.toNat * 2 ^ 16
        match (if p.2.2 = 0 then .ok s else s.storeHome s.cur.ck p.2.2 8 v : Except Stop State) with
        | .ok t => (t.resultP h w.a false).advance
        | .error _ => s.fatal s.cur.ck p.2.2
      if !master then answer 1
      else if !phs then answer 2
      else
        let plan := (List.range 512).map (fun i => BitVec.ofNat 32 (p.1 >>> (32 * i)))
        s.addOp false 0 (.recirc plan p.2.2 h w.a .sent))
/-- A plan stands at the switches with its pods frozen. -/
def State.planRunning (s : State) : Bool :=
  s.ops.any (fun o => !o.fin && (match o.kind with | .recirc _ _ _ _ (.frozen _) => true | _ => false))
/-- 23 R454: the switches take the plan, one at a time; a bad one is released with no freeze. -/
def execPlanTaken (op : Nat) (s : State) : Out :=
  .next (match s.op? op with
  | some o => match o.kind with
    | .recirc plan st h a .sent =>
      if !s.ready o || s.planRunning || s.frz then s
      else if s.planBad plan then s.recircDone o st h a 3 0 0
      else { s.setOp { o with kind := .recirc plan st h a (.frozen s.ftime) } with tgen := setBit s.tgen 32 true }
    | _ => s
  | none => s)
/-- A scheduled send to another pod that has been handed to the hub, which none is during a freeze (23 R438), and is not answered. -/
def State.globalSend (s : State) (o : Op) : Option SendOp :=
  match o.kind with
  | .send x => if !o.fin && !x.acked && s.global x.a then some x else none
  | _ => none
/-- A parked `waita` names another pod (23 R454). -/
def State.globalWatch (s : State) (f : Flight) : Bool :=
  match f.val with | .waita k .. => decide (2 ^ 100 ≤ k) && s.global (w64 (k - 2 ^ 100)) | _ => false
/-- Global accesses that the egresses accepted before the freeze: a send, a posted request, a parked `waita` (23 R454). -/
def Posted.globalOut (p : Posted) : Bool := p.glob && p.stage == 2
def State.undrained (s : State) : Bool :=
  s.ops.any (fun o => (s.globalSend o).isSome) || s.posted.any (fun p => p.globalOut) || s.strands.any (fun p => (p.2.eng .a).flight.any s.globalWatch)
/-- What is left of a drain receives error responses (23 R454): a send fails, a posted request is answered so, a `waita` returns as from a disabled home (07 R185). -/
def State.drainFails (s : State) : State :=
  let s := s.ops.foldl (fun s p => match s.globalSend p with
    | some x => s.setSend p { x with gone := true, acked := true, failed := true }
    | none => s) s
  let s := (s.posted.filter (fun p => p.globalOut)).foldl (fun s p =>
    ({ s with posted := s.posted.filter (fun q => q.id != p.id) } : State).answerErr p) s
  { s with strands := s.strands.map (fun p => (p.1, p.2.modEng .a (fun e =>
      { e with flight := e.flight.map (fun f => if s.globalWatch f then { f with val := .pred true } else f) }))) }
/-- 23 R454: 1 ms of drain has passed, and what is left receives error responses. -/
def execFreezeDrainTimeout (op : Nat) (s : State) : Out :=
  .next (match s.op? op with
  | some o => match o.kind with
    | .recirc _ _ _ _ (.frozen t) =>
      if !o.fin && decide (t + 11000000 ≤ s.ftime) then s.drainFails else s
    | _ => s
  | none => s)
/-- 23 R454: drained and trained, the circuits that changed take their new form, and the generation advances. -/
def execCircuitsTrained (op : Nat) (down : List Nat) (settle : BitVec 16) (s : State) : Out :=
  .next (match s.op? op with
  | some o => match o.kind with
    | .recirc plan st h a (.frozen _) =>
      if o.fin || s.undrained then s
      else
        let changed := (List.range 512).filter (fun i => s.planChanges i (plan.getD i 0))
        let bad := changed.filter (fun i => planV (plan.getD i 0) && down.contains i)
        let t := changed.foldl (fun s i => s.setCircuit i (if planV (plan.getD i 0) then
          w64 (fld (plan.getD i 0) 17 0 + b2n (bad.contains i) * 2 ^ 18) else 0)) s
        let own (xs : List Nat) : List Nat := (xs.filter (fun i => i / 16 == s.ownIndex)).map (fun i => 32 + i % 16)
        let links := (own bad).foldl NSet.add (t.linksDown.filter (fun l => !(own changed).contains l))
        let g := if s.gen = 0xFFFFFFFF then 1 else s.gen.toNat + 1
        let t := ({ t with linksDown := links, tgen := w64 g } : State).derivePodt.health id
        t.recircDone o st h a 0 bad.length settle.toNat
    | _ => s
  | none => s)

/-- A store or a copy piece of another package performed at its home here (23 R441), counted as a request of die `die` of that
package (17 R364). One that fails changes nothing. -/
def State.remoteStore (s : State) (asid : BitVec 16) (part : BitVec 4) (die ea data mask : Nat) (bad : Bool) : State :=
  let g : Agent := { asid, part, die := 16 + die % 16 }
  let a := ea % 2 ^ 63 / 64 * 64
  match s.wrHome g a (data % 2 ^ 512) (mask % 2 ^ 64), s.place asid part a true with
  | .ok t, .ok (.mem _ _ key) => if bad then t.mark key else t
  | .ok t, _ => t
  | .error _, _ => s
/-- Bytes of a span that are mapped readable for an ASID, in 64 KiB pages (17 R361). -/
def State.mappedPages (s : State) (asid : BitVec 16) (part : BitVec 4) (d page n : Nat) : Nat :=
  (List.range n).foldl (fun c i => if (s.translate d asid part ((page + i) * 0x10000)).isSome then c + 1 else c) 0
/-- The span that the neighbourhood prefetcher computes (17 R361): log2 of its pages; `k` doublings are left. -/
def State.prefetchSpan (s : State) (asid : BitVec 16) (part : BitVec 4) (d off thr : Nat) (lg : Nat) : Nat → Nat
  | 0 => lg
  | k + 1 =>
    let n := 2 ^ (lg + 1)
    if s.mappedPages asid part d (off / 0x10000 / n * n) n * 16 < thr * n then lg else s.prefetchSpan asid part d off thr (lg + 1) k
/-- A fault of a probe by an ASID and partition at a byte: its home die posts the span (17 R361, R362). -/
def State.probeNote (s : State) (asid : BitVec 16) (part : BitVec 4) (ea : Nat) : State :=
  let d := ea / 2 ^ 46 % 16
  if ea.testBit 63 ∨ 8 ≤ d then s
  else
    let c := s.dget d 0x340000000018
    let lg := s.prefetchSpan asid part d (ea % 2 ^ 46) (fld c 8 4) 0 (min (fld c 3 0) 14)
    (s.notify d 2 ea (asid.toNat + part.toNat * 2 ^ 16 + lg * 2 ^ 20) 0).1
/-- An atomic of another package is performed at its home here, as one indivisible read and write (23 R441, 07 R181). -/
def State.remoteAtom (s : State) (asid : BitVec 16) (part : BitVec 4) (die ea : Nat) (k : AtomKind) (signed eight : Bool) (b e : Nat) : State :=
  let n := if eight then 8 else 4
  let a := ea % 2 ^ 63
  if a % n ≠ 0 then s
  else match s.place asid part a true with
    | .ok (.mem ..) =>
      (match s.atomHome { asid, part, die := 16 + die % 16 } a n (fun old => k.apply signed n old (b % 2 ^ (8 * n)) (e % 2 ^ (8 * n))) with
       | some r => r.1
       | none => s)
    | _ => s
/-- A probe of another package finds a byte whose home is here not readable: the die posts the span (17 R361). -/
def State.remoteProbe (s : State) (asid : BitVec 16) (part : BitVec 4) (ea : Nat) : State :=
  match s.place asid part (ea % 2 ^ 63) false with
  | .error .fail | .ok (.dev ..) => s.probeNote asid part (ea % 2 ^ 63)
  | _ => s
/-- A load of another package performed at its home here, counted as a request of that package's die (23 R441, 17 R364). -/
def State.remoteLoad (s : State) (asid : BitVec 16) (part : BitVec 4) (die ea : Nat) : State :=
  s.count { asid, part, die := 16 + die % 16 } (ea % 2 ^ 63) false
/-- A byte of another package changes by what is done there. -/
def State.remoteChange (s : State) (key : Nat) (b : Byte) : State := { s with rmem := Map.put s.rmem key b }
/-- A scheduled send of another package arrives at entry `dt` of the core on whose vault `ea` is mapped (23 R448): blocks of final type `ty`
as the bytes `v`. Its first block moves the tile to filling; with the others (`last`) the tile is ready. `bad` says that what is written carries poison. -/
def State.remoteSend (s : State) (asid : BitVec 16) (part : BitVec 4) (ea dt nb ty : Nat) (add last bad : Bool) (v : Nat) : State :=
  match s.place asid part (ea % 2 ^ 63) true with
  | .ok (.mem d phys key) =>
    let c := (phys - 0x200000000000) / 2 ^ 24
    let i := ttabOff c (dt % 256)
    let e := s.dget d i
    let nb := nb % 256 + 1
    let n := blockBytes ty nb
    let k := d * 2 ^ 46 + i
    let w (old : Nat) := if add && ty == 1 then addF32s (128 * nb) old v else v % 2 ^ (8 * n)
    let rest := (List.range nb).drop 1
    if phys < 0x200000000000 ∨ tileBase e ≠ phys % 2 ^ 24 ∨ tileLen e < n then s
    else if last then
      match s.arriving.find? (fun x => x.1 == k) with
      | some x =>
        if Map.get 0 s.issued (coreKey d c) ≠ 0 then s
        else ({ s.fillTile key ty nb (w x.2) rest (if bad then rest else []) with arriving := s.arriving.filter (fun x => x.1 != k) } : State).tileDone d c (dt % 256) 1 2
      | none => s
    else if tileState e ≠ 0 then s
    else
      let old := Mem.readLE s.mem key n
      ({ s.fillTile key ty nb (w old) [0] (if bad then [0] else []) with arriving := s.arriving ++ [(k, old)] } : State).dput d i (setFld e 1 0 1)
  | _ => s
/-- The plan of another master freezes the global ports of this pod (23 R454): one plan at a time in the whole system. -/
def State.freeze (s : State) : State := if s.planRunning || s.frz then s else { s with tgen := setBit s.tgen 32 true, frzAt := s.ftime }
/-- The same plan has drained for 1 ms: what is left receives error responses (23 R454). -/
def State.freezeOver (s : State) : State := if s.frz && !s.planRunning && decide (s.frzAt + 11000000 ≤ s.ftime) then s.drainFails else s
/-- A port of a peer of the pod has lost its link (23 R440): its circuit is down, which the next derivation of PODT sees (23 R437). -/
def State.peerLost (s : State) (i : Nat) : State :=
  if i < 512 ∧ i / 16 ≠ s.ownIndex then { s with podMap := Map.put s.podMap i (setBit (Map.get 0 s.podMap i) 18 true) } else s
/-- The plan of another master is carried out (23 R454): `cs` are the circuits of this pod that it changes, by 16 * package + port, in the
form of CMAP. It waits until every global send accepted before the freeze is answered. -/
def State.newCircuits (s : State) (cs : List (Nat × Word)) : State :=
  if !s.frz || s.planRunning || s.undrained then s
  else
    let cs := (cs.filter (fun p => decide (p.1 < 512))).map (fun p => (p.1, w64 (fld p.2 18 0)))
    let t := cs.foldl (fun s p => s.setCircuit p.1 p.2) s
    let own := cs.filter (fun p => p.1 / 16 == s.ownIndex)
    let links := own.foldl (fun l p => if bit p.2 18 then NSet.add l (32 + p.1 % 16) else NSet.del l (32 + p.1 % 16)) t.linksDown
    let g := if s.gen = 0xFFFFFFFF then 1 else s.gen.toNat + 1
    ({ t with linksDown := links, tgen := w64 g } : State).derivePodt.health id

end Sys2Proof.Machine
end

