-- ==== Sys2Proof/Machine/Walk.lean ====
section
/-! DEFINITION. The walk of an engine stream (01 R14 to R28) and what happens to its results without a word of its own: headers, decisions,
fetching text, landing (01 R30), held posts (06 R149). -/

namespace Sys2Proof.Machine

/-- The streams of the strand have stopped for a full save (10 R248). -/
def State.stopping (s : State) (ck : Nat) : Bool := (s.strand ck).full && decide ((s.strand ck).fullAt ≤ s.time)
/-- A trap of an earlier aclk has stopped the streams, and its capture is under way (10 R243, 01 R38). -/
def State.capturing (s : State) (ck : Nat) : Bool := (s.strand ck).pend.isSome && decide ((s.strand ck).pendW.at_ < s.time)
/-- The strand may act: it runs, no save or capture has begun, this aclk does not end it, the accumulator pair it held is its own again and the level it held is granted again
(06 R136, 10 R250, 15 R327). -/
def State.mayRun (s : State) (ck : Nat) : Bool :=
  s.running? ck && !s.stopping ck && !s.capturing ck && !(s.strand ck).closing && (!(s.strand ck).accp || s.pairReady ck) &&
  !(s.die (ckDie ck)).waitPwr.any (fun p => p.1 == ck && p.2.2)
/-- The page of a byte is mapped writable: it is no program text (01 R14). -/
def State.mapsWritable (s : State) (g : Agent) (ea : Nat) : Bool :=
  !ea.testBit 63 && (match s.translate (ea / 2 ^ 46 % 16) g.asid g.part (ea % 2 ^ 46) with | some (_, w) => w | none => false)
/-- The bytes, at a virtual address, lie inside the text segment that the launch unit knows (01 R14, log 24). -/
def Strand.inText (st : Strand) (addr n : Nat) : Bool :=
  match st.text with | some (a, z) => decide (a ≤ addr) && decide (addr + n ≤ a + z) | none => true
/-- `n` bytes of program text at a text address (01 R13, R14): outside the segment the illegal-section trap, from a poisoned line or a disabled home
poison-consumed (17 R367, log 24), from an unmapped page a fatal context error (17 R360). Where the segment is not known, a page that is not mapped, or
mapped writable, lies outside it. -/
def State.fetch (s : State) (ck addr n : Nat) : Except Stop Nat :=
  let addr := (s.strand ck).textVA addr
  if !(s.strand ck).inText addr n || ((s.strand ck).text.isNone && s.mapsWritable (s.me? ck) addr) then .error (trapOf .illegalSection 0)
  else match s.rdRange (s.me? ck) addr n with
    | (v, false, none) => .ok v
    | (_, _, some .fail) => if (s.strand ck).text.isSome then .error (.fatal (w64 addr)) else .error (trapOf .illegalSection 0)
    | _ => .error (trapOf .poisonConsumed (w64 addr))

/-- The engines other than `e`, in the order of the dependence fields and of SEEN (01 R16). -/
def Engine.others (e : Engine) : List Engine := Engine.all.filter (fun x => x != e)
/-- Distance field `i` of a header (01 R16). -/
def hdrDep (h : Word) (i : Nat) : Nat := fld h (44 - 9 * i) (36 - 9 * i)
/-- The header breaks a condition of 01 R17, absent engines apart. -/
def hdrIllegal (h : Word) : Bool :=
  let e := hdrEng h
  e == 6 || fld h 47 45 != 0 || (e == 7 && fld h 50 0 != 0) || (hdrJct h && (e != 0 || hdrLen h == 0 || hdrYld h)) ||
  (hdrYld h && e != 0) || (hdrBpl h && ((e != 2 && e != 3) || decide (64 < hdrLen h)))
/-- The waits of an own section (01 R21): an engine that the profile lacks, or a distance that reaches back before the beginning, makes none. -/
def EStream.waitsOf (x : EStream) (e : Engine) (pf : Profile) (h : Word) : List (Engine × Nat) :=
  (List.range 5).filterMap (fun i =>
    match (Engine.others e)[i]? with
    | some y =>
      let d := hdrDep h i
      let w := Map.get 0 x.seen i
      if d = 0 ∨ w < d ∨ !pf.has y then none else some (y, w - d)
    | none => none)

/-- The header at WALK is walked past (01 R19): a foreign or marker section. -/
def EStream.skipSection (x : EStream) (e : Engine) (h : Word) (now : Nat) : EStream :=
  { x with
    walk := x.walk + BitVec.ofNat 48 (hdrBytes h), secn := x.secn + 1, yld := hdrYld h, acted := some now,
    seen := match Engine.ofNum? (hdrEng h) with
      | some y => let i := (Engine.others e).findIdx (fun z => z == y); Map.put x.seen i (Map.get 0 x.seen i + 1)
      | none => x.seen,
    pos := if hdrJct h then .decision else .header }
/-- An own header is walked (01 R19, R21). -/
def EStream.ownSection (x : EStream) (e : Engine) (pf : Profile) (h : Word) (now : Nat) : EStream :=
  { x with
    walk := x.walk + 8, secn := x.secn + 1, yld := hdrYld h, acted := some now, widx := 0, owned := x.owned + 1, pos := .words,
    live := (x.live ++ [x.sec]).filter (fun y => hdrBpl y.hdr && y.begun && decide (x.retc ≤ y.ord)),
    sec := { hdr := h, addr := x.walk, dsec := x.secn, ord := x.owned, seen := x.seen, dqpos := x.dqpos, waits := x.waitsOf e pf h,
             begun := false, shape := 0 } }
/-- An own section of LEN 0 retires in the aclk in which its waits hold (01 R20). -/
def Strand.emptySection (st : Strand) (e : Engine) (now : Nat) : Strand :=
  let x := st.eng e
  if x.pos = .words ∧ hdrLen x.sec.hdr = 0 ∧ st.waitsMet x then st.setEng e { x.learn (st.knows e) with pos := .header, acted := some now } else st

/-- The slip window lets the stream walk its next header (01 R22). -/
def Strand.inSlip (st : Strand) (pf : Profile) (e : Engine) : Bool :=
  decide ((st.eng e).secn < (enginesOf pf).foldl (fun m y => min m (st.eng y).secn0) (st.eng .s).secn0 + st.slipw)
/-- While a request is pending, a stream that has reached a yield point waits there (01 R28): not where the `yield` word was false, nor where
some stream has already passed the point (DEDUCED, log 38). -/
def State.atYield (s : State) (ck : Nat) (e : Engine) : Bool :=
  let st := s.strand ck
  let x := st.eng e
  let sq := st.eng .s
  s.requested ck && !st.hdl && x.yld && x.pos == .header && (enginesOf (ckProfile ck)).all (fun y => decide ((st.eng y).secn ≤ x.secn)) &&
  !(sq.secn == x.secn && sq.pos == .header && (st.yieldp.map (fun y => y.secn)) != some x.secn)

/-- A header raises a trap: the stream stands before it (01 R17, R38). -/
def State.headerTrap (s : State) (ck : Nat) (e : Engine) (t : TrapInfo) : State :=
  (s.raise ck e t).modStrand ck (fun st => st.modEng e (fun x => { x with acted := some s.time }))
/-- A header is walked (01 R14, R17, R19). A section that runs past the segment's end traps here, at its header, for every stream that walks it and before
any of its words, with the header as INFO (DESIGN CHOICE, log 78: R14 says only 'at the point of the walk where it does so'). Of several faults of one header
an illegal one comes first, then an absent engine, then the segment's end (DESIGN CHOICE, log 92). -/
def State.walkHeader (s : State) (ck : Nat) (e : Engine) : State :=
  let pf := ckProfile ck
  let x := (s.strand ck).eng e
  match s.fetch ck x.walk.toNat 8 with
  | .error (.trap t) => s.headerTrap ck e t
  | .error (.fatal va) => s.fatal ck va
  | .error .wait => s
  | .ok v =>
    let h := w64 v
    if hdrIllegal h then s.headerTrap ck e { cls := .illegalSection, code := 0, info := h }
    else if (match Engine.ofNum? (hdrEng h) with | some y => !pf.has y | none => false) then s.headerTrap ck e { cls := .engineAbsent, code := 0, info := 0 }
    else if !(s.strand ck).inText ((s.strand ck).textVA x.walk.toNat) (hdrBytes h) then s.headerTrap ck e { cls := .illegalSection, code := 0, info := h }
    else s.modStrand ck (fun st =>
      if hdrEng h = e.num then (st.setEng e (x.ownSection e pf h s.time)).emptySection e s.time else st.setEng e (x.skipSection e h s.time))
/-- Whether a stream may walk a header now, or retire an empty section, also in the aclk in which it has walked its header (01 R19, R20, R22, R28). A parked or waiting word of the sequencer has not
issued, so its stream does not stand at a header. -/
def State.canWalk (s : State) (ck : Nat) (e : Engine) : Bool :=
  let st := s.strand ck
  let x := st.eng e
  s.mayRun ck && (ckProfile ck).has e &&
  (match x.pos with
   | .header => x.acted != some s.time && st.inSlip (ckProfile ck) e && !s.atYield ck e
   | .words => hdrLen x.sec.hdr == 0 && st.waitsMet x
   | _ => false)
/-- 01 R19. -/
def execHeaderWalk (ck : Nat) (e : Engine) (s : State) : Out :=
  .next (if !s.canWalk ck e then s
    else if ((s.strand ck).eng e).pos = .words then s.modStrand ck (fun st => st.emptySection e s.time)
    else s.walkHeader ck e)

/-- The sequencer resolved a junction in this aclk: its decision is taken by others from the next on (05 R117). -/
def Strand.freshDecision (st : Strand) (now : Nat) : Bool :=
  let x := st.eng .s
  x.acted == some now && hdrJct x.sec.hdr && x.secn == x.sec.dsec + 1 && x.pos != .words
/-- The decision that waits for a stream at its DQPOS (01 R26). -/
def State.nextDecision (s : State) (ck : Nat) (e : Engine) : Option Decision :=
  let st := s.strand ck
  let x := st.eng e
  let i := x.dqpos - st.dqbase
  if !s.mayRun ck || !(ckProfile ck).has e || x.pos != .decision || (st.freshDecision s.time && decide (i + 1 = st.dq.length)) then none else st.dq[i]?
/-- 01 R26, 05 R121, R122: the walk continues at the decision's address; at a loop-back the V engine rotates. The rotation is the result of a word issued
now: it lands as the next aclk begins, before a write of ROTB by a word of this aclk (DEDUCED, log 83). -/
def execTakeDecision (ck : Nat) (e : Engine) (s : State) : Out :=
  .next (match s.nextDecision ck e with
  | none => s
  | some d => s.modStrand ck (fun st =>
      let st := st.modEng e (fun x => x.takes d)
      let st := if e = .v ∧ d.kind = .loopBack then { st with later := st.later ++ [(0x1001, w64 d.rot)] } else st
      st.trimQueue (ckProfile ck)))

/-- Result `i` of a stream may land: entries of one stream register and results in one accumulator keep their order, and a result that lands in an
aclk is seen by the words that issue in it (01 R30). -/
def State.canLand (s : State) (ck : Nat) (e : Engine) (i : Nat) : Bool :=
  let x := (s.strand ck).eng e
  s.running? ck && s.early ck && (match x.flight[i]? with
    | some f => f.landable s.time && (!f.dest.shared || f.dest == .none || (x.flight.take i).all (fun g => g.dest != f.dest))
    | none => false)
/-- 01 R30, R31. -/
def execResultLands (ck : Nat) (e : Engine) (i : Nat) (s : State) : Out :=
  .next (if s.canLand ck e i then (match ((s.strand ck).eng e).flight[i]? with
    | some f => (s.modStrand ck (fun st => st.land e i)).monLanding ck f
    | none => s) else s)

end Sys2Proof.Machine
end

