-- ==== Sys2Proof/Machine/Stops.lean ====
section
/-! DEFINITION. How a strand stops and goes on (10): trap delivery, pre-emption, stop requests, context registers, resume, `end`, kills, the
snapshot words, and words that no opcode map names. -/

namespace Sys2Proof.Machine

/-- 10 R243 to R246: the trap that a word or header has raised in an earlier aclk is captured, recorded and delivered. -/
def execTrapDelivery (ck : Nat) (s : State) : Out := .next (if s.running? ck && s.capturing ck then s.deliver ck else s)
/-- A pending trap as the aclk ends (10 R249): it is delivered, unless its capture takes longer, at most 64 aclk (10 R248). -/
def State.deliverEnd (s : State) (ck : Nat) : State :=
  if (s.strand ck).slow && decide (s.time < (s.strand ck).pendW.at_ + 64) then s else s.deliver ck
/-- The capture of the strand's trap takes longer than this aclk (10 R243, R248). -/
def State.captureSlowly (s : State) (ck : Nat) : State :=
  if s.running? ck && (s.strand ck).pend.isSome then s.modStrand ck (fun st => { st with slow := true }) else s

/-- Some engine stream is inside a bypass-live section (01 R37). -/
def Strand.insideAny (st : Strand) : Bool := (st.eng .v).inside || (st.eng .m).inside
/-- Every engine stream has taken the end decision (05 R125). -/
def State.allEnded (s : State) (ck : Nat) : Bool := (enginesOf (ckProfile ck)).all (fun e => ((s.strand ck).eng e).pos == .ended)
/-- A pending request may be taken now (10 R244, R248, R249, 05 R125). -/
def State.mayPreempt (s : State) (ck : Nat) : Bool :=
  s.running? ck && s.requested ck && !(s.strand ck).hdl && !(s.strand ck).full && (s.strand ck).pend.isNone && !s.allEnded ck
/-- DLINE of a pending request has passed (10 R247): microseconds of fabric time from the posting, or 0. -/
def State.deadlinePassed (s : State) (ck : Nat) : Bool :=
  let dl := fld (s.cstop ck) 31 8
  dl == 0 || decide (Map.get 0 s.cstopAt ck + 11000 * dl ≤ s.ftime)
/-- The strand stands at its yield point (01 R28). -/
def State.standsAt (s : State) (ck : Nat) : Option YieldPoint :=
  match (s.strand ck).yieldp with
  | some y =>
    if (enginesOf (ckProfile ck)).all (fun e =>
      let x := (s.strand ck).eng e
      x.secn == y.secn && x.pos == .header && x.retc == x.owned) then some y else none
  | none => none
/-- 10 R248: taken at a yield point before the deadline. The streams stand still, and the save is made as the aclk ends, for a kill of the aclk comes before it
(10 R249). -/
def execPreemptYield (ck : Nat) (s : State) : Out :=
  .next (if s.mayPreempt ck && !s.deadlinePassed ck && (s.standsAt ck).isSome then s.modStrand ck (fun st => { st with closing := true }) else s)
/-- 10 R248: the deadline passes and a full save begins, deferred while a stream is inside a bypass-live section (01 R37): the streams stop as this aclk
ends, since a trap of the aclk and the last end decision come before it (10 R249). -/
def execPreemptDeadline (ck : Nat) (s : State) : Out :=
  .next (if s.mayPreempt ck && s.deadlinePassed ck && !(s.strand ck).insideAny then
      s.modStrand ck (fun st => { st with full := true, fullAt := s.time + 1 }) else s)
/-- A full save that began in this aclk is given up where the aclk has taken a stream into a bypass-live section, or the last stream to its end (01 R37, 10 R249). -/
def State.settleFull (s : State) (ck : Nat) : State :=
  if (s.strand ck).full && !s.stopping ck && ((s.strand ck).insideAny || s.allEnded ck) then s.modStrand ck (fun st => { st with full := false }) else s
/-- 10 R248: the full save. Every result in flight lands in it (01 R33). -/
def execFullSave (ck : Nat) (s : State) : Out :=
  .next (if s.running? ck && s.stopping ck && (s.strand ck).pend.isNone then s.saveStop ck none [] 2 else s)

/-- REQ written 1 (10 R247): the first deadline stands; at a context without a running strand the request is answered at once. -/
def State.cstopPost (s : State) (ck dline : Nat) : State :=
  if s.requested ck then s
  else
    let s := s.setCstop ck (setFld (s.cstop ck) 31 8 dline)
    if !s.running? ck then s.answer ck 9
    else { (s.setCstop ck (setBit (s.cstop ck) 0 true)) with cstopAt := Map.put s.cstopAt ck s.ftime }
/-- REQ written 0 (10 R247): a request not yet taken is withdrawn. -/
def State.cstopTakeBack (s : State) (ck : Nat) : State := if s.requested ck ∧ !(s.strand ck).full then s.answer ck 8 else s
/-- KILL written 1 (10 R247). -/
def State.cstopKillAt (s : State) (ck : Nat) : State :=
  if ctxValid (s.ctx ck) then s.killWith ck { cls := .softwareKill, code := 0, info := 0 } else s.answer ck 9
/-- A write of CSTOP (10 R247): DONE is cleared by a 1; a kill comes before a request (10 R249); DLINE takes the written value, but a second request leaves
the first deadline. -/
def State.cstopWrite (s : State) (ck : Nat) (v : Word) : State :=
  let s := if bit v 40 then s.setCstop ck (setBit (s.cstop ck) 40 false) else s
  if bit v 1 then (s.setCstop ck (setFld (s.cstop ck) 31 8 (fld v 31 8))).cstopKillAt ck
  else if bit v 0 then s.cstopPost ck (fld v 31 8)
  else
    let s := if s.requested ck then s.cstopTakeBack ck else s
    s.setCstop ck (setFld (s.cstop ck) 31 8 (fld v 31 8))
/-- The context stands on a core of the package. -/
def realCtx (ck : Nat) : Bool := (profileOf (ckDie ck) (ckCore ck)).isSome
def execCstopReq (ck : Nat) (dline : BitVec 24) (s : State) : Out := .next (if realCtx ck then s.cstopPost ck dline.toNat else s)
def execCstopWithdraw (ck : Nat) (s : State) : Out := .next (if realCtx ck then s.cstopTakeBack ck else s)
def execCstopKill (ck : Nat) (s : State) : Out := .next (if realCtx ck then s.cstopKillAt ck else s)
/-- 10 R239, R247: an uncontained hardware error; of the management controller it fails the package (21 R424). -/
def execMachineCheck (ck : Nat) (s : State) : Out :=
  .next (if realCtx ck ∧ ctxValid (s.ctx ck) then
    let s := s.killWith ck { cls := .machineCheck, code := 0, info := 0 }
    if ckDie ck = 8 then (s.healthTo id false true).packageFailed else s
  else s)

/-- A matrix operation read back from its record (09 R238), at the word its engine stream issued last. -/
def State.matRecord (s : State) (ck r : Nat) : MatOp :=
  let st := s.strand ck
  let x := st.eng .m
  let w := W5.ofBits (BitVec.ofNat 96 (r / 2 ^ 16 % 2 ^ 80))
  let i := if x.widx = 0 then hdrLen x.sec.hdr - 1 else x.widx - 1
  let m : MatOp :=
    { kind := MatKind.ofOp (r / 2 ^ 170 % 2 ^ 8), w, lb := r / 2 ^ 96 % 8, ashape := BitVec.ofNat 10 (r / 2 ^ 111), bv := r / 2 ^ 121 % 2 ^ 24,
      ms := r / 2 ^ 145 % 2 ^ 24, need := 0, got := 0, abits := 0, alen := 0, kdone := r / 2 ^ 99 % 2 ^ 12, flags := BitVec.ofNat 7 (r / 2 ^ 178),
      dsec := x.sec.dsec, widx := i, text := x.sec.addr.toNat + 8 + 12 * i }
  let pf := ckProfile ck
  let eb := entryBits (st.stream w.qa.toNat).ety
  if m.kind.array then { m with need := ceilDiv (m.aBits pf) eb - m.entryOf pf eb m.kdone } else m
/-- A bank command issued again (16 R352): where its checks fail now, it completes at once and the context error bit is set. -/
def State.bankAgain (s : State) (ck : Nat) (kind : BankKind) (w : W6) (a b c doneI : Word) : State :=
  match s.bankPlan ck kind w a b c doneI false with
  | .ok o => s.bankIssue o
  | .error _ => s.modStrand ck (fun st =>
      let st : Strand := { st with cerr := true }
      if bkSP w then st.complete (bkHN w) else st)
/-- One pending-operation record taken up again (10 R250); `r2` is the record after it. Work of the executing context. -/
def State.reissue (s : State) (r r2 : Nat) : State :=
  let ck := s.cur.ck
  match r % 256 with
  | 0x10 =>
    let ea := r / 2 ^ 16 % 2 ^ 64
    let n := 2 ^ (r / 2 ^ 80 % 4)
    let d := r / 2 ^ 84 % 32
    match s.loadRange ck ea n with
    | .ok (v, p) =>
      let x := if r.testBit 83 then BitVec.ofInt 64 (sval (8 * n) v) else w64 v
      let s := s.countRange ck ea n false
      if d = 0 then s else s.modStrand ck (fun st => st.write .a (.a d) (.word x p))
    | .error (.fatal va) => s.post ck va.toNat (.miss true)
    | .error _ => s
  | 0x11 =>
    let d := r / 2 ^ 80 % 32
    if d = 0 then s else s.modStrand ck (fun st => st.write .a (.a d) (.word (w64 (r / 2 ^ 16)) (r.testBit 87)))
  | 0x20 =>
    let sh := (s.strand ck).vshape
    let row := shNc sh * shEw sh / 8
    let n := r / 2 ^ 79 % 2 ^ 12
    s.addOp false 0 (.vld (r / 2 ^ 16 % 2 ^ 48) (if n ≠ 0 then n else if r.testBit 64 then row * shNr sh else row) (r / 2 ^ 65 % 64) (r / 2 ^ 71 % 256) (r.testBit 64) none)
  | 0x30 => s.addOp false 0 (.mat (s.matRecord ck r))
  | 0x40 =>
    let fn := BitVec.ofNat 11 (r / 2 ^ 16)
    let imm := BitVec.ofNat 48 (r / 2 ^ 27)
    s.addOp (cpSP fn) (cpHN imm) (.copy
      { kind := CopyKind.ofOp (r / 2 ^ 75 % 2 ^ 8), fn, imm, a := w64 (r / 2 ^ 83), b := w64 (r / 2 ^ 147), c := w64 (r2 / 2 ^ 16),
        done := r2 / 2 ^ 80 % 2 ^ 64, gen := (s.strand ck).tgb, tabs := s.tabs })
  | 0x70 =>
    s.bankAgain ck (BankKind.ofOp (r / 2 ^ 224 % 2 ^ 8)) (W6.ofBits (BitVec.ofNat 96 (r / 2 ^ 16 % 2 ^ 80))) (w64 (r2 / 2 ^ 16)) (w64 (r2 / 2 ^ 80))
      (w64 (r / 2 ^ 96)) (w64 (r / 2 ^ 160))
  | _ => s
/-- An `rqstat` that a stop has met in flight is performed again (20 R414). -/
def State.restat (s : State) (ck : Nat) (l : HeldLoad) : State :=
  match l.dest with
  | .s _ =>
    let q := fld l.ea 17 0
    let v := if s.rqLive q ∧ rqPart (s.rq q) = (ctxPart (s.ctx ck)).toNat then w64 (fld (s.rq q) 63 0) else 0
    s.modStrand ck (fun st => st.write .s l.dest (.word v false))
  | _ => s
/-- Operations that went on while their strand was stopped reach it (15 R323, 23 R449). -/
def State.reattach (s : State) (ck key : Nat) : State :=
  let mine (o : Op) : Bool := o.saved == some key && !o.dead
  let done := s.ops.filter (fun o => mine o && o.fin)
  let s : State := { s with ops := s.ops.filterMap (fun o =>
    if mine o then (if o.fin then none else some { o with ck, saved := none }) else some o) }
  done.foldl (fun s o => s.modStrand ck (fun st => st.finished o)) s
/-- The text segment of a strand of which only the bytes of its area are known: that of the first kernel in the table with the context's ASID and partition whose
text holds the walk of its sequencer (01 R14, 12 R263; DEDUCED, log 24). -/
def State.textOf (s : State) (ck : Nat) (walk : BitVec 48) : Option (Nat × Nat) :=
  (List.range 1024).findSome? (fun k =>
    if s.kernelValid k && s.kernelAsid k == ctxAsid (s.ctx ck) && s.kernelPart k == ctxPart (s.ctx ck) then
      let a := (s.ktabImage k).toNat + s.imageBytes k 8 8
      let z := s.imageBytes k 16 8
      if a % 2 ^ 48 ≤ walk.toNat ∧ walk.toNat < a % 2 ^ 48 + z then some (a, z) else none
    else none)
/-- The strand in the save area goes on in context `ck` (10 R250): state, a new bind aclk (06 R134), its pending operations, and its
request for the level it held (15 R327). -/
def State.resume (s : State) (ck : Nat) : State :=
  let key := s.areaKey ck
  let keptM := (s.kept ck).eng .m
  let stats := (s.kept ck).loads
  let known := (Map.get? s.saved key).isSome
  let st := s.restoreStrand ck
  let np := if ckProfile ck = .mc then 0 else min (s.areaRead ck 0x68 1 % 2 ^ 16) 256
  let recs := (List.range np).map (fun i => s.areaRead ck (0x2000 + 0x20 * i) 4)
  let st : Strand := { st with
    text := st.text.or (s.textOf ck (st.eng .s).walk), sid := if known then st.sid else s.nextId, level := none, bandW := true, bindAt := s.time, bindFt := s.fabricTime, es := st.es.map (fun p => (p.1, { p.2 with acted := some s.time })) }
  let s : State := { s.setStrand ck st with cur := ⟨ck, .s⟩, nextId := s.nextId + 1 }
  let s := stats.foldl (fun s l => s.restat ck l) (s.reattach ck key)
  let s := (List.range np).foldl (fun s i => s.reissue (recs.getD i 0) (recs.getD (i + 1) 0)) s
  let s := s.rehold ck (s.syncMats ck) keptM
  let s : State := { s with saved := Map.del s.saved key }
  match recs.find? (fun r => r % 256 == 0x60) with
  | some r =>
    let l := r / 2 ^ 16 % 256
    let s := s.modDie (ckDie ck) (fun d => { d with waitPwr := d.waitPwr ++ [(ck, l, true)] })
    if s.budget (ckDie ck) < l then s.raise ck .s { cls := .powerExceeded, code := 0, info := w64 l } else s
  | none => s
/-- The save area may be resumed on the core (10 R250). -/
def State.resumable (s : State) (ck : Nat) : Bool :=
  let hd := s.areaRead ck 0 1
  hd % 2 ^ 32 == 1 && hd / 2 ^ 32 % 4 == (ckProfile ck).code
/-- A write of CTX (06 R134, 10 R250): none while the strand runs; none that would bind to a crown core whose gate is not on (15 R322).
A refused bind leaves the fields written, with VALID = 1 and STOP = 1 (DESIGN CHOICE, log 104). -/
def State.ctxWrite (s : State) (ck : Nat) (v : Word) : State :=
  let v := v &&& 0x0FFFFF1F
  if !realCtx ck || s.running? ck then s
  else if ctxValid v && !ctxStop v then
    if ckProfile ck = .crown ∧ s.gate (ckDie ck) (ckCore ck - 16) ≠ 0 then s
    else if s.resumable ck then (s.setCtx ck v).resume ck
    else (s.setCtx ck (setBit v 1 true)).answer ck 7
  else if !ctxValid v then { s.setCtx ck v with strands := Map.del s.strands ck }
  else s.setCtx ck v
/-- 10 R250: a write of VALID = 1 and STOP = 0. -/
def execCtxBindResume (ck : Nat) (v : Word) (s : State) : Out := .next (s.ctxWrite ck (setBit (setBit v 0 true) 1 false))
/-- 06 R134: a write of VALID = 0 to a context whose STOP = 1. -/
def execCtxRelease (ck : Nat) (s : State) : Out :=
  .next (if ctxValid (s.ctx ck) && ctxStop (s.ctx ck) then s.ctxWrite ck (setBit (s.ctx ck) 0 false) else s)

/-- A strand that ends inside a handler abandons its trapped work, but the operations issued with LB 7 and the bindings that the trap suspended
are still waited for, so they go on (05 R125, 10 R245; DEDUCED, log 39). -/
def State.abandon (s : State) (ck : Nat) : State :=
  let s := s.modStrand ck (fun st => { st with hdl := false })
  let done := s.ops.filter (fun o => o.mine ck && o.fin)
  let s : State := { s with ops := s.ops.filterMap (fun o =>
    if o.mine ck ∧ o.held then
      (if o.fin || (match o.kind with | .mat m => m.lb != 7 | _ => false) then none else some { o with held := false })
    else some o) }
  done.foldl (fun s o => s.modStrand ck (fun st => st.finished o)) s
/-- The waits of `end` (05 R125): every section retired, every operation complete, every OUT binding drained. -/
def State.endWaits (s : State) (ck : Nat) : Bool :=
  let st := s.strand ck
  (enginesOf (ckProfile ck)).all (fun e => (st.eng e).flight == []) && !s.ops.any (fun o => o.mine ck) && !st.outPending &&
  st.posts == [] && s.posted.all (fun p => p.ck != ck)
/-- 05 R125, 12 R265, R270: what the strand does once its waits are over. -/
def State.strandEnds (s : State) (ck : Nat) : State :=
  match s.publish ck with
  | .error (.fatal va) => s.fatal ck va
  | .error _ => s
  | .ok s =>
    let g := s.me? ck
    let st := s.strand ck
    let s := (s.removeGroups g.part st.groups).arrive g st.bar 0 st.fstat
    let s := s.modDie (ckDie ck) (fun d => { d with waitPwr := d.waitPwr.filter (fun p => p.1 != ck) })
    (if s.requested ck then s.answer ck 5 else s).freeCtx ck
def execStrandEnd (ck : Nat) (s : State) : Out :=
  .next (if !s.running? ck || !s.allEnded ck || (s.strand ck).pend.isSome || (s.strand ck).full then s
    else if (s.strand ck).hdl then s.abandon ck
    else if s.endWaits ck then s.modStrand ck (fun st => { st with closing := true }) else s)
/-- The end of an aclk ends a strand whose waits are over, or stops it at its yield point with a compact save (05 R125, 10 R248, R249). -/
def State.close (s : State) (ck : Nat) : State :=
  if !s.running? ck || !(s.strand ck).closing then s
  else
    let t := s.modStrand ck (fun st => { st with closing := false })
    if t.allEnded ck then (if t.endWaits ck then t.strandEnds ck else t)
    else match t.standsAt ck with
      | some y => t.saveStop ck (some y) [] 1
      | none => t

/-- The context that a snapshot word names (10 R251, R252): of core IMM48[7:3] of the issuing die. -/
def State.snapTarget (s : State) (imm : BitVec 48) : Nat := ckOf s.myDie (fld imm 7 3) (fld imm 2 0)
/-- 10 R251. A core that the die lacks has no save area: the value is free (log 40). -/
def execSnaprd (h : Head) (w : W6) (s : State) : Out :=
  word (.snaprd h w) h s (fun s => do
    let o ← s.rd w.b 1
    if o.toNat % 8 ≠ 0 then .error (trapOf .alignment o) else .ok ()
    let ck := if bit w.fn 0 then s.snapTarget w.imm else s.cur.ck
    .ok (if !realCtx ck then Config.undefWord s.free 7
      else if 0x80 + areaBytes (ckProfile ck) ≤ o.toNat then 0 else w64 (s.areaDword ck o.toNat)))
    (fun v s => s.result h w.a v false)
/-- Whether `snapwr` may write dword `o` (10 R252). -/
def State.snapOk (s : State) (ck o : Nat) (c : Word) : Bool :=
  realCtx ck &&
  (if o = 0 ∨ o = 8 then true
   else if o < 0x80 then false
   else if !ctxValid (s.ctx ck) || !ctxStop (s.ctx ck) then false
   else if 0x80 + areaBytes (ckProfile ck) ≤ o then false
   else if o = 0x80 then fld c 31 0 == 1 && fld c 33 32 == (ckProfile ck).code
   else true)
/-- 10 R252. -/
def execSnapwr (h : Head) (w : W6) (s : State) : Out :=
  word (.snapwr h w) h s (fun s => do
    let o ← s.rd w.b 1
    let c ← s.rd w.c 2
    if o.toNat % 8 ≠ 0 then .error (trapOf .alignment o) else .ok ()
    .ok (o.toNat, c))
    (fun p s =>
      let ck := s.snapTarget w.imm
      let ok := s.snapOk ck p.1 p.2
      let s := if ok then s.wrPhys (ckDie ck) ((s.snapa ck + 2 ^ 46 + p.1 - 0x80) % 2 ^ 46) p.2.toNat 8 else s
      s.resultP h w.a ok)

/-- 02 R53, R62: the word at the executing stream has an opcode that its engine's map does not assign, whatever its predicate. A word that a
handler's return skips passes (10 R245). -/
def execUnassignedOpcode (_e : Engine) (raw : BitVec 96) (s : State) : Out :=
  if s.skipped then .next ((s.modMe (fun st => { st with skip := none })).pass (.nop (Head.ofBits raw) (W1.ofBits raw)))
  else stopped s (.trap { cls := .illegalInstruction, code := 0, info := raw.extractLsb' 32 64 })

end Sys2Proof.Machine
end

