-- ==== Sys2Proof/Machine/Device.lean ====
section
/-! DEFINITION. Device register space (07 R163): what a read of each register yields and what a write does. Registers that an operation of its own
governs are written through that operation. -/

namespace Sys2Proof.Machine

/-- The core block that a die offset lies in, and the offset within it (06 R156); none where no core stands. -/
def coreReg (d off : Nat) : Option (Nat × Nat) :=
  if 0x300000000000 ≤ off ∧ off < 0x300000200000 then
    let c := (off - 0x300000000000) / 0x10000
    if (profileOf d c).isSome then some (c, off % 0x10000) else none
  else none
/-- Block `k` of device register space is reached only from PRIV = 1 (06 R156, 15 R317, 16 R351, 17 R353, 20 R392, 21 R416, R425, 23 R436);
CSTOP, KTAB and POOL lie behind a mapping alone (10 R247, 12 R263). -/
def privBlock (off : Nat) : Bool :=
  let k := off / 2 ^ 40
  (k == 0x30 && decide (off < 0x300000200000)) || k == 0x32 || k == 0x33 || k == 0x34 || k == 0x36 || k == 0x39 || k == 0x3A || k == 0x3B

/-- The 64 bits at a register's offset, aligned to 8, as a read sees them (07 R163). -/
def State.devValue (s : State) (d off : Nat) : Word :=
  let k := off / 2 ^ 40
  if k = 0x30 then
    match coreReg d off with
    | some (_, o) => if o = 0x20 then w64 (s.time % 32) else s.dget d off
    | none => 0
  else if k = 0x32 then
    if 2 ≤ d then 0
    else if off = 0x320000000000 then
      setFld (setFld (s.dget d off) 31 16 (min (s.granted d) 65535)) 47 32 (min (s.waiting d) 65535)
    else s.dget d off
  else if k = 0x33 then
    if d < 2 ∨ 8 ≤ d then 0
    else if 0x330000001000 ≤ off ∧ off < 0x330000005000 ∧ !(decide (0x330000002000 ≤ off) && decide (off < 0x330000002400)) then
      w64 (fld (s.bankst d ((off - 0x330000001000) / 8)) 2 0 + fld (s.dget d off) 3 3 * 8)
    else s.dget d off
  else if k = 0x34 then
    if 8 ≤ d then 0
    else if 0x340000000200 ≤ off ∧ off < 0x340000000300 then
      (if d < 2 then 0 else w64 (Map.get [] (s.die d).freeL ((off - 0x340000000200) / 8)).length)
    else s.dget d off
  else if k = 0x3F then 0
  else s.dget d off

/-- A read of 4 or 8 bytes, aligned (07 R163): state after it, value. A read of FLPOP pops (17 R370). -/
def State.devRead (s : State) (d off n : Nat) : State × Nat :=
  let b := off / 8 * 8
  let half (v : Nat) : Nat := v / 2 ^ (8 * (off % 8)) % 2 ^ (8 * n)
  if 0x340000000100 ≤ b ∧ b < 0x340000000200 then
    let r := s.flpop d ((b - 0x340000000100) / 8)
    (r.1, half r.2.toNat)
  else (s, half (s.devValue d b).toNat)

/-- The bits of `n` bytes at offset `lo` of a register. -/
def bytesMask (lo n : Nat) : Word := w64 ((2 ^ (8 * n) - 1) * 2 ^ (8 * lo))
/-- Bits `hi` down to `lo`. -/
def bitsMask (hi lo : Nat) : Word := w64 ((2 ^ (hi + 1 - lo) - 1) * 2 ^ lo)
/-- The bits of a plain register that a write sets: those its map marks RW. -/
def devMask (d off : Nat) : Word :=
  let k := off / 2 ^ 40
  let dd := decide (2 ≤ d) && decide (d < 8)
  if k = 0x32 ∧ d < 2 then (if off = 0x320000000000 ∨ off = 0x320000000008 then 0xFFFF else 0)
  else if k = 0x33 ∧ dd then
    if off = 0x330000000010 ∨ off = 0x330000000018 then 0x3FFFFF
    else if 0x330000002000 ≤ off ∧ off < 0x330000002400 then BitVec.allOnes 64 else 0
  else if k = 0x34 ∧ d < 8 then
    match off - 0x340000000000 with
    | 0x008 => 0x7777777777777777
    | 0x010 => 1 ||| bitsMask 45 12
    | 0x018 => 0x1FF
    | 0x020 => bitsMask 45 12
    | 0x028 => bitsMask 31 0 ||| bitsMask 48 48
    | 0x030 => bitsMask 47 0
    | 0x038 => 3 ||| bitsMask 45 12
    | 0x040 => 0xFFFFFF
    | 0x048 => 0x1FFF
    | 0x060 => if dd then bitsMask 45 12 else 0
    | 0x300 => bitsMask 31 0
    | _ => 0
  else if d ≠ 8 then 0
  else if k = 0x39 then
    let o := off - 0x390000000000
    if o = 0 then 1 ||| bitsMask 49 25
    else if 0x100 ≤ o ∧ o < 0x500 then
      match o % 0x40 with
      | 0x00 => bitsMask 63 12
      | 0x08 => bitsMask 15 0 ||| bitsMask 48 32
      | 0x10 => bitsMask 63 12
      | 0x18 => bitsMask 31 0 ||| bitsMask 48 48
      | 0x20 => bitsMask 9 0 ||| bitsMask 25 16
      | 0x28 => bitsMask 17 0 ||| bitsMask 41 24
      | _ => 0
    else if 0x800 ≤ o ∧ o < 0x8C0 then
      match o % 0x20 with
      | 0x00 => bitsMask 45 12
      | 0x08 => bitsMask 15 0 ||| bitsMask 47 32
      | _ => 0
    else 0
  else if k = 0x3B then
    let o := off - 0x3B0000000000
    if o = 8 then 0x1FFF
    else if 0x80 ≤ o ∧ o < 0xC0 then 3
    else if 0x100 ≤ o ∧ o < 0x200 then 0x7F
    else if 0x2000 ≤ o ∧ o < 0x2400 then
      (match o % 0x40 / 8 with | 4 => bitsMask 36 0 | i => if i < 4 then BitVec.allOnes 64 else 0)
    else 0
  else 0
/-- The bits `m` of a register take those of `v`. -/
def State.dset (s : State) (d off : Nat) (m v : Word) : State :=
  if m = 0 then s else s.dput d off ((s.dget d off &&& ~~~m) ||| (v &&& m))

/-- Bytes `lo` to `lo + n - 1` of a dword of SLOTT of core `c` written: an entry that names SLOT 5 to 7 is refused. The entry that governs the aclk goes on
governing it (06 R152). -/
def State.slottWrite (s : State) (d c off lo n : Nat) (v : Word) : State :=
  let key := coreKey d c
  let s : State := if (Map.get? s.slotOld key).isSome then s else { s with slotOld := Map.put s.slotOld key (s.slotNamed d c) }
  (List.range n).foldl (fun s i =>
    let at_ := 8 * (lo + i)
    let x := fld v (at_ + 7) at_
    if 5 ≤ x % 8 then s else s.dmod d off (fun w => setFld w (at_ + 7) at_ (x % 16))) s
/-- A write of WIN[k] (06 R156): none beyond the vault, nor while a strand of the slot runs. TCNT is kept as written, also from 257 on, for which the map states
nothing (DESIGN CHOICE, log 79). -/
def State.winWrite (s : State) (d c k : Nat) (m v : Word) : State :=
  let w := (s.dget d (winOff c k) &&& ~~~m) ||| (v &&& m &&& bitsMask 32 0)
  if vaultBytes d < (winVbase w + winVsize w) * 0x10000 then s
  else if (List.range 8).any (fun x => s.running? (ckOf d c x) && ctxSlot (s.ctx (ckOf d c x)) == k) then s
  else s.dput d (winOff c k) w
/-- A write inside a core register block (06 R156). -/
def State.coreWrite (s : State) (d c o lo n : Nat) (m v : Word) : State :=
  if o < 0x20 then s.slottWrite d c (coreBlock c + o) lo n v
  else if 0x100 ≤ o ∧ o < 0x180 then
    let x := (o - 0x100) / 0x10
    if o % 0x10 = 0 then (if lo = 0 then s.ctxWrite (ckOf d c x) (v &&& m) else s)
    else s.dset d (snapaOff c x) (m &&& bitsMask 45 12) v
  else if 0x200 ≤ o ∧ o < 0x220 then s.winWrite d c ((o - 0x200) / 8) m v
  else s
/-- A request of partition `p` is live, or of any. -/
def State.partLive (s : State) (p : Option Nat) : Bool :=
  s.rqIds.any (fun q => s.rqLive q && (match p with | some p => decide (rqPart (s.rq q) = p) | none => true))
/-- A write inside the request block (20 R392). -/
def State.rqWrite (s : State) (off : Nat) (m v : Word) : State :=
  let o := off - 0x390000000000
  let held := if o = 0 then s.partLive none
    else if 0x100 ≤ o ∧ o < 0x500 ∧ (o % 0x40 = 0x20 ∨ o % 0x40 = 0x28) then s.partLive (some ((o - 0x100) / 0x40)) else false
  if held then s else s.dset 8 off (m &&& devMask 8 off) v
/-- A write inside the launch tables (12 R263): while the launch unit holds no record of the kernel, that of KTAB or that whose pool the POOL entry names the context for
(DEDUCED, log 94), and for POOL while the context is not VALID. -/
def State.launchWrite (s : State) (off : Nat) (m v : Word) : State :=
  if off < 0x380000008000 then
    let k := (off - 0x380000000000) / 0x20
    if s.queues.any (fun r => r.kid == k) then s
    else match off % 0x20 / 8 with
      | 0 => s.dset 8 off m v
      | 1 => s.dset 8 off (m &&& bitsMask 20 0) v
      | _ => s
  else if 0x380100000000 ≤ off ∧ off < 0x380100000000 + 8 * 2304 then
    let i := (off - 0x380100000000) / 8
    let old := s.dget 8 off
    if ctxValid (s.ctx (ckOf (i / 256) (i / 8 % 32) (i % 8))) || (bit old 16 && s.queues.any (fun r => r.kid == fld old 9 0)) then s
    else s.dset 8 off (m &&& (bitsMask 9 0 ||| bitsMask 32 16)) v
  else s
/-- A write inside the hub management block (21 R416). -/
def State.hubWrite (s : State) (off : Nat) (m v : Word) : State :=
  let o := off - 0x3A0000000000
  if o < 0x800 then s.hwinSet (o / 0x20) [(o % 0x20 / 8, (s.dget 8 off &&& ~~~m) ||| (v &&& m))]
  else if o < 0x880 then s.partctlWrite ((o - 0x800) / 8) ((s.partctl ((o - 0x800) / 8) &&& ~~~m) ||| (v &&& m))
  else if off = supemOff then (if fld (v &&& m) 31 16 = 0 then s else s.dmod 8 supemOff (fun w => setFld w 31 16 0))
  else if o = 0x908 then (s.dset 8 off (m &&& bitsMask 13 0) v).health id
  else s
/-- A write of 4 or 8 bytes, aligned (07 R163). The bytes not written keep their bits; a command whose bits lie in the low half is not given by
a write of the high half alone. -/
def State.devWrite (s : State) (d off n : Nat) (v : Word) : State :=
  let b := off / 8 * 8
  let lo := off % 8
  let m := bytesMask lo n
  let v : Word := v <<< (8 * lo)
  match off / 2 ^ 40 with
  | 0x30 => match coreReg d b with | some (c, o) => s.coreWrite d c o lo n m v | none => s
  | 0x31 =>
    let c := (b - 0x310000000000) / 0x100
    let o := b % 0x100
    if 0x310000002000 ≤ b ∨ (profileOf d c).isNone ∨ o % 0x10 ≠ 0 ∨ 0x80 ≤ o then s
    else
      let ck := ckOf d c (o / 0x10)
      s.cstopWrite ck ((setBit (s.cstop ck) 40 false &&& ~~~m) ||| (v &&& m))
  | 0x32 =>
    if d < 2 ∧ 0x320000000200 ≤ b ∧ b < 0x320000000280 then (if lo = 0 then s.vfctl d ((b - 0x320000000200) / 8) v else s)
    else s.dset d b (m &&& devMask d b) v
  | 0x33 =>
    if lo = 0 ∧ b = 0x330000000000 then s.kvbound d v
    else if lo = 0 ∧ b = 0x330000000008 then s.bcmdWrite d v
    else if lo = 0 ∧ b = 0x330000000020 then s.bmctl d v
    else s.dset d b (m &&& devMask d b) v
  | 0x34 =>
    if lo = 0 ∧ b = 0x340000000050 then s.rcctl d v else s.dset d b (m &&& devMask d b) v
  | 0x36 => if b < 0x360000004000 ∧ b % 0x100 = 0 ∧ lo = 0 then s.monWrite d ((b - 0x360000000000) / 0x100) v else s
  | 0x38 => if d = 8 then s.launchWrite b m v else s
  | 0x39 => if d = 8 then s.rqWrite b m v else s
  | 0x3A => if d = 8 then s.hubWrite b m v else s
  | 0x3B => if d = 8 ∧ b = fabOff 0 then (if lo = 0 then s.fidPut v else s)
    else if d = 8 ∧ isFabTab (8 * 2 ^ 46 + b) then s.fabPut b ((s.dget 8 b &&& ~~~(m &&& devMask d b)) ||| (v &&& m &&& devMask d b))
    else s.dset d b (m &&& devMask d b) v
  | _ => s
/-- 07 R163: a write to a device register, by its die and die offset. -/
def execRegisterWrite (addr : Nat) (four : Bool) (v : Word) (s : State) : Out :=
  let d := addr / 2 ^ 46
  let off := addr % 2 ^ 46
  let n := if four then 4 else 8
  .next (if d < 9 ∧ 0x300000000000 ≤ off ∧ off % n = 0 then s.devWrite d off n (if four then v &&& 0xFFFFFFFF else v) else s)

/-- The partition that a virtual function reaches, and the partitions of a physical one (21 R415). -/
def State.partsOf (s : State) (fn : Nat) : List Nat :=
  (List.range 16).filter (fun p => if fn % 33 = 0 then bit (s.partctl p) 0 && s.portOf p == fn / 33 else (s.functionsOf p).contains fn)
/-- The register of the hub request block that an offset of BAR0 of a function names (21 R415): of a physical function, by its offset in that block, one of a
partition of its port; of a virtual function SQCTL or CQCTL, by its offset in the partition's part of the block (DESIGN CHOICE, log 80). -/
def State.barReg (s : State) (fn off : Nat) : Option Nat :=
  if !s.portsOn then none
  else if fn % 33 = 0 then (if 0x100 ≤ off ∧ off < 0x500 ∧ (s.partsOf fn).contains ((off - 0x100) / 0x40) then some (rqOff off) else none)
  else match s.partsOf fn with
    | p :: _ => if off / 8 = 1 ∨ off / 8 = 3 then some (partOff p off) else none
    | [] => none
/-- BAR0 of the physical function of port 0 in recovery (21 R426; DESIGN CHOICE, log 96): the load area, then RELOAD. -/
def State.barLoads (s : State) (fn : Nat) : Bool := fn == 0 && fld (s.dget 8 fwstOff) 1 0 == 2
def reloadOff : Nat := 0x4000000
/-- A host's read of BAR0 of a function: HSTATE at 0 (21 R415, R423; DESIGN CHOICE, log 80), in recovery the load area (21 R426). -/
def State.barRead (s : State) (fn off : Nat) : Word :=
  if s.barLoads fn then (if off < reloadOff then w64 (Mem.readLE s.loadArea off 8) else 0)
  else if !s.portsOn then 0
  else if off = 0 then s.hstate else match s.barReg fn off with | some r => s.devValue 8 r | none => 0
/-- A host's write of 4 or 8 bytes, aligned, to BAR0 of a function (21 R415); 1 written to RELOAD has the ROM check what was loaded (21 R426). -/
def State.barWrite (s : State) (fn off : Nat) (four : Bool) (v : Word) : State :=
  let n := if four then 4 else 8
  if s.barLoads fn then
    if off % n ≠ 0 then s
    else if off < reloadOff then { s with loadArea := Mem.writeLE s.loadArea off v.toNat n }
    else if off = reloadOff ∧ v &&& 0xFFFFFFFF = 1 then s.boot s.loaded else s
  else match s.barReg fn off with
  | some r => if fn < 66 ∧ off % n = 0 then s.devWrite 8 r n (if four then v &&& 0xFFFFFFFF else v) else s
  | none => s

/-- What the sensors set (15 R317, 16 R351): MEAS and ACT of a P-core, HOT of a bank; and ASIDBASE of die 8, whose register block the spec does not place
(17 R353, log 82). -/
def State.sense (s : State) (addr : Nat) (v : Word) : State :=
  let d := addr / 2 ^ 46
  let off := addr % 2 ^ 46
  if d < 2 ∧ 0x320000000100 ≤ off ∧ off < 0x320000000180 ∧ off % 8 = 0 then s.dput d off (v &&& 0xFFFF)
  else if 2 ≤ d ∧ d < 8 ∧ 0x330000001000 ≤ off ∧ off < 0x330000005000 ∧ off % 8 = 0 ∧
      !(decide (0x330000002000 ≤ off) && decide (off < 0x330000002400)) then s.dput d off (v &&& 8)
  else if d = 8 ∧ off = 0x340000000010 then s.dset d off (1 ||| bitsMask 45 12) v
  else s

end Sys2Proof.Machine
end

