-- ==== Sys2Proof/Machine/Access.lean ====
section
/-! DEFINITION. The access engine (07): scalar loads and stores, stream bindings, `probe`, atomics, acquire loads, release stores and `waita`. -/

namespace Sys2Proof.Machine

/-- The access of `n` bytes at `ea` reaches a device register (07 R163): die and offset, or the translation failure of an access that the space
does not take, or that a context without PRIV makes to a privileged block (log 10). -/
def State.devPlace (s : State) (ea : Word) (n : Nat) (write : Bool) : Except Stop (Option (Nat × Nat)) :=
  match s.place s.myAsid s.myPart ea.toNat write with
  | .ok (.dev d off) =>
    if (n = 4 ∨ n = 8) ∧ ea.toNat % n = 0 ∧ (s.myPriv ∨ !privBlock off) then .ok (some (d, off)) else .error (.fatal ea)
  | _ => .ok none
/-- The post-increment of a load or store (02 R47): lands in the aclk after issue. -/
def State.postInc (s : State) (h : Head) (w : W2) (base : Word) : State :=
  if w.pi then s.put { h with lb := 0 } (destOf w.base) (.word (base + sx w.off) false) 0 else s

/-- A word that needs a request slot waits for one (07 R170). -/
def State.slotWait (s : State) : Except Stop Unit := if s.slotFree s.cur.ck then .ok () else .error .wait
/-- What a load finds as it issues: a register's value, bytes, or that the value comes with requests of its own: in late mode (13 R295), or where translation
fails, whose failure comes back as a response (17 R360). -/
inductive LoadPlan where
  | dev (s : State) (v : Nat)
  | now (s : State) (v : Nat) (mark : Bool)
  | later

def State.loadPlan (s : State) (ea : Word) (n : Nat) (posts : Bool) : Except Stop LoadPlan := do
  match s.devPlace ea n false with
  | .ok (some (d, off)) => let r := s.devRead d off n; .ok (.dev r.1 r.2)
  | .error (.fatal _) => .ok .later
  | .error e => .error e
  | .ok none =>
    if posts then .ok .later
    else match s.loadRange s.cur.ck ea.toNat n with
      | .ok r => .ok (.now (s.countRange s.cur.ck ea.toNat n false) r.1 r.2)
      | .error (.fatal _) => .ok .later
      | .error e => .error e
/-- The requests of a load whose value is discarded (07 R166): nothing awaits them. -/
def State.postDiscarded (s : State) (ea : Word) (n : Nat) : State :=
  let req := s.nextId
  (wordPieces ea.toNat n).foldl (fun s q => s.post s.cur.ck (q.2.1 % 2 ^ 64) (.load req q.1 q.2.2 n false 0 0)) s
/-- 07 R164 to R170. The load is performed as it issues, or by events of its own (13 R295, log 3): while requests are late, where its translation fails, and behind an
earlier global send (13 R300). One that names a0 has no result. -/
def execLd (h : Head) (w : W2) (s : State) : Out :=
  word (.ld h w) h s (fun s => do
    let n := szBytes w.sz
    let ea ← s.ea w n
    let b ← s.rd w.base 0
    s.check ea
    s.slotWait
    let p ← s.loadPlan ea n ((s.late && destOf w.d != .none) || s.mustFollow s.cur.ck ea)
    .ok (ea, b, p))
    (fun r s =>
      let d := destOf w.d
      let n := szBytes w.sz
      let done (s : State) (v : Nat) (mark : Bool) : State :=
        let s := s.enter.sent r.1
        if d = .none then s else (s.put h d (.word (extend n v w.x) mark) 0).holdLoad
      let s : State := match r.2.2 with
        | .dev s v => done s v false
        | .now s v mark => done s v mark
        | .later => if d = .none then (s.sent r.1).postDiscarded r.1 n else ((s.sent r.1).postLoad h d r.1 n w.x).holdLoad
      s.postInc h w r.2.1)

/-- The lines that a store meets, not in the buffer yet (13 R287). -/
def State.newLines (s : State) (ea n : Nat) : Nat := ((linePieces ea n).filter (fun p => (s.me.entry? (p.2.1 % 2 ^ 64 / 64)).isNone)).length
/-- A result of an earlier access-engine word that made a request has still to land. -/
def State.loadsComing (s : State) : Bool := s.myEng.flight.any (fun f => f.slot)
/-- A store enters the phase buffer, piece by line. Where an entry is wanting an overflow boundary comes first, directly before the store: earlier loads have
landed, and what is buffered is published at P (13 R287, R288, R291). -/
def State.bufferStore (s : State) (ea n v : Nat) : Except Stop State := do
  let s ← if s.me.pbuf.length + s.newLines ea n ≤ 256 then .ok s else if s.loadsComing then .error .wait else s.solo 2
  .ok ((linePieces ea n).foldl (fun s p =>
    s.modMe (fun st => st.buffer (p.2.1 % 2 ^ 64) (v / 2 ^ (8 * p.1) % 2 ^ (8 * p.2.2)) p.2.2 st.tgb s.tabs false)) s)
/-- 07 R164, R165, 13 R287, R288. The data is read, and its poison trapped on, before the address is checked (log 84). A store to device register space that 07
R163 does not admit fails when its response comes (17 R360). -/
def execSt (h : Head) (w : W2) (s : State) : Out :=
  word (.st h w) h s (fun s => do
    let n := szBytes w.sz
    let ea ← s.ea w n
    let b ← s.rd w.base 0
    let x ← s.rd w.d 2
    s.check ea
    match s.devPlace ea n true with
    | .error (.fatal _) => .ok (s.post s.cur.ck ea.toNat (.miss true), ea, b)
    | .error e => .error e
    | .ok (some (d, off)) => .ok (s.devWrite d off n (w64 (x.toNat % 2 ^ (8 * n))), ea, b)
    | .ok none =>
      let t ← s.bufferStore ea.toNat n x.toNat
      .ok (t, ea, b))
    (fun r _ => (r.1.enter.sent r.2.1).postInc h w r.2.2)

/-- The count of a binding (07 R172). -/
def bindCount (imm : BitVec 40) (b : BitVec 512) : Nat :=
  if imm ≠ 0 then imm.toNat else if patCount b ≠ 0 then patCount b else patProduct b
/-- 07 R171, R172, R175. In a handler the word names a stream register (10 R244). -/
def execQbind (h : Head) (w : W4) (s : State) : Out :=
  word (.qbind h w) h s (fun s => do
    let q := w.q.toNat
    let bad : Stop := trapOf .streamBinding (w64 q)
    if s.me.hdl then .error bad else .ok ()
    if s.streamTaken s.cur.ck q then .error .wait else .ok ()
    if (s.me.stream q).state ≠ .unbound then .error bad else .ok ()
    let pat ← s.rd w.pat 1
    s.check pat
    if pat.toNat % 64 ≠ 0 then .error bad else .ok ()
    s.slotWait
    let r ← s.loadRange s.cur.ck pat.toNat 64
    if r.2 then .error (trapOf .poisonConsumed pat) else .ok ()
    let b : BitVec 512 := BitVec.ofNat 512 r.1
    if !patOk b ∨ 2 ^ 40 - 1 < bindCount w.imm b then .error bad else .ok ()
    let base ← s.rd w.base 0
    .ok (pat, base, b))
    (fun p s =>
      let s := (s.countRange s.cur.ck p.1.toNat 64 false).sent p.1
      let x : Stream := {
        state := if w.dir = 0 then .inS else .outS, ety := w.ety, scope := if w.dir = 0 then 0 else w.scope, base := p.2.1,
        count := bindCount w.imm p.2.2, done := 0, pattern := p.2.2, buf := [], gen := s.me.tgb, tabs := s.tabs }
      (s.deferred h).modMe (fun st => { st with laterQ := Map.put st.laterQ w.q.toNat x }))
/-- 07 R175. An array operation that still pops the stream holds it (09 R214). -/
def execQfree (h : Head) (w : W4) (s : State) : Out :=
  word (.qfree h w) h s (fun s =>
    let q := w.q.toNat
    if s.me.hdl then .error (trapOf .streamBinding (w64 q))
    else if s.streamTaken s.cur.ck q || !s.me.bindingFree q then .error .wait
    else .ok ())
    (fun _ s => if (s.me.stream w.q.toNat).state = .unbound then s
      else (s.deferred h).modMe (fun st => { st with laterQ := Map.put st.laterQ w.q.toNat Stream.init }))
/-- A binding of a strand that may fetch or store now (07 R174, 10 R244). -/
def State.streamLive (s : State) (ck q : Nat) (b : BindState) : Bool :=
  s.running? ck && !(s.strand ck).hdl && !(s.strand ck).full && decide (q < 16) && ((s.strand ck).stream q).state == b && s.slotFree ck
/-- The access engine stands at a `probe` whose section may issue: no binding issues a new fetch (07 R176). -/
def State.probing (s : State) (ck : Nat) : Bool :=
  let x := (s.strand ck).eng .a
  x.pos == .words && (x.sec.begun || (s.strand ck).waitsMet x) &&
  (match s.fetch ck x.walk.toNat 12 with
   | .ok v => (match parse .a (BitVec.ofNat 96 v) with | some (.probe ..) => true | _ => false)
   | .error _ => false)
/-- The entry of an IN binding that is to be fetched next exists and has room (07 R174, 06 R140). -/
def State.mayFetch (s : State) (ck q : Nat) : Bool :=
  let x := (s.strand ck).stream q
  s.streamLive ck q .inS && decide (x.done + x.buf.length < x.count) && decide (x.buf.length < x.capacity) && !s.probing ck
def execStreamFetch (ck : Nat) (q : Nat) (s : State) : Out :=
  .next (if s.mayFetch ck q then
    match s.fetchEntry ck q with
    | .ok t => t
    | .error _ => s
  else s)
def execStreamStore (ck : Nat) (q : Nat) (s : State) : Out :=
  .next (if s.streamLive ck q .outS then
    match s.storeEntry ck q with
    | .ok t => t
    | .error _ => s
  else s)

/-- How one byte of a probe is mapped (07 R176): not readable, read-only, writable. A byte of device register space fails (07 R163, 17 R360), and so
does one behind an error response; what a remote home answers is free (log 8). -/
def State.mapped (s : State) (ea : Nat) : Option Bool :=
  match s.place s.myAsid s.myPart ea false with
  | .ok (.mem ..) => some (match s.place s.myAsid s.myPart ea true with | .ok _ => true | _ => false)
  | .ok (.host _) => some true
  | .ok (.remote _) => some (Config.remoteAnswer s.free ea != 4)
  | _ => none
/-- The bytes that a probe tests, after its waits and checks (07 R176). -/
def State.probePlan (s : State) (w : W2) : Except Stop Word := do
  if (s.me.eng .a).flight ≠ [] ∨ s.posted.any (fun p => p.ck == s.cur.ck && p.path == 0) then .error .wait else .ok ()
  s.slotWait
  let ea ← s.ea w (szBytes w.sz)
  s.check ea
  .ok ea
/-- 07 R176, R177. -/
def execProbe (h : Head) (w : W2) (s : State) : Out :=
  let bytes (ea : Word) : List Nat := (List.range (szBytes w.sz)).map (fun i => (ea.toNat + i) % 2 ^ 64)
  let bad : Option (Word × Nat) := match s.probePlan w with
    | .ok ea => ((bytes ea).find? (fun a => (s.mapped a).isNone)).map (fun a => (ea, a))
    | .error _ => none
  match bad with
  | some (ea, a) =>
    if s.reaches (.probe h w) h then stopped (s.probeNote s.myAsid s.myPart a) (.trap { cls := .probeFault, code := 0, info := ea })
    else word (.probe h w) h s (fun s => s.probePlan w) (fun _ s => s)
  | none =>
    word (.probe h w) h s (fun s => do
      let ea ← s.probePlan w
      .ok (ea, (bytes ea).all (fun a => s.mapped a == some true)))
      (fun r s => ((s.sent r.1).resultP h w.d r.2).holdSlot)

/-- What an atomic publishes before its access (07 R179, R464): a release every buffered store, at its scope, which is S where the home is remote (R181, 23 R441);
another the entry of its line. -/
def State.atomicPublish (s : State) (w : W2) (ea : Word) (n : Nat) : Except Stop State :=
  if w.ord.getLsbD 1 then (s.publishAt s.cur.ck (if bit ea 63 then 3 else w.scope.toNat)).map (fun t => (t.settleOwn t.cur.ck ea.toNat n).behind t.agent ea.toNat)
  else s.publishLine s.cur.ck ea.toNat n
/-- The access of an atomic at its home (07 R179, R181, R182), behind what the die's hub egress has accepted: state, old value, mark. -/
def State.atomicAt (s : State) (ea : Word) (n : Nat) (f : Nat → Nat) : Except Stop (State × Nat × Bool) :=
  match (s.behind s.agent ea.toNat).atomHome s.agent ea.toNat n f with
  | some r => .ok r
  | none => .error (.fatal ea)
/-- The word posts its request, to be performed later: while requests are late (13 R297), or where its translation fails, whose failure comes back as a response
(17 R360). -/
def State.posts (s : State) (ea : Word) (late : Bool) : Bool :=
  match s.place s.myAsid s.myPart ea.toNat true with | .ok (.dev ..) => true | .ok _ => late && s.late | .error .fail => true | .error .err => false
/-- A posted atomic with the line publication that it makes directly before its access (07 R464). -/
def State.postAtom (s : State) (ea : Word) (k : AtomKind) (w : W2) (b e : Nat) : State :=
  let n := szBytes w.sz
  let pe := if w.ord.getLsbD 1 then none else s.me.entry? (ea.toNat / 64)
  let glob := s.global ea
  let pre := match pe with | some p => (p.bytes.toNat, (p.todo glob).toNat) | none => (0, 0)
  (s.post s.cur.ck ea.toNat (.atom k w.x n b e (destOf w.d != .none || w.ord.getLsbD 0) pre.1 pre.2)).dropEntry s.cur.ck (ea.toNat / 64)
/-- An atomic (07 R178 to R182). One without acquire may be performed later than it issues, and its result then comes with the request. So does one whose translation
fails (17 R360), and one behind an earlier global send (13 R300); with acquire it holds its stream until it has been performed (07 R180). -/
def atomicWord (i : Instr) (h : Head) (w : W2) (s : State) (k : AtomKind) : Out :=
  word i h s (fun s => do
    let n := szBytes w.sz
    let ea ← s.eaAtomic w
    s.check ea
    if ea.toNat % n ≠ 0 then .error (trapOf .alignment ea) else .ok ()
    let b ← s.rd w.idx 1
    let e ← if k = .cas then s.rd w.d 2 else .ok 0
    s.slotWait
    let b := b.toNat % 2 ^ (8 * n)
    let e := e.toNat % 2 ^ (8 * n)
    if s.posts ea (!w.ord.getLsbD 0) || s.mustFollow s.cur.ck ea then do
      let t ← if w.ord.getLsbD 1 then s.atomicPublish w ea n else if s.storePosted s.cur.ck then .error .wait else .ok s
      .ok (ea, t.postAtom ea k w b e, .request t.nextId 0 false, false, w.ord.getLsbD 0)
    else do
      let t ← s.atomicPublish w ea n
      let r ← t.atomicAt ea n (fun old => k.apply w.x n old b e)
      .ok (ea, r.1, .word (w64 r.2.1) r.2.2, r.2.2, false))
    (fun r _ =>
      let s := r.2.1.enter.sent r.1
      if r.2.2.2.2 then (s.put { h with lb := 0 } (destOf w.d) r.2.2.1 0).holdSlot
      else if destOf w.d = .none then (if r.2.2.2.1 then s.modMe (fun st => { st with cerr := true }) else s)
      else (s.put h (destOf w.d) r.2.2.1 0).holdSlot)
def execAswap (h : Head) (w : W2) (s : State) : Out := atomicWord (.aswap h w) h w s .swap
def execAcas (h : Head) (w : W2) (s : State) : Out := atomicWord (.acas h w) h w s .cas
def execAfadd (h : Head) (w : W2) (s : State) : Out := atomicWord (.afadd h w) h w s .addF
def execAiadd (h : Head) (w : W2) (s : State) : Out := atomicWord (.aiadd h w) h w s .addI
def execAmin (h : Head) (w : W2) (s : State) : Out := atomicWord (.amin h w) h w s .lo
def execAmax (h : Head) (w : W2) (s : State) : Out := atomicWord (.amax h w) h w s .hi
def execAandm (h : Head) (w : W2) (s : State) : Out := atomicWord (.aandm h w) h w s .band
def execAorm (h : Head) (w : W2) (s : State) : Out := atomicWord (.aorm h w) h w s .bor
def execAxorm (h : Head) (w : W2) (s : State) : Out := atomicWord (.axorm h w) h w s .bxor

/-- A word that reads at its home and whose translation fails, or that comes behind an earlier global send (13 R300): its stream is held until the response comes
(17 R360). -/
def State.unanswered (s : State) (h : Head) (d : Dest) (ea : Word) (n : Nat) : State := (s.postLoad { h with lb := 0 } d ea n false).holdSlot
/-- The address of an acquire load or release store (07 R183, R184). -/
def State.eaAligned (s : State) (w : W2) : Except Stop Word := do
  let n := szBytes w.sz
  let ea ← s.ea w n
  s.check ea
  if ea.toNat % n ≠ 0 then .error (trapOf .alignment ea) else .ok ea
/-- 07 R183. -/
def execAldacq (h : Head) (w : W2) (s : State) : Out :=
  word (.aldacq h w) h s (fun s => do
    let n := szBytes w.sz
    let ea ← s.eaAligned w
    s.slotWait
    let t ← s.publishLine s.cur.ck ea.toNat n
    match if s.mustFollow s.cur.ck ea then .error .fail else t.rdPiece t.agent ea.toNat n with
    | .ok (v, p) => .ok (t.countRange t.cur.ck ea.toNat n false, ea, some (v, p))
    | .error .err => .ok (t, ea, some (t.rdFail ea.toNat n, true))
    | .error .fail => .ok (t, ea, none))
    (fun r _ =>
      let s := r.1.enter.sent r.2.1
      match r.2.2 with
      | some (v, p) => if destOf w.d = .none then s else (s.put h (destOf w.d) (.word (w64 v) p) 0).holdSlot
      | none => s.unanswered h (destOf w.d) r.2.1 (szBytes w.sz))
/-- The store of `astrel` (07 R184): performed at the home, or posted to be performed later; the strand's buffer holds its bytes as already published. -/
def State.release (s : State) (ea : Word) (n v : Nat) : Except Stop State :=
  let s' : Except Stop State :=
    if s.posts ea true || s.mustFollow s.cur.ck ea then
      .ok (s.post s.cur.ck ea.toNat (.write (v * 2 ^ (8 * (ea.toNat % 64))) ((2 ^ n - 1) * 2 ^ (ea.toNat % 64)) false))
    else (s.settleOwn s.cur.ck ea.toNat n).storeHome s.cur.ck ea n v
  s'.map (fun s => s.modMe (fun st => st.buffer ea.toNat v n st.tgb s.tabs true))
/-- 07 R184. -/
def execAstrel (h : Head) (w : W2) (s : State) : Out :=
  word (.astrel h w) h s (fun s => do
    let n := szBytes w.sz
    let ea ← s.eaAligned w
    let x ← s.rd w.d 2
    s.slotWait
    let t ← s.publishAt s.cur.ck w.scope.toNat
    let t ← t.release ea n (x.toNat % 2 ^ (8 * n))
    .ok (t, ea))
    (fun r _ => r.1.enter.sent r.2)

/-- Keys of the watch of a parked `waita`: of a byte of host memory or of another package, above every home key. -/
def watchHost (a : Nat) : Nat := 2 ^ 80 + a
def watchRemote (k : Nat) : Nat := 2 ^ 100 + k
/-- What `waita` finds at the home (07 R185): the key it watches and the value, an error response, or a failure of translation. -/
inductive WaitaPlan where
  | at_ (key v : Nat)
  | err
  | fail

def State.waitaRead (s : State) (ea : Word) (n : Nat) : WaitaPlan :=
  match s.place s.myAsid s.myPart ea.toNat false with
  | .ok (.mem _ _ key) => .at_ key (s.rdKey s.myPart key n)
  | .ok (.host a) => .at_ (watchHost a) (s.rdHost a n)
  | .ok (.remote k) => .at_ (watchRemote k) (s.rdRemote k n)
  | .error .err => .err
  | _ => .fail
/-- 07 R185: the word sees another value at once, or parks: its result stays on its way until an event of its own. -/
def execWaita (h : Head) (w : W2) (s : State) : Out :=
  word (.waita h w) h s (fun s => do
    let n := szBytes w.sz
    let ea ← s.eaAtomic w
    s.check ea
    if ea.toNat % n ≠ 0 then .error (trapOf .alignment ea) else .ok ()
    let b ← s.rd w.idx 1
    s.slotWait
    if s.mustFollow s.cur.ck ea then .error .wait else .ok ()
    let t ← s.publishLine s.cur.ck ea.toNat n
    .ok (t.countRange t.cur.ck ea.toNat n false, ea, b.toNat % 2 ^ (8 * n), t.waitaRead ea n))
    (fun r _ =>
      let s := r.1.enter.sent r.2.1
      match r.2.2.2 with
      | .at_ key v =>
        if v ≠ r.2.2.1 then s.resultP h w.d true else (s.put h (destOf w.d) (.waita key (szBytes w.sz) r.2.2.1 s.ftime s.tabs) 0).holdSlot
      | .err => s.resultP h w.d true
      | .fail => s.unanswered h (destOf w.d) r.2.1 (szBytes w.sz))
/-- The word publishes one line directly before its own access there (07 R464). -/
def Instr.publishesLine : Instr → Bool
  | .aswap _ w | .acas _ w | .afadd _ w | .aiadd _ w | .amin _ w | .amax _ w | .aandm _ w | .aorm _ w | .axorm _ w => !w.ord.getLsbD 1
  | .waita .. => true
  | _ => false
/-- The oldest parked `waita` that meets a condition returns `v`, which lands as any result does. -/
def Strand.waitaReturn (st : Strand) (ok : Nat → Nat → Nat → Nat → Nat → Bool) (v : Bool) : Strand :=
  st.modEng .a (fun e =>
    match e.flight.findIdx? (fun f => match f.val with | .waita k n b t r => ok k n b t r | _ => false) with
    | some i => { e with flight := e.flight.modify i (fun f => { f with val := .pred v }) }
    | none => e)
/-- A parked `waita` that meets a condition returns `v`, and the monitors count how long it was parked (21 R425). -/
def State.waitaDone (s : State) (ck : Nat) (ok : Nat → Nat → Nat → Nat → Nat → Bool) (v : Bool) : State :=
  match ((s.strand ck).eng .a).flight.find? (fun f => match f.val with | .waita k n b t r => ok k n b t r | _ => false) with
  | some f => (s.modStrand ck (fun st => st.waitaReturn ok v)).monParked ck f
  | none => s
/-- The value watched has changed, or the home answers with an error response (07 R185, 23 R439), by the tables that the word was routed by (23 R436). -/
def State.watchFires (s : State) (part : BitVec 4) (k n b tabs : Nat) : Bool :=
  if 2 ^ 100 ≤ k then decide (s.rdRemote (k - 2 ^ 100) n ≠ b) || (s.asOf tabs).routeDown ((k - 2 ^ 100) % 2 ^ 64)
  else if 2 ^ 80 ≤ k then decide (s.rdHost (k - 2 ^ 80) n ≠ b)
  else s.dieDown (keyDie k) || decide (s.rdKey part k n ≠ b)
def execWaitaWake (ck : Nat) (s : State) : Out :=
  .next (if s.running? ck then
    s.waitaDone ck (fun k n b _ r => s.watchFires (ctxPart (s.ctx ck)) k n b r) true
  else s)
/-- 65,536 ticks of fabric time have passed since issue, or the return is spurious (07 R185). -/
def execWaitaTimeout (ck : Nat) (spurious : Bool) (s : State) : Out :=
  .next (if s.running? ck then s.waitaDone ck (fun _ _ _ t _ => spurious || decide (t + 65536 * 11 ≤ s.ftime)) false else s)

end Sys2Proof.Machine
end

