-- ==== Sys2Proof/Machine/Issue.lean ====
section
/-! DEFINITION. The issue of words (06 R152 to R154): which engine streams stand at a word that may issue, the slot table, and the choice
among the candidates of an engine. -/

namespace Sys2Proof.Machine

/-- Current of a P-die: the sum of MEAS over its cores (15 R317). -/
def State.dieCurrent (s : State) (d : Nat) : Nat := (List.range 16).foldl (fun n c => n + fld (s.dget d (0x320000000100 + 8 * c)) 11 0) 0
/-- Array words (15 R326, 21 R421). -/
def Instr.arrayWord : Instr → Bool
  | .mma .. => true | .mmaz .. => true | .msp .. => true | .mmv .. => true | .mscacc .. => true | .mdrain .. => true | .mload .. => true
  | _ => false
/-- The governor delays the word: a P-core strand outside a grant region while the die draws more than BUDGET (15 R326), every array and V
word while an emergency has no victim left (21 R421). -/
def State.throttled (s : State) (ck : Nat) (e : Engine) (i : Instr) : Bool :=
  (e == .v || Instr.arrayWord i) &&
  (s.supplyHold || (decide (ckDie ck < 2) && decide (ckCore ck < 16) && (s.strand ck).level.isNone && decide (s.budget (ckDie ck) < s.dieCurrent (ckDie ck))))
/-- A word of the sequencer that has issued without ending holds its stream: a park (12 R266, R269), a request for power (15 R325), `rqdone`
and `recirc` (20 R410, 23 R454). -/
def State.seqHeld (s : State) (ck : Nat) : Bool :=
  (s.strand ck).park.isSome || (s.die (ckDie ck)).waitPwr.any (fun p => p.1 == ck) ||
  s.ops.any (fun o => o.mine ck && !o.fin && !o.held &&
    (match o.kind with | .rqdone .. => true | .recirc .. => true | _ => false))
/-- Stream `e` of a context stands at a word whose dependences are met, it is not held at a bound, and it has neither walked nor issued in this
aclk (01 R19, R21, R30, 06 R153). What the word itself waits for is its own (01 R32). -/
def State.stands (s : State) (ck : Nat) (e : Engine) : Bool :=
  let st := s.strand ck
  let x := st.eng e
  s.mayRun ck && !s.dieDown (ckDie ck) && (ckProfile ck).has e && x.pos == .words && decide (x.widx < hdrLen x.sec.hdr) && !x.held s.time &&
  x.acted != some s.time && (x.sec.begun || st.waitsMet x) && (match st.pend with | some (a, _) => a.eng != e.num | none => true) &&
  !st.posts.any (fun p => p.1 == e) && st.await.all (fun id => (s.op? id).isNone) &&
  (match e with | .s => !s.seqHeld ck | .a => st.laterQ == [] | .m => !(st.bandW && s.bandsOffAt (ckDie ck) (ckCore ck) st.ashape.toNat) | _ => true)
/-- 06 R149, R150: a held post is applied after the waits of the aclk and the posts of its words, when no stream of the strand may still make one. -/
def execHeldPostApplied (ck : Nat) (h : Nat) (s : State) : Out :=
  .next (if s.running? ck && (s.strand ck).posts == [] && Engine.all.all (fun e => s.chosen (ck / 8) e || !s.stands ck e) then
    s.modStrand ck (fun st => st.setSem h (st.sem h).release) else s)
/-- The word that a stream stands at: its bits, and the instruction they name. -/
def State.standWord (s : State) (ck : Nat) (e : Engine) : Except Stop (TextWord × Option Instr) :=
  match s.fetch ck ((s.strand ck).eng e).walk.toNat 12 with
  | .error x => .error x
  | .ok v => .ok (BitVec.ofNat 96 v, parse e (BitVec.ofNat 96 v))

/-- The slot table entry that governs this aclk (06 R152): as it stood when the aclk began. -/
def State.slotEntry (s : State) (d c : Nat) : Nat := (Map.get? s.slotOld (coreKey d c)).getD (s.slotNamed d c)
/-- The earlier bind goes first, then the lower context number. -/
def State.earlier (s : State) (a b : Nat) : Bool :=
  decide ((s.strand a).bindAt < (s.strand b).bindAt) || (decide ((s.strand a).bindAt = (s.strand b).bindAt) && decide (a < b))
/-- The strand that engine `e` of a core chooses among its candidates (06 R153). -/
def State.choose (s : State) (d c : Nat) (e : Engine) (cand : List Nat) : Option Nat :=
  let en := s.slotEntry d c
  let own := cand.filter (fun ck => ctxSlot (s.ctx ck) == en % 8)
  let cand := if en % 8 ≤ 3 ∧ (own ≠ [] ∨ !en.testBit 3) then own else cand
  let late := cand.filter (fun ck => ((s.strand ck).eng e).pass == 7)
  let best := cand.foldl (fun m ck => max m (s.eff ck)) 0
  let top := if late = [] then cand.filter (fun ck => s.eff ck == best) else late
  top.foldl (fun w ck => match w with
    | none => some ck
    | some v => if s.earlier ck v then some ck else some v) none
/-- PASS counts after the choice of `w` (06 R153): strands that the slot table has ruled out are no candidates. -/
def State.passedOver (s : State) (d c : Nat) (e : Engine) (cand : List Nat) (w : Nat) : State :=
  let en := s.slotEntry d c
  let own := cand.filter (fun ck => ctxSlot (s.ctx ck) == en % 8)
  let cand := if en % 8 ≤ 3 ∧ (own ≠ [] ∨ !en.testBit 3) then own else cand
  cand.foldl (fun s ck => s.modStrand ck (fun st => st.modEng e (fun x => { x with pass := if ck = w then 0 else min (x.pass + 1) 7 }))) s

/-- The contexts of a core. -/
def ctxsOf (d c : Nat) : List Nat := (List.range 8).map (fun x => ckOf d c x)
/-- A word of the matrix engine waits where it stands (01 R32). -/
def State.mWaits (s : State) (ck : Nat) (i : Instr) : Bool :=
  let t : State := { s with cur := ⟨ck, .m⟩, waited := false }
  let r : Out := match i with
    | .mshape h w => execMshape h w t
    | .mzero h w => execMzero h w t
    | .mma h w => execMma h w t
    | .mmaz h w => execMmaz h w t
    | .msp h w => execMsp h w t
    | .mscacc h w => execMscacc h w t
    | .mdrain h w => execMdrain h w t
    | .mload h w => execMload h w t
    | .mmv h w => execMmv h w t
    | .mstat h w => execMstat h w t
    | .semw h w => execSemw h w t
    | .fencex h w => execFencex h w t
    | _ => .next t
  match r with | .next u => u.waited | _ => false
/-- The matrix engine of a core has a candidate (06 R153, 12 R279). -/
def State.mCandidate (s : State) (d c : Nat) : Bool :=
  (ctxsOf d c).any (fun ck => s.stands ck .m && (match s.standWord ck .m with
    | .ok (_, some i) => !s.throttled ck .m i && !s.mWaits ck i
    | _ => true))
/-- This aclk has or had a candidate of the matrix engine of a core (12 R279). -/
def State.mBusy (s : State) (d c : Nat) : Bool := s.chosen (coreKey d c) .m || s.mCandidate d c

end Sys2Proof.Machine
end

