-- ==== Sys2Proof/Machine/Tasks.lean ====
section
/-! DEFINITION. Tile tasks (12 R277 to R281). A task holds its matrix core from its issue to its completion. It is performed line by line and word by word, on a
strand of its own that meets no tile, its registers zero. -/

namespace Sys2Proof.Machine

/-- Fields of a tile-task record (12 R277). -/
def tkText (r : BitVec 512) : BitVec 48 := r.extractLsb' 0 48
def tkShape (r : BitVec 512) : BitVec 10 := r.extractLsb' 48 10
def tkDep (r : BitVec 512) : Word := r.extractLsb' 64 64
def tkDgen (r : BitVec 512) : Word := r.extractLsb' 128 64
def tkDone (r : BitVec 512) : Word := r.extractLsb' 192 64
def tkAsrc (r : BitVec 512) : Word := r.extractLsb' 256 64
def tkAety (r : BitVec 512) : BitVec 4 := r.extractLsb' 320 4
def tkApat (r : BitVec 512) : Word := w64 (fld r 383 326 * 64)
def tkBsrc (r : BitVec 512) : Word := w64 (fld r 427 384 * 64)
def tkBlen (r : BitVec 512) : Nat := fld r 447 428 * 64
def tkOdst (r : BitVec 512) : Word := w64 (fld r 491 448 * 64)
def tkOlen (r : BitVec 512) : Nat := fld r 511 492 * 64

/-- The task is ready (12 R279): GEN of DEP, read at the home, differs from DGEN. -/
def State.taskReady (s : State) (t : Task) : Bool :=
  tkDep t.data == 0 ||
  (match s.rdPiece { asid := t.asid, part := t.part, die := t.die } (tkDep t.data).toNat 16 with
   | .ok (v, _) => w64 (v / 2 ^ 64) != tkDgen t.data
   | .error _ => false)
/-- The oldest ready task of a pool (12 R279). -/
def State.readyTask (s : State) (d cl : Nat) : Option Task := (s.poolOf d cl).find? (fun t => s.taskReady t)
/-- The context whose accumulator pair a task may take (12 R279): a free pair of a P-core, the pair of a context of a D-core with VALID = 0. -/
def State.freePair (s : State) (d c : Nat) : Option Nat :=
  match profileOf d c with
  | some .p => if ((ctxsOf d c).filter (fun ck => s.running? ck && (s.strand ck).accp)).length < 2 then some 0 else none
  | some .d => (List.range 8).find? (fun x => !ctxValid (s.ctx (ckOf d c x)))
  | _ => none
/-- The next cluster of the steal ring (12 R281). -/
def nextCluster (d cl : Nat) : Nat := (cl + 1) % (if d < 2 then 4 else 8)

/-- The matrix engine of the core is idle: no candidate and no task (12 R279). -/
def State.mIdle (s : State) (d c : Nat) : Bool :=
  (match profileOf d c with | some .p => true | some .d => true | _ => false) && !s.dieDown d && !s.supplyHold &&
  (Map.get? s.running (coreKey d c)).isNone && !s.mBusy d c
/-- The task's own strand, registers zero, its pair zero with tag Z (12 R279). -/
def taskStrand (r : BitVec 512) : Strand := { Strand.init with accp := true, ashape := if tkShape r = 0 then 0x3FF else tkShape r }
/-- Task `t` of a pool issues on a core (12 R279): a band of its shape that is off holds it (15 R314). -/
def State.startTask (s : State) (d c : Nat) (t : Task) : State :=
  match s.freePair d c with
  | none => s
  | some x =>
    if d < 2 ∧ (onesOf (fld t.data 51 48) 4).any (fun b => (s.die d).bandIsOff c b) then s
    else
      let s := if tkDep t.data = 0 then s else s.behind { asid := t.asid, part := t.part, die := t.die } (tkDep t.data).toNat
      { s with tasks := s.tasks.erase t, running := Map.put s.running (coreKey d c) { task := t, ctx := x, st := taskStrand t.data, phase := .staging, done := 0 }, idle := Map.put s.idle (coreKey d c) (s.time + 1) }
def execTaskIssue (die core : Nat) (s : State) : Out :=
  .next (if s.mIdle die core then
    match s.readyTask die (core / 4) with
    | some t => s.startTask die core t
    | none => s
  else s)
/-- 12 R281: after 64 aclk with no candidate, no task and no ready task of its own pool. -/
def execTaskSteal (die core : Nat) (s : State) : Out :=
  .next (if s.mIdle die core && decide (Map.get 0 s.idle (coreKey die core) + 64 ≤ s.time) && (s.readyTask die (core / 4)).isNone then
    match s.readyTask die (nextCluster die (core / 4)) with
    | some t => s.startTask die core t
    | none => s
  else s)
/-- A matrix engine that is not idle at the end of an aclk begins its idle count anew: `idle` holds the first aclk of it (12 R281). -/
def State.idleTick (s : State) (d c : Nat) : State :=
  if s.mIdle d c && (s.readyTask d (c / 4)).isNone then s else { s with idle := Map.put s.idle (coreKey d c) (s.time + 1) }
/-- The matrix cores that may not be idle: those with a strand, a running task, or a task in their pool. -/
def State.busyCores (s : State) : List (Nat × Nat) :=
  allCores.filter (fun p =>
    s.strands.any (fun q => q.1 / 8 == coreKey p.1 p.2) || (Map.get? s.running (coreKey p.1 p.2)).isSome ||
    s.tasks.any (fun t => t.die == p.1 && t.cluster == p.2 / 4))

/-- The words that a task may hold, with their matrix operation (12 R280). -/
def taskWord : Instr → Option (MatKind × Head × W5)
  | .mzero h w => some (.mzero, h, w)
  | .mma h w => some (.mma, h, w)
  | .mmaz h w => some (.mmaz, h, w)
  | .msp h w => some (.msp, h, w)
  | .mmv h w => some (.mmv, h, w)
  | .mscacc h w => some (.mscacc, h, w)
  | .mdrain h w => some (.mdrain, h, w)
  | .mload h w => some (.mload, h, w)
  | _ => none
/-- Requests posted by strands, under contexts that no strand has while a task's words are performed, and back. -/
def postedAway (ps : List Posted) : List Posted := ps.map (fun p => { p with ck := p.ck + 2 ^ 16 })
def postedBack (ps : List Posted) : List Posted := ps.map (fun p => { p with ck := p.ck - 2 ^ 16 })
/-- The core as the task sees it: one context under the task's ASID and PART, whose window is the task area (12 R279), with no tile. -/
def State.taskView (s : State) (r : Running) (d c : Nat) : State :=
  let ck := ckOf d c r.ctx
  let s : State := { s with strands := [(ck, r.st)], ops := [], running := Map.del s.running (coreKey d c), cur := ⟨ck, .m⟩,
                            posted := postedAway s.posted, shadows := [], late := false }
  (s.setCtx ck (w64 (1 + r.task.asid.toNat * 2 ^ 8 + r.task.part.toNat * 2 ^ 24))).dput d (winOff c 0)
    (w64 ((if d < 2 then 0x7C else 0x14) + 4 * 2 ^ 8))
/-- What stands afterwards: the strands, operations and registers of the core as they were, the memory as the task left it, and the task where it has come to;
none where it is over. -/
def State.taskBack (s t : State) (d c : Nat) (r : Running) (at_ : Option (TaskPhase × Nat)) : State :=
  let ck := ckOf d c r.ctx
  let k := coreKey d c
  { (t.dput d (winOff c 0) (s.dget d (winOff c 0))).setCtx ck (s.ctx ck) with
    strands := s.strands, ops := s.ops, cur := s.cur, posted := postedBack t.posted, shadows := s.shadows, late := s.late,
    running := match at_ with
      | some p => Map.put s.running k { r with st := t.strand ck, phase := p.1, done := p.2 }
      | none => Map.del s.running k }

/-- What one piece of a task comes to: it goes on at a place of a phase; it waits; it is over, with success or without. -/
inductive TaskOut where
  | more (s : State) (phase : TaskPhase) (done : Nat)
  | wait
  | ended (s : State) (ok : Bool)

/-- The A stream of a task bound as `qbind.in` binds it (07 R172), at an address that its requests may name. -/
def State.taskStream (s : State) (ck : Nat) (r : BitVec 512) : Except Stop State :=
  let fail : Stop := trapOf .streamBinding 0
  if tkApat r = 0 then .ok s
  else match s.copyGate ck 0 (tkApat r) with
    | none => .error .wait
    | some false => .error fail
    | some true => match s.rdPiece (s.me? ck) (tkApat r).toNat 64 with
      | .ok (v, false) =>
        let b : BitVec 512 := BitVec.ofNat 512 v
        if !patOk b ∨ 2 ^ 40 - 1 < bindCount 0 b then .error fail
        else
          let x : Stream := { Stream.init with state := .inS, ety := tkAety r, base := tkAsrc r, count := bindCount 0 b, pattern := b, tabs := s.tabs }
          .ok ((s.count (s.me? ck) (tkApat r).toNat false).modStrand ck (fun st => st.setStream 0 x))
      | _ => .error fail
/-- `n` entries fetched for the A stream; one that carries poison spoils it (12 R280), and one may have to wait for a frozen pod (23 R454). -/
def State.fillStream (s : State) (ck : Nat) : Nat → Except Stop State
  | 0 => .ok s
  | n + 1 =>
    let x := (s.strand ck).stream 0
    if x.count ≤ x.done + x.buf.length then .ok s
    else do
      let t ← s.fetchEntry ck 0
      if (((t.strand ck).stream 0).buf.getLast?.map (fun e => e.mark)) = some true then .error (trapOf .poisonConsumed 0) else t.fillStream ck n
/-- The header of a task's section (12 R280). -/
def taskHeader (h : Word) : Bool :=
  !hdrIllegal h && hdrEng h == 3 && decide (1 ≤ hdrLen h) && decide (hdrLen h ≤ 64) && !hdrBpl h && !hdrJct h
/-- A piece that cannot be performed: it waits, or the task fails. -/
def State.taskStop (s : State) : Stop → TaskOut
  | .wait => .wait
  | _ => .ended s false
/-- A line of the staging copy (12 R279, R280): one that poison, a translation failure or an error response spoils fails the task. -/
def State.stageLine (s : State) (ck : Nat) (r : BitVec 512) (i : Nat) : TaskOut :=
  match s.copyMove ck ⟨3, 0, s.tabs⟩ (.mem (tkBsrc r + w64 (64 * i))) (.vault (64 * i)) 64 with
  | none => .wait
  | some t => if t.vpoisoned ck (64 * i) 64 then .ended t false else .more t .staging (i + 1)
/-- With every line staged, the stream is bound and the section's header read (12 R279, R280). -/
def State.taskOpen (s : State) (ck : Nat) (r : BitVec 512) : TaskOut :=
  match s.taskStream ck r with
  | .error e => s.taskStop e
  | .ok s =>
    match s.fetch ck (tkText r).toNat 8 with
    | .error e => s.taskStop e
    | .ok h =>
      if taskHeader (w64 h) then .more (s.modStrand ck (fun st => st.modEng .m (fun e => { e with sec := { e.sec with hdr := w64 h } }))) .words 0
      else .ended s false
/-- Word `i` of a task (12 R279, R280), as `x`. -/
def State.taskDo (s : State) (ck : Nat) (i : Nat) (x : TextWord) : TaskOut :=
  let s := s.modStrand ck (fun st => st.modEng .m (fun e => { e with widx := i }))
  match parse .m x with
  | none => .ended s false
  | some y =>
    match taskWord y with
    | none => .ended s false
    | some (kind, h, w) =>
      if (s.decodeTrap y).isSome ∨ h.lb = 7 ∨ w.qa ≠ 0 then .ended s false
      else if !s.predTrue h then .more s .words (i + 1)
      else
        let r : Except Stop State := do
          let s ← s.fillStream ck (if kind.array then 1 else 0)
          let m ← s.matPlan kind h w
          let s ← s.fillStream ck (m.need - 1)
          let t := s.addOp false 0 (.mat m)
          match t.op? s.nextId with
          | none => .ok t
          | some o => .ok (t.matMove o m)
        match r with
        | .error e => s.taskStop e
        | .ok t => if t.ops = [] then .more t .words (i + 1) else .ended t false
/-- The next piece of a task (12 R279): a staged line, a word, a line of the result, published at its home. -/
def State.taskUnit (s : State) (ck : Nat) (r : BitVec 512) (phase : TaskPhase) (i : Nat) : TaskOut :=
  match phase with
  | .staging => if 64 * i < tkBlen r then s.stageLine ck r i else s.taskOpen ck r
  | .words =>
    if i < hdrLen ((s.strand ck).eng .m).sec.hdr then
      match s.fetch ck ((tkText r).toNat + 8 + 12 * i) 12 with
      | .error e => s.taskStop e
      | .ok v => s.taskDo ck i (BitVec.ofNat 96 v)
    else .more s .result 0
  | .result =>
    if 64 * i < tkOlen r then
      match s.copyMove ck ⟨3, 0, s.tabs⟩ (.vault (tkBlen r + 64 * i)) (.mem (tkOdst r + w64 (64 * i))) 64 with
      | none => .wait
      | some t => .more t .result (i + 1)
    else .ended s true
/-- The flags that the words of a task have set (12 R265, R280). -/
def State.taskFlags (s : State) (ck : Nat) : BitVec 7 :=
  s.ops.foldl (fun f o => match o.kind with | .mat m => f ||| m.flags | _ => f) (s.strand ck).fstat
/-- At most `n` pieces of a task, from a place on, none of its words in an aclk with a candidate (`busy`): a task that is over arrives at DONE with OK or TASK-FAILED
(12 R279, R280), else the place it has come to. -/
def State.taskRest (s : State) (busy : Bool) (ck : Nat) (r : BitVec 512) (phase : TaskPhase) (i : Nat) : Nat → State × Option (TaskPhase × Nat)
  | 0 => (s, some (phase, i))
  | n + 1 =>
    if busy && phase == .words then (s, some (phase, i))
    else match s.taskUnit ck r phase i with
    | .more t p j => t.taskRest busy ck r p j n
    | .wait => (s, some (phase, i))
    | .ended t ok => (t.arrive (t.me? ck) (tkDone r) (if ok then 0 else 3) (t.taskFlags ck), none)
/-- At most `n` pieces of the task that runs on a core. Its words issue only in an aclk without a candidate (12 R279). -/
def State.taskRun (s : State) (d c n : Nat) : State :=
  match Map.get? s.running (coreKey d c) with
  | none => s
  | some r =>
    if s.dieDown d || s.supplyHold || (r.phase == .words && s.mBusy d c) then s
    else
      let x := (s.taskView r d c).taskRest (s.mBusy d c) (ckOf d c r.ctx) r.task.data r.phase r.done n
      s.taskBack x.1 d c r x.2
/-- More pieces than any task has: 8,192 lines, 64 words, and the steps between them. -/
def taskFuel : Nat := 8320
def execTaskComplete (die core : Nat) (s : State) : Out := .next (s.taskRun die core taskFuel)

end Sys2Proof.Machine
end

