-- ==== Sys2Proof/Machine/Dispatch.lean ====
section
/-! DEFINITION. One arm per instruction: each is one call of its meaning. -/

namespace Sys2Proof.Machine

/-- What an instruction or event of the table does at a state. -/
def exec (i : Instr) (s : State) : Host.Outcome State Fault Refusal :=
  match i with
  | .add h w => Sys2Proof.Machine.execAdd h w s
  | .sub h w => Sys2Proof.Machine.execSub h w s
  | .mul h w => Sys2Proof.Machine.execMul h w s
  | .mulh h w => Sys2Proof.Machine.execMulh h w s
  | .mulhn h w => Sys2Proof.Machine.execMulhn h w s
  | .div h w => Sys2Proof.Machine.execDiv h w s
  | .divn h w => Sys2Proof.Machine.execDivn h w s
  | .rem h w => Sys2Proof.Machine.execRem h w s
  | .andS h w => Sys2Proof.Machine.execAndS h w s
  | .orS h w => Sys2Proof.Machine.execOrS h w s
  | .xorS h w => Sys2Proof.Machine.execXorS h w s
  | .andn h w => Sys2Proof.Machine.execAndn h w s
  | .shl h w => Sys2Proof.Machine.execShl h w s
  | .shr h w => Sys2Proof.Machine.execShr h w s
  | .sar h w => Sys2Proof.Machine.execSar h w s
  | .rot h w => Sys2Proof.Machine.execRot h w s
  | .minS h w => Sys2Proof.Machine.execMinS h w s
  | .maxS h w => Sys2Proof.Machine.execMaxS h w s
  | .minn h w => Sys2Proof.Machine.execMinn h w s
  | .maxn h w => Sys2Proof.Machine.execMaxn h w s
  | .clz h w => Sys2Proof.Machine.execClz h w s
  | .ctz h w => Sys2Proof.Machine.execCtz h w s
  | .popc h w => Sys2Proof.Machine.execPopc h w s
  | .bfx h w => Sys2Proof.Machine.execBfx h w s
  | .bfi h w => Sys2Proof.Machine.execBfi h w s
  | .sel h w => Sys2Proof.Machine.execSel h w s
  | .li h w => Sys2Proof.Machine.execLi h w s
  | .lih h w => Sys2Proof.Machine.execLih h w s
  | .cmp h w => Sys2Proof.Machine.execCmp h w s
  | .jct h w => Sys2Proof.Machine.execJct h w s
  | .jmp h w => Sys2Proof.Machine.execJmp h w s
  | .loop h w => Sys2Proof.Machine.execLoop h w s
  | .call h w => Sys2Proof.Machine.execCall h w s
  | .ret h w => Sys2Proof.Machine.execRet h w s
  | .endWord h w => Sys2Proof.Machine.execEndWord h w s
  | .yieldWord h w => Sys2Proof.Machine.execYieldWord h w s
  | .trapWord h w => Sys2Proof.Machine.execTrapWord h w s
  | .nop h w => Sys2Proof.Machine.execNop h w s
  | .prio h w => Sys2Proof.Machine.execPrio h w s
  | .sysrd h w => Sys2Proof.Machine.execSysrd h w s
  | .syswr h w => Sys2Proof.Machine.execSyswr h w s
  | .snaprd h w => Sys2Proof.Machine.execSnaprd h w s
  | .snapwr h w => Sys2Proof.Machine.execSnapwr h w s
  | .join h w => Sys2Proof.Machine.execJoin h w s
  | .leave h w => Sys2Proof.Machine.execLeave h w s
  | .gbar h w => Sys2Proof.Machine.execGbar h w s
  | .barw h w => Sys2Proof.Machine.execBarw h w s
  | .launch h w => Sys2Proof.Machine.execLaunch h w s
  | .task h w => Sys2Proof.Machine.execTask h w s
  | .phaseG h w => Sys2Proof.Machine.execPhaseG h w s
  | .phaseSolo h w => Sys2Proof.Machine.execPhaseSolo h w s
  | .cgateOff h w => Sys2Proof.Machine.execCgateOff h w s
  | .cgateOn h w => Sys2Proof.Machine.execCgateOn h w s
  | .pwracq h w => Sys2Proof.Machine.execPwracq h w s
  | .pwrrel h w => Sys2Proof.Machine.execPwrrel h w s
  | .tlbinv h w => Sys2Proof.Machine.execTlbinv h w s
  | .l2mode h w => Sys2Proof.Machine.execL2mode h w s
  | .mpage h w => Sys2Proof.Machine.execMpage h w s
  | .kvrootAdd h w => Sys2Proof.Machine.execKvrootAdd h w s
  | .kvrootDel h w => Sys2Proof.Machine.execKvrootDel h w s
  | .kvfind h w => Sys2Proof.Machine.execKvfind h w s
  | .rqhand h w => Sys2Proof.Machine.execRqhand h w s
  | .rqcan h w => Sys2Proof.Machine.execRqcan h w s
  | .rqstat h w => Sys2Proof.Machine.execRqstat h w s
  | .rqdone h w => Sys2Proof.Machine.execRqdone h w s
  | .publish h w => Sys2Proof.Machine.execPublish h w s
  | .tbind h w => Sys2Proof.Machine.execTbind h w s
  | .recirc h w => Sys2Proof.Machine.execRecirc h w s
  | .aadd h w => Sys2Proof.Machine.execAadd h w s
  | .asub h w => Sys2Proof.Machine.execAsub h w s
  | .amul h w => Sys2Proof.Machine.execAmul h w s
  | .ashl h w => Sys2Proof.Machine.execAshl h w s
  | .ashr h w => Sys2Proof.Machine.execAshr h w s
  | .aand h w => Sys2Proof.Machine.execAand h w s
  | .aor h w => Sys2Proof.Machine.execAor h w s
  | .ali h w => Sys2Proof.Machine.execAli h w s
  | .ld h w => Sys2Proof.Machine.execLd h w s
  | .st h w => Sys2Proof.Machine.execSt h w s
  | .qbind h w => Sys2Proof.Machine.execQbind h w s
  | .qfree h w => Sys2Proof.Machine.execQfree h w s
  | .probe h w => Sys2Proof.Machine.execProbe h w s
  | .aswap h w => Sys2Proof.Machine.execAswap h w s
  | .acas h w => Sys2Proof.Machine.execAcas h w s
  | .afadd h w => Sys2Proof.Machine.execAfadd h w s
  | .aiadd h w => Sys2Proof.Machine.execAiadd h w s
  | .amin h w => Sys2Proof.Machine.execAmin h w s
  | .amax h w => Sys2Proof.Machine.execAmax h w s
  | .aandm h w => Sys2Proof.Machine.execAandm h w s
  | .aorm h w => Sys2Proof.Machine.execAorm h w s
  | .axorm h w => Sys2Proof.Machine.execAxorm h w s
  | .aldacq h w => Sys2Proof.Machine.execAldacq h w s
  | .astrel h w => Sys2Proof.Machine.execAstrel h w s
  | .waita h w => Sys2Proof.Machine.execWaita h w s
  | .waitaWake ck => Sys2Proof.Machine.execWaitaWake ck s
  | .waitaTimeout ck spurious => Sys2Proof.Machine.execWaitaTimeout ck spurious s
  | .vadd h w => Sys2Proof.Machine.execVadd h w s
  | .vsub h w => Sys2Proof.Machine.execVsub h w s
  | .vmul h w => Sys2Proof.Machine.execVmul h w s
  | .vfma h w => Sys2Proof.Machine.execVfma h w s
  | .vmin h w => Sys2Proof.Machine.execVmin h w s
  | .vmax h w => Sys2Proof.Machine.execVmax h w s
  | .vabs h w => Sys2Proof.Machine.execVabs h w s
  | .vneg h w => Sys2Proof.Machine.execVneg h w s
  | .vclamp h w => Sys2Proof.Machine.execVclamp h w s
  | .vcmp h w => Sys2Proof.Machine.execVcmp h w s
  | .vsel h w => Sys2Proof.Machine.execVsel h w s
  | .vand h w => Sys2Proof.Machine.execVand h w s
  | .vor h w => Sys2Proof.Machine.execVor h w s
  | .vxor h w => Sys2Proof.Machine.execVxor h w s
  | .vnot h w => Sys2Proof.Machine.execVnot h w s
  | .vshl h w => Sys2Proof.Machine.execVshl h w s
  | .vshr h w => Sys2Proof.Machine.execVshr h w s
  | .vsar h w => Sys2Proof.Machine.execVsar h w s
  | .vredsum h w => Sys2Proof.Machine.execVredsum h w s
  | .vredmax h w => Sys2Proof.Machine.execVredmax h w s
  | .vredmin h w => Sys2Proof.Machine.execVredmin h w s
  | .vamax h w => Sys2Proof.Machine.execVamax h w s
  | .vexp2 h w => Sys2Proof.Machine.execVexp2 h w s
  | .vlog2 h w => Sys2Proof.Machine.execVlog2 h w s
  | .vrcp h w => Sys2Proof.Machine.execVrcp h w s
  | .vrsq h w => Sys2Proof.Machine.execVrsq h w s
  | .vtanh h w => Sys2Proof.Machine.execVtanh h w s
  | .vcvt h w => Sys2Proof.Machine.execVcvt h w s
  | .vqnt h w => Sys2Proof.Machine.execVqnt h w s
  | .vdq h w => Sys2Proof.Machine.execVdq h w s
  | .vscexp h w => Sys2Proof.Machine.execVscexp h w s
  | .vscacc h w => Sys2Proof.Machine.execVscacc h w s
  | .vmov h w => Sys2Proof.Machine.execVmov h w s
  | .vbcast h w => Sys2Proof.Machine.execVbcast h w s
  | .vperm h w => Sys2Proof.Machine.execVperm h w s
  | .vtrans h w => Sys2Proof.Machine.execVtrans h w s
  | .vrow h w => Sys2Proof.Machine.execVrow h w s
  | .vcol h w => Sys2Proof.Machine.execVcol h w s
  | .vrowput h w => Sys2Proof.Machine.execVrowput h w s
  | .vcolput h w => Sys2Proof.Machine.execVcolput h w s
  | .vld h w => Sys2Proof.Machine.execVld h w s
  | .vldAsyncComplete op => Sys2Proof.Machine.execVldAsyncComplete op s
  | .vst h w => Sys2Proof.Machine.execVst h w s
  | .vcpush h w => Sys2Proof.Machine.execVcpush h w s
  | .vcpop h w => Sys2Proof.Machine.execVcpop h w s
  | .vcbal h w => Sys2Proof.Machine.execVcbal h w s
  | .vacomb h w => Sys2Proof.Machine.execVacomb h w s
  | .vfput h w => Sys2Proof.Machine.execVfput h w s
  | .vfget h w => Sys2Proof.Machine.execVfget h w s
  | .vshape h w => Sys2Proof.Machine.execVshape h w s
  | .mshape h w => Sys2Proof.Machine.execMshape h w s
  | .mzero h w => Sys2Proof.Machine.execMzero h w s
  | .mma h w => Sys2Proof.Machine.execMma h w s
  | .mmaz h w => Sys2Proof.Machine.execMmaz h w s
  | .msp h w => Sys2Proof.Machine.execMsp h w s
  | .mscacc h w => Sys2Proof.Machine.execMscacc h w s
  | .mdrain h w => Sys2Proof.Machine.execMdrain h w s
  | .mload h w => Sys2Proof.Machine.execMload h w s
  | .mstat h w => Sys2Proof.Machine.execMstat h w s
  | .mmv h w => Sys2Proof.Machine.execMmv h w s
  | .matrixOpComplete op => Sys2Proof.Machine.execMatrixOpComplete op s
  | .cpy h w => Sys2Proof.Machine.execCpy h w s
  | .cgath h w => Sys2Proof.Machine.execCgath h w s
  | .cscat h w => Sys2Proof.Machine.execCscat h w s
  | .clist h w => Sys2Proof.Machine.execClist h w s
  | .cfill h w => Sys2Proof.Machine.execCfill h w s
  | .copyComplete op => Sys2Proof.Machine.execCopyComplete op s
  | .cwait h w => Sys2Proof.Machine.execCwait h w s
  | .tset h w => Sys2Proof.Machine.execTset h w s
  | .xsend h w => Sys2Proof.Machine.execXsend h w s
  | .bqry h w => Sys2Proof.Machine.execBqry h w s
  | .bapp h w => Sys2Proof.Machine.execBapp h w s
  | .bmv h w => Sys2Proof.Machine.execBmv h w s
  | .bwait h w => Sys2Proof.Machine.execBwait h w s
  | .bflt h w => Sys2Proof.Machine.execBflt h w s
  | .bsk h w => Sys2Proof.Machine.execBsk h w s
  | .bmap h w => Sys2Proof.Machine.execBmap h w s
  | .berr h w => Sys2Proof.Machine.execBerr h w s
  | .bankCmdComplete op => Sys2Proof.Machine.execBankCmdComplete op s
  | .semi h w => Sys2Proof.Machine.execSemi h w s
  | .semw h w => Sys2Proof.Machine.execSemw h w s
  | .semp h w => Sys2Proof.Machine.execSemp h w s
  | .fencex h w => Sys2Proof.Machine.execFencex h w s
  | .headerWalk ck e => Sys2Proof.Machine.execHeaderWalk ck e s
  | .takeDecision ck e => Sys2Proof.Machine.execTakeDecision ck e s
  | .resultLands ck e n => Sys2Proof.Machine.execResultLands ck e n s
  | .heldPostApplied ck h => Sys2Proof.Machine.execHeldPostApplied ck h s
  | .streamFetch ck q => Sys2Proof.Machine.execStreamFetch ck q s
  | .streamStore ck q => Sys2Proof.Machine.execStreamStore ck q s
  | .homeRequest op => Sys2Proof.Machine.execHomeRequest op s
  | .barrierWake ck => Sys2Proof.Machine.execBarrierWake ck s
  | .strandEnd ck => Sys2Proof.Machine.execStrandEnd ck s
  | .trapDelivery ck => Sys2Proof.Machine.execTrapDelivery ck s
  | .preemptYield ck => Sys2Proof.Machine.execPreemptYield ck s
  | .preemptDeadline ck => Sys2Proof.Machine.execPreemptDeadline ck s
  | .fullSave ck => Sys2Proof.Machine.execFullSave ck s
  | .cstopReq ck dline => Sys2Proof.Machine.execCstopReq ck dline s
  | .cstopWithdraw ck => Sys2Proof.Machine.execCstopWithdraw ck s
  | .cstopKill ck => Sys2Proof.Machine.execCstopKill ck s
  | .ctxBindResume ck v => Sys2Proof.Machine.execCtxBindResume ck v s
  | .ctxRelease ck => Sys2Proof.Machine.execCtxRelease ck s
  | .machineCheck ck => Sys2Proof.Machine.execMachineCheck ck s
  | .launchBind ck => Sys2Proof.Machine.execLaunchBind ck s
  | .taskIssue die core => Sys2Proof.Machine.execTaskIssue die core s
  | .taskSteal die core => Sys2Proof.Machine.execTaskSteal die core s
  | .taskComplete die core => Sys2Proof.Machine.execTaskComplete die core s
  | .gateQuiet die core => Sys2Proof.Machine.execGateQuiet die core s
  | .gatePowerGood die core => Sys2Proof.Machine.execGatePowerGood die core s
  | .powerGrant die => Sys2Proof.Machine.execPowerGrant die s
  | .bandOff die core band => Sys2Proof.Machine.execBandOff die core band s
  | .bandWake die core band => Sys2Proof.Machine.execBandWake die core band s
  | .vfctlWrite die core v => Sys2Proof.Machine.execVfctlWrite die core v s
  | .bankQueryItem op item rd => Sys2Proof.Machine.execBankQueryItem op item rd s
  | .bankAppendItem op item => Sys2Proof.Machine.execBankAppendItem op item s
  | .bankMvItem op item rd => Sys2Proof.Machine.execBankMvItem op item rd s
  | .bankRefresh die bank => Sys2Proof.Machine.execBankRefresh die bank s
  | .uncorrectableError addr => Sys2Proof.Machine.execUncorrectableError addr s
  | .referrerScan die => Sys2Proof.Machine.execReferrerScan die s
  | .bankRetiring die bank => Sys2Proof.Machine.execBankRetiring die bank s
  | .forcedRetirement die bank => Sys2Proof.Machine.execForcedRetirement die bank s
  | .bcmdRetire die bank => Sys2Proof.Machine.execBcmdRetire die bank s
  | .bcmdRemap die => Sys2Proof.Machine.execBcmdRemap die s
  | .remapComplete die => Sys2Proof.Machine.execRemapComplete die s
  | .bmctlGo die v => Sys2Proof.Machine.execBmctlGo die v s
  | .blockMoveDone die => Sys2Proof.Machine.execBlockMoveDone die s
  | .kvboundWrite die v => Sys2Proof.Machine.execKvboundWrite die v s
  | .flpopRead die col => Sys2Proof.Machine.execFlpopRead die col s
  | .rcctlGo die v => Sys2Proof.Machine.execRcctlGo die v s
  | .reclaimPeriod die => Sys2Proof.Machine.execReclaimPeriod die s
  | .reclaimCycleEnd die => Sys2Proof.Machine.execReclaimCycleEnd die s
  | .grayOverflow die => Sys2Proof.Machine.execGrayOverflow die s
  | .heldNotificationPost die => Sys2Proof.Machine.execHeldNotificationPost die s
  | .tlbinvComplete op => Sys2Proof.Machine.execTlbinvComplete op s
  | .mpageComplete op => Sys2Proof.Machine.execMpageComplete op s
  | .kvfindComplete op => Sys2Proof.Machine.execKvfindComplete op s
  | .submissionSubmit part => Sys2Proof.Machine.execSubmissionSubmit part s
  | .submissionCancel part => Sys2Proof.Machine.execSubmissionCancel part s
  | .completionEntryWrite part => Sys2Proof.Machine.execCompletionEntryWrite part s
  | .prefillBound rq die => Sys2Proof.Machine.execPrefillBound rq die s
  | .killReport rq lnum power => Sys2Proof.Machine.execKillReport rq lnum power s
  | .handoffEvent op => Sys2Proof.Machine.execHandoffEvent op s
  | .cancelEvent op => Sys2Proof.Machine.execCancelEvent op s
  | .rqdoneEvent op => Sys2Proof.Machine.execRqdoneEvent op s
  | .handoffStart rq => Sys2Proof.Machine.execHandoffStart rq s
  | .handoffBlock rq => Sys2Proof.Machine.execHandoffBlock rq s
  | .handoffCancelStop rq => Sys2Proof.Machine.execHandoffCancelStop rq s
  | .commit rq => Sys2Proof.Machine.execCommit rq s
  | .moduleDown die m => Sys2Proof.Machine.execModuleDown die m s
  | .partctlEnable part v => Sys2Proof.Machine.execPartctlEnable part v s
  | .partctlRekey part v => Sys2Proof.Machine.execPartctlRekey part v s
  | .hwinWrite w v => Sys2Proof.Machine.execHwinWrite w v s
  | .publishComplete op => Sys2Proof.Machine.execPublishComplete op s
  | .supplyEmergency => Sys2Proof.Machine.execSupplyEmergency s
  | .victimKill => Sys2Proof.Machine.execVictimKill s
  | .emergencyClear => Sys2Proof.Machine.execEmergencyClear s
  | .monitorEnable die u v => Sys2Proof.Machine.execMonitorEnable die u v s
  | .monitorValue die u v => Sys2Proof.Machine.execMonitorValue die u v s
  | .packageReset img => Sys2Proof.Machine.execPackageReset img s
  | .firmwareReload img => Sys2Proof.Machine.execFirmwareReload img s
  | .attestationReport nonce => Sys2Proof.Machine.execAttestationReport nonce s
  | .fidWrite v => Sys2Proof.Machine.execFidWrite v s
  | .linkDown port n => Sys2Proof.Machine.execLinkDown port n s
  | .timingFlit slew => Sys2Proof.Machine.execTimingFlit slew s
  | .sendDepart op => Sys2Proof.Machine.execSendDepart op s
  | .sendArrive op => Sys2Proof.Machine.execSendArrive op s
  | .sendComplete op => Sys2Proof.Machine.execSendComplete op s
  | .sendDtTimeout op => Sys2Proof.Machine.execSendDtTimeout op s
  | .planTaken op => Sys2Proof.Machine.execPlanTaken op s
  | .freezeDrainTimeout op => Sys2Proof.Machine.execFreezeDrainTimeout op s
  | .circuitsTrained op down settle => Sys2Proof.Machine.execCircuitsTrained op down settle s
  | .registerWrite addr four v => Sys2Proof.Machine.execRegisterWrite addr four v s
  | .unassignedOpcode e raw => Sys2Proof.Machine.execUnassignedOpcode e raw s
  | .hubUncontainedError => Sys2Proof.Machine.execHubUncontainedError s
  | .firmwareReplaceRequest => Sys2Proof.Machine.execFirmwareReplaceRequest s

end Sys2Proof.Machine
end

