-- ==== Sys2Proof/Machine/Turns.lean ====
section
/-! DEFINITION. What one step does (log 5): the issue of a word (06 R153), the end of an aclk, the events that come due by themselves, and
the turn that the agenda or, where it is empty, the default order names. -/

namespace Sys2Proof.Machine

/-- Stream `e` of a context issues the word at which it stands (01 R32, 02 R62): the word that the fetched bits name in its engine. -/
def State.issueWord (s : State) (ck : Nat) (e : Engine) : Out :=
  let t : State := { s with cur := ⟨ck, e⟩, waited := false }
  match t.standWord ck e with
  | .error x => stopped t x
  | .ok (raw, none) => execUnassignedOpcode e raw t
  | .ok (_, some i) => exec i t
/-- The word waits where it stands (01 R32). -/
def State.wordWaits (s : State) (ck : Nat) (e : Engine) : Bool :=
  match s.issueWord ck e with | .next t => t.waited | _ => false
/-- The strand is a candidate for engine `e` (06 R153). -/
def State.candidate (s : State) (ck : Nat) (e : Engine) : Bool :=
  s.stands ck e && (match s.standWord ck e with | .ok (_, some i) => !s.throttled ck e i | _ => true) && !s.wordWaits ck e
/-- The candidates of engine `e` of a core, and the one that it chooses (06 R153). -/
def State.candidates (s : State) (d c : Nat) (e : Engine) : List Nat := (ctxsOf d c).filter (fun ck => s.candidate ck e)
def State.pick (s : State) (d c : Nat) (e : Engine) : Option Nat := s.choose d c e (s.candidates d c e)
/-- The engine still has to choose in this aclk, and no engine before it in the order S, A, V, M, C, B would issue a word (06 R148, R150, log 12). An engine
that has found nothing may find a word later in the aclk, when a section has retired that a later engine issued (01 R20). -/
def State.mayChoose (s : State) (d c : Nat) (e : Engine) : Bool :=
  (profileOf d c).isSome && !s.chosen (coreKey d c) e &&
  Engine.all.all (fun y => decide (e.num ≤ y.num) || s.chosen (coreKey d c) y || (s.pick d c y).isNone)
/-- Engine `e` of a core has chosen `ck` in this aclk. -/
def State.choice (s : State) (d c : Nat) (e : Engine) (ck : Nat) : State :=
  let k := coreKey d c
  let t : State := { s with issued := Map.put s.issued k (Map.get 0 s.issued k ||| 2 ^ e.num), idle := if e = .m then Map.put s.idle k (s.time + 1) else s.idle }
  let t := if e = .m ∧ (t.strand ck).bandW then t.modStrand ck (fun st => { st with bandW := false }) else t
  t.passedOver d c e (s.candidates d c e) ck
/-- Engine `e` of a core chooses and issues (06 R153). -/
def State.issueTurn (s : State) (d c : Nat) (e : Engine) : Out :=
  if !s.mayChoose d c e then .next s
  else
    match s.pick d c e with
    | none => .next s
    | some ck => (s.choice d c e ck).issueWord ck e

/-- Slots of a FIFO whose credit has come back are free for good (15 R318). -/
def Fifo.prune (f : Fifo) (now : Nat) : Fifo := { f with freed := f.freed.filter (fun t => decide (now ≤ t.1 + 5)) }
/-- The context keys of the strands. -/
def State.cks (s : State) : List Nat := s.strands.map (fun p => p.1)
/-- The end of an aclk: posts left to it, failed requests and traps of the aclk, ended grant regions, what the words of the aclk wrote for its end, `cgate`
words, then gates that were already gating, `tset`, the counts that the next aclk reads (01 R22, 04 R84). Fabric time stands while it is held (23 R443). -/
def State.endOfAclk (s : State) : State :=
  let s := s.cks.foldl (fun s ck => s.resolvePosts ck) s
  let s := s.cks.foldl (fun s ck => if (s.strand ck).failed.isSome then s.failing ck else s) s
  let s := s.cks.foldl (fun s ck => if s.running? ck then ((s.deliverEnd ck).settleFull ck).close ck else s) s
  let s := s.cks.foldl (fun s ck => s.regionEnd ck) s
  let s := s.cks.foldl (fun s ck => s.modStrand ck (fun st => st.endAclk)) s
  let s := s.gating.foldl (fun s p => s.gateSettle p.1 p.2) s.gateIssues
  let s := s.laterT.foldl (fun s p => s.dput (p.1 / 2 ^ 46) (p.1 % 2 ^ 46) p.2) s
  let s := (s.bandTimes 0).bandTimes 1
  let s := s.drainLaunches
  let s := s.busyCores.foldl (fun s p => s.idleTick p.1 p.2) s
  { s with
    laterT := [], slotOld := [], vffOld := [], issued := [], time := s.time + 1, ftime := s.ftime + (10 - min s.fhold 10), fhold := s.fhold - min s.fhold 10,
    fifos := s.fifos.map (fun p => (p.1, p.2.prune s.time)),
    strands := s.strands.map (fun p => (p.1, { p.2 with es := p.2.es.map (fun q => (q.1, { q.2 with secn0 := q.2.secn })) })) }

/-- Events of one strand that come due by themselves. -/
def Strand.dues (st : Strand) (ck : Nat) : List (State → Out) :=
  st.h.map (fun p => execHeldPostApplied ck p.1) ++
  st.es.flatMap (fun p => match Engine.ofNum? p.1 with
    | some e => (List.range p.2.flight.length).map (fun i => execResultLands ck e i) ++ [execTakeDecision ck e, execHeaderWalk ck e]
    | none => []) ++
  [execWaitaWake ck, execWaitaTimeout ck false, execBarrierWake ck, execPreemptYield ck, execPreemptDeadline ck, execFullSave ck, execStrandEnd ck] ++
  st.q.flatMap (fun p => [execStreamFetch ck p.1, execStreamStore ck p.1])
/-- Events of one outstanding operation. -/
def Op.dues (o : Op) : List (State → Out) :=
  match o.kind with
  | .vld .. => [execVldAsyncComplete o.id]
  | .mat _ => [execMatrixOpComplete o.id]
  | .copy _ => [execHomeRequest o.id, execCopyComplete o.id]
  | .bank b => b.items.flatMap (fun i => [execBankQueryItem o.id i.idx .ok, execBankAppendItem o.id i.idx, execBankMvItem o.id i.idx .ok]) ++ [execBankCmdComplete o.id]
  | .cgate _ => []
  | .tlbinv .. => [execTlbinvComplete o.id]
  | .mpage .. => [execMpageComplete o.id]
  | .kvfind .. => [execKvfindComplete o.id]
  | .rqhand .. => [execHandoffEvent o.id]
  | .rqcan .. => [execCancelEvent o.id]
  | .rqdone .. => [execRqdoneEvent o.id]
  | .publish .. => [execPublishComplete o.id]
  | .recirc .. => [execPlanTaken o.id, execFreezeDrainTimeout o.id]
  | .send _ => [execSendDepart o.id, execSendArrive o.id, execSendComplete o.id, execSendDtTimeout o.id]
/-- Events of one die. -/
def dieDues (d : Nat) : List (State → Out) :=
  [execPowerGrant d, execReferrerScan d, execBlockMoveDone d, execRemapComplete d, execHeldNotificationPost d, execReclaimPeriod d, execReclaimCycleEnd d]
/-- Events of the hub and of the task pools. -/
def State.hubDues (s : State) : List (State → Out) :=
  s.reports.map (fun r => execKillReport r.1 r.2.1 r.2.2) ++
  s.handoffs.flatMap (fun h => [execHandoffStart h.rq, execHandoffBlock h.rq, execHandoffCancelStop h.rq, execCommit h.rq]) ++
  (List.range 16).flatMap (fun p => [execSubmissionSubmit p, execSubmissionCancel p, execCompletionEntryWrite p]) ++
  (if s.queues = [] then [] else allCores.flatMap (fun c => (ctxsOf c.1 c.2).map (fun ck => execLaunchBind ck))) ++
  (if s.tasks = [] then [] else allCores.flatMap (fun c => [execTaskIssue c.1 c.2, execTaskSteal c.1 c.2])) ++
  s.running.map (fun p => execTaskComplete (p.1 / 64) (p.1 % 64)) ++ [execVictimKill]
/-- Every event that may come due by itself, in the default order (log 5). -/
def State.dues (s : State) : List (State → Out) :=
  s.posted.map (fun p => execHomeRequest p.id) ++ s.strands.flatMap (fun p => p.2.dues p.1) ++ s.ops.flatMap (fun o => o.dues) ++ s.hubDues ++ (List.range 9).flatMap dieDues
/-- The state after the first of `fs` that changes `s`. -/
def State.firstOf (s : State) : List (State → Out) → Option State
  | [] => none
  | f :: r => match f s with
    | .next t => if t = s then s.firstOf r else some t
    | _ => s.firstOf r
/-- The engine that issues next in the default order: the first of the first core that has a candidate. -/
def State.nextIssue (s : State) : Option (Nat × Nat × Engine) :=
  let cores := allCores.filter (fun p => s.strands.any (fun q => q.1 / 8 == coreKey p.1 p.2))
  (cores.flatMap (fun p => Engine.all.map (fun e => (p.1, p.2, e)))).find? (fun x => s.mayChoose x.1 x.2.1 x.2.2 && (s.pick x.1 x.2.1 x.2.2).isSome)
/-- What the rules have happen in this aclk, where it has not yet: streams walk and take decisions wherever they may (01 R19, R22, R26, 06 R133), a deadline
that has passed stops its strand (10 R248), every engine chooses (06 R153, R154). -/
def State.must (s : State) : Option State :=
  let walks := s.strands.flatMap (fun p => p.2.es.flatMap (fun q => match Engine.ofNum? q.1 with
    | some e => [execTakeDecision p.1 e, execHeaderWalk p.1 e]
    | none => []) ++ [execPreemptDeadline p.1])
  match s.firstOf walks with
  | some t => some t
  | none => match s.nextIssue with
    | some x => (match s.issueTurn x.1 x.2.1 x.2.2 with | .next t => some t | _ => none)
    | none => none
/-- One step with nothing on the agenda: an event that is due, else an issue, else the end of the aclk. -/
def State.default (s : State) : Out :=
  match s.firstOf s.dues with
  | some t => .next t
  | none => match s.nextIssue with
    | some x => s.issueTurn x.1 x.2.1 x.2.2
    | none => .next s.endOfAclk

/-- Bytes of a line wait in the strand's buffer to be published. -/
def State.unpublished (s : State) (ck line : Nat) : Bool :=
  match (s.strand ck).entry? line with | some p => p.valid &&& ~~~p.pub != 0 | none => false
/-- The strand is about to publish what it has buffered (13 R289): it ends (05 R125), it stops for a save (10 R248), or stream `e` stands at a word that
publishes the line before it issues (13 R288, R291), other than by a line publication, which comes directly before the word's own access (07 R464). -/
def State.publishes (s : State) (ck : Nat) (e : Engine) (line : Nat) : Bool :=
  s.running? ck && s.unpublished ck line &&
  ((s.allEnded ck && s.endWaits ck) || s.stopping ck ||
   (match (s.strand ck).pend with | some (_, t) => (s.handlerFor ck t.cls).isNone | none => false) ||
   (s.mayPreempt ck && (s.standsAt ck).isSome) ||
   (s.stands ck e && (match s.standWord ck e with | .ok (_, some i) => !Instr.publishesLine i | _ => true) && (match s.issueWord ck e with | .next t => t.running? ck && !t.unpublished ck line | _ => false)))
/-- One line published ahead: publications of different lines are performed in no fixed order (13 R289), none before an earlier `astrel` (07 R184). -/
def State.ahead (s : State) (ck : Nat) (e : Engine) (line : Nat) : State :=
  match (s.strand ck).entry? line with
  | none => s
  | some p =>
    if !s.publishes ck e line || s.storePosted ck then s
    else match s.publishEntry ck 3 p with
      | .ok t => t.dropEntry ck line
      | .error _ => s
/-- A row of the table that no engine stream issues: an event. -/
def Instr.isEvent (i : Instr) : Bool := i.head?.isNone && (match i with | .unassignedOpcode .. => false | _ => true)
/-- One turn (log 5). A word runs only where a stream stands at it, and an aclk ends only when all has happened that the rules have happen in it: until then
the turn that ends it stays on the agenda. -/
def State.turn (s : State) : Turn → Out
  | .tick => match s.must with
    | some t => .next { t with agenda := .tick :: s.agenda }
    | none => .next s.endOfAclk
  | .issue d c e => s.issueTurn d c e
  | .event i => if Instr.isEvent i then exec i s else .next s
  | .tlbFill d t => .next (s.tlbKeep d t)
  | .hostWrite a b => .next { s with host := Mem.write s.host a b }
  | .sense a v => .next (s.sense a v)
  | .late b => .next { s with late := b }
  | .ahead ck e line => .next (s.ahead ck e line)
  | .remoteStore asid part die ea data mask bad => .next (s.remoteStore asid part die ea data mask bad)
  | .remoteSend asid part ea dt nb ty add last bad v => .next (s.remoteSend asid part ea dt nb ty add last bad v)
  | .remoteLoad asid part die ea => .next (s.remoteLoad asid part die ea)
  | .remoteAtom asid part die ea k signed eight b e => .next (s.remoteAtom asid part die ea k signed eight b e)
  | .remoteProbe asid part ea => .next (s.remoteProbe asid part ea)
  | .remoteChange key b => .next (s.remoteChange key b)
  | .refetch ck q j i => .next (s.refetch ck q j i)
  | .groupDone op => .next (s.groupDone op)
  | .settle ck => .next (s.unshade ck 0x3F)
  | .tlbDrop d i => .next (s.tlbDrop d i)
  | .midDrop d i => .next (s.midDrop d i)
  | .walkKeep d asid part off level => .next (s.midKeep d asid part off level)
  | .tlbVia d t level => .next (s.tlbVia d t level)
  | .moveLine d line => .next (s.moveLine d line)
  | .reclaim d => .next (s.reclaim d)
  | .taskStep d c => .next (s.taskRun d c 1)
  | .corrected d => .next (s.corrected d)
  | .poisonFifo d c up i => .next (s.poisonFifo d c up i)
  | .barWrite fn off four v => .next (s.barWrite fn off four v)
  | .loadWrite a b => .next (s.loadWrite a b)
  | .capture ck => .next (s.captureSlowly ck)
  | .freeze => .next s.freeze
  | .freezeOver => .next s.freezeOver
  | .peerLost i => .next (s.peerLost i)
  | .newCircuits cs => .next (s.newCircuits cs)

/-- The next turn. Every turn has free values of its own. -/
def stepTurn (s : State) : Out :=
  let t : State := { s with free := s.free + 1, waited := false }
  match s.agenda with
  | [] => t.default
  | x :: r => ({ t with agenda := r } : State).turn x

end Sys2Proof.Machine
end

