-- ==== Sys2Proof/Machine/Step.lean ====
section
/-! DEFINITION. The step of the machine, and a state in which the next step runs a given word. -/

namespace Sys2Proof.Machine

/-- One step: the next turn (log 5). -/
def step (s : State) : Host.Outcome State Fault Refusal := stepTurn s

/-- The header that a placed word stands under (01 R15, R24, R28): one word long, ending in a junction or a yield point where the word is
one. -/
def headerFor (e : Engine) (i : Option Instr) : Word :=
  let j := (i.map (fun i => i.control)).getD false
  let y := (i.map (fun i => i.isYield)).getD false
  w64 (e.num * 2 ^ 61 + 2 ^ 51 + b2n j * 2 ^ 50 + b2n y * 2 ^ 48)

/-- The core that a placed word runs on: the first, by profile P, D, crown, management, in which the word is legal. -/
def coreFor (e : Engine) (word : TextWord) : Nat × Nat :=
  let ok (pf : Profile) : Bool := (decode pf e word).toOption.isSome
  if ok .p then (0, 0) else if ok .d then (2, 0) else if ok .crown then (0, 16) else if ok .mc then (8, 0) else if e = .b then (2, 0) else (0, 0)

/-- `s` with the instruction of `nbits` bits `w` (log 9: a word of the sequencer up to 96 bits, above that a section header and its word) in
memory where an engine stream stands at it, and the issue of that engine the next turn: a fresh strand of a valid context, its text at
the first 20 bytes of die 0 through a translation that the die's TLB holds. -/
def State.withFetchWord (s : State) (nbits w : Nat) : State :=
  let v := w % 2 ^ nbits
  let e := if nbits ≤ 96 then Engine.s else (Engine.ofNum? (v / 2 ^ 61 % 8)).getD .s
  let word : TextWord := BitVec.ofNat 96 (if nbits ≤ 96 then v else v / 2 ^ 64)
  let hdr : Word := if nbits ≤ 96 then headerFor .s (decodeTableWord nbits w) else w64 v
  let p := coreFor e word
  let ck := ckOf p.1 p.2 0
  let x : EStream := { EStream.init 8 with
    secn := 1, secn0 := 1, owned := 1, pos := .words, sec := { Section.init with hdr } }
  let tlb : TlbEntry := { asid := 0, part := 0, page := 0, size := 0x10000, frame := 0, w := true }
  let s : State := { s with
    agenda := [.issue p.1 p.2 e], strands := [(ck, { Strand.init.setEng e x with text := some (0, 20) })], issued := [],
    mem := Mem.writeLE (Mem.writeLE s.mem 0 hdr.toNat 8) 8 word.toNat 12, poison := NSet.del s.poison 0, tags := Map.del s.tags 0 }
  (s.setCtx ck 1).modDie 0 (fun d => { d with tlb := tlb :: d.tlb })

end Sys2Proof.Machine
end

