-- ==== Sys2Proof/Safety.lean ====
section
/-! DEFINITION. What counts as a safe run, in the terms that the statements use: an instruction that answers a next state, the canonical
form of memory, and the frames of words and events: what of the state they may change. -/

namespace Sys2Proof.Machine

/-- `s` answers a next state to instruction `i`. -/
def Completes (i : Instr) (s : State) : Prop := ∃ t, exec i s = .next t

/-- Memory is in its canonical form, and so is host memory. -/
def State.memWf (s : State) : Bool := Mem.wf s.mem && Mem.wf s.host

/-- The byte of memory that stands at a home key. -/
def State.byteAt (s : State) (key : Nat) : Byte := Mem.read s.mem key

/-- `t` is `s` but for the strand of context `ck`: memory, every device register, every operation and every other strand are as they were. -/
def State.OnlyStrandOf (s t : State) (ck : Nat) : Prop :=
  t = { s with strands := t.strands } ∧ ∀ c, c ≠ ck → t.strand c = s.strand c

/-- Stream `y` is stream `x` past the word at which it stood, at aclk `now` (01 R19): the place in the section or the next header, `walk`
behind the word; results on their way, bypass values and the notes of what each section has written and of what comes before it (01 R33) apart, nothing else
is changed. -/
def EStream.Passed (x y : EStream) (now : Nat) : Prop :=
  y = { x with walk := x.walk + 12, widx := y.widx, pos := y.pos, acted := some now, sec := y.sec, flight := y.flight, bypass := y.bypass, wrote := y.wrote, known := y.known } ∧
  y.sec = { x.sec with begun := y.sec.begun, shape := y.sec.shape } ∧
  (if x.widx + 1 < hdrLen x.sec.hdr then y.widx = x.widx + 1 ∧ y.pos = .words else y.widx = 0 ∧ y.pos = .header)

/-- The word at which the executing stream of `s` stood has issued, and `t` is the state after it: the executing strand is `st`, its engine
streams apart; of these the executing one has passed the word and has the results `fs` on their way; nothing else is changed. -/
def State.Issues (s t : State) (st : Strand) (fs : List Flight) : Prop :=
  s.OnlyStrandOf t s.cur.ck ∧ t.me = { st with es := t.me.es } ∧ (∀ e, e ≠ s.cur.eng → t.me.eng e = s.me.eng e) ∧
  s.myEng.Passed t.myEng s.time ∧ t.myEng.flight = fs

/-- A result on its way to `d`, once a later word has issued with destination `d` (01 R31). -/
def Flight.superseded (d : Dest) (f : Flight) : Flight := if f.dest = d ∧ !d.shared then { f with stale := true } else f
/-- The result that the executing word of `s` puts on its way. -/
def State.newFlight (s : State) (h : Head) (d : Dest) (v : Val) (fl : BitVec 7) : Flight :=
  { dest := d, val := v, born := s.time, lb := h.lb.toNat, sec := s.myEng.sec.ord, widx := s.myEng.widx, flags := fl, stale := false, slot := false, load := false }
/-- The results on their way after a word of `s` whose result is `v` to `d`. -/
def State.flightsWith (s : State) (h : Head) (d : Dest) (v : Val) (fl : BitVec 7) : List Flight :=
  s.myEng.flight.map (Flight.superseded d) ++ [s.newFlight h d v fl]
/-- The word issues and its whole effect is one result `v` on its way to `d`; a discarded destination takes none. -/
def State.Gives (s t : State) (h : Head) (d : Dest) (v : Val) (fl : BitVec 7) : Prop :=
  s.Issues t s.me (if d = .none then s.myEng.flight else s.flightsWith h d v fl)
/-- A result of a word of aclk `now` is that of a request, and holds a slot until it lands (07 R170). -/
def Flight.holding (now : Nat) (f : Flight) : Flight := if f.born = now then { f with slot := true } else f
/-- The results on their way after a word of `s` whose result is that of a request. -/
def State.flightsAsked (s : State) (h : Head) (d : Dest) (v : Val) : List Flight := (s.flightsWith h d v 0).map (Flight.holding s.time)
/-- The word issues and its whole effect is the result of a request on its way to `d`; a discarded destination takes none. -/
def State.Asks (s t : State) (h : Head) (d : Dest) (v : Val) : Prop :=
  s.Issues t s.me (if d = .none then s.myEng.flight else s.flightsAsked h d v)
/-- A result of a word of aclk `now` is that of a load: it holds a slot, and the monitors count its landing (21 R425). -/
def Flight.loading (now : Nat) (f : Flight) : Flight := if f.born = now then { f with slot := true, load := true } else f
/-- The results on their way after a load of `s` with result `v`. -/
def State.flightsLoads (s : State) (h : Head) (d : Dest) (v : Val) : List Flight := (s.flightsWith h d v 0).map (Flight.loading s.time)
/-- The word issues with no result, and leaves strand `st`. -/
def State.Sets (s t : State) (st : Strand) : Prop := s.Issues t st s.myEng.flight
/-- The word issues, leaves strand `st`, and holds its section until the end of the aclk, at which the rest of its effect comes. -/
def State.Defers (s t : State) (h : Head) (st : Strand) : Prop := s.Issues t st (s.flightsWith h .none .defer 0)

/-- A junction word issues and appends decision `d`, which the sequencer takes (01 R24 to R26): the strand is `st` but for the decision queue and the
sequencer stream, which stands at `d`'s address, past one decision more, with results `fs` on their way. Entries that every engine has taken
may leave the queue. -/
def State.Decides (s t : State) (st : Strand) (d : Decision) (fs : List Flight) : Prop :=
  s.OnlyStrandOf t s.cur.ck ∧
  t.me = { st with es := t.me.es, dq := t.me.dq, dqbase := t.me.dqbase } ∧
  (∀ e, e ≠ .s → t.me.eng e = s.me.eng e) ∧
  (∃ k, t.me.dq = (st.dq ++ [d]).drop k ∧ t.me.dqbase = st.dqbase + k ∧
    ∀ e ∈ enginesOf s.myProfile, k = 0 ∨ t.me.dqbase ≤ (t.me.eng e).dqpos) ∧
  (let x := s.me.eng .s
   let y := t.me.eng .s
   y.walk = d.addr ∧ y.dqpos = x.dqpos + 1 ∧ y.pos = (if d.kind = .endWalk then .ended else .header) ∧
   y.preds = (match d.newp with | some p => (x.preds &&& 0xFF) ||| (p.setWidth 16 <<< 8) | none => x.preds) ∧
   y.flight = (match d.newp with
     | some _ => fs.map (fun f => match f.dest with | .p r => if 8 ≤ r then { f with stale := true } else f | _ => f)
     | none => fs))

/-- An operation of the executing strand of `s`, as the word that starts it leaves it: outstanding, posting to semaphore `hn` where `sp`. -/
def State.newOp (s : State) (sp : Bool) (hn : Nat) (k : OpKind) : Op :=
  { id := s.nextId, born := s.time, ck := s.cur.ck, sid := s.me.sid, core := s.cur.ck / 8, asid := s.myAsid, part := s.myPart, saved := none, held := false, dead := false, sp, hn, fin := false, kind := k }
/-- `s` with that operation outstanding. -/
def State.withOp (s : State) (sp : Bool) (hn : Nat) (k : OpKind) : State :=
  { s with nextId := s.nextId + 1, ops := s.ops ++ [s.newOp sp hn k] }
/-- The word issues, and its effect is one more outstanding operation of the strand. -/
def State.Starts (s t : State) (sp : Bool) (hn : Nat) (k : OpKind) : Prop := (s.withOp sp hn k).Sets t s.me

/-- The word or header at which the executing stream of `s` stands raises trap `x` and has no other effect (01 R38): no engine stream moves and no
register changes. Of the traps of one aclk the one with the smallest dynamic section, then the first engine, is the one that occurs
(10 R249). -/
def State.Traps (s t : State) (x : TrapInfo) : Prop :=
  s.OnlyStrandOf t s.cur.ck ∧ t.me = { s.me with pend := t.me.pend, pendW := t.me.pendW } ∧
  (let p := s.myEng.trapAt s.cur.eng
   let now : TrapWhen := { at_ := s.time, ft := s.ftime, asked := s.requested s.cur.ck }
   (t.me.pend, t.me.pendW) = match s.me.pend with
     | none => (some (p, x), now)
     | some (q, y) => if q.dsec < p.dsec ∨ (q.dsec = p.dsec ∧ q.eng ≤ p.eng) then (some (q, y), s.me.pendW) else (some (p, x), now))
/-- The word waits where it stands (01 R32): nothing changes but that the turn is seen to have waited. -/
def State.Waits (s t : State) : Prop := t = { s with waited := true }

/-- A tile result of a vector word of `s` (08 R190): to the vector register that `d` names, or one entry pushed to the stream it names. -/
def State.Writes (s t : State) (h : Head) (d : BitVec 7) (x : Tile) (fl : Flags) : Prop :=
  (Legal.vreg d = true → s.Gives t h (.v (s.vphys d)) (.tile x false) fl) ∧
  (Legal.vreg d = false → Legal.qreg d = true → s.Gives t h (.q (d.toNat - 0x40))
    (.push [{ bits := BitVec.ofNat 16384 (x.toNat % 2 ^ entryBits (s.me.stream (d.toNat - 0x40)).ety), mark := false }]) fl)
/-- Lanes of width `wd` of `x`, as far as they lie in a tile: lane `e` of the first `n` is `f e`, and every bit behind them is zero (08 R187). -/
def Lanes (x : Tile) (wd n : Nat) (f : Nat → Nat) : Prop :=
  (∀ e, e < n → wd * (e + 1) ≤ 16384 → lane x wd e = f e) ∧ ∀ i, wd * n ≤ i → x.getLsbD i = false
/-- Bits of a mask that a vector word writes: bit `e` of the first `n` is `f e`, and every other bit is zero (08 R187). -/
def Bits (m : Mask) (n : Nat) (f : Nat → Bool) : Prop := ∀ e, m.getLsbD e = (decide (e < n ∧ e < 4096) && f e)
/-- The tile operands that a lane-wise word names: A, B unless it is scalar, C. -/
def laneOperands (w : W1) (bT cT : Bool) : List (BitVec 7) := [w.a] ++ (if bT ∧ !vscalar w then [w.b] else []) ++ (if cT then [w.c] else [])
/-- The operands of a lane-wise word of `s` as it reads them (08 R190, R191). -/
def State.ReadsLanes (s : State) (w : W1) (bT cT keeps masked : Bool) (v : VIn) : Prop :=
  s.vopnd w.a 0 0 = .ok v.a ∧
  (if bT ∧ !vscalar w then s.vopnd w.b (countOf [w.a] w.b) 1 = .ok v.b else v.b = 0) ∧
  (if bT ∧ vscalar w then ∃ x, s.rd w.b 1 = .ok x ∧ v.sb = x.toNat else v.sb = 0) ∧
  (if cT then s.vopnd w.c (countOf (laneOperands w bT false) w.c) 2 = .ok v.c else v.c = 0) ∧
  (if keeps then s.vopnd w.d 0 3 = .ok v.old else v.old = 0) ∧ v.mask = (if masked then s.mget w.c 4 else 0)
/-- Word `i` of `s` is lane-wise (08 R193): with its operands open it issues, and lane `e` of its result is the value of `f`, with its flags set; a
lane that the mask of C excludes keeps the old value of a register and is zero in a stream entry. -/
def State.LaneWord (s : State) (i : Instr) (h : Head) (w : W1) (wd : Nat) (widths : List Nat) (inc : Nat) (bT cT cM rdD : Bool)
    (f : BitVec 13 → VIn → Nat → Nat × Flags) : Prop :=
  let masked := cM && w.c != 0
  let xs := laneOperands w bT cT
  ∀ v, s.reaches i h = true → s.vopen inc widths xs (some w.d) = .ok () →
    s.ReadsLanes w bT cT ((masked && Legal.vreg w.d) || rdD) masked v →
    let off (e : Nat) : Bool := masked && !bit v.mask e
    ∃ t x fl, exec i s = .next t ∧ (s.enter.vpops xs).Writes t h w.d x fl ∧
      Lanes x wd (shN s.me.vshape) (fun e => if off e then (if Legal.vreg w.d then lane v.old wd e % 2 ^ wd else 0) else (f s.me.vshape v e).1 % 2 ^ wd) ∧
      fl = orFlags ((List.range (shN s.me.vshape)).map (fun e => if off e then 0 else (f s.me.vshape v e).2))

/-- The strand of context `ck` as a stop saves it (10 R248): what is on its way has landed or is held, its buffer is published and empty, operand entries have gone
back to their bindings, PHS is clear. -/
def State.stopped (s : State) (ck : Nat) : State :=
  (((s.holdStop ck).modStrand ck (fun st => { st with pbuf := [] })).rewindMat ck).modStrand ck (fun st => { st with phs := false })

/-- The outstanding operation named `op` is `o`, its kind is `k`, and its event may happen now. -/
def State.Due (s : State) (op : Nat) (o : Op) (k : OpKind) : Prop := s.op? op = some o ∧ o.kind = k ∧ s.ready o = true

end Sys2Proof.Machine
end

