-- ==== Sys2Proof/Certificates/Slice0/Obligations.lean ====
section
/-! DEFINITION. The statements for the provers. Each names in its docstring the rules of spec/ that it rests on. The terms they share (what the
issue of a word leaves unchanged, a result on its way, a trap, a wait) are defined in Safety. -/

open Sys2Proof Sys2Proof.Machine

/-- Every row of the table of 05 R109, with division as the pseudocode of 05 R110: the result of each two-operand instruction for all operands, as the completion and the frame of the word; the reserved fields of a well-formed word. -/
def Obligations.ScalarAluResult : Prop :=
  ((∀ (pf : Profile) (h : Head) (w : W1), ∀ i ∈ ([.add h w, .sub h w, .mul h w, .mulh h w, .mulhn h w, .div h w, .divn h w, .rem h w, .andS h w, .orS h w,
       .xorS h w, .andn h w, .shl h w, .shr h w, .sar h w, .rot h w, .minS h w, .maxS h w, .minn h w, .maxn h w] : List Instr),
     i.WellFormed pf → w.c = 0 ∧ w.fn.toNat % 2048 = 0 ∧ (w.fn.getLsbD 11 = true → w.b = 0) ∧ (w.fn.getLsbD 11 = false → w.imm = 0)) ∧
   (∀ (w : W1) (s : State), s.rdB w = if w.fn.getLsbD 11 then .ok (w.imm.signExtend 64) else s.rd w.b 1) ∧
   ∀ (h : Head) (w : W1) (s : State) (a b : Word), s.rd w.a 0 = .ok a → s.rdB w = .ok b →
   ∀ p ∈ ([(.add h w, BitVec.ofNat 64 (a.toNat + b.toNat)),
       (.sub h w, BitVec.ofInt 64 (a.toInt - b.toInt)),
       (.mul h w, BitVec.ofNat 64 (a.toNat * b.toNat)),
       (.mulh h w, (a.signExtend 128 * b.signExtend 128).extractLsb' 64 64),
       (.mulhn h w, (a.zeroExtend 128 * b.zeroExtend 128).extractLsb' 64 64),
       (.andS h w, a &&& b), (.orS h w, a ||| b), (.xorS h w, a ^^^ b), (.andn h w, a &&& ~~~b),
       (.shl h w, BitVec.ofNat 64 (a.toNat * 2 ^ (b.toNat % 64))),
       (.shr h w, BitVec.ofNat 64 (a.toNat / 2 ^ (b.toNat % 64))),
       (.sar h w, BitVec.ofInt 64 (a.toInt / 2 ^ (b.toNat % 64))),
       (.rot h w, BitVec.ofNat 64 ((a.toNat * 2 ^ (b.toNat % 64)) ||| (a.toNat / 2 ^ (64 - b.toNat % 64)))),
       (.minS h w, if a.toInt ≤ b.toInt then a else b), (.maxS h w, if a.toInt ≤ b.toInt then b else a),
       (.minn h w, if a.toNat ≤ b.toNat then a else b), (.maxn h w, if a.toNat ≤ b.toNat then b else a)] : List (Instr × Word)),
     s.reaches p.1 h = true → ∃ t, exec p.1 s = .next t ∧ s.Gives t h (destOf w.d) (.word p.2 false) 0) ∧
  (∀ (h : Head) (w : W1) (s : State) (a b : Word), s.rd w.a 0 = .ok a → s.rdB w = .ok b →
   (s.reaches (.div h w) h = true → ∃ t, exec (.div h w) s = .next t ∧
     s.Gives t h (destOf w.d) (.word (if b = 0 then 0 else if a = BitVec.intMin 64 ∧ b = BitVec.allOnes 64 then BitVec.intMin 64
       else BitVec.ofInt 64 (a.toInt.tdiv b.toInt)) false) 0) ∧
   (s.reaches (.divn h w) h = true → ∃ t, exec (.divn h w) s = .next t ∧
     s.Gives t h (destOf w.d) (.word (if b = 0 then 0 else BitVec.ofNat 64 (a.toNat / b.toNat)) false) 0) ∧
   (s.reaches (.rem h w) h = true → ∃ t, exec (.rem h w) s = .next t ∧
     s.Gives t h (destOf w.d) (.word (if b = 0 then a else if a = BitVec.intMin 64 ∧ b = BitVec.allOnes 64 then 0
       else BitVec.ofInt 64 (a.toInt - b.toInt * a.toInt.tdiv b.toInt)) false) 0))
/-- The results of 05 R111 and 05 R112 for all operands, the reserved fields of a well-formed word, and pos + width at most 64. -/
def Obligations.BitCountsAndFields : Prop :=
  ((∀ (pf : Profile) (h : Head) (w : W1), ∀ i ∈ ([.clz h w, .ctz h w, .popc h w] : List Instr),
     i.WellFormed pf → w.b = 0 ∧ w.c = 0 ∧ w.fn = 0 ∧ w.imm = 0) ∧
   ∀ (h : Head) (w : W1) (s : State) (a : Word), s.rd w.a 0 = .ok a →
   (s.reaches (.clz h w) h = true → ∃ t n, exec (.clz h w) s = .next t ∧ s.Gives t h (destOf w.d) (.word (w64 n) false) 0 ∧
     n ≤ 64 ∧ (∀ i, i < n → a.getMsbD i = false) ∧ (n < 64 → a.getMsbD n = true)) ∧
   (s.reaches (.ctz h w) h = true → ∃ t n, exec (.ctz h w) s = .next t ∧ s.Gives t h (destOf w.d) (.word (w64 n) false) 0 ∧
     n ≤ 64 ∧ (∀ i, i < n → a.getLsbD i = false) ∧ (n < 64 → a.getLsbD n = true)) ∧
   (s.reaches (.popc h w) h = true → ∃ t, exec (.popc h w) s = .next t ∧
     s.Gives t h (destOf w.d) (.word (w64 ((List.range 64).filter (fun i => a.getLsbD i)).length) false) 0)) ∧
  ((∀ (pf : Profile) (h : Head) (w : W1),
     ((Instr.bfx h w).WellFormed pf → w.b = 0 ∧ w.c = 0 ∧ w.fn = 0 ∧ w.imm.toNat < 2 ^ 13 ∧
       (w.imm.extractLsb' 0 6).toNat + (w.imm.extractLsb' 6 6).toNat + 1 ≤ 64) ∧
     ((Instr.bfi h w).WellFormed pf → w.c = 0 ∧ w.fn = 0 ∧ w.imm.toNat < 2 ^ 12 ∧
       (w.imm.extractLsb' 0 6).toNat + (w.imm.extractLsb' 6 6).toNat + 1 ≤ 64)) ∧
   ∀ (h : Head) (w : W1) (s : State) (a b : Word), s.rd w.a 0 = .ok a → s.rd w.b 1 = .ok b →
   let pos := (w.imm.extractLsb' 0 6).toNat
   let width := (w.imm.extractLsb' 6 6).toNat + 1
   pos + width ≤ 64 →
   (s.reaches (.bfx h w) h = true → ∃ t r, exec (.bfx h w) s = .next t ∧ s.Gives t h (destOf w.d) (.word r false) 0 ∧
     (∀ i, i < width → r.getLsbD i = a.getLsbD (pos + i)) ∧
     ∀ i, width ≤ i → i < 64 → r.getLsbD i = (w.imm.getLsbD 12 && a.getLsbD (pos + width - 1))) ∧
   (s.reaches (.bfi h w) h = true → ∃ t r, exec (.bfi h w) s = .next t ∧ s.Gives t h (destOf w.d) (.word r false) 0 ∧
     ∀ i, r.getLsbD i = if pos ≤ i ∧ i < pos + width then a.getLsbD (i - pos) else b.getLsbD i))
/-- The results of the A engine of 07 R161, of `sel` (05 R113) and of `li`, `ali` and `lih` (05 R114, 07 R161). -/
def Obligations.AddressAndMoveResults : Prop :=
  (∀ (h : Head) (w : W1) (s : State) (a b : Word), s.rd w.a 0 = .ok a → s.rdB w = .ok b →
   ∀ p ∈ ([(.aadd h w, BitVec.ofNat 64 (a.toNat + b.toNat)),
       (.asub h w, BitVec.ofInt 64 (a.toInt - b.toInt)),
       (.amul h w, BitVec.ofNat 64 (a.toNat * b.toNat)),
       (.ashl h w, BitVec.ofNat 64 (a.toNat * 2 ^ (b.toNat % 64))),
       (.ashr h w, BitVec.ofNat 64 (a.toNat / 2 ^ (b.toNat % 64))),
       (.aand h w, a &&& b), (.aor h w, a ||| b)] : List (Instr × Word)),
     s.reaches p.1 h = true → ∃ t, exec p.1 s = .next t ∧ s.Gives t h (destOf w.d) (.word p.2 false) 0) ∧
  ((∀ (pf : Profile) (h : Head) (w : W1), (Instr.sel h w).WellFormed pf → 0x60 ≤ w.c.toNat ∧ w.c.toNat < 0x70) ∧
   ∀ (h : Head) (w : W1) (s : State) (a b : Word), s.rd w.a 0 = .ok a → s.rdB w = .ok b →
   (s.reaches (.sel h w) h = true → ∃ t, exec (.sel h w) s = .next t ∧
     s.Gives t h (destOf w.d) (.word (if s.readP (w.c.toNat - 0x60) = true then a else b) false) 0) ∧
   (∀ i ∈ ([.li h w, .ali h w] : List Instr), s.reaches i h = true → ∃ t, exec i s = .next t ∧
     s.Gives t h (destOf w.d) (.word (w.imm.signExtend 64) false) 0) ∧
   (s.reaches (.lih h w) h = true → ∃ t, exec (.lih h w) s = .next t ∧
     s.Gives t h (destOf w.d) (.word (w.imm.extractLsb' 0 24 ++ a.extractLsb' 0 40 : BitVec 64) false) 0))
/-- The condition table of 05 R115, as `cmp` uses it (05 R116); 05 R119 (`jct`), R120 (`jmp`), R121 (`loop`), R125 (`end`): the decision appended and taken (01 R24 to R26). -/
def Obligations.ComparesJunctionsAndLoops : Prop :=
  (∀ (h : Head) (w : W1) (s : State) (a b : Word), s.rd w.a 0 = .ok a → s.rdB w = .ok b → s.reaches (.cmp h w) h = true →
   ∀ c ∈ ([(0x00, decide (a = b)), (0x01, decide (a ≠ b)), (0x02, decide (a.toInt < b.toInt)), (0x03, decide (b.toInt ≤ a.toInt)),
       (0x04, decide (a.toInt ≤ b.toInt)), (0x05, decide (b.toInt < a.toInt)), (0x06, decide (a.toNat < b.toNat)), (0x07, decide (b.toNat ≤ a.toNat)),
       (0x08, decide (a.toNat ≤ b.toNat)), (0x09, decide (b.toNat < a.toNat)), (0x0A, decide (a &&& b ≠ 0)), (0x0B, decide (a &&& b = 0))] : List (Nat × Bool)),
     Legal.fnCC w.fn = c.1 → ∃ t, exec (.cmp h w) s = .next t ∧ s.Gives t h (destOf w.d) (.pred c.2) 0) ∧
  (∀ (h : Head) (w : W3) (s : State), s.cur.eng = .s →
   let target := s.myEng.walk + w.tgt * 4
   let onward : Decision := { kind := .fallThrough, addr := s.myEng.walk + 12, rot := 0, newp := none }
   let taken : Decision := { kind := .taken, addr := target, rot := 0, newp := none }
   (s.reaches (.jct h w) h = true → w.k = false → ∀ a b, s.rd w.a 0 = .ok a → s.rd w.b 1 = .ok b → ∃ t, exec (.jct h w) s = .next t ∧
     s.Decides t s.me (if condHolds w.cond.toNat a b then taken else onward) s.myEng.flight) ∧
   (s.reaches (.jct h w) h = true → w.k = true → ∃ t, exec (.jct h w) s = .next t ∧
     s.Decides t s.me (if s.readP (w.cond.toNat % 16) = !w.cond.getLsbD 4 then taken else onward) s.myEng.flight) ∧
   (s.reaches (.jmp h w) h = true → ∃ t, exec (.jmp h w) s = .next t ∧
     s.Decides t s.me { taken with newp := if w.fn.getLsbD 11 then some 1 else none } s.myEng.flight) ∧
   (s.reaches (.endWord h w) h = true → ∃ t d, exec (.endWord h w) s = .next t ∧ d.kind = .endWalk ∧ s.Decides t s.me d s.myEng.flight)) ∧
  (∀ (h : Head) (w : W3) (s : State), s.cur.eng = .s → s.reaches (.loop h w) h = true →
   let c : Word := s.readS s.me w.a.toNat 0 - 1
   let nst := (w.fn.extractLsb' 4 3).toNat
   let fs := if destOf w.a = .none then s.myEng.flight else s.flightsWith h (destOf w.a) (.word c false) 0
   ∃ t, exec (.loop h w) s = .next t ∧
     (if c.toInt > -(nst : Int) then ∃ newp : BitVec 8,
       s.Decides t s.me { kind := .loopBack, addr := s.myEng.walk + w.tgt * 4, rot := (w.fn.extractLsb' 7 5).toNat, newp := some newp } fs ∧
       newp.getLsbD 0 = decide (c.toInt > 0) ∧
       ∀ k, 1 ≤ k → k ≤ 7 → newp.getLsbD k = (decide (k ≤ nst) && s.readP (8 + k - 1))
     else s.Decides t s.me { kind := .fallThrough, addr := s.myEng.walk + 12, rot := 0, newp := none } fs))
/-- The return stack of 05 R123 and R124. -/
def Obligations.CallAndReturnStack : Prop :=
  ∀ (h : Head) (w : W3) (s : State), s.cur.eng = .s →
  let ra : Word := (s.myEng.walk + 12).zeroExtend 64
  let call : Decision := { kind := .call, addr := s.myEng.walk + w.tgt * 4, rot := 0, newp := none }
  (s.reaches (.call h w) h = true → s.me.rsdep = 272 → ∃ t, exec (.call h w) s = .next t ∧
    s.Traps t { cls := .stackOverflow, code := 0, info := 272 }) ∧
  (s.reaches (.call h w) h = true → s.me.rsdep ≠ 272 → s.me.rstack.length < 16 → ∃ t, exec (.call h w) s = .next t ∧
    s.Decides t { s.me with rstack := ra :: s.me.rstack, rsdep := s.me.rsdep + 1 } call s.myEng.flight) ∧
  (s.reaches (.call h w) h = true → s.me.rsdep ≠ 272 → 16 ≤ s.me.rstack.length → ∃ t u, exec (.call h w) s = .next t ∧
    u = s.wrVaultKey (vaultKeyOf s.myDie s.myCore ((s.me.rsbase.extractLsb' 11 12).toNat * 2048 + 8 * (s.me.rsdep - 16))) (s.me.rstack.getLastD 0).toNat 8 ∧
    u.Decides t { s.me with rstack := ra :: s.me.rstack.dropLast, rsdep := s.me.rsdep + 1 } call s.myEng.flight) ∧
  (s.reaches (.ret h w) h = true → s.me.rsdep = 0 → ∃ t, exec (.ret h w) s = .next t ∧
    s.Traps t { cls := .stackUnderflow, code := 0, info := 0 }) ∧
  (s.reaches (.ret h w) h = true → s.me.rsdep ≠ 0 → ∃ t, exec (.ret h w) s = .next t ∧
    s.Decides t { s.me with rstack := s.me.rstack.tail, rsdep := s.me.rsdep - 1 }
      { kind := .ret, rot := 0, newp := none, addr := (match s.me.rstack with
        | x :: _ => x
        | [] => w64 (Mem.readLE s.mem (vaultKeyOf s.myDie s.myCore ((s.me.rsbase.extractLsb' 11 12).toNat * 2048 + 8 * (s.me.rsdep - 1))) 8)).extractLsb' 0 48 }
      s.myEng.flight)
/-- 05 R126 (`yield`), R128 (`nop`) and R129 (`prio`). That the section of `prio` counts as retired only at the end of its aclk is log 42. -/
def Obligations.QuietSequencerWords : Prop :=
  (∀ (h : Head) (w : W6) (s : State) (a b : Word), s.reaches (.yieldWord h w) h = true → s.rd w.a 0 = .ok a → s.rd w.b 1 = .ok b →
   ∃ t, exec (.yieldWord h w) s = .next t ∧ s.Sets t { s.me with yieldp := some (YieldPoint.mk (s.me.eng .s).secn a b
     (w.imm.extractLsb' 0 32) (w.imm.extractLsb' 32 8) (w.imm.extractLsb' 40 2)) }) ∧
  (∀ (h : Head) (w : W1) (s : State), s.reaches (.nop h w) h = true → ∃ t, exec (.nop h w) s = .next t ∧ s.Sets t s.me) ∧
  (∀ (h : Head) (w : W6) (s : State) (a : Word), s.reaches (.prio h w) h = true → s.rd w.a 0 = .ok a →
   let n := if Legal.f0 w then a.toNat else w.imm.toNat % 4
   ∃ t st, exec (.prio h w) s = .next t ∧ s.Defers t h st ∧ st = { s.me with later := st.later } ∧
     fld (st.endAclk).prioc 1 0 = min n (fld s.me.prioc 3 2) ∧ fld (st.endAclk).prioc 3 2 = fld s.me.prioc 3 2)
/-- The system registers of 05 R130 and R131. That the section of `syswr` counts as retired only at the end of its aclk is log 42. -/
def Obligations.SystemRegisterWords : Prop :=
  (∀ (h : Head) (w : W6) (s : State), s.reaches (.sysrd h w) h = true →
   ∀ p ∈ ([(0x000, w64 s.me.slipw), (0x001, (s.prioc s.cur.ck).zeroExtend 64), (0x002, s.me.fstat0.zeroExtend 64), (0x003, w64 s.me.rsdep),
       (0x004, s.me.rsbase), (0x008, w64 (s.ftime / 11)), (0x009, s.me.tgb.zeroExtend 64), (0x00A, s.tgen), (0x00B, s.hstate), (0x00C, 1),
       (0x010, s.me.vshape.zeroExtend 64), (0x011, s.me.rotb.zeroExtend 64), (0x012, s.vffree s.myDie s.myCore), (0x018, s.me.ashape.zeroExtend 64),
       (0x020, s.bavail s.myDie s.myCore)] : List (Nat × Word)),
     w.imm.toNat % 4096 = p.1 → ∃ t, exec (.sysrd h w) s = .next t ∧ s.Gives t h (destOf w.a) (.word p.2 false) 0) ∧
  (∀ (h : Head) (w : W6) (s : State) (a : Word), s.reaches (.syswr h w) h = true → s.rd w.a 0 = .ok a →
   ∃ t st, exec (.syswr h w) s = .next t ∧ s.Defers t h st ∧ st = { s.me with later := st.later } ∧
     (w.imm.toNat % 4096 = 0x000 → (st.endAclk).slipw = max 1 (min a.toNat 64)) ∧
     (w.imm.toNat % 4096 = 0x001 → fld (st.endAclk).prioc 1 0 = min a.toNat (fld s.me.prioc 3 2)) ∧
     (w.imm.toNat % 4096 = 0x002 → s.me.later = [] → (st.endAclk).fstat = s.me.fstat &&& ~~~(a.extractLsb' 0 7)) ∧
     (w.imm.toNat % 4096 = 0x011 → (st.endAclk).rotb = a.extractLsb' 0 5))
/-- 05 R127 (`trap`) and 10 R245 (the return from a handler), with the layout of the save area of 06 R157 to R159. What the area has no room for is kept beside it (log 28). -/
def Obligations.TrapWordAndHandlerReturn : Prop :=
  (∀ (h : Head) (w : W6) (s : State), s.reaches (.trapWord h w) h = true →
   let imm16 := w.imm.extractLsb' 0 16
   (s.me.hdl = false ∨ (imm16 ≠ 0xFFFF ∧ imm16 ≠ 0xFFFE)) →
   ∃ t, exec (.trapWord h w) s = .next t ∧ s.Traps t { cls := .software, code := imm16, info := 0 }) ∧
  (∀ (h : Head) (w : W6) (s : State),
   let imm := w.imm.extractLsb' 0 16
   let ck := s.cur.ck
   let hd := s.areaRead ck 0 32
   let sysr (i : Nat) : Nat := hd / 2 ^ (256 + 64 * i) % 2 ^ 64
   let er (e : Engine) : Nat := s.areaRead ck (0x100 + 0x80 * e.num) 16
   let rec0 := s.areaDword ck 0x40
   let te := Engine.ofNum? (rec0 / 2 ^ 8 % 8)
   let tw := rec0 / 2 ^ 32 % 2 ^ 11
   let lost : Bool := (rec0.testBit 13 && te == some .v) || (rec0.testBit 14 && te == some .m)
   let stood (o : Op) : Bool := o.mine ck && (match o.kind with | .mat m => te == some .m && m.lb != 7 && m.dsec == s.areaDword ck 0x48 && m.widx == tw | _ => false)
   let landed := s.me.endAclk
   s.cur.eng = .s → s.reaches (.trapWord h w) h = true → s.me.hdl = true → (imm = 0xFFFF ∨ imm = 0xFFFE) → s.me.later = [] → (∀ q ∈ s.posted, q.ck ≠ ck) →
   (∀ e : Engine, (s.me.eng e).flight = []) →
   ∃ t, exec (.trapWord h w) s = .next t ∧ (∀ c, c ≠ ck → t.strand c = s.strand c) ∧ t.mem = s.mem ∧ t.dev = s.dev ∧
     (let u := t.strand ck
      u.hdl = false ∧ u.pend = none ∧ u.phs = false ∧ u.full = s.requested ck ∧
      u.s = s.me.s ∧ u.a = s.me.a ∧ u.amark = s.me.amark ∧ u.v = s.me.v ∧ u.vmark = s.me.vmark ∧ u.m = s.me.m ∧ u.z = s.me.z ∧
      u.ztag = s.me.ztag ∧ u.fstat = s.me.fstat ∧ u.tgb = s.me.tgb ∧
      (let ends := (s.ops.filter (fun o => o.mine ck && o.fin)).foldl (fun st o => st.finished o) landed
       u.h = ends.h ∧ u.n = ends.n) ∧
      u.vshape = BitVec.ofNat 13 (if (er .v).testBit 153 then er .v / 2 ^ 576 else sysr 4) ∧
      u.ashape = BitVec.ofNat 10 (if (er .m).testBit 153 then er .m / 2 ^ 576 else sysr 5) ∧
      u.rotb = BitVec.ofNat 5 (sysr 3) ∧ u.rsdep = sysr 7 % 512 ∧ u.slipw = sysr 1 % 128 ∧ u.prioc = BitVec.ofNat 6 (sysr 0 % 16) ∧
      u.rsbase = w64 (sysr 8 / 2 ^ 11 % 2 ^ 12 * 2 ^ 11) ∧
      u.rstack = ((List.range u.rstack.length).map (fun i => w64 (s.areaRead ck (0x1000 + 8 * i) 1))).reverse ∧
      ((∀ o ∈ s.ops, o.mine ck = true → o.fin = false) →
        (∀ e ∈ enginesOf (ckProfile ck), (imm = 0xFFFF ∨ tw = 0x7FF ∨ te ≠ some e ∨ lost = true ∨ s.ops.any stood = true) →
          (u.eng e).walk = BitVec.ofNat 48 (er e) ∧ (u.eng e).secn = er e / 2 ^ 64 % 2 ^ 64 ∧ (u.eng e).preds = BitVec.ofNat 16 (er e / 2 ^ 160)) ∧
        (∀ e ∈ enginesOf (ckProfile ck), imm = 0xFFFE → tw ≠ 0x7FF → te = some e → lost = false → s.ops.any stood = false →
          let x := (s.restoreStrand ck).eng e
          let ends := e = .s ∧ hdrJct x.sec.hdr = true ∧ tw + 1 = hdrLen x.sec.hdr
          (u.eng e).walk = BitVec.ofNat 48 (er e) + 12 ∧ (u.eng e).secn = er e / 2 ^ 64 % 2 ^ 64 ∧ (u.eng e).preds = BitVec.ofNat 16 (er e / 2 ^ 160) ∧
          (¬ends → (u.eng e).pos = (if x.widx + 1 < hdrLen x.sec.hdr then .words else .header) ∧ u.dq = (s.restoreStrand ck).dq) ∧
          (ends → (u.eng e).pos = .header ∧ (u.eng e).dqpos = x.dqpos + 1 ∧
            ∃ k, u.dq = ((s.restoreStrand ck).dq ++ [({ kind := .fallThrough, addr := BitVec.ofNat 48 (er e) + 12, rot := 0, newp := none } : Decision)]).drop k)) ∧
        u.skip = (match te with
          | some e => if imm = 0xFFFE ∧ tw ≠ 0x7FF ∧ lost = true ∧ s.ops.any stood = false then some (e, s.areaDword ck 0x48, tw) else none
          | none => none))))
/-- 01 R35, for every instruction word of the table. -/
def Obligations.FalsePredicateHasNoEffect : Prop :=
  ∀ (i : Instr) (h : Head) (s : State), i.head? = some h → (i.control = true → s.cur.eng = .s) →
  s.skipped = false → s.decodeTrap i = none → s.predTrue h = false →
  ∃ t, exec i s = .next t ∧
    (if i.control then s.Decides t s.me { kind := .fallThrough, addr := s.myEng.walk + 12, rot := 0, newp := none } s.myEng.flight
     else s.Sets t (match i with | .launch _ _ => { s.me with recIn := none } | .task _ _ => { s.me with recIn := none } | _ => s.me))
/-- 02 R62 and R64: the decode checks, in every state. -/
def Obligations.DecodeChecksTrap : Prop :=
  (∀ (i : Instr) (h : Head) (s : State) (x : TrapInfo), i.head? = some h → s.skipped = false → s.decodeTrap i = some x →
   ∃ t, exec i s = .next t ∧ s.Traps t x) ∧
  (∀ (i : Instr) (h : Head) (s : State), i.head? = some h → s.skipped = false → i.privileged = true → s.myPriv = false → s.me.hdl = false →
   i.reject? s.myProfile = none → placed s.myEng.sec.hdr s.myEng.widx i = true → s.myEng.bypassOk i = true →
   ∃ t, exec i s = .next t ∧ s.Traps t { cls := .privilege, code := 0, info := 0 }) ∧
  (∀ (e : Engine) (raw : BitVec 96) (s : State), s.skipped = false →
   ∃ t, exec (.unassignedOpcode e raw) s = .next t ∧ s.Traps t { cls := .illegalInstruction, code := 0, info := raw.extractLsb' 32 64 })
/-- 01 R14, R17, R19 and R20 (headers) and R26, 05 R122 (decisions). The order of the checks of a header is log 92, the text segment log 24, the address bits that a record lacks log 43, the aclk of the rotation log 83. -/
def Obligations.HeadersAndDecisions : Prop :=
  (∀ (ck : Nat) (e : Engine) (s : State),
   let st := s.strand ck
   let x := st.eng e
   (s.canWalk ck e = false → exec (.headerWalk ck e) s = .next s) ∧
   (s.canWalk ck e = true → x.pos = .words → hdrLen x.sec.hdr = 0 ∧ (∀ w ∈ x.sec.waits, w.2 < (st.eng w.1).retc) ∧
     ∃ t, exec (.headerWalk ck e) s = .next t ∧ s.OnlyStrandOf t ck ∧ t.strand ck = { st with es := (t.strand ck).es } ∧
       (∀ f, f ≠ e → (t.strand ck).eng f = st.eng f) ∧
       (t.strand ck).eng e = { x with pos := .header, acted := some s.time, known := ((t.strand ck).eng e).known }) ∧
   ∀ v : Nat, s.canWalk ck e = true → x.pos = .header → s.fetch ck x.walk.toNat 8 = .ok v →
   let h := w64 v
   let absent : Prop := ∃ y, Engine.ofNum? (hdrEng h) = some y ∧ (ckProfile ck).has y = false
   let inside := st.inText (st.textVA x.walk.toNat) (hdrBytes h)
   (hdrIllegal h = false → ¬absent → inside = true →
     ∃ t, exec (.headerWalk ck e) s = .next t ∧ s.OnlyStrandOf t ck ∧ t.strand ck = { st with es := (t.strand ck).es } ∧
       (∀ f, f ≠ e → (t.strand ck).eng f = st.eng f) ∧
       (let y := (t.strand ck).eng e
        if hdrEng h = e.num then
          y = { x with walk := x.walk + 8, secn := x.secn + 1, yld := hdrYld h, acted := some s.time, widx := 0, owned := x.owned + 1, pos := y.pos,
                       live := y.live, sec := y.sec, known := y.known } ∧
          y.sec = { hdr := h, addr := x.walk, dsec := x.secn, ord := x.owned, seen := x.seen, dqpos := x.dqpos, waits := y.sec.waits, begun := false, shape := 0 } ∧
          (∀ z n, (z, n) ∈ y.sec.waits ↔ ∃ i, i < 5 ∧ (Engine.others e)[i]? = some z ∧ (ckProfile ck).has z = true ∧ hdrDep h i ≠ 0 ∧
            hdrDep h i ≤ Map.get 0 x.seen i ∧ n = Map.get 0 x.seen i - hdrDep h i) ∧
          y.pos = (if hdrLen h = 0 ∧ ∀ w ∈ y.sec.waits, w.2 < ((t.strand ck).eng w.1).retc then .header else .words)
        else
          y = { x with walk := x.walk + BitVec.ofNat 48 (8 + 12 * hdrLen h), secn := x.secn + 1, yld := hdrYld h, acted := some s.time, seen := y.seen,
                       pos := if hdrJct h then .decision else .header } ∧
          ∀ i, Map.get 0 y.seen i = Map.get 0 x.seen i +
            (match Engine.ofNum? (hdrEng h), (Engine.others e)[i]? with | some z, some z' => if z = z' then 1 else 0 | _, _ => 0))) ∧
   (∀ c : TrapClass, (hdrIllegal h = true ∧ c = .illegalSection) ∨ (hdrIllegal h = false ∧ absent ∧ c = .engineAbsent) ∨
       (hdrIllegal h = false ∧ ¬absent ∧ inside = false ∧ c = .illegalSection) → st.pend = none →
     ∃ t, exec (.headerWalk ck e) s = .next t ∧ s.OnlyStrandOf t ck ∧
       t.strand ck = { st with es := (t.strand ck).es, pend := (t.strand ck).pend, pendW := (t.strand ck).pendW } ∧
       (t.strand ck).pend = some (x.trapAt e, { cls := c, code := 0, info := if c = .engineAbsent then 0 else h }) ∧
       (t.strand ck).pendW = { at_ := s.time, ft := s.ftime, asked := s.requested ck } ∧
       (∀ f, f ≠ e → (t.strand ck).eng f = st.eng f) ∧ (t.strand ck).eng e = { x with acted := some s.time })) ∧
  (∀ (ck : Nat) (e : Engine) (s : State),
   let st := s.strand ck
   let x := st.eng e
   (s.nextDecision ck e = none → exec (.takeDecision ck e) s = .next s) ∧
   ∀ d : Decision, s.mayRun ck = true → (ckProfile ck).has e = true → x.pos = .decision → st.dqbase ≤ x.dqpos → st.dq[x.dqpos - st.dqbase]? = some d →
   (st.freshDecision s.time = true → x.dqpos - st.dqbase + 1 ≠ st.dq.length) →
   ∃ t, exec (.takeDecision ck e) s = .next t ∧ s.OnlyStrandOf t ck ∧
     t.strand ck = { st with
       es := (t.strand ck).es, dq := (t.strand ck).dq, dqbase := (t.strand ck).dqbase,
       later := if e = .v ∧ d.kind = .loopBack then st.later ++ [(0x1001, w64 d.rot)] else st.later } ∧
     (e = .v → d.kind = .loopBack → st.later = [] → (t.strand ck).endAclk.rotb = st.rotb - BitVec.ofNat 5 d.rot) ∧
     (∀ f, f ≠ e → (t.strand ck).eng f = st.eng f) ∧
     (t.strand ck).eng e = { x with
       walk := d.addr, dqpos := x.dqpos + 1, pos := if d.kind = .endWalk then .ended else .header,
       preds := match d.newp with | some p => (x.preds &&& 0xFF) ||| (p.setWidth 16 <<< 8) | none => x.preds,
       flight := match d.newp with
         | some _ => x.flight.map (fun f => match f.dest with | .p r => if 8 ≤ r then { f with stale := true } else f | _ => f)
         | none => x.flight } ∧
     ∃ k, (t.strand ck).dq = st.dq.drop k ∧ (t.strand ck).dqbase = st.dqbase + k ∧
       ∀ f ∈ enginesOf (ckProfile ck), k = 0 ∨ (t.strand ck).dqbase ≤ ((t.strand ck).eng f).dqpos)
/-- 01 R30 and R31, 04 R83, 06 R149, 21 R425: where results and held posts arrive. -/
def Obligations.ResultLandsOnItsDestination : Prop :=
  (∀ (ck : Nat) (e : Engine) (i : Nat) (s : State) (f : Flight),
    let st := s.strand ck
    s.canLand ck e i = true → (st.eng e).flight[i]? = some f →
    ∃ t, exec (.resultLands ck e i) s = .next t ∧ t = { s with strands := t.strands, dev := t.dev } ∧ (∀ c, c ≠ ck → t.strand c = s.strand c) ∧
      t.dev = (if f.load then (s.monitor (ckDie ck) 1 (ckCore ck) (s.time - f.born)).dev else s.dev) ∧
      (let u := t.strand ck
       let p := (u.eng e).preds
       u.fstat = st.fstat ||| f.flags ∧ (∀ g, g ≠ e → u.eng g = st.eng g) ∧ u.eng e = { st.eng e with flight := (st.eng e).flight.eraseIdx i, preds := p } ∧
       u = { st with
         fstat := u.fstat, es := u.es, s := u.s, a := u.a, amark := u.amark, v := u.v, vmark := u.vmark, m := u.m, z := u.z,
         ztag := u.ztag, q := u.q } ∧
       (f.stale = true → u = { st with fstat := u.fstat, es := u.es } ∧ p = (st.eng e).preds) ∧
       (f.stale = false →
         (∀ r, Map.get 0 u.s r = match f.dest, f.val with
           | .s k, .word w _ => if r = k then w else Map.get 0 st.s r | .s k, .rqstat _ w => if r = k then w else Map.get 0 st.s r | _, _ => Map.get 0 st.s r) ∧
         (∀ r, Map.get 0 u.a r = match f.dest, f.val with | .a k, .word w _ => if r = k then w else Map.get 0 st.a r | _, _ => Map.get 0 st.a r) ∧
         (∀ r, r < 32 → u.amark.getLsbD r = match f.dest, f.val with | .a k, .word _ b => if r = k then b else st.amark.getLsbD r | _, _ => st.amark.getLsbD r) ∧
         (∀ r, Map.get 0 u.v r = match f.dest, f.val with | .v k, .tile w _ => if r = k then w else Map.get 0 st.v r | _, _ => Map.get 0 st.v r) ∧
         (∀ r, r < 64 → u.vmark.getLsbD r = match f.dest, f.val with | .v k, .tile _ b => if r = k then b else st.vmark.getLsbD r | _, _ => st.vmark.getLsbD r) ∧
         (∀ r, Map.get 0 u.m r = match f.dest, f.val with | .m k, .mask w => if r = k then w else Map.get 0 st.m r | _, _ => Map.get 0 st.m r) ∧
         (∀ r, r < 16 → p.getLsbD r = match f.dest, f.val with
           | .p k, .pred b => if r = k then b else (st.eng e).preds.getLsbD r | _, _ => (st.eng e).preds.getLsbD r) ∧
         (∀ key, Map.get (0 : BitVec 48) u.z key = match f.dest, f.val with
           | .z k, .acc els _ => ((els.reverse.find? (fun x => zKey k x.1 == key)).map Prod.snd).getD (Map.get (0 : BitVec 48) st.z key)
           | _, _ => Map.get (0 : BitVec 48) st.z key) ∧
         (∀ k, Map.get? u.ztag k = match f.dest, f.val with
           | .z r, .acc _ (some tag) => if k = r then some tag else Map.get? st.ztag k | _, _ => Map.get? st.ztag k) ∧
         (∀ q, u.stream q = match f.dest, f.val with
           | .q k, .push xs => if q = k ∧ (st.stream k).state = .outS then
               { st.stream k with buf := (st.stream k).buf ++ xs, done := (st.stream k).done + xs.length } else st.stream q
           | _, _ => st.stream q)))) ∧
  (∀ (ck : Nat) (e : Engine) (i : Nat) (s : State), s.canLand ck e i = false → exec (.resultLands ck e i) s = .next s) ∧
  (∀ (ck n : Nat) (s : State),
    let x := (s.strand ck).sem n
    let ends : Bool := s.running? ck && (s.strand ck).posts == [] && Engine.all.all (fun e => s.chosen (ck / 8) e || !s.stands ck e)
    (ends = false → exec (.heldPostApplied ck n) s = .next s) ∧
    (ends = true → ∃ t, exec (.heldPostApplied ck n) s = .next t ∧ s.OnlyStrandOf t ck ∧ t.strand ck = { s.strand ck with h := (t.strand ck).h } ∧
      (∀ k, k ≠ n → (t.strand ck).sem k = (s.strand ck).sem k) ∧
      (t.strand ck).sem n = (if 0 < x.held ∧ x.value + x.posted + x.applied < x.ceil then { x with held := x.held - 1, applied := x.applied + 1 } else x)) ∧
    (x.posted = 0 → x.applied ≤ x.ceil - x.value → x.held = 0 → (s.strand ck).laterH = [] → ((s.strand ck).endAclk.sem n).value = x.value + x.applied))
/-- 10 R240 to R244: where a trap goes and what it saves and keeps. Which trap of one aclk is delivered is settled as that aclk ends (10 R249); the aclk of its delivery is the schedule's (log 5). -/
def Obligations.TrapDeliveryAndStops : Prop :=
  (∀ (ck : Nat) (s : State) (p : TrapAt) (x : TrapInfo),
   let st := s.strand ck
   let landed := ((s.rewindLost ck st.lostNow).strand ck).endAclk.landEvery
   (s.running? ck = true → s.time ≤ st.pendW.at_ → exec (.trapDelivery ck) s = .next s) ∧
   ((∀ q ∈ s.posted, q.ck ≠ ck) → s.running? ck = true → st.pend = some (p, x) → st.pendW.at_ < s.time → st.failed = none → st.hdl = false → (s.areaDword ck 0).testBit 63 = true →
   (s.areaDword ck 8).testBit x.cls.code = true → x.cls.code ≤ 0x15 →
   ∃ t, exec (.trapDelivery ck) s = .next t ∧ (∀ c, c ≠ ck → t.strand c = s.strand c) ∧ ((st.eng .a).flight = [] → t.dev = s.dev) ∧
     (let u := t.strand ck
      u.hdl = true ∧ u.pend = none ∧ u.dq = [] ∧ u.phs = false ∧ u.park = none ∧
      u.s = landed.s ∧ u.a = landed.a ∧ u.v = landed.v ∧ u.m = landed.m ∧ u.z = landed.z ∧ u.h = landed.h ∧ u.n = landed.n ∧ u.fstat = landed.fstat ∧
      u.vshape = landed.vshape ∧ u.ashape = landed.ashape ∧ u.rotb = landed.rotb ∧ u.rsdep = landed.rsdep ∧ u.rstack = landed.rstack ∧
      ∀ e ∈ enginesOf (ckProfile ck), (u.eng e).walk = BitVec.ofNat 48 (s.areaDword ck 0 % 2 ^ 48 / 4 * 4) ∧ (u.eng e).pos = .header ∧
        (u.eng e).secn = 0 ∧ (u.eng e).owned = 0 ∧ (u.eng e).dqpos = 0 ∧ (u.eng e).preds = 0 ∧ (u.eng e).flight = []))) ∧
  (∀ (ck : Nat) (s : State) (p : TrapAt) (x : TrapInfo),
   let st := s.strand ck
   (∀ q ∈ s.posted, q.ck ≠ ck) → s.running? ck = true → st.pend = some (p, x) → st.pendW.at_ < s.time → st.failed = none → st.pbuf = [] →
   (st.hdl = true ∨ (s.areaDword ck 0).testBit 63 = false ∨ (s.areaDword ck 8).testBit x.cls.code = false ∨ 0x15 < x.cls.code) →
   ∃ t, exec (.trapDelivery ck) s = .next t ∧ (∀ c, c ≠ ck → t.strand c = s.strand c) ∧
     ctxValid (t.ctx ck) = true ∧ ctxStop (t.ctx ck) = true ∧ t.requested ck = false ∧ bit (t.cstop ck) 40 = true ∧
     fld (t.cstop ck) 39 32 = (if s.requested ck then 3 else 4))
/-- 10 R248 and R249, and 06 R157 (the area written). What counts as standing at a yield point is log 38; the strand kept beside the area is log 28. -/
def Obligations.PreemptionSavesAndStops : Prop :=
  ∀ (ck : Nat) (s : State),
  let st := s.strand ck
  let landed := st.endAclk.landEvery
  let stops (u t : State) (y : Option YieldPoint) (cause : Nat) : Prop :=
    let v := u.stopped ck
    (∀ c, c ≠ ck → t.strand c = s.strand c) ∧ ctxValid (t.ctx ck) = true ∧ ctxStop (t.ctx ck) = true ∧ t.requested ck = false ∧
    bit (t.cstop ck) 40 = true ∧ fld (t.cstop ck) 39 32 = cause ∧ (t.strand ck).level = none ∧ (t.strand ck).phs = false ∧
    t.mem = (v.writeArea ck y []).mem ∧ t.kept ck = v.strand ck ∧ v.mem = s.mem ∧ v.snapa ck = s.snapa ck ∧
    ((v.strand ck).s, (v.strand ck).a, (v.strand ck).v, (v.strand ck).m, (v.strand ck).z, (v.strand ck).h, (v.strand ck).n, (v.strand ck).fstat) =
      (landed.s, landed.a, landed.v, landed.m, landed.z, landed.h, landed.n, landed.fstat) ∧
    ∀ e, ((v.strand ck).eng e).walk = (landed.eng e).walk ∧ ((v.strand ck).eng e).preds = (landed.eng e).preds
  (s.mayPreempt ck = true → s.deadlinePassed ck = false → (∃ y, s.standsAt ck = some y) →
    ∃ t, exec (.preemptYield ck) s = .next t ∧ s.OnlyStrandOf t ck ∧ t.strand ck = { st with closing := true }) ∧
  (s.mayPreempt ck = false ∨ s.deadlinePassed ck = true ∨ s.standsAt ck = none → exec (.preemptYield ck) s = .next s) ∧
  (∀ y, s.running? ck = true → st.closing = true → s.allEnded ck = false → s.standsAt ck = some y → st.failed = none → st.pbuf = [] → (∀ q ∈ s.posted, q.ck ≠ ck) →
    stops (s.modStrand ck (fun st => { st with closing := false })) (s.close ck) (some y) 1) ∧
  (s.mayPreempt ck = true → s.deadlinePassed ck = true → st.insideAny = false →
    ∃ t, exec (.preemptDeadline ck) s = .next t ∧ s.OnlyStrandOf t ck ∧ t.strand ck = { st with full := true, fullAt := s.time + 1 }) ∧
  (s.mayPreempt ck = false ∨ s.deadlinePassed ck = false ∨ st.insideAny = true → exec (.preemptDeadline ck) s = .next s) ∧
  (s.running? ck = true → st.full = true → st.fullAt ≤ s.time → st.pend = none → st.failed = none → st.pbuf = [] → (∀ q ∈ s.posted, q.ck ≠ ck) →
    ∃ t, exec (.fullSave ck) s = .next t ∧ stops s t none 2)
/-- 10 R240, R242 (the trap record), 06 R157 to R159 (the save area) and 10 R248 (what a full and a compact save write). The layout of a decision and the order of the records are the model's (log 27), the strand kept beside the area its own (log 28). -/
def Obligations.TrapRecordAndSaveArea : Prop :=
  (∀ (ck : Nat) (s : State) (x : TrapInfo) (p : TrapAt) (w : TrapWhen) (hdl : Bool) (lost : List Engine) (key : Nat),
   let st := s.strand ck
   let o := (s.snapa ck + 2 ^ 46 - 0x40) % 2 ^ 46
   let u := s.writeTrap ck x p w hdl lost
   let r := u.rdPhys (ckDie ck) o 64
   let f (hi lo : Nat) : Nat := r / 2 ^ lo % 2 ^ (hi + 1 - lo)
   s.memWf = true → realCtx ck = true → p.eng < 8 → p.widx < 2 ^ 11 → s.homeKey (ckDie ck) o = some key → s.lostBank key = false →
   f 7 0 = x.cls.code ∧ f 10 8 = p.eng ∧ f 11 11 = b2n hdl ∧ f 12 12 = b2n st.hdl ∧
   f 13 13 = b2n (lost.contains .v) ∧ f 14 14 = b2n (lost.contains .m) ∧ f 15 15 = b2n w.asked ∧ f 31 16 = x.code.toNat ∧
   f 42 32 = p.widx ∧ f 63 43 = 0 ∧ f 127 64 = p.dsec % 2 ^ 64 ∧ f 191 128 = st.textVA p.text % 2 ^ 64 ∧ f 255 192 = x.info.toNat ∧
   f 301 256 = s.snapa ck ∧ f 305 302 = ckDie ck ∧ f 319 306 = 0 ∧ f 383 320 = w.ft / 11 % 2 ^ 64 ∧ f 511 384 = 0 ∧
   u = { s with mem := u.mem, tags := u.tags, poison := u.poison, dies := u.dies } ∧
   ∀ part k, k / 64 ≠ key / 64 → u.rdByte part k = s.rdByte part k) ∧
  ((∀ (x : EStream) (e : Engine),
     (x.pos = .words → x.trapAt e = { eng := e.num, widx := x.widx, dsec := x.secn - 1, text := x.walk.toNat }) ∧
     (x.pos = .header → x.trapAt e = { eng := e.num, widx := 0x7FF, dsec := x.secn, text := x.walk.toNat })) ∧
   (∀ st : Strand, st.killAt = { eng := 7, widx := 0x7FF, dsec := (st.eng .s).secn, text := (st.eng .s).walk.toNat })) ∧
  (∀ (ck : Nat) (s : State) (y : Option YieldPoint) (lost : List Engine),
   let d := ckDie ck
   let base := s.snapa ck
   let n := areaBytes (ckProfile ck)
   let img := s.image ck y lost
   let inR (o : Nat) : Bool := (s.areaRanges ck y).any (fun r => decide (r.1 ≤ o) && decide (o < r.1 + r.2))
   let u := s.writeArea ck y lost
   s.memWf = true → realCtx ck = true → (∀ o, o < n → ∃ k, s.homeKey d (base + o) = some k ∧ s.lostBank k = false) →
   (∀ o p, o < n → p < n → s.homeKey d (base + o) = s.homeKey d (base + p) → o = p) → (img.map Prod.fst).Nodup →
   (∀ i, 8 * i < n → u.areaRead ck (8 * i) 1 = if inR (8 * i) then Map.get 0 img (8 * i) % 2 ^ 64 else s.areaRead ck (8 * i) 1) ∧
   (y = none → ∀ o, o < n → inR o = true) ∧
   u.kept ck = s.strand ck ∧ u = { s with mem := u.mem, tags := u.tags, poison := u.poison, dies := u.dies, saved := u.saved } ∧
   (∀ part k, (∀ o j, o < n → s.homeKey d (base + o) = some j → j / 64 ≠ k / 64) → u.rdByte part k = s.rdByte part k)) ∧
  (∀ (ck : Nat) (s : State) (y : Option YieldPoint) (lost : List Engine),
   let st := s.strand ck
   let pf := ckProfile ck
   let g (o : Nat) : Nat := Map.get 0 (s.image ck y lost) o
   let g' (o n : Nat) : Nat := packLE 64 ((List.range n).map (fun i => g (o + 8 * i)))
   let h (hi lo : Nat) : Nat := g' 0 32 / 2 ^ lo % 2 ^ (hi + 1 - lo)
   realCtx ck = true →
   (h 31 0 = 1 ∧ h 33 32 = pf.code ∧ h 34 34 = b2n y.isSome ∧ h 35 35 = b2n (lost.contains .v) ∧ h 36 36 = b2n (lost.contains .m) ∧ h 39 37 = 0 ∧
     h 42 40 = ckCtx ck ∧ h 44 43 = ctxSlot (s.ctx ck) ∧ h 47 45 = 0 ∧ h 63 48 = (ctxAsid (s.ctx ck)).toNat ∧
     (∀ p, y = some p → h 127 64 = p.v.toNat ∧ h 191 128 = p.s.toNat ∧ h 223 192 = p.a.toNat ∧ h 231 224 = p.m.toNat ∧ h 233 232 = p.z.toNat) ∧
     (y = none → h 127 64 = 2 ^ 64 - 1 ∧ h 191 128 = 2 ^ 64 - 1 ∧ h 223 192 = 2 ^ 32 - 1 ∧ h 231 224 = 2 ^ 8 - 1 ∧ h 233 232 = 3) ∧ h 255 234 = 0 ∧
     h 259 256 = st.prioc.toNat % 16 ∧ h 383 320 = st.slipw % 2 ^ 64 ∧ h 447 384 = st.fstat.toNat ∧ h 511 448 = st.rotb.toNat ∧
     h 575 512 = st.vshape.toNat ∧ h 639 576 = st.ashape.toNat ∧ h 703 640 = st.tgb.toNat ∧ h 767 704 = st.rsdep % 2 ^ 64 ∧ h 831 768 = st.rsbase.toNat ∧
     h 847 832 = min (s.records ck).length 256 ∧ h 863 848 = 0 ∧ h 864 864 = b2n st.accp ∧ h 2047 865 = 0) ∧
   (∀ e : Engine,
     let x := st.eng e
     let r (at_ n : Nat) : Nat := g' (0x100 + 0x80 * e.num) 16 / 2 ^ (8 * at_) % 2 ^ (8 * n)
     if pf.has e then
       r 0 8 = x.walk.toNat ∧ r 8 8 = x.secn % 2 ^ 64 ∧ r 0x10 2 = x.widx % 2 ^ 16 ∧ r 0x12 1 = x.dqpos % 64 ∧
       r 0x13 1 = 3 * b2n (lost.contains e) + 4 * (x.pass % 8) ∧ r 0x14 2 = (x.preds ||| 1).toNat ∧ r 0x16 2 = 0 ∧ r 0x18 8 = x.retc % 2 ^ 64 ∧
       (∀ i, i < 5 → r (0x20 + 8 * i) 8 = Map.get 0 x.seen i % 2 ^ 64) ∧ r 0x48 8 = (if lost.contains e then x.sec.shape.toNat else 0) ∧ r 0x50 48 = 0
     else r 0 128 = 0) ∧
   (∀ i, i < 64 → g' (0x400 + 0x20 * i) 4 = match st.dq[i]? with | some d => d.record % 2 ^ 256 | none => 0) ∧
   (∀ i, i < 64 → g (0xC00 + 8 * i) = (Map.get 0 st.s i).toNat) ∧ (∀ i, i < 32 → g (0xE00 + 8 * i) = (Map.get 0 st.a i).toNat) ∧
   (∀ i, i < 16 → g (0xF00 + 8 * i) = (st.sem i).value + (st.sem i).posted + (st.sem i).ceil * 2 ^ 16 + ((st.sem i).held + (st.sem i).applied) % 2 ^ 16 * 2 ^ 32) ∧
   (∀ i, i < 8 → g (0xF80 + 8 * i) = Map.get 0 st.n i ∧ g (0xFC0 + 8 * i) = 0) ∧
   (∀ i, i < 16 → g (0x1000 + 8 * i) = ((st.rstack.reverse)[i]?.getD 0).toNat) ∧ (∀ i, i < 496 → g (0x1080 + 8 * i) = 0) ∧
   (pf ≠ .mc →
     (∀ i, i < 256 → g' (0x2000 + 0x20 * i) 4 = (s.records ck).getD i 0 % 2 ^ 256) ∧
     (∀ q, q < 16 →
       let x := st.stream q
       let r (at_ n : Nat) : Nat := g' (0x4000 + 0x100 * q) 32 / 2 ^ (8 * at_) % 2 ^ (8 * n)
       r 0 1 = (match x.state with | .unbound => 0 | .inS => 1 | .outS => 2) ∧ r 1 1 = x.ety.toNat ∧ r 2 1 = x.scope.toNat ∧ r 3 5 = 0 ∧ r 8 8 = x.base.toNat ∧
       (x.count < 2 ^ 64 → x.done < 2 ^ 64 → x.buf.length < 2 ^ 64 →
         r 0x10 8 = x.count ∧ r 0x18 8 = x.done ∧ r 0x20 8 = x.buf.length ∧ r 0x28 24 = 0 ∧ r 0x40 64 = x.pattern.toNat ∧ r 0x80 128 = 0) ∧
       g' (0x5000 + 0x1000 * q) 512 = x.bytes % 2 ^ 32768) ∧
     (∀ i, i < 8 → g' (0x15000 + 0x200 * i) 64 = (Map.get 0 st.m i).toNat) ∧ (∀ i, i < 64 → g' (0x16000 + 0x800 * i) 256 = (Map.get 0 st.v i).toNat) ∧
     (∀ z i, z < 2 → 2 * i + 1 < (accDims pf).1 * (accDims pf).2 →
       g (0x36000 + z * (4 * (accDims pf).1 * (accDims pf).2) + 8 * i) =
         (Map.get (0 : BitVec 48) st.z (zKey z (2 * i))).toNat % 2 ^ 32 + (Map.get (0 : BitVec 48) st.z (zKey z (2 * i + 1))).toNat % 2 ^ 32 * 2 ^ 32)))
/-- 10 R247. -/
def Obligations.StopControl : Prop :=
  ∀ (ck : Nat) (s : State), realCtx ck = true →
  (∀ dl : BitVec 24, s.requested ck = false → s.running? ck = true → ∃ t, exec (.cstopReq ck dl) s = .next t ∧
    t = { s with dev := t.dev, cstopAt := t.cstopAt } ∧ t.ctx ck = s.ctx ck ∧ t.requested ck = true ∧ fld (t.cstop ck) 31 8 = dl.toNat ∧
    Map.get 0 t.cstopAt ck = s.ftime) ∧
  (∀ dl : BitVec 24, s.requested ck = false → s.running? ck = false → ∃ t, exec (.cstopReq ck dl) s = .next t ∧
    t = { s with dev := t.dev } ∧ t.ctx ck = s.ctx ck ∧ t.requested ck = false ∧ bit (t.cstop ck) 40 = true ∧ fld (t.cstop ck) 39 32 = 9) ∧
  (∀ dl : BitVec 24, s.requested ck = true → exec (.cstopReq ck dl) s = .next s) ∧
  (s.requested ck = true → (s.strand ck).full = false → ∃ t, exec (.cstopWithdraw ck) s = .next t ∧
    t = { s with dev := t.dev } ∧ t.ctx ck = s.ctx ck ∧ t.requested ck = false ∧ bit (t.cstop ck) 40 = true ∧ fld (t.cstop ck) 39 32 = 8) ∧
  (s.posted = [] → ∀ i ∈ [Instr.cstopKill ck, Instr.machineCheck ck], ctxValid (s.ctx ck) = true → (i = .machineCheck ck → ckDie ck ≠ 8) →
    ∃ t, exec i s = .next t ∧
    ctxValid (t.ctx ck) = false ∧ t.strand ck = Strand.init ∧ (∀ c, c ≠ ck → t.strand c = { s.strand c with groups := (t.strand c).groups }) ∧
    t.requested ck = false ∧ bit (t.cstop ck) 40 = true ∧ fld (t.cstop ck) 39 32 = 6) ∧
  (ctxValid (s.ctx ck) = true → ckDie ck = 8 → ∃ t, exec (.machineCheck ck) s = .next t ∧ ctxValid (t.ctx ck) = false ∧ fld t.hstate 1 0 = 3) ∧
  (ctxValid (s.ctx ck) = false → ∃ t, exec (.cstopKill ck) s = .next t ∧ t = { s with dev := t.dev } ∧
    t.requested ck = false ∧ bit (t.cstop ck) 40 = true ∧ fld (t.cstop ck) 39 32 = 9)
/-- 06 R134, 10 R249, R250 and 05 R125. The fields of a refused bind are log 104. -/
def Obligations.ContextsBindReleaseAndEnd : Prop :=
  (∀ (ck : Nat) (v : Word) (s : State), realCtx ck = true →
   let bound := setBit (setBit v 0 true) 1 false &&& 0x0FFFFF1F
   let u := s.setCtx ck bound
   (s.running? ck = false → (ckProfile ck = .crown → s.gate (ckDie ck) (ckCore ck - 16) = 0) → s.resumable ck = true →
     u.areaRead ck 0x68 1 % 2 ^ 16 = 0 → (u.areaRead ck 0 32).testBit 34 = false → (u.kept ck).loads = [] →
     ∃ t, exec (.ctxBindResume ck v) s = .next t ∧ t.ctx ck = bound ∧ t.running? ck = true ∧ (t.strand ck).bindAt = s.time ∧ (t.strand ck).hdl = false ∧
       (∀ c, c ≠ ck → t.strand c = s.strand c) ∧ t.mem = s.mem ∧
       (∀ r, r < 64 → Map.get 0 (t.strand ck).s r = w64 (u.rdPhys (ckDie ck) (u.snapa ck + 0xC00 + 8 * r) 8)) ∧
       (∀ r, r < 32 → Map.get 0 (t.strand ck).a r = w64 (u.rdPhys (ckDie ck) (u.snapa ck + 0xE00 + 8 * r) 8))) ∧
   (s.running? ck = false → (ckProfile ck = .crown → s.gate (ckDie ck) (ckCore ck - 16) = 0) → s.resumable ck = false →
     ∃ t, exec (.ctxBindResume ck v) s = .next t ∧ t = { s with dev := t.dev } ∧ ctxValid (t.ctx ck) = true ∧ ctxStop (t.ctx ck) = true ∧
       bit (t.cstop ck) 40 = true ∧ fld (t.cstop ck) 39 32 = 7) ∧
   (s.running? ck = true → exec (.ctxBindResume ck v) s = .next s) ∧
   (ctxValid (s.ctx ck) = true → ctxStop (s.ctx ck) = true →
     ∃ t, exec (.ctxRelease ck) s = .next t ∧ ctxValid (t.ctx ck) = false ∧ t.strand ck = Strand.init ∧ t = { s with dev := t.dev, strands := t.strands } ∧
       (∀ c, c ≠ ck → t.strand c = s.strand c))) ∧
  (∀ (ck : Nat) (s : State), s.running? ck = true → s.allEnded ck = true →
   ((s.strand ck).pend = none → (s.strand ck).full = false → (s.strand ck).hdl = false →
     (s.endWaits ck = true → ∃ t, exec (.strandEnd ck) s = .next t ∧ s.OnlyStrandOf t ck ∧ t.strand ck = { s.strand ck with closing := true }) ∧
     (s.endWaits ck = false → exec (.strandEnd ck) s = .next s)) ∧
   ((s.strand ck).closing = true → s.endWaits ck = true → (s.strand ck).pbuf = [] → s.posted = [] →
     let t := s.close ck
     ctxValid (t.ctx ck) = false ∧ t.strand ck = Strand.init ∧
     (∀ c, c ≠ ck → t.strand c = { s.strand c with groups := (t.strand c).groups }) ∧
     (s.requested ck = true → bit (t.cstop ck) 40 = true ∧ fld (t.cstop ck) 39 32 = 5 ∧ t.requested ck = false)))
/-- 10 R251 and R252. What a word that names a core the die lacks gives is log 40; an offset below the start of a die is log 95. -/
def Obligations.SnapshotWords : Prop :=
  ∀ (h : Head) (w : W6) (s : State) (o : Word), s.rd w.b 1 = .ok o →
  let own := s.cur.ck
  let named := ckOf s.myDie (fld w.imm 7 3) (fld w.imm 2 0)
  let ck := if w.fn.getLsbD 0 then named else own
  (s.reaches (.snaprd h w) h = true → o.toNat % 8 ≠ 0 → ∃ t, exec (.snaprd h w) s = .next t ∧ s.Traps t { cls := .alignment, code := 0, info := o }) ∧
  (s.reaches (.snaprd h w) h = true → o.toNat % 8 = 0 → realCtx ck = true → ∃ t, exec (.snaprd h w) s = .next t ∧
    s.Gives t h (destOf w.a) (.word (if o.toNat < 0x80 + areaBytes (ckProfile ck) then w64 (s.areaDword ck o.toNat) else 0) false) 0) ∧
  (∀ c, s.rd w.c 2 = .ok c →
    (s.reaches (.snapwr h w) h = true → o.toNat % 8 ≠ 0 → ∃ t, exec (.snapwr h w) s = .next t ∧ s.Traps t { cls := .alignment, code := 0, info := o }) ∧
    (s.reaches (.snapwr h w) h = true → o.toNat % 8 = 0 → ∃ t, exec (.snapwr h w) s = .next t ∧
      (if realCtx named = true ∧ (o = 0 ∨ o = 8 ∨ (0x80 ≤ o.toNat ∧ ctxValid (s.ctx named) = true ∧ ctxStop (s.ctx named) = true ∧
          o.toNat < 0x80 + areaBytes (ckProfile named) ∧ (o = 0x80 → fld c 31 0 = 1 ∧ fld c 33 32 = (ckProfile named).code))) then
        (s.wrPhys (ckDie named) ((s.snapa named + 2 ^ 46 + o.toNat - 0x80) % 2 ^ 46) c.toNat 8).Gives t h (destOf w.a) (.pred true) 0
      else s.Gives t h (destOf w.a) (.pred false) 0)))
/-- 12 R267 to R269. Error responses on these words are log 32. -/
def Obligations.GroupWords : Prop :=
  (∀ (h : Head) (w : W6) (s : State) (g : Word), s.rd w.b 0 = .ok g → ∀ i ∈ [Instr.join h w, .leave h w, .gbar h w], s.reaches i h = true →
    (g.toNat % 64 ≠ 0 → ∃ t, exec i s = .next t ∧ s.Traps t { cls := .alignment, code := 0, info := g }) ∧
    (∀ d phys key, g.toNat % 64 = 0 → s.check g = .ok () → s.place s.myAsid s.myPart g.toNat true = .ok (.mem d phys key) → s.posted = [] → s.poisoned key = true →
      ∃ t, exec i s = .next t ∧ s.Traps t { cls := .poisonConsumed, code := 0, info := g })) ∧
  ∀ (h : Head) (w : W6) (s : State) (g : Word) (key : Option Nat), s.rd w.b 0 = .ok g → s.objectCheck g true = .ok key →
  let u := s.enter.sent g
  (s.reaches (.join h w) h = true → (key = none ∨ ∃ k, key = some k ∧ (bit g 63 = true ∨ 4 ≤ s.me.groups.length ∨ (s.member g).isSome = true ∨
      (s.groupAt s.myPart k).dis = true ∨ (s.groupAt s.myPart k).nmem = 4096)) →
    ∃ t, exec (.join h w) s = .next t ∧ u.Gives t h (destOf w.a) (.pred false) 0) ∧
  (∀ k, s.reaches (.join h w) h = true → key = some k → bit g 63 = false → s.me.groups.length < 4 → s.member g = none →
    (s.groupAt s.myPart k).dis = false → (s.groupAt s.myPart k).nmem ≠ 4096 →
    ∃ t x, exec (.join h w) s = .next t ∧ x.Gives t h (destOf w.a) (.pred true) 0 ∧
      x = (u.setGroup s.myPart k { s.groupAt s.myPart k with nmem := (s.groupAt s.myPart k).nmem + 1 }).modMe
        (fun st => { st with groups := st.groups ++ [{ addr := g, asid := s.myAsid, part := s.myPart, arrived := false }] })) ∧
  (s.reaches (.leave h w) h = true → s.member g = none → ∃ t, exec (.leave h w) s = .next t ∧ u.Sets t u.me) ∧
  (∀ m k, s.reaches (.leave h w) h = true → s.member g = some m → s.memberHome m = some k → s.posted = [] →
    ∃ t x, exec (.leave h w) s = .next t ∧ x.Sets t x.me ∧
      (let v := u.modMe (fun st => { st with groups := st.groups.filter (fun x => x.addr != g) })
       let n := s.groupAt s.myPart k
       let o := { n with nmem := (n.nmem + 65535) % 65536, narr := if m.arrived then (n.narr + 65535) % 65536 else n.narr }
       (o.nmem = 0 → x = v.setGroup s.myPart k { o with dis := true, narr := 0, maxc := 0 }) ∧
       (o.nmem ≠ 0 → o.narr = o.nmem → x = v.flip s.myPart k o) ∧ (o.nmem ≠ 0 → o.narr ≠ o.nmem → x = v.setGroup s.myPart k o))) ∧
  (s.reaches (.gbar h w) h = true → s.member g = none → ∃ t, exec (.gbar h w) s = .next t ∧ u.Sets t u.me) ∧
  (∀ m k, s.reaches (.gbar h w) h = true → s.member g = some m → s.memberHome m = some k →
    let o := s.groupAt s.myPart k
    let v := u.modMe (fun st => { st with
      groups := st.groups.map (fun x => if x.addr = m.addr then { x with arrived := true } else x),
      park := some { obj := m.addr, gen := w64 o.gen, group := true } })
    let o1 := { o with narr := o.narr + 1, maxc := max o.maxc (s.eff s.cur.ck) }
    ∃ t, exec (.gbar h w) s = .next t ∧ t = (if o.narr + 1 = o.nmem then v.flip s.myPart k o1 else v.setGroup s.myPart k o1)) ∧
  ∀ (v : State) (part : BitVec 4) (k : Nat) (o : GroupObj),
    let x := v.setGroup part k { o with gen := o.gen + 1, narr := 0, maxc := 0 }
    let t := v.flip part k o
    t = { x with strands := t.strands, saved := t.saved } ∧
    ∀ c, t.strand c = { x.strand c with groups := (x.strand c).groups.map (fun m => if x.memberHome m = some k then { m with arrived := false } else m) }
/-- 12 R266 and R273. That a record is checked against KTAB once is log 47. -/
def Obligations.BarriersLaunchesAndTasks : Prop :=
  ((∀ (h : Head) (w : W6) (s : State) (o g x : Word) (key : Option Nat), s.reaches (.barw h w) h = true → s.rd w.b 0 = .ok o → s.rd w.c 1 = .ok g →
     s.objectCheck o false = .ok key → s.objectGen s.cur.ck o = .ok x →
     let u := (s.enter.count s.agent o.toNat false).sent o
     (x ≠ g → ∃ t, exec (.barw h w) s = .next t ∧ u.Sets t u.me) ∧
     (x = g → ∃ t, exec (.barw h w) s = .next t ∧ t = u.modMe (fun st => { st with park := some { obj := o, gen := g, group := false } }))) ∧
   (∀ (ck : Nat) (s : State) (p : Park) (x : Word), s.running? ck = true → (s.strand ck).park = some p → s.objectGen ck p.obj = .ok x →
     let u : State := { s.count (s.me? ck) p.obj.toNat false with cur := ⟨ck, .s⟩ }
     (x ≠ p.gen → ∃ t, exec (.barrierWake ck) s = .next t ∧ u.Sets t { u.me with park := none }) ∧
     (x = p.gen → exec (.barrierWake ck) s = .next s))) ∧
  ((∀ (h : Head) (w : W6) (s p : State) (x : Submission), s.reaches (.launch h w) h = true → s.recordAt w.b (.ok 0) = .ok x →
    let r : QRec := { data := x.data, asid := s.myAsid, part := s.myPart, rq := none, tag := 0 }
    let more (p : State) : State := ({ p with queues := p.queues ++ [r] } : State).modMe (fun st => { st with recIn := none })
    (∀ a, x.from? = some a →
      let u := (s.enter.countRange s.cur.ck a.toNat 64 false).sent a
      (s.launchOk s.myAsid r = false → ∃ t, exec (.launch h w) s = .next t ∧ u.Gives t h (destOf w.a) (.pred false) 0) ∧
      (s.launchOk s.myAsid r = true → u.publish s.cur.ck = .ok p → p.occ r.kid r.stage < p.stageDepth r.kid r.stage →
        ∃ t, exec (.launch h w) s = .next t ∧ (more p).Gives t h (destOf w.a) (.pred true) 0) ∧
      (s.launchOk s.myAsid r = true → u.publish s.cur.ck = .ok p → p.stageDepth r.kid r.stage ≤ p.occ r.kid r.stage →
        ∃ t, exec (.launch h w) s = .next t ∧ t = { p.modMe (fun st => { st with recIn := some (x.data, x.cl) }) with waited := false })) ∧
    (x.from? = none →
      (s.occ r.kid r.stage < s.stageDepth r.kid r.stage →
        ∃ t, exec (.launch h w) s = .next t ∧ (more s.enter).Gives t h (destOf w.a) (.pred true) 0) ∧
      (s.stageDepth r.kid r.stage ≤ s.occ r.kid r.stage →
        ∃ t, exec (.launch h w) s = .next t ∧ t = { s.enter.modMe (fun st => { st with recIn := some (x.data, x.cl) }) with waited := true }))) ∧
   (∀ (h : Head) (w : W6) (s p : State) (x : Submission), s.reaches (.task h w) h = true →
    s.recordAt w.b (if Legal.f0 w then (s.rd w.c 2).map (fun c => c.toNat % 8) else .ok (s.myCore / 4 % 8)) = .ok x →
    let k : Task := { die := s.myDie, cluster := x.cl, data := x.data, asid := s.myAsid, part := s.myPart }
    let more (p : State) : State := ({ p with tasks := p.tasks ++ [k] } : State).modMe (fun st => { st with recIn := none })
    (∀ a, x.from? = some a →
      let u := (s.enter.countRange s.cur.ck a.toNat 64 false).sent a
      (taskOk s.myDie s.myCore x.cl x.data = false → ∃ t, exec (.task h w) s = .next t ∧ u.Gives t h (destOf w.a) (.pred false) 0) ∧
      (taskOk s.myDie s.myCore x.cl x.data = true → u.publish s.cur.ck = .ok p → (p.poolOf k.die k.cluster).length < 256 →
        ∃ t, exec (.task h w) s = .next t ∧ (more p).Gives t h (destOf w.a) (.pred true) 0) ∧
      (taskOk s.myDie s.myCore x.cl x.data = true → u.publish s.cur.ck = .ok p → 256 ≤ (p.poolOf k.die k.cluster).length →
        ∃ t, exec (.task h w) s = .next t ∧ t = { p.modMe (fun st => { st with recIn := some (x.data, x.cl) }) with waited := false })) ∧
    (x.from? = none →
      ((s.poolOf k.die k.cluster).length < 256 → ∃ t, exec (.task h w) s = .next t ∧ (more s.enter).Gives t h (destOf w.a) (.pred true) 0) ∧
      (256 ≤ (s.poolOf k.die k.cluster).length →
        ∃ t, exec (.task h w) s = .next t ∧ t = { s.enter.modMe (fun st => { st with recIn := some (x.data, x.cl) }) with waited := true }))))
/-- 13 R291 and R292; 06 R149 and R150; 09 R235 to R237. The section of `semi` counts as retired at the end of its aclk (log 42); the wait for undrained OUT bindings is log 62, `fencex` and H log 45. -/
def Obligations.PhasesAndSemaphores : Prop :=
  (∀ (h : Head) (w : W6) (s p : State),
   (s.reaches (.phaseSolo h w) h = true → (s.me.outPending = true ∨ s.bypassDone s.cur.ck (fld w.fn 1 0) = false) →
     ∃ t, exec (.phaseSolo h w) s = .next t ∧ s.Waits t) ∧
   (s.reaches (.phaseSolo h w) h = true → s.solo (fld w.fn 1 0) = .ok p → (fld w.fn 1 0 ≠ 3 ∨ p.me.cerr = false) →
     ∃ t, exec (.phaseSolo h w) s = .next t ∧ p.Sets t { p.me with phs := p.me.phs || decide (fld w.fn 1 0 = 3) }) ∧
   (s.reaches (.phaseSolo h w) h = true → s.solo (fld w.fn 1 0) = .ok p → fld w.fn 1 0 = 3 → p.me.cerr = true →
     p.cur = s.cur → ∃ t, exec (.phaseSolo h w) s = .next t ∧
       (p.modMe (fun st => { st with cerr := false })).Traps t { cls := .contextError, code := 0, info := 0 }) ∧
   (∀ g key, s.rd w.b 0 = .ok g → s.objectCheck g true = .ok key → s.solo 0 = .ok p →
     let u := p.enter.sent g
     (s.reaches (.phaseG h w) h = true → u.member g = none → ∃ t, exec (.phaseG h w) s = .next t ∧ u.Sets t u.me) ∧
     (∀ m k, s.reaches (.phaseG h w) h = true → u.member g = some m → u.memberHome m = some k →
       let o := u.groupAt u.myPart k
       let v := u.modMe (fun st => { st with
         groups := st.groups.map (fun x => if x.addr = m.addr then { x with arrived := true } else x),
         park := some { obj := m.addr, gen := w64 o.gen, group := true } })
       let o1 := { o with narr := o.narr + 1, maxc := max o.maxc (u.eff u.cur.ck) }
       ∃ t, exec (.phaseG h w) s = .next t ∧ t = (if o.narr + 1 = o.nmem then v.flip u.myPart k o1 else v.setGroup u.myPart k o1))) ∧
   ∀ scope, s.me.outPending = false → s.bypassDone s.cur.ck scope = true → s.solo scope = s.publishAt s.cur.ck scope) ∧
  (∀ (h : Head) (w : W6) (s : State),
   let n := fld w.imm 3 0
   let x := s.me.sem n
   (s.reaches (.semi h w) h = true → ∃ t st, exec (.semi h w) s = .next t ∧ s.Defers t h st ∧ st = { s.me with laterH := st.laterH } ∧
     (st.endAclk).sem n = { value := fld w.imm 23 8, ceil := fld w.imm 39 24, held := 0, posted := 0, applied := 0 }) ∧
   (s.reaches (.semw h w) h = true → x.value = 0 → ∃ t, exec (.semw h w) s = .next t ∧ s.Waits t) ∧
   (s.reaches (.semw h w) h = true → x.value ≠ 0 → ∃ t, exec (.semw h w) s = .next t ∧ s.Sets t (s.me.setSem n { x with value := x.value - 1 })) ∧
   (s.reaches (.semp h w) h = true → s.me.posts = [] → x.value + x.posted < x.ceil →
     ∃ t, exec (.semp h w) s = .next t ∧ s.Sets t (s.me.setSem n { x with posted := x.posted + 1 })) ∧
   (s.reaches (.semp h w) h = true → s.me.posts = [] → x.ceil ≤ x.value + x.posted →
     ∃ t, exec (.semp h w) s = .next t ∧ t = s.modMe (fun st => { st with posts := [(s.cur.eng, n)] }) ∧
       (x.ceil ≤ x.value + x.posted → s.me.pend = none → ((t.resolvePost s.cur.ck s.cur.eng n).me.pend.map (fun p => p.2)) =
         some { cls := .semaphoreCeiling, code := 0, info := w64 n })) ∧
   (s.reaches (.fencex h w) h = true → s.pathBusy s.cur.ck (fld w.imm 5 0) (fld w.imm 7 6) = true → ∃ t, exec (.fencex h w) s = .next t ∧ s.Waits t) ∧
   (s.reaches (.fencex h w) h = true → s.pathBusy s.cur.ck (fld w.imm 5 0) (fld w.imm 7 6) = false → w.imm.getLsbD 0 = false →
     ∃ t, exec (.fencex h w) s = .next t ∧ (s.unshade s.cur.ck (fld w.imm 5 0)).Sets t s.me) ∧
   (∀ p, s.reaches (.fencex h w) h = true → s.pathBusy s.cur.ck (fld w.imm 5 0) (fld w.imm 7 6) = false → w.imm.getLsbD 0 = true →
     s.publishAt s.cur.ck (fld w.imm 7 6) = .ok p →
     ∃ t, exec (.fencex h w) s = .next t ∧ (p.unshade p.cur.ck (fld w.imm 5 0)).Sets t p.me))
/-- 15 R321, R325 and R327. The section of `pwrrel` counts as retired at the end of its aclk (log 42); where a region begins is log 91. -/
def Obligations.CrownGateAndPowerWords : Prop :=
  ∀ (h : Head) (w : W6) (s : State),
  let v := s.dget s.myDie (vfctlOff s.pairCore)
  let permitted : Prop := bit v 0 = true ∧ ctxSlot (s.ctx s.cur.ck) = fld v 2 1
  let lvl := fld w.imm 7 0
  let budget := fld (s.dget s.myDie 0x320000000000) 15 0
  (∀ p ∈ [(Instr.cgateOff h w, false), (Instr.cgateOn h w, true)], s.reaches p.1 h = true →
    (permitted → ∃ t, exec p.1 s = .next t ∧ s.Starts t (bit w.imm 4) (fld w.imm 3 0) (.cgate p.2)) ∧
    (¬permitted → ∃ t, exec p.1 s = .next t ∧ s.Traps t { cls := .fifoClosed, code := 0, info := 0 })) ∧
  (s.reaches (.pwracq h w) h = true →
    (budget < lvl → ∃ t, exec (.pwracq h w) s = .next t ∧ s.Traps t { cls := .powerExceeded, code := 0, info := w64 lvl }) ∧
    (lvl ≤ budget → lvl ≤ s.me.level.getD 0 → ∃ t, exec (.pwracq h w) s = .next t ∧ s.Sets t { s.me with level := some lvl }) ∧
    (let ahead := (s.die s.myDie).waitPwr.filter (fun q => q.1 != s.cur.ck)
     let u := s.enter.modDie s.myDie (fun d => { d with waitPwr := ahead ++ [(s.cur.ck, lvl, false)] })
     (s.cur.eng = .s → lvl ≤ budget → s.me.level.getD 0 < lvl → (∀ q ∈ ahead, u.eff q.1 < u.eff s.cur.ck) →
       u.granted s.myDie + (lvl - s.me.level.getD 0) ≤ budget →
       ∃ t, exec (.pwracq h w) s = .next t ∧ ({ s with dies := t.dies } : State).Sets t { s.me with level := some lvl, regionAt := if s.me.level.isNone then s.nextId else s.me.regionAt } ∧
         ∀ d, t.die d = if d = s.myDie then { s.die d with waitPwr := ahead } else s.die d) ∧
     (lvl ≤ budget → s.me.level.getD 0 < lvl →
       (∃ q ∈ ahead, u.eff s.cur.ck ≤ u.eff q.1) ∨ budget < u.granted s.myDie + (lvl - s.me.level.getD 0) →
       ∃ t, exec (.pwracq h w) s = .next t ∧ t = u))) ∧
  (s.reaches (.pwrrel h w) h = true →
    (s.me.level = none → ∃ t, exec (.pwrrel h w) s = .next t ∧ s.Sets t s.me) ∧
    (∀ l, s.me.level = some l → ∃ t st, exec (.pwrrel h w) s = .next t ∧ s.Defers t h st ∧ st = { s.me with later := st.later } ∧
      (st.endAclk).level = none))
/-- 15 R314, R317, R322 and R325. -/
def Obligations.PrefillDieEvents : Prop :=
  ∀ (d c b : Nat) (s : State),
  let ofCore (on : Bool) (o : Op) : Bool := o.core == coreKey d c && !o.fin && (match o.kind with | .cgate x => x == on | _ => false)
  let closed (u : State) (up x : Bool) : State := u.setFifo d c up { u.fifo d c up with closed := x }
  (∀ (o : Op) (on : Bool), d < 2 → c < 16 → o.core = coreKey d c →
    (s.gate d c = 0 → on = false → s.gateMeets o on = closed (s.setGate d c 1) true true) ∧
    (s.gate d c = 0 → on = true → s.gateMeets o on = s.finishOp o) ∧
    (s.gate d c = 1 → on = false → s.gateMeets o on = s) ∧
    (s.gate d c = 1 → on = true → s.gateMeets o on = (((closed (s.setGate d c 0) true false).ops.filter (ofCore false)).foldl State.finishOp (closed (s.setGate d c 0) true false)).finishOp o) ∧
    (s.gate d c = 2 → on = false → s.gateMeets o on = s.finishOp o) ∧
    (s.gate d c = 2 → on = true → s.gateMeets o on = s.setGate d c 3) ∧
    (s.gate d c = 3 → s.gateMeets o on = s)) ∧
  (d < 2 → c < 16 → s.gate d c = 1 → s.gateIsQuiet d c = true →
    ∃ t u, exec (.gateQuiet d c) s = .next t ∧ t = (s.ops.filter (ofCore false)).foldl State.finishOp u ∧
      u = closed ((s.keepVff d c).setGate d c 2) false true) ∧
  (s.gate d c ≠ 1 ∨ s.gateIsQuiet d c = false → exec (.gateQuiet d c) s = .next s) ∧
  (d < 2 → c < 16 → s.gate d c = 3 →
    ∃ t u, exec (.gatePowerGood d c) s = .next t ∧
      u = (s.ops.filter (ofCore true)).foldl State.finishOp (closed (closed ((s.keepVff d c).setGate d c 0) true false) false false) ∧
      t = (if u.ops.any (ofCore false) then closed (u.setGate d c 1) true true else u)) ∧
  (s.gate d c ≠ 3 → exec (.gatePowerGood d c) s = .next s) ∧
  (∀ o ∈ s.ops, s.ops.filter (ofCore false) = [o] → o.live = true → o.dead = false →
    let t := (s.ops.filter (ofCore false)).foldl State.finishOp s
    t.ops = s.ops.filter (fun x => x.id != o.id) ∧ t = { s with ops := t.ops, strands := t.strands } ∧ (∀ k, k ≠ o.ck → t.strand k = s.strand k) ∧
    t.strand o.ck = (if o.sp then (s.strand o.ck).setSem o.hn ((s.strand o.ck).sem o.hn).complete else s.strand o.ck)) ∧
  (∀ v : Word, d < 2 → c < 16 → s.gate d c = 0 → ∃ t, exec (.vfctlWrite d c v) s = .next t ∧ t = { s with dev := t.dev, fifos := t.fifos, vffOld := t.vffOld } ∧
    t.dget d (vfctlOff c) = w64 (v.toNat % 32) ∧ t.fifo d c true = Fifo.init ∧ t.fifo d c false = Fifo.init) ∧
  (∀ v : Word, s.gate d c ≠ 0 → exec (.vfctlWrite d c v) s = .next s) ∧
  (∀ p, s.pwrHead d = some p ↔ ∃ xs ys, (s.die d).waitPwr = xs ++ p :: ys ∧ (∀ q ∈ xs, s.eff q.1 < s.eff p.1) ∧ ∀ q ∈ ys, s.eff q.1 ≤ s.eff p.1) ∧
  (∀ p, s.pwrHead d = some p → s.pwrFits p = true → ckDie p.1 = d → ∃ t, exec (.powerGrant d) s = .next t ∧
    (t.strand p.1).level = some p.2.1 ∧ (t.die d).waitPwr = (s.die d).waitPwr.filter (fun q => q.1 != p.1) ∧
    (∀ k, k ≠ p.1 → t.strand k = s.strand k) ∧ t = { s with strands := t.strands, dies := t.dies } ∧
    (p.2.2 = true → t.strand p.1 = { s.strand p.1 with level := some p.2.1, regionAt := 0 })) ∧
  (∀ p, s.pwrHead d = some p → s.pwrFits p = false → exec (.powerGrant d) s = .next s) ∧
  (s.pwrHead d = none → exec (.powerGrant d) s = .next s) ∧
  (d < 2 → c < 16 → b < 4 → s.bandNamed d c b = false → (s.die d).bandIsOff c b = false →
    Map.get 0 (s.die d).bandAt (4 * c + b) + 11000 * fld (s.dget d 0x320000000008) 15 0 ≤ s.ftime →
    ∃ t, exec (.bandOff d c b) s = .next t ∧ t = { s with dies := t.dies } ∧ (t.die d).bandIsOff c b = true ∧
      (∀ x, x ≠ 4 * c + b → NSet.mem (t.die d).bandOff x = NSet.mem (s.die d).bandOff x)) ∧
  (s.bandNamed d c b = true ∨ (s.die d).bandIsOff c b = true ∨
    s.ftime < Map.get 0 (s.die d).bandAt (4 * c + b) + 11000 * fld (s.dget d 0x320000000008) 15 0 → exec (.bandOff d c b) s = .next s) ∧
  (∃ t, exec (.bandWake d c b) s = .next t ∧ t = { s with dies := t.dies } ∧ (t.die d).bandIsOff c b = false)
/-- 17 R356, R359, R365, R369, R373; 20 R411 to R413; 21 R419; 23 R451, R454; 09 R233, R234. What `tset` and `l2mode` leave to the end of the aclk is log 42; the moves a die holds are log 49, and the move flag of `mpage` is log 81. -/
def Obligations.HubAndDieCommandsStart : Prop :=
  (∀ (h : Head) (w : W6) (s : State),
   let sp := bit w.fn 0
   let hn := fld w.imm 3 0
   (∀ a b : Word, s.reaches (.tlbinv h w) h = true → (if fld w.fn 2 1 < 2 then s.rd w.a 0 = .ok a else a = 0) → s.rd w.b 1 = .ok b →
     (fld b 63 50 = 0 → fld b 49 46 < 9 → ∃ t, exec (.tlbinv h w) s = .next t ∧
       s.Starts t sp hn (.tlbinv (fld b 49 46) (fld w.fn 2 1) (a.extractLsb' 0 16) (fld b 45 0))) ∧
     ((fld b 63 50 ≠ 0 ∨ 9 ≤ fld b 49 46) → ∃ t, exec (.tlbinv h w) s = .next t ∧ s.Traps t { cls := .noRoute, code := 0, info := b })) ∧
   (∀ a b c : Word, s.reaches (.mpage h w) h = true → s.rd w.a 0 = .ok a → s.rd w.b 1 = .ok b → s.rd w.c 2 = .ok c →
     fld a 63 50 = 0 → fld a 49 46 < 8 → c.toNat % 8 = 0 → s.check c = .ok () →
     (s.movesOf (fld a 49 46)).length + b2n (s.die (fld a 49 46)).move.isSome ≤ 16 → ∃ t, exec (.mpage h w) s = .next t ∧
       (s.withOp sp hn (.mpage a (fld b 45 0) (BitVec.ofNat 16 (fld w.imm 19 4)) c (s.inMove a (fld b 45 0) (BitVec.ofNat 16 (fld w.imm 19 4))))).Sets t { s.me with phs := s.me.phs && !s.global c }) ∧
   (∀ a b c : Word, s.reaches (.kvfind h w) h = true → s.rd w.a 0 = .ok a → s.rd w.b 1 = .ok b → s.rd w.c 2 = .ok c →
     fld a 63 26 = 0 → 2 ≤ fld a 25 22 → fld a 25 22 < 8 → b.toNat % 64 = 0 → s.check b = .ok () → s.scansBusy (fld a 25 22) < 64 →
     ∃ t, exec (.kvfind h w) s = .next t ∧
       (s.withOp sp hn (.kvfind (a.extractLsb' 0 22) (fld a 25 22) b (fld c 19 0))).Sets t { s.me with phs := s.me.phs && !s.global b }) ∧
   (∀ (a b c : Word) (v : Nat) (p : State), s.reaches (.rqhand h w) h = true → s.rd w.a 0 = .ok a → s.rd w.b 1 = .ok b → s.rd w.c 2 = .ok c →
     b.toNat % 64 = 0 → c.toNat % 8 = 0 → s.check b = .ok () → (c = 0 ∨ s.check c = .ok ()) → s.loadRange s.cur.ck b.toNat 64 = .ok (v, false) →
     (s.countRange s.cur.ck b.toNat 64 false).publish s.cur.ck = .ok p → ∃ t, exec (.rqhand h w) s = .next t ∧
       (p.withOp sp hn (.rqhand (fld a 17 0) (fld w.fn 2 1) (BitVec.ofNat 512 v) c)).Sets t { p.me with phs := p.me.phs && !p.global c && !p.global b }) ∧
   (∀ (a c : Word) (p : State), s.reaches (.rqcan h w) h = true → s.rd w.a 0 = .ok a → s.rd w.c 2 = .ok c → c.toNat % 8 = 0 →
     (c = 0 ∨ s.check c = .ok ()) → s.publish s.cur.ck = .ok p → ∃ t, exec (.rqcan h w) s = .next t ∧
       (p.withOp sp hn (.rqcan (fld a 17 0) c)).Sets t { p.me with phs := p.me.phs && !p.global c }) ∧
   (∀ (b c : Word) (p : State), s.reaches (.rqdone h w) h = true → s.rd w.b 1 = .ok b → s.rd w.c 2 = .ok c →
     (∀ o ∈ s.ops, o.mine s.cur.ck = true → o.live = true → ∀ q x g a, o.kind ≠ .rqdone q x g a) → s.pathBusy s.cur.ck 0x3F 3 = false →
     s.publishAt s.cur.ck 3 = .ok p →
     ∃ t, exec (.rqdone h w) s = .next t ∧ t = p.withOp false 0 (.rqdone (fld b 17 0) c h w.a)) ∧
   (∀ (a c : Word) (p : State), s.reaches (.publish h w) h = true → s.rd w.a 0 = .ok a → s.rd w.c 2 = .ok c → c.toNat % 8 = 0 →
     (c = 0 ∨ s.check c = .ok ()) →
     let g := s.dget 8 (0x3A0000000000 + 0x20 * fld a 5 0)
     ((bit g 0 = true ∧ fld g 4 1 = s.myPart.toNat) → s.publish s.cur.ck = .ok p → ∃ t, exec (.publish h w) s = .next t ∧
       (p.withOp sp hn (.publish (fld a 5 0) c)).Sets t { p.me with phs := p.me.phs && !p.global c }) ∧
     (¬(bit g 0 = true ∧ fld g 4 1 = s.myPart.toNat) → ∃ t, exec (.publish h w) s = .next t ∧
       s.Traps t { cls := .partition, code := 0, info := w64 (fld a 5 0) }))) ∧
  (∀ (h : Head) (w : W6) (s : State) (b c : Word) (v : Nat), s.reaches (.recirc h w) h = true → s.rd w.b 1 = .ok b → s.rd w.c 2 = .ok c →
   s.recirc? s.cur.ck = false → b.toNat % 64 = 0 → c.toNat % 8 = 0 → s.check b = .ok () → (c = 0 ∨ s.check c = .ok ()) →
   s.rdRange s.agent b.toNat 2048 = (v, false, none) →
   let u := ((s.enter.countRange s.cur.ck b.toNat 2048 false).sent b).sent c
   let m := u.dget 8 (fabOff 8)
   let master : Prop := bit m 0 = true ∧ ckOf (fld m 4 1) (fld m 9 5) (fld m 12 10) = s.cur.ck
   (master → s.me.phs = true → ∃ t, exec (.recirc h w) s = .next t ∧
     t = u.withOp false 0 (.recirc ((List.range 512).map (fun i => BitVec.ofNat 32 (v >>> (32 * i)))) c h w.a .sent)) ∧
   (∀ r x, (if master then s.me.phs = false ∧ r = 2 else r = 1) →
     (if c = 0 then x = u else u.storeHome s.cur.ck c 8 (r + u.gen.toNat * 2 ^ 16) = .ok x) →
     ∃ t, exec (.recirc h w) s = .next t ∧ x.Gives t h (destOf w.a) (.pred false) 0)) ∧
  (∀ (h : Head) (w : W6) (s : State),
   (∀ b : Word, s.reaches (.l2mode h w) h = true → s.rd w.b 1 = .ok b → fld b 63 4 = 0 → fld b 3 0 < 8 → s.pathBusy s.cur.ck 0x3F 3 = false →
     let alone := !allCores.any (fun p => p.1 == fld b 3 0 && (List.range 8).any (fun x => ckOf (fld b 3 0) p.2 x != s.cur.ck && s.running? (ckOf (fld b 3 0) p.2 x)))
     ∃ t, exec (.l2mode h w) s = .next t ∧
       (if alone then s.dput (fld b 3 0) 0x340000000000 (w64 (fld w.imm 1 0)) else s).Gives t h (destOf w.a) (.pred alone) 0) ∧
   (∀ (b c : Word) (p : State), s.rd w.b 1 = .ok b → fld b 63 50 = 0 → 2 ≤ fld b 49 46 → fld b 49 46 < 8 → b.toNat % 4096 = 0 →
     s.publish s.cur.ck = .ok p →
     let d := fld b 49 46
     let known := (p.die d).roots.any (fun r => r.1 == fld b 45 0)
     (s.rd w.c 2 = .ok c → s.reaches (.kvrootAdd h w) h = true → ∃ t, exec (.kvrootAdd h w) s = .next t ∧
       (if known = true ∨ 65536 ≤ (p.die d).roots.length then p.Gives t h (destOf w.a) (.pred false) 0
        else (p.modDie d (fun y => { y with roots := y.roots ++ [(fld b 45 0, c)], work := if p.rcPhase d = 1 then y.work ++ [fld b 45 0] else y.work })).Gives t h (destOf w.a) (.pred true) 0)) ∧
     (s.reaches (.kvrootDel h w) h = true → ∃ t, exec (.kvrootDel h w) s = .next t ∧
       (if known then (p.modDie d (fun y => { y with roots := y.roots.filter (fun r => r.1 != fld b 45 0) })).Gives t h (destOf w.a) (.pred true) 0
        else p.Gives t h (destOf w.a) (.pred false) 0))) ∧
   (∀ b : Word, s.reaches (.rqstat h w) h = true → s.rd w.b 1 = .ok b → ∃ t, exec (.rqstat h w) s = .next t ∧
     s.Gives t h (destOf w.a) (.rqstat (fld b 17 0) (if s.rqLive (fld b 17 0) = true ∧ rqPart (s.rq (fld b 17 0)) = s.myPart.toNat
       then w64 (fld (s.rq (fld b 17 0)) 63 0) else 0)) 0) ∧
   (∀ b : Word, s.reaches (.tbind h w) h = true → s.rd w.b 1 = .ok b → w.fn.getLsbD 0 = true →
     ∃ t, exec (.tbind h w) s = .next t ∧ s.Sets t { s.me with tgb := b.extractLsb' 0 32 }) ∧
   (s.reaches (.tbind h w) h = true → w.fn.getLsbD 0 = false → s.frz = false →
     ∃ t, exec (.tbind h w) s = .next t ∧ s.Sets t { s.me with tgb := s.gen }) ∧
   (s.reaches (.tbind h w) h = true → w.fn.getLsbD 0 = false → s.frz = true → ∃ t, exec (.tbind h w) s = .next t ∧ s.Waits t) ∧
   (s.reaches (.cwait h w) h = true →
     (Map.get 0 s.me.n (w.a.toNat % 16) ≤ fld w.imm 15 0 → ∃ t, exec (.cwait h w) s = .next t ∧ s.Sets t s.me) ∧
     (fld w.imm 15 0 < Map.get 0 s.me.n (w.a.toNat % 16) → ∃ t, exec (.cwait h w) s = .next t ∧ s.Waits t)) ∧
   (∀ (i : Nat), s.reaches (.tset h w) h = true → s.tileIdx s.cur.ck (fld w.imm 7 0) = .ok i →
     (w.imm.getLsbD 10 = true → ∃ t, exec (.tset h w) s = .next t ∧
       ({ s with laterT := t.laterT } : State).Defers t h s.me ∧
       Map.get 0 t.laterT (s.myDie * 2 ^ 46 + ttabOff s.myCore i) = setFld (s.tile s.cur.ck i) 1 0 (fld w.imm 9 8)) ∧
     (∀ b c : Word, w.imm.getLsbD 10 = false → s.rd w.b 1 = .ok b → s.rd w.c 2 = .ok c →
       b.toNat % 64 = 0 → c.toNat % 64 = 0 → c ≠ 0 → c.toNat ≤ 2 ^ 22 → s.vrange s.cur.ck b.toNat c.toNat = .ok () →
       ∃ t, exec (.tset h w) s = .next t ∧ ({ s with laterT := t.laterT } : State).Defers t h s.me ∧
         (let e := Map.get 0 t.laterT (s.myDie * 2 ^ 46 + ttabOff s.myCore i)
          tileState e = fld w.imm 9 8 ∧ tileBase e = b.toNat % 2 ^ 23 ∧ tileLen e = c.toNat))))
/-- 09 R230, 23 R447, 06 R137, 16 R331 to R333. -/
def Obligations.CopyAndBankCommandsStart : Prop :=
  (∀ (h : Head) (w : W6) (s : State),
   (∀ p ∈ [(Instr.cpy h w, CopyKind.cpy), (Instr.cgath h w, .cgath), (Instr.cscat h w, .cscat), (Instr.clist h w, .clist), (Instr.cfill h w, .cfill)],
     s.reaches p.1 h = true →
     (∀ x, s.copyPlan p.2 w = .error x → exec p.1 s = stopped s x) ∧
     (∀ c tile, s.copyPlan p.2 w = .ok (c, tile) → ∃ t u, exec p.1 s = .next t ∧
       t.ops = s.ops ++ [s.newOp (cpSP w.fn) (cpHN w.imm) (.copy c)] ∧ t.nextId = s.nextId + 1 ∧
       u = { s with dev := t.dev, ops := t.ops, nextId := t.nextId } ∧
       u.Sets t { s.me with n := Map.put s.me.n (cpN w.fn) (Map.get 0 s.me.n (cpN w.fn) + 1), phs := t.me.phs } ∧
       (t.me.phs = (s.me.phs && !c.addresses.any (fun q => s.global q.1))) ∧
       (match tile with
        | some i => t.dev = (s.setTileState s.cur.ck i (if cpTD w.fn then 1 else 3)).dev
        | none => t.dev = s.dev))) ∧
   (∀ (a t0 : Word) (i : Nat), s.reaches (.xsend h w) h = true → s.tileIdx s.cur.ck (fld w.imm 7 0) = .ok i → s.rd w.a 0 = .ok a → s.rd w.b 1 = .ok t0 →
     Map.get 0 s.me.n (fld w.fn 2 0) < 65535 → tileState (s.tile s.cur.ck i) = 2 →
     blockBytes (sendSty w.fn) (sendNb w.imm) ≤ tileLen (s.tile s.cur.ck i) →
     (s.inWindow s.cur.ck (tileBase (s.tile s.cur.ck i)) (blockBytes (sendSty w.fn) (sendNb w.imm)) = false →
       ∃ t, exec (.xsend h w) s = .next t ∧ s.Traps t { cls := .vaultRange, code := 0, info := w64 (tileBase (s.tile s.cur.ck i)) }) ∧
     (s.inWindow s.cur.ck (tileBase (s.tile s.cur.ck i)) (blockBytes (sendSty w.fn) (sendNb w.imm)) = true → s.check a = .ok () →
     ∃ t u x, exec (.xsend h w) s = .next t ∧ u = { s with dev := t.dev, ops := t.ops, nextId := t.nextId } ∧
       u.Sets t { s.me with n := Map.put s.me.n (fld w.fn 2 0) (Map.get 0 s.me.n (fld w.fn 2 0) + 1), phs := s.me.phs && !s.global a } ∧
       t.dev = (s.setTileState s.cur.ck i 3).dev ∧ t.nextId = s.nextId + 1 ∧ t.ops = s.ops ++ [s.newOp (bit w.fn 3) (fld w.imm 35 32) (.send x)] ∧
       x.fn = w.fn ∧ x.imm = w.imm ∧ x.a = a ∧ x.t0 = t0 ∧ x.tile = i ∧ x.key = s.vaultKey s.cur.ck (tileBase (s.tile s.cur.ck i)) ∧ x.gen = s.me.tgb ∧ x.tabs = s.tabs ∧
       x.gone = false ∧ x.begun = none ∧ x.fills = none ∧ x.acked = false ∧ x.failed = false))) ∧
  (∀ (h : Head) (w : W6) (s : State),
   (∀ p ∈ [(Instr.bqry h w, BankKind.bqry, true, true), (Instr.bapp h w, .bapp, true, false), (Instr.bmv h w, .bmv, true, true),
       (Instr.bflt h w, .bflt, true, true), (Instr.bsk h w, .bsk, true, true), (Instr.bmap h w, .bmap, false, false), (Instr.berr h w, .berr, false, false)],
     ∀ a b c : Word, s.reaches p.1 h = true → s.rd w.a 0 = .ok a → (if p.2.2.1 then s.rd w.b 1 = .ok b else b = 0) →
     (if p.2.2.2 then s.rd w.c 2 = .ok c else c = 0) →
     (16 ≤ s.me.bout → ∃ t, exec p.1 s = .next t ∧ s.Waits t) ∧
     (∀ x, s.me.bout < 16 → s.bankPlan s.cur.ck p.2.1 w a b c 0 true = .error x → exec p.1 s = stopped s x) ∧
     (∀ o, s.me.bout < 16 → s.bankPlan s.cur.ck p.2.1 w a b c 0 true = .ok o → s.columnRoom s.cur.ck o = false →
       ∃ t, exec p.1 s = .next t ∧ s.Waits t) ∧
     (∀ o, s.me.bout < 16 → s.bankPlan s.cur.ck p.2.1 w a b c 0 true = .ok o → s.columnRoom s.cur.ck o = true →
       (p.2.1 = .bqry ∧ o.items = [] → ∃ t, exec p.1 s = .next t ∧ s.Sets t (if bit w.fn 0 then s.me.complete (fld w.imm 3 0) else s.me)) ∧
       (¬(p.2.1 = .bqry ∧ o.items = []) → ∃ t, exec p.1 s = .next t ∧
         (s.withOp (bit w.fn 0) (fld w.imm 3 0) (.bank o)).Sets t { s.me with bout := s.me.bout + 1 }))) ∧
   (s.reaches (.bwait h w) h = true → s.me.bout ≤ fld w.imm 6 0 → ∃ t, exec (.bwait h w) s = .next t ∧ s.Sets t s.me) ∧
   (s.reaches (.bwait h w) h = true → fld w.imm 6 0 < s.me.bout → ∃ t, exec (.bwait h w) s = .next t ∧ s.Waits t))
/-- 07 R160 to R165. When a request is performed is log 3, the blocks that PRIV = 0 may not reach log 10, that a store reads its data first log 84. -/
def Obligations.ScalarLoadsAndStores : Prop :=
  (∀ (h : Head) (w : W2) (s : State) (ea b : Word), s.reaches (.ld h w) h = true → s.ea w (2 ^ w.sz.toNat) = .ok ea → s.rd w.base 0 = .ok b →
   s.check ea = .ok () →
   let n := 2 ^ w.sz.toNat
   let d := destOf w.d
   let ext (v : Nat) : Word := if w.x then (BitVec.ofNat (8 * n) v).signExtend 64 else BitVec.ofNat 64 v
   let stepped (u : State) (fs : List Flight) : List Flight :=
     if w.pi then fs.map (Flight.superseded (destOf w.base)) ++ [u.newFlight { h with lb := 0 } (destOf w.base) (.word (b + w.off.signExtend 64) false) 0] else fs
   let flights (u : State) (v : Nat) (mark : Bool) : List Flight :=
     stepped u (if d = .none then u.myEng.flight else u.flightsLoads h d (.word (ext v) mark))
   let later : Prop := (∃ x, s.devPlace ea n false = .error (.fatal x)) ∨
     (s.devPlace ea n false = .ok none ∧ ((s.late = true ∧ d ≠ .none) ∨ s.mustFollow s.cur.ck ea = true ∨ ∃ x, s.loadRange s.cur.ck ea.toNat n = .error (.fatal x)))
   let pieces (sg : Bool) : List Posted :=
     ((wordPieces ea.toNat n).foldl (fun x q => x.post s.cur.ck (q.2.1 % 2 ^ 64) (.load s.nextId q.1 q.2.2 n sg 0 0)) s).posted
   (s.slotFree s.cur.ck = false → ∃ t, exec (.ld h w) s = .next t ∧ s.Waits t) ∧
   (∀ v mark, s.slotFree s.cur.ck = true → (s.late = false ∨ d = .none) → s.mustFollow s.cur.ck ea = false → s.devPlace ea n false = .ok none → s.loadRange s.cur.ck ea.toNat n = .ok (v, mark) →
     ∃ t u, exec (.ld h w) s = .next t ∧ u = (s.countRange s.cur.ck ea.toNat n false).enter.sent ea ∧ u.Issues t u.me (flights u v mark)) ∧
   (∀ e off, s.slotFree s.cur.ck = true → s.devPlace ea n false = .ok (some (e, off)) →
     ∃ t u, exec (.ld h w) s = .next t ∧ u = (s.devRead e off n).1.enter.sent ea ∧ u.Issues t u.me (flights u (s.devRead e off n).2 false)) ∧
   (s.slotFree s.cur.ck = true → s.me.pbuf = [] → later →
     ∃ t u, exec (.ld h w) s = .next t ∧ u = { s.enter.sent ea with nextId := t.nextId, posted := t.posted } ∧ t.posted = pieces (w.x && decide (d ≠ .none)) ∧
       u.Issues t u.me (stepped u (if d = .none then u.myEng.flight else u.flightsLoads h d (.request s.nextId 0 false)))) ∧
   (∀ e phys key, s.devPlace ea n false = .ok none → s.place s.myAsid s.myPart ea.toNat false = .ok (.mem e phys key) → (∀ i, i < n → s.foreign (key + i) s.myPart = false) →
     ea.toNat % 64 + n ≤ 64 → s.me.pbuf = [] → s.posted = [] → s.shadows = [] →
     s.loadRange s.cur.ck ea.toNat n = .ok (Mem.readLE s.mem key n, s.poisoned key))) ∧
  (∀ (h : Head) (w : W2) (s : State) (ea b x : Word), s.reaches (.st h w) h = true → s.ea w (2 ^ w.sz.toNat) = .ok ea → s.rd w.base 0 = .ok b →
   s.rd w.d 2 = .ok x → s.check ea = .ok () →
   let n := 2 ^ w.sz.toNat
   let flights (u : State) : List Flight :=
     if w.pi then u.myEng.flight.map (Flight.superseded (destOf w.base)) ++
       [u.newFlight { h with lb := 0 } (destOf w.base) (.word (b + w.off.signExtend 64) false) 0] else u.myEng.flight
   (∀ y, s.devPlace ea n true = .ok none → s.bufferStore ea.toNat n x.toNat = .ok y →
     ∃ t u, exec (.st h w) s = .next t ∧ u = y.enter.sent ea ∧ u.Issues t u.me (flights u)) ∧
   (s.devPlace ea n true = .ok none → ea.toNat % 64 + n ≤ 64 → ((s.me.entry? (ea.toNat / 64)).isSome = true ∧ s.me.pbuf.length ≤ 256 ∨ s.me.pbuf.length < 256) →
     ∃ t u, exec (.st h w) s = .next t ∧ u = (s.modMe (fun st => st.buffer ea.toNat (x.toNat % 2 ^ (8 * n)) n st.tgb s.tabs false)).enter.sent ea ∧
       u.Issues t u.me (flights u) ∧ t.mem = s.mem) ∧
   (s.devPlace ea n true = .ok none → 256 < s.me.pbuf.length + s.newLines ea.toNat n → s.loadsComing = true → ∃ t, exec (.st h w) s = .next t ∧ s.Waits t) ∧
   (∀ d off, s.devPlace ea n true = .ok (some (d, off)) →
     ∃ t u, exec (.st h w) s = .next t ∧ u = (s.devWrite d off n (w64 (x.toNat % 2 ^ (8 * n)))).enter.sent ea ∧ u.Issues t u.me (flights u)) ∧
   (∀ y, s.devPlace ea n true = .error (.fatal y) →
     ∃ t u, exec (.st h w) s = .next t ∧ u = (s.post s.cur.ck ea.toNat (.miss true)).enter.sent ea ∧ u.Issues t u.me (flights u)))
/-- 07 R172 to R175, 17 R360. The sections of `qbind` and `qfree` count as retired at the end of their aclk (log 42); when an entry moves is the schedule's (log 5). -/
def Obligations.StreamBindingsAndEntries : Prop :=
  (∀ (h : Head) (w : W4) (s : State),
   let q := w.q.toNat
   let bad : TrapInfo := { cls := .streamBinding, code := 0, info := w64 q }
   (s.reaches (.qbind h w) h = true → (s.me.hdl = true ∨ (s.streamTaken s.cur.ck q = false ∧ (s.me.stream q).state ≠ .unbound)) →
     ∃ t, exec (.qbind h w) s = .next t ∧ s.Traps t bad) ∧
   (s.reaches (.qbind h w) h = true → s.me.hdl = false → s.streamTaken s.cur.ck q = true → ∃ t, exec (.qbind h w) s = .next t ∧ s.Waits t) ∧
   (∀ (pat base : Word) (v : Nat), s.reaches (.qbind h w) h = true → s.me.hdl = false → s.streamTaken s.cur.ck q = false → s.slotFree s.cur.ck = true → (s.me.stream q).state = .unbound → s.rd w.pat 1 = .ok pat →
     s.check pat = .ok () → pat.toNat % 64 = 0 → s.loadRange s.cur.ck pat.toNat 64 = .ok (v, false) → patOk (BitVec.ofNat 512 v) = true →
     bindCount w.imm (BitVec.ofNat 512 v) ≤ 2 ^ 40 - 1 → s.rd w.base 0 = .ok base →
     let x : Stream := {
       state := if w.dir = 0 then .inS else .outS, ety := w.ety, scope := if w.dir = 0 then 0 else w.scope, base := base,
       count := bindCount w.imm (BitVec.ofNat 512 v), done := 0, pattern := BitVec.ofNat 512 v, buf := [], gen := s.me.tgb, tabs := s.tabs }
     ∃ t u, exec (.qbind h w) s = .next t ∧ u = (s.enter.countRange s.cur.ck pat.toNat 64 false).sent pat ∧
       u.Defers t h { u.me with laterQ := Map.put u.me.laterQ q x } ∧
       (s.me.laterQ = [] → ((t.me.endAclk).stream q) = x)) ∧
   (∀ pat : Word, s.reaches (.qbind h w) h = true → s.me.hdl = false → s.streamTaken s.cur.ck q = false → (s.me.stream q).state = .unbound → s.rd w.pat 1 = .ok pat →
     s.check pat = .ok () →
     (pat.toNat % 64 ≠ 0 → ∃ t, exec (.qbind h w) s = .next t ∧ s.Traps t bad) ∧
     (pat.toNat % 64 = 0 → s.slotFree s.cur.ck = false → ∃ t, exec (.qbind h w) s = .next t ∧ s.Waits t) ∧
     (∀ v mark, pat.toNat % 64 = 0 → s.slotFree s.cur.ck = true → s.loadRange s.cur.ck pat.toNat 64 = .ok (v, mark) →
       (mark = true → ∃ t, exec (.qbind h w) s = .next t ∧ s.Traps t { cls := .poisonConsumed, code := 0, info := pat }) ∧
       (mark = false → (patOk (BitVec.ofNat 512 v) = false ∨ 2 ^ 40 - 1 < bindCount w.imm (BitVec.ofNat 512 v)) →
         ∃ t, exec (.qbind h w) s = .next t ∧ s.Traps t bad))) ∧
   (s.reaches (.qfree h w) h = true → s.me.hdl = true → ∃ t, exec (.qfree h w) s = .next t ∧ s.Traps t bad) ∧
   (s.reaches (.qfree h w) h = true → s.me.hdl = false → (s.streamTaken s.cur.ck q = true ∨ s.me.bindingFree q = false) →
     ∃ t, exec (.qfree h w) s = .next t ∧ s.Waits t) ∧
   (s.reaches (.qfree h w) h = true → s.me.hdl = false → s.streamTaken s.cur.ck q = false → s.me.bindingFree q = true →
     ∃ t, exec (.qfree h w) s = .next t ∧
       (if (s.me.stream q).state = .unbound then s.Sets t s.me else s.Defers t h { s.me with laterQ := Map.put s.me.laterQ q Stream.init }))) ∧
  (∀ (ck q : Nat) (s : State),
   let x := (s.strand ck).stream q
   let n := (entryBits x.ety + 7) / 8
   s.slotFree ck = true → x.tabs = s.tabs → s.posted = [] →
   (∀ v mark, s.running? ck = true → (s.strand ck).hdl = false → (s.strand ck).full = false → q < 16 → x.state = .inS →
     x.done + x.buf.length < x.count → x.buf.length < 32768 / entryBits x.ety → s.probing ck = false →
     (let ea := if x.ety = 0 then x.addr (x.done + x.buf.length) >>> 1 else x.addr (x.done + x.buf.length)
      s.checkOf ck ea = .ok () ∧ (s.global ea = true → x.gen = s.gen) ∧ s.mustFollow ck ea = false ∧ s.loadRange ck ea.toNat n = .ok (v, mark)) →
     ∃ t, exec (.streamFetch ck q) s = .next t ∧ (∀ c, c ≠ ck → t.strand c = s.strand c) ∧
       t.strand ck = (s.strand ck).setStream q { x with buf := x.buf ++ [{ mark := mark, bits := BitVec.ofNat 16384 (
         if x.ety = 0 then v / 2 ^ (4 * ((x.addr (x.done + x.buf.length)).toNat % 2)) % 16 else v % 2 ^ entryBits x.ety) }] }) ∧
   (∀ y, s.running? ck = true → (s.strand ck).hdl = false → (s.strand ck).full = false → q < 16 → x.state = .inS →
     x.done + x.buf.length < x.count → x.buf.length < 32768 / entryBits x.ety → s.probing ck = false →
     (let ea := if x.ety = 0 then x.addr (x.done + x.buf.length) >>> 1 else x.addr (x.done + x.buf.length)
      (∃ c, s.checkOf ck ea = .error (.trap c)) ∨ (s.checkOf ck ea = .ok () ∧ ((s.global ea = true ∧ x.gen ≠ s.gen) ∨
        ((s.global ea = true → x.gen = s.gen) ∧ s.mustFollow ck ea = false ∧ s.loadRange ck ea.toNat n = .error (.fatal y))))) →
     ∃ t e, exec (.streamFetch ck q) s = .next t ∧ s.OnlyStrandOf t ck ∧ t.strand ck = (s.strand ck).setStream q { x with buf := x.buf ++ [e] } ∧ e.mark = true) ∧
   (∀ e r, s.running? ck = true → (s.strand ck).hdl = false → (s.strand ck).full = false → q < 16 → x.state = .outS → x.buf = e :: r → x.ety ≠ 0 →
     (let ea := x.addr (x.done - x.buf.length)
      (∃ c, s.checkOf ck ea = .error (.trap c)) ∨ (s.checkOf ck ea = .ok () ∧ ((s.global ea = true ∧ x.gen ≠ s.gen) ∨
        ((s.global ea = true → x.gen = s.gen) ∧ s.mustFollow ck ea = false ∧ ea.toNat % 64 + n ≤ 64 ∧
          s.place (ctxAsid (s.ctx ck)) (ctxPart (s.ctx ck)) (ea.toNat / 64 * 64) true = .error .fail)))) →
     ∃ t, exec (.streamStore ck q) s = .next t ∧ s.OnlyStrandOf t ck ∧ t.strand ck = { (s.strand ck).setStream q { x with buf := r } with cerr := true }) ∧
   (∀ e r y, s.late = false → s.running? ck = true → (s.strand ck).hdl = false → (s.strand ck).full = false → q < 16 → x.state = .outS → x.buf = e :: r → x.ety ≠ 0 →
     (let ea := x.addr (x.done - x.buf.length)
      s.checkOf ck ea = .ok () ∧ (s.global ea = true → x.gen = s.gen) ∧ s.mustFollow ck ea = false ∧
      (s.modStrand ck (fun st => st.setStream q { x with buf := r })).wrRange (s.me? ck) ea.toNat n (e.bits.toNat % 2 ^ entryBits x.ety) = (y, none)) →
     exec (.streamStore ck q) s = .next y ∧ y.strand ck = (s.strand ck).setStream q { x with buf := r }))
/-- 07 R176 and R185, 21 R425. A probe of device space is log 19, the byte that its note names log 20. -/
def Obligations.ProbeAndAddressWait : Prop :=
  (∀ (h : Head) (w : W2) (s : State) (ea : Word), s.cur.eng = .a → s.reaches (.probe h w) h = true →
   let bytes := (List.range (2 ^ w.sz.toNat)).map (fun i => (ea.toNat + i) % 2 ^ 64)
   let own := s.posted.any (fun p => p.ck == s.cur.ck && p.path == 0)
   ((s.myEng.flight ≠ [] ∨ own = true ∨ s.slotFree s.cur.ck = false) → ∃ t, exec (.probe h w) s = .next t ∧ s.Waits t) ∧
   (s.myEng.flight = [] → own = false → s.slotFree s.cur.ck = true → s.ea w (2 ^ w.sz.toNat) = .ok ea → s.check ea = .ok () →
     ((∀ a ∈ bytes, (s.mapped a).isSome = true) → ∃ t u, exec (.probe h w) s = .next t ∧ u = s.enter.sent ea ∧
       u.Asks t h (destOf w.d) (.pred (bytes.all (fun a => s.mapped a == some true)))) ∧
     (∀ a, bytes.find? (fun a => (s.mapped a).isNone) = some a → ∃ t, exec (.probe h w) s = .next t ∧
       (s.probeNote s.myAsid s.myPart a).Traps t { cls := .probeFault, code := 0, info := ea }))) ∧
  ((∀ (h : Head) (w : W2) (s : State) (ea : Word), s.reaches (.waita h w) h = true → s.eaAtomic w = .ok ea → s.check ea = .ok () →
     (ea.toNat % 2 ^ w.sz.toNat ≠ 0 → ∃ t, exec (.waita h w) s = .next t ∧ s.Traps t { cls := .alignment, code := 0, info := ea }) ∧
     (∀ b, s.rd w.idx 1 = .ok b → ea.toNat % 2 ^ w.sz.toNat = 0 → (s.slotFree s.cur.ck = false ∨ s.mustFollow s.cur.ck ea = true) →
       ∃ t, exec (.waita h w) s = .next t ∧ s.Waits t)) ∧
   (∀ (h : Head) (w : W2) (s p : State) (ea b : Word), s.reaches (.waita h w) h = true → s.eaAtomic w = .ok ea → s.check ea = .ok () → s.mustFollow s.cur.ck ea = false →
     s.rd w.idx 1 = .ok b → ea.toNat % 2 ^ w.sz.toNat = 0 → s.slotFree s.cur.ck = true → s.publishLine s.cur.ck ea.toNat (2 ^ w.sz.toNat) = .ok p →
     let n := 2 ^ w.sz.toNat
     let u := (p.countRange p.cur.ck ea.toNat n false).enter.sent ea
     (∀ key v, p.waitaRead ea n = .at_ key v → v ≠ b.toNat % 2 ^ (8 * n) → ∃ t, exec (.waita h w) s = .next t ∧
       u.Gives t h (destOf w.d) (.pred true) 0) ∧
     (∀ key v, p.waitaRead ea n = .at_ key v → v = b.toNat % 2 ^ (8 * n) → ∃ t, exec (.waita h w) s = .next t ∧
       u.Issues t u.me (u.flightsAsked h (destOf w.d) (.waita key n v u.ftime u.tabs))) ∧
     (p.waitaRead ea n = .err → ∃ t, exec (.waita h w) s = .next t ∧ u.Gives t h (destOf w.d) (.pred true) 0) ∧
     (p.waitaRead ea n = .fail → ∃ t, exec (.waita h w) s = .next t ∧ t = (u.unanswered h (destOf w.d) ea n).advance)) ∧
   (∀ (ck i : Nat) (s : State) (f : Flight) (key n b born tabs : Nat),
     let fs := ((s.strand ck).eng .a).flight
     let answered (v : Bool) (t : State) : Prop := t = { s with strands := t.strands, dev := t.dev } ∧ (∀ c, c ≠ ck → t.strand c = s.strand c) ∧
       t.dev = (s.monitor (ckDie ck) 5 (ckCore ck) (s.time - f.born)).dev ∧ t.strand ck = { s.strand ck with es := (t.strand ck).es } ∧
       (∀ e, e ≠ .a → (t.strand ck).eng e = (s.strand ck).eng e) ∧
       (t.strand ck).eng .a = { (s.strand ck).eng .a with flight := fs.set i { f with val := .pred v } }
     s.running? ck = true → fs[i]? = some f → f.val = .waita key n b born tabs → (∀ j, j < i → ∀ g, fs[j]? = some g → ∀ k m c o r, g.val ≠ .waita k m c o r) →
     (s.watchFires (ctxPart (s.ctx ck)) key n b tabs = true → ∃ t, exec (.waitaWake ck) s = .next t ∧ answered true t) ∧
     (∀ spurious, (spurious = true ∨ born + 65536 * 11 ≤ s.ftime) → ∃ t, exec (.waitaTimeout ck spurious) s = .next t ∧ answered false t) ∧
     (s.ftime < born + 65536 * 11 → (∀ j, i < j → ∀ g, fs[j]? = some g → ∀ k m c o r, g.val ≠ .waita k m c o r) →
       exec (.waitaTimeout ck false) s = .next s)))
/-- 07 R177 to R184, 13 R295. When a posted request is performed is the model's schedule (log 3). -/
def Obligations.AtomicAccesses : Prop :=
  (∀ (h : Head) (w : W2) (s : State) (ea b e : Word) (p : State),
   let n := 2 ^ w.sz.toNat
   let f32add (x y : Nat) : Nat := (f32c (fadd (f32d x) (f32d y))).1
   let less (x y : Nat) : Bool := if w.x then decide (sval (8 * n) x < sval (8 * n) y) else decide (x < y)
   ∀ op ∈ ([(.aswap h w, .swap, fun _ b _ => b), (.acas h w, .cas, fun old b e => if old = e then b else old),
       (.afadd h w, .addF, fun old b _ => f32add old b), (.aiadd h w, .addI, fun old b _ => old + b),
       (.amin h w, .lo, fun old b _ => if less b old then b else old), (.amax h w, .hi, fun old b _ => if less old b then b else old),
       (.aandm h w, .band, fun old b _ => old &&& b), (.aorm h w, .bor, fun old b _ => old ||| b), (.axorm h w, .bxor, fun old b _ => old ^^^ b)]
       : List (Instr × AtomKind × (Nat → Nat → Nat → Nat))),
     s.reaches op.1 h = true → s.eaAtomic w = .ok ea → s.check ea = .ok () → s.rd w.idx 1 = .ok b → (if op.2.1 = .cas then s.rd w.d 2 = .ok e else e = 0) →
     (ea.toNat % n ≠ 0 → ∃ t, exec op.1 s = .next t ∧ s.Traps t { cls := .alignment, code := 0, info := ea }) ∧
     (ea.toNat % n = 0 → s.slotFree s.cur.ck = false → ∃ t, exec op.1 s = .next t ∧ s.Waits t) ∧
     (∀ d phys key, ea.toNat % n = 0 → s.slotFree s.cur.ck = true → s.posts ea (!w.ord.getLsbD 0) = false → s.mustFollow s.cur.ck ea = false → s.atomicPublish w ea n = .ok p →
       (p.behind p.agent ea.toNat).place p.myAsid p.myPart ea.toNat true = .ok (.mem d phys key) →
       let q := p.behind p.agent ea.toNat
       let old := q.rdKey p.myPart key n
       ∃ t u, exec op.1 s = .next t ∧
         u = ((if q.poisoned key then q else
           q.wrKey p.myPart key (op.2.2 old (b.toNat % 2 ^ (8 * n)) (e.toNat % 2 ^ (8 * n)) % 2 ^ (8 * n)) n).touch d phys p.myDie (d != p.myDie)).enter.sent ea ∧
         (if destOf w.d = .none then u.Sets t { u.me with cerr := u.me.cerr || q.poisoned key }
          else u.Asks t h (destOf w.d) (.word (w64 old) (q.poisoned key)))) ∧
     (ea.toNat % n = 0 → s.slotFree s.cur.ck = true → (s.posts ea (!w.ord.getLsbD 0) = true ∨ s.mustFollow s.cur.ck ea = true) →
       (if w.ord.getLsbD 1 then s.atomicPublish w ea n = .ok p else s.storePosted s.cur.ck = false ∧ p = s) →
       ∃ t u, exec op.1 s = .next t ∧
         u = (p.postAtom ea op.2.1 w (b.toNat % 2 ^ (8 * n)) (e.toNat % 2 ^ (8 * n))).enter.sent ea ∧
         (if w.ord.getLsbD 0 then u.Issues t u.me (u.flightsAsked { h with lb := 0 } (destOf w.d) (.request p.nextId 0 false))
          else if destOf w.d = .none then u.Sets t u.me else u.Asks t h (destOf w.d) (.request p.nextId 0 false))) ∧
     (∀ old b e, op.2.1.apply w.x n old b e = op.2.2 old b e)) ∧
  (∀ (h : Head) (w : W2) (s p : State) (ea : Word), s.ea w (2 ^ w.sz.toNat) = .ok ea → s.check ea = .ok () →
   let n := 2 ^ w.sz.toNat
   (∀ i ∈ [Instr.aldacq h w, Instr.astrel h w], s.reaches i h = true → ea.toNat % n ≠ 0 →
     ∃ t, exec i s = .next t ∧ s.Traps t { cls := .alignment, code := 0, info := ea }) ∧
   (∀ v mark, s.reaches (.aldacq h w) h = true → ea.toNat % n = 0 → s.slotFree s.cur.ck = true → s.publishLine s.cur.ck ea.toNat n = .ok p →
     s.mustFollow s.cur.ck ea = false → p.rdPiece p.agent ea.toNat n = .ok (v, mark) →
     ∃ t u, exec (.aldacq h w) s = .next t ∧ u = (p.countRange p.cur.ck ea.toNat n false).enter.sent ea ∧
       u.Asks t h (destOf w.d) (.word (w64 v) mark)) ∧
   (s.reaches (.aldacq h w) h = true → ea.toNat % n = 0 → s.slotFree s.cur.ck = false → ∃ t, exec (.aldacq h w) s = .next t ∧ s.Waits t) ∧
   (s.reaches (.aldacq h w) h = true → ea.toNat % n = 0 → s.slotFree s.cur.ck = true → s.publishLine s.cur.ck ea.toNat n = .ok p → s.mustFollow s.cur.ck ea = false →
     p.rdPiece p.agent ea.toNat n = .error .err →
     ∃ t u, exec (.aldacq h w) s = .next t ∧ u = p.enter.sent ea ∧ u.Asks t h (destOf w.d) (.word (w64 (p.rdFail ea.toNat n)) true)) ∧
   (s.reaches (.aldacq h w) h = true → ea.toNat % n = 0 → s.slotFree s.cur.ck = true → s.publishLine s.cur.ck ea.toNat n = .ok p →
     (s.mustFollow s.cur.ck ea = true ∨ p.rdPiece p.agent ea.toNat n = .error .fail) →
     ∃ t u, exec (.aldacq h w) s = .next t ∧ u = p.enter.sent ea ∧ t = (u.unanswered h (destOf w.d) ea n).advance) ∧
   (∀ x y, s.reaches (.astrel h w) h = true → ea.toNat % n = 0 → s.rd w.d 2 = .ok x → s.slotFree s.cur.ck = true → s.publishAt s.cur.ck w.scope.toNat = .ok p →
     (if p.posts ea true = true ∨ p.mustFollow p.cur.ck ea = true then
        y = p.post p.cur.ck ea.toNat (.write (x.toNat % 2 ^ (8 * n) * 2 ^ (8 * (ea.toNat % 64))) ((2 ^ n - 1) * 2 ^ (ea.toNat % 64)) false)
      else (p.settleOwn p.cur.ck ea.toNat n).storeHome p.cur.ck ea n (x.toNat % 2 ^ (8 * n)) = .ok y) →
     ∃ t u, exec (.astrel h w) s = .next t ∧
       u = (y.modMe (fun st => st.buffer ea.toNat (x.toNat % 2 ^ (8 * n)) n st.tgb y.tabs true)).enter.sent ea ∧ u.Sets t u.me)) ∧
  (∀ (op : Nat) (s : State) (p : Posted), s.op? op = none → s.posted.find? (fun q => q.id == op) = some p → (s.strand p.ck).failed = none →
   let u : State := { s with posted := s.posted.filter (fun q => q.id != p.id) }
   (s.blocked p = true → exec (.homeRequest op) s = .next s) ∧
   (s.blocked p = false → p.stage < p.last → (p.stage = 1 → p.glob = false) → ∃ t, exec (.homeRequest op) s = .next t ∧
     t = { s with nextId := s.nextId + 1, posted := s.posted.map (fun q => if q.id = p.id then { q with stage := q.stage + 1, seq := s.nextId } else q) }) ∧
   (s.blocked p = false → p.last ≤ p.stage → p.glob = true → p.gen ≠ s.gen → p.isLoad = false → (∀ k x n b e pre pm, p.kind ≠ .atom k x n b e true pre pm) →
     ∃ t, exec (.homeRequest op) s = .next t ∧ t = u.modStrand p.ck (fun st => { st with cerr := true })) ∧
   (s.blocked p = false → p.last ≤ p.stage → (p.glob = true → p.gen = s.gen) → s.tabs ≤ p.tabs →
     (∀ data mask t, p.kind = .store data mask → u.wrHome p.agent (p.ea / 64 * 64) data mask = .ok t → (t.strand p.ck).failed = none →
       exec (.homeRequest op) s = .next t) ∧
     (∀ data mask t, p.kind = .write data mask false → u.wrHome p.agent (p.ea / 64 * 64) data mask = .ok t → (t.strand p.ck).failed = none →
       exec (.homeRequest op) s = .next t) ∧
     (∀ data mask t, p.kind = .entry data mask → u.wrHome p.agent (p.ea / 64 * 64) data mask = .ok t → (t.strand p.ck).failed = none →
       exec (.homeRequest op) s = .next t) ∧
     (∀ write, p.kind = .miss write → p.path ≠ 3 → u.running? p.ck = true → u.place p.asid p.part p.ea write = .error .fail →
       exec (.homeRequest op) s = .next ((u.modStrand p.ck (fun st => { st with failed := some (w64 p.ea) })).fatal p.ck (w64 p.ea))) ∧
     (∀ off data n, p.kind = .vault off data n false → (((u.readVlds p.ck p.id).vwrite p.ck off data n).strand p.ck).failed = none →
       exec (.homeRequest op) s = .next ((u.readVlds p.ck p.id).vwrite p.ck off data n)) ∧
     (∀ k x n b e d phys key, p.kind = .atom k x n b e true 0 0 → u.place p.asid p.part p.ea true = .ok (.mem d phys key) → u.poisoned key = false →
       let old := u.rdKey p.part key n
       ∃ t, exec (.homeRequest op) s = .next t ∧ t.posted = u.posted ∧
         t.mem = ((u.wrKey p.part key (k.apply x n old b e % 2 ^ (8 * n)) n).touch d phys p.die (d != p.die)).mem ∧
         ((t.strand p.ck).eng .a).flight = ((s.strand p.ck).eng .a).flight.map (fun f => match f.val with
           | .request r _ _ => if r = p.id then { f with val := (match f.dest with | .p _ => .pred false | _ => .word (w64 old) false) } else f
           | _ => f)) ∧
     (∀ req n sg d phys key, p.kind = .load req 0 n n sg 0 0 →
       (∀ q ∈ s.posted, q.id ≠ p.id → q.line ≠ p.line ∧ ∀ o m tot g w y, q.kind ≠ .load req o m tot g w y) →
       (∀ f ∈ ((s.strand p.ck).eng .a).flight, ∀ a m, f.val = .request req a m → a = 0 ∧ m = false) →
       (∃ f ∈ ((s.strand p.ck).eng .a).flight, f.val = .request req 0 false) →
       u.place p.asid p.part p.ea false = .ok (.mem d phys key) →
       ∃ t, exec (.homeRequest op) s = .next t ∧ t.posted = u.posted ∧ t.mem = (u.touch d phys p.die (d != p.die)).mem ∧
         ((t.strand p.ck).eng .a).flight = ((s.strand p.ck).eng .a).flight.map (fun f =>
           if f.val = .request req 0 false then
             { f with val := (match f.dest with | .p _ => .pred false | _ => .word (extend n (u.rdKey p.part key n) sg) (u.poisoned key)) }
           else f))))
/-- 08 R187, R190, R191, R193, R195 and 04 R86 to R95: lane-wise arithmetic. INV of `vfma` is log 23. -/
def Obligations.LaneArithmetic : Prop :=
  ∀ (h : Head) (w : W1) (s : State),
  let F := fmtOf (vTS w)
  let G := fmtOf (vTD w)
  let fl := Legal.tFL (vTS w)
  let x (v : VIn) (e : Nat) : Nat := lane v.a (wTS w) e
  let y (v : VIn) (e : Nat) : Nat := if vscalar w then v.sb % 2 ^ wTS w else lane v.b (wTS w) e
  let two (ff : Fv → Fv → Fv × Bool) (fi : Int → Int → Int) (_ : BitVec 13) (v : VIn) (e : Nat) : Nat × Flags :=
    if fl then ((G.cvt (ff (F.decode (x v e)) (F.decode (y v e))).1).1,
      (G.cvt (ff (F.decode (x v e)) (F.decode (y v e))).1).2 ||| inv (ff (F.decode (x v e)) (F.decode (y v e))).2)
    else clampInt (tSigned (vTD w)) (wTD w) (fi (laneInt (vTS w) (x v e)) (laneInt (vTS w) (y v e)))
  let one (ff : Fv → Fv) (fi : Int → Int) (_ : BitVec 13) (v : VIn) (e : Nat) : Nat × Flags :=
    if fl then G.cvt (ff (F.decode (x v e))) else clampInt (tSigned (vTD w)) (wTD w) (fi (laneInt (vTS w) (x v e)))
  let ws := [wTD w, wTS w]
  s.LaneWord (.vadd h w) h w (wTD w) ws 2 true false true false (two Fv.add (fun a b => a + b)) ∧
  s.LaneWord (.vsub h w) h w (wTD w) ws 2 true false true false (two (fun a b => Fv.add a b.neg) (fun a b => a - b)) ∧
  s.LaneWord (.vmul h w) h w (wTD w) ws 2 true false true false (two Fv.mul (fun a b => a * b)) ∧
  s.LaneWord (.vmin h w) h w (wTD w) ws 2 true false true false (two (fun a b => (Fv.min a b, false)) min) ∧
  s.LaneWord (.vmax h w) h w (wTD w) ws 2 true false true false (two (fun a b => (Fv.max a b, false)) max) ∧
  s.LaneWord (.vabs h w) h w (wTD w) ws 2 false false true false (one Fv.abs (fun a => Int.ofNat a.natAbs)) ∧
  s.LaneWord (.vneg h w) h w (wTD w) ws 2 false false true false (one Fv.neg (fun a => -a)) ∧
  s.LaneWord (.vclamp h w) h w (wTD w) ws 2 false false true false
    (let lo := w.imm.toNat % 2 ^ 20
     let hi := w.imm.toNat / 2 ^ 20
     one (fun a => Fv.min (Fv.max a (f32d (lo * 2 ^ 12))) (f32d (hi * 2 ^ 12))) (fun a => min (max a (sval 20 lo)) (sval 20 hi))) ∧
  s.LaneWord (.vfma h w) h w (wTD w) ws 3 true true false false
    (fun _ v e => fma G (F.decode (x v e)) (F.decode (y v e)) (F.decode (lane v.c (wTS w) e)))
/-- 08 R193 to R195. Untyped words between masks are log 85. -/
def Obligations.LaneLogicAndShifts : Prop :=
  (∀ (h : Head) (w : W1) (s : State),
   let n := wTS w
   let x (v : VIn) (e : Nat) : Nat := lane v.a n e
   let y (v : VIn) (e : Nat) : Nat := if vscalar w then v.sb % 2 ^ n else lane v.b n e
   let amt (v : VIn) (e : Nat) : Nat := min (if w.imm.getLsbD 6 then w.imm.toNat % 64 else y v e) n
   let lg (f : Nat → Nat → Nat) (_ : BitVec 13) (v : VIn) (e : Nat) : Nat × Flags := (f (x v e) (y v e), 0)
   let sh (f : Nat → Nat → Nat) (_ : BitVec 13) (v : VIn) (e : Nat) : Nat × Flags := (f (x v e) (amt v e), 0)
   (vTS w ≠ 0 →
     s.LaneWord (.vand h w) h w (wTD w) [wTD w] 2 true false true false (lg (fun a b => a &&& b)) ∧
     s.LaneWord (.vor h w) h w (wTD w) [wTD w] 2 true false true false (lg (fun a b => a ||| b)) ∧
     s.LaneWord (.vxor h w) h w (wTD w) [wTD w] 2 true false true false (lg (fun a b => a ^^^ b)) ∧
     s.LaneWord (.vnot h w) h w (wTD w) [wTD w] 2 false false true false (lg (fun a _ => 2 ^ n - 1 - a))) ∧
   s.LaneWord (.vshl h w) h w (wTD w) [wTD w] 2 (!w.imm.getLsbD 6) false true false (sh (fun a k => a * 2 ^ k % 2 ^ n)) ∧
   s.LaneWord (.vshr h w) h w (wTD w) [wTD w] 2 (!w.imm.getLsbD 6) false true false (sh (fun a k => a / 2 ^ k)) ∧
   s.LaneWord (.vsar h w) h w (wTD w) [wTD w] 2 (!w.imm.getLsbD 6) false true false (sh (fun a k => scode n (sval n a / 2 ^ k)))) ∧
  (∀ (h : Head) (w : W1) (s : State) (a b : Tile), vTS w = 0 →
   ∀ p ∈ ([(.vand h w, true, fun _ x y => x &&& y), (.vor h w, true, fun _ x y => x ||| y), (.vxor h w, true, fun _ x y => x ^^^ y),
       (.vnot h w, false, fun n x _ => 2 ^ n - 1 - x)] : List (Instr × Bool × (Nat → Nat → Nat → Nat))),
     s.reaches p.1 h = true →
     (Legal.mreg w.d = true → s.vopen 2 [] [] none = .ok () → ∃ t, exec p.1 s = .next t ∧
       s.Gives t h (.m (w.d.toNat - 0x50))
         (.mask (BitVec.ofNat 4096 (p.2.2 4096 (s.mget w.a 0).toNat (if p.2.1 then (s.mget w.b 1).toNat else 0)))) 0) ∧
     (Legal.mreg w.d = false → s.vopen 2 [] ([w.a] ++ (if p.2.1 then [w.b] else [])) (some w.d) = .ok () → s.vopnd w.a 0 0 = .ok a →
       (if p.2.1 then s.vopnd w.b 0 1 = .ok b else b = 0) → ∃ t, exec p.1 s = .next t ∧
       s.enter.Writes t h w.d (BitVec.ofNat 16384 (p.2.2 16384 a.toNat b.toNat)) 0))
/-- 08 R197 to R200 with the reference functions of 04. Streams as destinations are log 87, the quantisation of a NaN log 22, the zero point of a q4 lane log 98. -/
def Obligations.LaneFunctionsAndConversions : Prop :=
  ∀ (h : Head) (w : W1) (s : State),
  let F := fmtOf (vTS w)
  let G := fmtOf (vTD w)
  let ws := [wTD w, wTS w]
  let x (v : VIn) (e : Nat) : Nat := lane v.a (wTS w) e
  let special (f : Fv → Nat × Flags) (_ : BitVec 13) (v : VIn) (e : Nat) : Nat × Flags :=
    if vTD w = 1 then f (F.decode (x v e))
    else ((G.cvt (f32d (f (F.decode (x v e))).1)).1, (G.cvt (f32d (f (F.decode (x v e))).1)).2 ||| (f (F.decode (x v e))).2)
  let zq := zeroPt (vTD w) && w.c != 0
  let zd := zeroPt (vTS w) && w.c != 0
  s.LaneWord (.vexp2 h w) h w (wTD w) ws 3 false false true false (special exp2ref) ∧
  s.LaneWord (.vlog2 h w) h w (wTD w) ws 3 false false true false (special log2ref) ∧
  s.LaneWord (.vrcp h w) h w (wTD w) ws 3 false false true false (special rcpref) ∧
  s.LaneWord (.vrsq h w) h w (wTD w) ws 3 false false true false (special rsqref) ∧
  s.LaneWord (.vtanh h w) h w (wTD w) ws 3 false false true false (special tanhref) ∧
  s.LaneWord (.vcvt h w) h w (wTD w) ws 2 false false true false (fun _ v e => cvtCode (vTS w) (vTD w) (x v e)) ∧
  s.LaneWord (.vscexp h w) h w 8 [8, wTS w] 2 false false true false
    (fun _ v e => scexp (F.decode (x v e)) (if vTD w = 4 then 8 else if vTD w = 5 then 15 else 2)) ∧
  s.LaneWord (.vqnt h w) h w (wTD w) (ws ++ (if vscalar w then [] else [32]) ++ (if zq then [8] else [])) 2 true zq (!zeroPt (vTD w)) false
    (fun _ v e => quant (F.decode (x v e)) (if vscalar w then F.decode (v.sb % 2 ^ wTS w) else f32d (lane v.b 32 e)) (qfmtOf (vTD w))
      (if zq then lane v.c 8 e else 0)) ∧
  s.LaneWord (.vdq h w) h w (wTD w) ([wTD w, wTS w, 32] ++ (if zd then [8] else [])) 2 true zd (!zeroPt (vTS w)) false
    (fun _ v e => dequant (vTS w) (vTD w) (x v e) (if zd then lane v.c 8 e else 0) (f32d (lane v.b 32 e))) ∧
  s.LaneWord (.vscacc h w) h w 32 [32, wTS w] 2 true (w.c != 0) false true
    (fun sh v e => scacc (f32d (lane v.old 32 e)) (if vTS w = 1 then f32d (lane v.a 32 e) else Fv.ofInt (laneInt 11 (lane v.a 32 e)))
      (f32d (lane v.b 32 (e / shNc sh * shNc sh))) (if w.c = 0 then Fv.one else f32d (lane v.c 32 (e % shNc sh))))
/-- 08 R187, R193 and R195. -/
def Obligations.CompareAndSelectLanes : Prop :=
  ∀ (h : Head) (w : W1) (s : State) (a b : Tile) (sb : Word),
  let xs := [w.a] ++ (if vscalar w then [] else [w.b])
  let n := shN s.me.vshape
  let x (e : Nat) : Nat := lane a (wTS w) e
  let y (e : Nat) : Nat := if vscalar w then sb.toNat % 2 ^ wTS w else lane b (wTS w) e
  s.vopnd w.a 0 0 = .ok a → (if vscalar w then s.rd w.b 1 = .ok sb else s.vopnd w.b (countOf [w.a] w.b) 1 = .ok b) →
  (s.reaches (.vcmp h w) h = true → s.vopen 2 [wTS w] xs none = .ok () →
    ∃ t m, exec (.vcmp h w) s = .next t ∧ (s.enter.vpops xs).Gives t h (.m (w.d.toNat - 0x50)) (.mask m) 0 ∧
      Bits m n (fun e => (w.c == 0 || (s.mget w.c 4).getLsbD e) &&
        (if Legal.tFL (vTS w) then
          let p := (fmtOf (vTS w)).decode (x e)
          let q := (fmtOf (vTS w)).decode (y e)
          vcond (w.imm.toNat % 8) (p.isNan || q.isNan) (Fv.cmp p q)
         else vcond (w.imm.toNat % 8) false (laneInt (vTS w) (x e) - laneInt (vTS w) (y e))))) ∧
  (s.reaches (.vsel h w) h = true → s.vopen 2 [wTD w, wTS w] xs (some w.d) = .ok () →
    ∃ t z, exec (.vsel h w) s = .next t ∧ (s.enter.vpops xs).Writes t h w.d z 0 ∧
      Lanes z (wTD w) n (fun e => (if (s.mget w.c 4).getLsbD e then x e else y e) % 2 ^ wTD w))
/-- 08 R187, R193 and R200 to R203. The type codes admitted are log 88, k in MODE 0 of `vperm` log 89. -/
def Obligations.LaneMovementRowsAndColumns : Prop :=
  (∀ (h : Head) (w : W1) (s : State),
   let nc := shNc s.me.vshape
   let nr := shNr s.me.vshape
   (vTS w ≠ 0 → vscalar w = false →
     s.LaneWord (.vmov h w) h w (wTD w) [wTD w] 2 false false true false (fun _ v e => (lane v.a (wTS w) e, 0))) ∧
   s.LaneWord (.vbcast h w) h w (wTD w) [wTD w] 2 false false true false (fun sh v e => (lane v.a (wTS w) (e / shNc sh * shNc sh), 0)) ∧
   s.LaneWord (.vtrans h w) h w (wTD w) [wTD w] 2 false false true false (fun sh v e =>
     (lane v.a (wTS w) (e % shNc sh % shNr sh * shNc sh + (e % shNc sh / shNr sh * shNr sh + e / shNc sh)), 0)) ∧
   (∀ (b : Word) (old : Tile), s.reaches (.vmov h w) h = true → vTS w ≠ 0 → vscalar w = true → s.vopen 2 [wTD w] [] (some w.d) = .ok () →
     s.rd w.b 1 = .ok b → (if w.c ≠ 0 ∧ Legal.vreg w.d then s.vopnd w.d 0 3 = .ok old else old = 0) →
     ∃ t x, exec (.vmov h w) s = .next t ∧ s.enter.Writes t h w.d x 0 ∧ Lanes x (wTD w) (shN s.me.vshape) (fun e =>
       if w.c ≠ 0 ∧ (s.mget w.c 4).getLsbD e = false then (if Legal.vreg w.d then lane old (wTD w) e else 0) else b.toNat % 2 ^ wTD w)) ∧
   (∀ a : Tile, s.reaches (.vmov h w) h = true → vTS w = 0 → Legal.mreg w.d = false → s.vopen 2 [] [w.a] (some w.d) = .ok () → s.vopnd w.a 0 0 = .ok a →
     ∃ t, exec (.vmov h w) s = .next t ∧ (s.enter.vpops [w.a]).Writes t h w.d a 0) ∧
   (s.reaches (.vmov h w) h = true → vTS w = 0 → Legal.mreg w.d = true → s.vopen 2 [] [] none = .ok () →
     ∃ t, exec (.vmov h w) s = .next t ∧ s.Gives t h (.m (w.d.toNat - 0x50)) (.mask (s.mget w.a 0)) 0) ∧
   (∀ a b old : Tile,
     let mode := w.imm.toNat % 4
     let k := w.imm.toNat / 256 % 4096
     let xs := [w.a] ++ (if mode = 0 then [w.b] else [])
     s.reaches (.vperm h w) h = true → s.vopen 2 ([wTD w] ++ (if mode = 0 then [16] else [])) xs (some w.d) = .ok () →
     ((mode = 0 ∧ 1024 < nr * nc) ∨ (mode = 1 ∧ nc ≤ k) ∨ (mode = 2 ∧ nr ≤ k) →
       ∃ t, exec (.vperm h w) s = .next t ∧ s.Traps t { cls := .vectorShape, code := 0, info := s.me.vshape.zeroExtend 64 }) ∧
     (s.vopnd w.a 0 0 = .ok a → (if mode = 0 then s.vopnd w.b (countOf [w.a] w.b) 1 = .ok b else b = 0) →
     (if w.c ≠ 0 ∧ Legal.vreg w.d then s.vopnd w.d 0 3 = .ok old else old = 0) →
     (mode = 0 → nr * nc ≤ 1024) → (mode = 1 → k < nc) → (mode = 2 → k < nr) →
     ∃ t x, exec (.vperm h w) s = .next t ∧ (s.enter.vpops xs).Writes t h w.d x 0 ∧ Lanes x (wTD w) (nr * nc) (fun e =>
       if w.c ≠ 0 ∧ (s.mget w.c 4).getLsbD e = false then (if Legal.vreg w.d then lane old (wTD w) e else 0) else
       (if mode = 0 then (if lane b 16 e < nr * nc then lane a (wTS w) (lane b 16 e) else 0)
        else if mode = 1 then lane a (wTS w) (e / nc * nc + k) else lane a (wTS w) (k * nc + e % nc)) % 2 ^ wTD w)))) ∧
  (∀ (h : Head) (w : W1) (s : State) (b : Word), s.rd w.b 1 = .ok b →
   let nc := shNc s.me.vshape
   let nr := shNr s.me.vshape
   let k := b.toNat % 65536
   let o := b.toNat / 65536 % 65536
   let rows := (accDims s.myProfile).1
   let cols := (accDims s.myProfile).2
   let bad : TrapInfo := { cls := .vectorShape, code := 0, info := s.me.vshape.zeroExtend 64 }
   (∀ p ∈ [(Instr.vrow h w, false), (Instr.vcol h w, true)], s.reaches p.1 h = true →
     (∀ a : Tile, Legal.zreg w.a = false → s.vopen 2 [wTD w] [w.a] (some w.d) = .ok () → s.vopnd w.a 0 0 = .ok a → k < (if p.2 then nc else nr) →
       ∃ t x, exec p.1 s = .next t ∧ (s.enter.vpops [w.a]).Writes t h w.d x 0 ∧ Lanes x (wTD w) (nr * nc) (fun e =>
         (if p.2 then (if e % nc = 0 then lane a (wTS w) (e + k) else 0) else (if e < nc then lane a (wTS w) (k * nc + e) else 0)) % 2 ^ wTD w)) ∧
     (Legal.zreg w.a = true → s.zwait (zOf w.a) = .ok () → s.vopen 2 [wTD w] [] (some w.d) = .ok () → k < (if p.2 then cols else rows) →
       let code (r c : Nat) : Nat := if r < rows ∧ c < cols then (zCode (vTS w) (s.zget (zOf w.a) (r * cols + c))).1 else 0
       ∃ t x fl, exec p.1 s = .next t ∧ s.enter.takePair.Writes t h w.d x fl ∧ Lanes x (wTD w) (nr * nc) (fun e =>
         (if p.2 then (if e % nc = 0 then code (o + e / nc) k else 0) else (if e < nc then code k (o + e) else 0)) % 2 ^ wTD w)) ∧
     (Legal.zreg w.a = false → s.vopen 2 [wTD w] [w.a] (some w.d) = .ok () → (if p.2 then nc else nr) ≤ k →
       ∃ t, exec p.1 s = .next t ∧ s.Traps t bad) ∧
     (Legal.zreg w.a = true → s.zwait (zOf w.a) = .ok () → s.vopen 2 [wTD w] [] (some w.d) = .ok () → (if p.2 then cols else rows) ≤ k →
       ∃ t, exec p.1 s = .next t ∧ s.Traps t bad)) ∧
   (∀ p ∈ [(Instr.vrowput h w, false), (Instr.vcolput h w, true)], s.reaches p.1 h = true →
     (Legal.zreg w.d = false → s.vopen 2 [wTD w] [w.a] (some w.d) = .ok () → (if p.2 then nc else nr) ≤ k → ∃ t, exec p.1 s = .next t ∧ s.Traps t bad) ∧
     (Legal.zreg w.d = true → s.zwait (zOf w.d) = .ok () → s.vopen 2 [wTD w] [w.a] none = .ok () → (if p.2 then cols else rows) ≤ k →
       ∃ t, exec p.1 s = .next t ∧ s.Traps t bad) ∧
     ∀ a : Tile, s.vopnd w.a 0 0 = .ok a →
     (∀ old : Tile, Legal.zreg w.d = false → s.vopen 2 [wTD w] [w.a] (some w.d) = .ok () → k < (if p.2 then nc else nr) → s.vopnd w.d 0 3 = .ok old →
       ∃ t x, exec p.1 s = .next t ∧ (s.enter.vpops [w.a]).Writes t h w.d x 0 ∧ Lanes x (wTD w) (nr * nc) (fun e =>
         (if p.2 then (if e % nc = k then lane a (wTS w) (e / nc * nc) else lane old (wTD w) e)
          else (if e / nc = k then lane a (wTS w) (e % nc) else lane old (wTD w) e)) % 2 ^ wTD w)) ∧
     (Legal.zreg w.d = true → s.zwait (zOf w.d) = .ok () → s.vopen 2 [wTD w] [w.a] none = .ok () → k < (if p.2 then cols else rows) →
       ∃ t els tag, exec p.1 s = .next t ∧ (s.enter.vpops [w.a]).takePair.Gives t h (.z (zOf w.d)) (.acc els tag) 0 ∧
         els = (List.range (if p.2 then nr else nc)).filterMap (fun j =>
           if p.2 then (if o + j < rows then some ((o + j) * cols + k, zVal (vTS w) (lane a (wTS w) (j * nc))) else none)
           else (if o + j < cols then some (k * cols + o + j, zVal (vTS w) (lane a (wTS w) j)) else none)))))
/-- 08 R196. -/
def Obligations.Reductions : Prop :=
  ∀ (h : Head) (w : W1) (s : State) (a : Tile),
  let nc := shNc s.me.vshape
  let nr := shNr s.me.vshape
  let m := if w.c = 0 then (0 : Mask) else s.mget w.c 4
  let el (r c : Nat) : Nat × Bool := (lane a (wTS w) (r * nc + c), w.c == 0 || m.getLsbD (r * nc + c))
  let row (r : Nat) := (List.range nc).map (fun c => el r c)
  let col (c : Nat) := (List.range nr).map (fun r => el r c)
  ∀ p ∈ [(Instr.vredsum h w, redSum w), (Instr.vredmax h w, redPick w true), (Instr.vredmin h w, redPick w false), (Instr.vamax h w, redAmax w)],
    s.reaches p.1 h = true → s.vopen 2 [wTD w, wTS w] [w.a] (some w.d) = .ok () → s.vopnd w.a 0 0 = .ok a →
    ∃ t x fl, exec p.1 s = .next t ∧ (s.enter.vpops [w.a]).Writes t h w.d x fl ∧
      (Legal.fnRC w.fn = false → fl = orFlags ((List.range nr).map (fun r => (p.2 (row r)).2)) ∧
        Lanes x (wTD w) (nr * nc) (fun e => if e % nc = 0 then (p.2 (row (e / nc))).1 % 2 ^ wTD w else 0)) ∧
      (Legal.fnRC w.fn = true → fl = orFlags ((List.range nc).map (fun c => (p.2 (col c)).2)) ∧
        Lanes x (wTD w) (nr * nc) (fun e => if e < nc then (p.2 (col e)).1 % 2 ^ wTD w else 0))
/-- 08 R204, R205, R210. The record that holds an asynchronous load's bytes is log 100. -/
def Obligations.VaultLoadsAndStores : Prop :=
  (∀ (h : Head) (w : W2) (s : State) (ea : Word),
   let n := shNc s.me.vshape * shEw s.me.vshape / 8 * (if w.sz = 5 then shNr s.me.vshape else 1)
   let ck := s.cur.ck
   s.vwait w.d 0 = .ok () → s.ea w n = .ok ea → s.tileBusy ck ea.toNat n = false → s.powerCheck 2 = .ok () →
   (∀ q ∈ s.posted, q.ck = ck → q.path ≠ 1) → (∀ x ∈ s.shadows, x.ck = ck → x.hides.testBit 1 = false) →
   (s.inWindow ck ea.toNat n = false → ∀ i ∈ [Instr.vld h w, Instr.vst h w], s.reaches i h = true →
     ∃ t, exec i s = .next t ∧ s.Traps t { cls := .vaultRange, code := 0, info := ea }) ∧
   (s.inWindow ck ea.toNat n = true →
     (s.reaches (.vld h w) h = true → h.lb ≠ 7 → ∃ t, exec (.vld h w) s = .next t ∧
       (s.readVlds ck s.nextId).Gives t h (.v (s.vphys w.d)) (.tile (BitVec.ofNat 16384 (Mem.readLE s.mem (s.vaultKey ck ea.toNat) n)) (s.vpoisoned ck ea.toNat n)) 0) ∧
     (∀ tl, s.reaches (.vld h w) h = true → h.lb = 7 → s.oneTile ea.toNat n = .ok tl →
       let u := (s.enter.setTileState ck (winTbase (s.win ck) + tl) 3).modMyEng (fun e =>
         { e with flight := e.flight.map (fun f => if f.dest = .v (s.vphys w.d) then { f with stale := true } else f) })
       ∃ t, exec (.vld h w) s = .next t ∧ (u.withOp false 0 (.vld ea.toNat n (s.vphys w.d) tl (w.sz == 5) none)).Sets t u.me) ∧
     (∀ x, s.reaches (.vst h w) h = true → s.vopnd w.d 0 0 = .ok x →
       ∃ t u, exec (.vst h w) s = .next t ∧ u = s.enter.nearStore ck ea.toNat (x.toNat % 2 ^ (8 * n)) n ∧ u.Sets t u.me))) ∧
  (∀ (op off n phys tl : Nat) (tile : Bool) (got : Option (Nat × Bool)) (s : State) (o : Op), s.Due op o (.vld off n phys tl tile got) →
   (∀ q ∈ s.posted, q.ck = o.ck → q.path ≠ 1) → (∀ x ∈ s.shadows, x.ck = o.ck → x.hides.testBit 1 = false) →
   let i := winTbase (s.win o.ck) + tl
   ∃ t, exec (.vldAsyncComplete op) s = .next t ∧ t.op? op = none ∧ t.mem = s.mem ∧ (∀ c, c ≠ o.ck → t.strand c = s.strand c) ∧
     Map.get 0 (t.strand o.ck).v phys = BitVec.ofNat 16384 (match got with | some g => g.1 | none => Mem.readLE s.mem (s.vaultKey o.ck off) n) ∧
     (∀ r, r ≠ phys → Map.get 0 (t.strand o.ck).v r = Map.get 0 (s.strand o.ck).v r) ∧
     (t.strand o.ck).vmark = setBit (s.strand o.ck).vmark phys (match got with | some g => g.2 | none => s.vpoisoned o.ck off n) ∧
     t.tile o.ck i = (if tileState (s.tile o.ck i) = 3 then setFld (s.tile o.ck i) 1 0 0 else s.tile o.ck i))
/-- 08 R206 to R209 and 15 R319, R320. The type codes of `vcbal` are log 99, INV of `vacomb` log 101. -/
def Obligations.VectorStreamsAndFifos : Prop :=
  (∀ (h : Head) (w : W1) (s : State),
   let n := shN s.me.vshape
   let m := s.mget w.c 4
   let active := (List.range n).filter (fun e => bit m e)
   (∀ a : Tile,
     let q := w.d.toNat - 0x40
     s.reaches (.vcpush h w) h = true → s.pushCheck q active.length = .ok () → s.vopen 2 [wTS w] [w.a] none = .ok () →
     entryBits (s.me.stream q).ety = wTS w → s.vopnd w.a 0 0 = .ok a →
     ∃ t, exec (.vcpush h w) s = .next t ∧ (s.enter.vpops [w.a]).Gives t h (.q q)
       (.push (active.map (fun e => { bits := BitVec.ofNat 16384 (lane a (wTS w) e), mark := false }))) 0) ∧
   (∀ old : Tile,
     let q := w.a.toNat - 0x40
     s.reaches (.vcpop h w) h = true → s.popCheck q active.length = .ok () → s.vopen 2 [wTS w] [] (some w.d) = .ok () →
     entryBits (s.me.stream q).ety = wTS w → (∀ e ∈ (s.me.stream q).buf.take active.length, e.mark = false) → s.vopnd w.d 0 3 = .ok old →
     ∃ t x, exec (.vcpop h w) s = .next t ∧ (s.enter.popN q active.length).Writes t h w.d x 0 ∧ Lanes x (wTD w) n (fun e =>
       if bit m e then (((s.me.stream q).buf[((List.range e).filter (fun i => bit m i)).length]?).map (fun y => y.bits.toNat % 2 ^ wTS w)).getD 0 % 2 ^ wTD w
       else lane old (wTD w) e)) ∧
   (let q := w.a.toNat - 0x40
    let k := min ((s.me.stream q).count - (s.me.stream q).done) n
    s.reaches (.vcbal h w) h = true → s.popCheck q k = .ok () → s.vopen 2 [wTS w] [] none = .ok () → entryBits (s.me.stream q).ety = wTS w →
     ∃ t, exec (.vcbal h w) s = .next t ∧ s.Gives t h (.m (w.d.toNat - 0x50)) (.mask (BitVec.ofNat 4096 (2 ^ k - 1))) 0) ∧
   (∀ a d : Tile, s.reaches (.vacomb h w) h = true → s.vopen 2 [] [w.a] (some w.d) = .ok () → s.vopnd w.a 0 0 = .ok a → s.vopnd w.d 0 3 = .ok d →
     ∃ t, exec (.vacomb h w) s = .next t ∧ (s.enter.vpops [w.a]).Writes t h w.d (acombFold a d).1 (acombFold a d).2)) ∧
  (∀ (h : Head) (w : W1) (s : State),
   let out := s.fifo s.myDie s.pairCore s.pushesUp
   let into := s.fifo s.myDie s.pairCore (!s.pushesUp)
   let closed : TrapInfo := { cls := .fifoClosed, code := 0, info := 0 }
   (∀ p ∈ [(Instr.vfput h w, w.a), (Instr.vfget h w, w.d)], s.reaches p.1 h = true → s.vwait p.2 0 = .ok () → s.powerCheck 2 = .ok () → s.fifoPermit ≠ .ok () →
     ∃ t, exec p.1 s = .next t ∧ s.Traps t closed) ∧
   (s.fifoPermit = .ok () →
     (s.reaches (.vfput h w) h = true → s.vwait w.a 0 = .ok () → s.powerCheck 2 = .ok () → out.closed = true → ∃ t, exec (.vfput h w) s = .next t ∧ s.Traps t closed) ∧
     (∀ x, s.reaches (.vfput h w) h = true → out.closed = false → s.vwait w.a 0 = .ok () → s.vopnd w.a 0 0 = .ok x →
       (out.ofree s.time = 0 → ∃ t, exec (.vfput h w) s = .next t ∧ s.Waits t) ∧
       (out.ofree s.time ≠ 0 → s.powerCheck 2 = .ok () → ∃ t, exec (.vfput h w) s = .next t ∧
         (s.setFifo s.myDie s.pairCore s.pushesUp
           { out with entries := out.entries ++ [({ bits := BitVec.ofNat 16384 (x.toNat % 2 ^ 4096), mark := false }, s.time)] }).Sets t s.me)) ∧
     (s.reaches (.vfget h w) h = true → s.vwait w.d 0 = .ok () → s.powerCheck 2 = .ok () → into.entries = [] → into.closed = true → ∃ t, exec (.vfget h w) s = .next t ∧ s.Traps t closed) ∧
     (s.reaches (.vfget h w) h = true → into.closed = false → s.vwait w.d 0 = .ok () → into.iocc s.time = 0 →
       ∃ t, exec (.vfget h w) s = .next t ∧ s.Waits t) ∧
     (∀ e at_ r, s.reaches (.vfget h w) h = true → into.entries = (e, at_) :: r → s.vwait w.d 0 = .ok () → into.iocc s.time ≠ 0 → s.powerCheck 2 = .ok () →
       ∃ t, exec (.vfget h w) s = .next t ∧
         (s.setFifo s.myDie s.pairCore (!s.pushesUp) { into with entries := r, freed := into.freed ++ [(s.time, at_)] }).Gives t h (.v (s.vphys w.d)) (.tile e.bits e.mark) 0)))
/-- 08 R188 (`vshape`) and R189, 09 R213, R227. -/
def Obligations.ShapeWords : Prop :=
  ∀ (h : Head) (w : W6) (s : State) (a : Word),
  (s.reaches (.vshape h w) h = true → s.powerCheck 2 = .ok () →
    (w.fn.getLsbD 0 = false → ∃ t, exec (.vshape h w) s = .next t ∧ s.Sets t { s.me with vshape := w.imm.extractLsb' 0 13 }) ∧
    (w.fn.getLsbD 0 = true → s.rd w.a 0 = .ok a → (a.toNat < 2 ^ 13 ∧ Legal.shape a.toNat = true) →
      ∃ t, exec (.vshape h w) s = .next t ∧ s.Sets t { s.me with vshape := a.extractLsb' 0 13 }) ∧
    (w.fn.getLsbD 0 = true → s.rd w.a 0 = .ok a → ¬(a.toNat < 2 ^ 13 ∧ Legal.shape a.toNat = true) →
      ∃ t, exec (.vshape h w) s = .next t ∧ s.Traps t { cls := .vectorShape, code := 0, info := s.me.vshape.zeroExtend 64 })) ∧
  (s.reaches (.mshape h w) h = true → (if w.fn.getLsbD 0 then s.rd w.a 0 = .ok a else a = w64 (w.imm.toNat % 1024)) →
    (a.toNat < 1024 → a.toNat % 16 ≠ 0 → a.toNat / 16 ≠ 0 → s.bandsOff a.toNat = false → s.taskHolds s.cur.ck = false →
      ∃ t, exec (.mshape h w) s = .next t ∧ s.Sets t { s.me with ashape := a.extractLsb' 0 10 }) ∧
    (a.toNat < 1024 → a.toNat % 16 ≠ 0 → a.toNat / 16 ≠ 0 → (s.bandsOff a.toNat = true ∨ s.taskHolds s.cur.ck = true) → ∃ t, exec (.mshape h w) s = .next t ∧ s.Waits t) ∧
    ((1024 ≤ a.toNat ∨ a.toNat % 16 = 0 ∨ a.toNat / 16 = 0) →
      ∃ t, exec (.mshape h w) s = .next t ∧ s.Traps t { cls := .matrixShape, code := 0, info := s.shapeInfo })) ∧
  (∀ (b : Word) (x y : State), s.reaches (.mstat h w) h = true → s.asyncMats s.cur.ck = 0 → s.taskHolds s.cur.ck = false → s.rd w.a 0 = .ok a → s.rd w.b 1 = .ok b →
    a.toNat % 64 = 0 → b.toNat % 8 = 0 → s.check a = .ok () → s.check b = .ok () →
    let report := s.me.mstat.flags.toNat + (if s.me.mstat.poiss then 2 ^ 7 else 0) + min s.me.mstat.nops 255 * 2 ^ 8 +
      (if s.me.mstat.poiss then s.me.mstat.kstop % 2 ^ 16 else 0) * 2 ^ 16
    s.storeHome s.cur.ck b 8 report = .ok x → s.enter.storeHome s.cur.ck b 8 report = .ok y →
    ∃ t u, exec (.mstat h w) s = .next t ∧
      u = (((y.sent a).sent b).arrive y.agent a 0 0).modMe (fun st => { st with mstat := MStat.init }) ∧ u.Sets t u.me)
/-- 09 R214 to R226 with the arithmetic of 04. A synchronous operation holds its stream from its issue (log 30); operations are performed one at a time in issue order (log 36), and which words wait for LB 7 operations is log 102. -/
def Obligations.MatrixOperations : Prop :=
  (∀ (h : Head) (w : W5) (s : State),
   ∀ p ∈ [(Instr.mma h w, MatKind.mma), (Instr.mmaz h w, .mmaz), (Instr.msp h w, .msp), (Instr.mmv h w, .mmv), (Instr.mscacc h w, .mscacc),
       (Instr.mdrain h w, .mdrain), (Instr.mload h w, .mload), (Instr.mzero h w, .mzero)],
     s.reaches p.1 h = true →
     (∀ x, s.matPlan p.2 h w = .error x → exec p.1 s = stopped s x) ∧
     (∀ m, s.matPlan p.2 h w = .ok m → m.kind = p.2 ∧ m.w = w ∧ m.lb = h.lb.toNat ∧ m.ashape = s.me.ashape ∧ m.kdone = 0 ∧ m.got = 0 ∧
       ∃ t u, exec p.1 s = .next t ∧ u = s.enter.takePair.withOp false 0 (.mat m) ∧
         (h.lb = 7 → u.Sets t u.me) ∧ (h.lb ≠ 7 → u.Issues t u.me (u.flightsWith h .none (.matrix s.nextId) 0)))) ∧
  (∀ (op : Nat) (s : State) (o : Op) (m : MatOp), s.op? op = some o → o.kind = .mat m → s.ready o = true → s.matHead o.ck = some op →
   s.bandsOffAt (ckDie o.ck) (ckCore o.ck) m.ashape.toNat = false →
   (m.lb = 7 → (s.strand o.ck).mstat.poiss = false) →
   let pf := ckProfile o.ck
   (pf = .p ∨ pf = .d) →
   let zd := m.w.zd.toNat
   let st := s.strand o.ck
   let bb := s.vsee o.ck 2 m.bv (m.bBytes pf)
   let done (t : State) : Prop := t.op? op = none ∧ (∀ c, c ≠ o.ck → t.strand c = s.strand c) ∧ (t.strand o.ck).s = st.s ∧ (t.strand o.ck).v = st.v
   (m.kind = .mzero → ∃ t, exec (.matrixOpComplete op) s = .next t ∧ done t ∧ t.mem = s.mem ∧ (t.strand o.ck).tag zd = .z ∧
     (∀ i, i < 2 ^ 18 → Map.get 0 (t.strand o.ck).z (zKey zd i) = 0)) ∧
   (m.kind = .mload → ∃ t, exec (.matrixOpComplete op) s = .next t ∧ done t ∧ t.mem = s.mem ∧ (t.strand o.ck).tag zd = (if m.ty = 11 then .i else .f) ∧
     (∀ i e, (m.active pf)[i]? = some e → Map.get 0 (t.strand o.ck).z (zKey zd e) = loadElem m.ty ((bb >>> (i * m.wd)) % 2 ^ m.wd))) ∧
   (m.kind = .mdrain → ∃ t, exec (.matrixOpComplete op) s = .next t ∧ done t ∧ (t.strand o.ck).z = st.z ∧ (t.strand o.ck).ztag = st.ztag ∧
     t.mem = (s.vwrite o.ck m.bv (packLE m.wd ((m.active pf).map (fun e => (drainCode (st.tag zd) m.ty (s.zat o.ck zd e)).1))) (m.bBytes pf)).mem) ∧
   (m.kind = .mscacc → ∃ t, exec (.matrixOpComplete op) s = .next t ∧ done t ∧ t.mem = s.mem ∧ (t.strand o.ck).tag zd = .f ∧
     (∀ p ∈ (s.scaccRun o.ck m).1, Map.get 0 (t.strand o.ck).z (zKey zd p.1) = p.2)) ∧
   (m.kind.array = true → m.got = m.need → (∀ g, g < m.groups → s.groupPoisoned o.ck m g = false) →
     (m.hasMs = true → s.vpoisoned o.ck m.ms (m.msBytes pf) = false) →
     let rows := m.rows pf
     let cols := matCols pf m.ashape
     let nr := m.nr pf
     let nc := m.nc pf
     let base := m.entryOf pf (entryBits (st.stream m.w.qa.toNat).ety) m.kdone * entryBits (st.stream m.w.qa.toNat).ety
     let zps := if m.hasMs ∧ m.kind = .mmaz then s.vsee o.ck 2 m.ms (m.msBytes pf) else 0
     ∃ t, exec (.matrixOpComplete op) s = .next t ∧ done t ∧ t.mem = s.mem ∧ (t.strand o.ck).tag zd = (if m.float then .f else .i) ∧
       ∀ i j r c, rows[i]? = some r → cols[j]? = some c →
         Map.get 0 (t.strand o.ck).z (zKey zd (r * (accDims pf).2 + c)) =
           (m.element (if !m.w.acc && m.kdone == 0 then 0 else s.zat o.ck zd (r * (accDims pf).2 + c)) m.kdone m.k
             (fun k => (m.abits >>> ((k * nr + i) * m.wd - base)) % 2 ^ m.wd) (fun k => (bb >>> ((k * nc + j) * m.wd)) % 2 ^ m.wd)
             (fun k => zps / 2 ^ (8 * (k / m.gz * nr + i)) % 2 ^ m.wd)
             (fun k => zps / 2 ^ (8 * (ceilDiv m.k m.gz * nr + k / m.gz * nc + j)) % 2 ^ m.wd)
             (fun k => s.excluded o.ck m (k / m.g) c)).1))
/-- 12 R274, R275, R279 to R281, 20 R398. The pieces of a task are log 41, the reading of records log 46, that a record is checked once log 47. -/
def Obligations.LaunchAndTileTaskEvents : Prop :=
  ∀ (ck i d c : Nat) (s : State),
  (∀ r, s.freeForLaunch ck = true → s.bindChoice ck = some i → s.queues[i]? = some r → s.toLaunch = [] →
    (∀ k, k < ck → fld (s.pool k) 9 0 = fld (s.pool ck) 9 0 → s.freeForLaunch k = false ∨ s.bindChoice k = none) →
    ∃ t x st, exec (.launchBind ck) s = .next x ∧ t = (({ s with queues := s.queues.eraseIdx i, nextId := s.nextId + 1 } : State).setCtx ck (t.ctx ck)).setStrand ck st ∧
      x = (match r.rq with
        | none => t
        | some (q, _) => if r.tag = Map.get 0 s.rqTag q ∧ rqState (t.rq q) = 1 then t.setRq q (setFld (setFld (t.rq q) 2 0 2) 6 3 (ckDie ck)) else t) ∧
      ctxValid (t.ctx ck) = true ∧ ctxStop (t.ctx ck) = false ∧ ctxSlot (t.ctx ck) = fld (s.pool ck) 18 17 ∧
      ctxAsid (t.ctx ck) = s.kernelAsid r.kid ∧ ctxPart (t.ctx ck) = s.kernelPart r.kid ∧
      st = s.launched ck r ∧ Map.get 0 st.s 1 = r.arg 0 ∧ Map.get 0 st.s 5 = r.arg 4 ∧ Map.get 0 st.s 6 = r.bar ∧ Map.get 0 st.s 0 = 0) ∧
  (s.bindChoice ck = none → exec (.launchBind ck) s = .next s) ∧
  (∀ x p, s.freePair d c = some p → (d < 2 → (onesOf (fld x.data 51 48) 4).any (fun b => (s.die d).bandIsOff c b) = false) →
    let u : State := if tkDep x.data = 0 then s else s.behind { asid := x.asid, part := x.part, die := x.die } (tkDep x.data).toNat
    let t : State := { u with tasks := u.tasks.erase x, running := Map.put s.running (coreKey d c) { task := x, ctx := p, st := taskStrand x.data, phase := .staging, done := 0 },
                              idle := Map.put s.idle (coreKey d c) (s.time + 1) }
    (s.mIdle d c = true → s.readyTask d (c / 4) = some x → exec (.taskIssue d c) s = .next t) ∧
    (s.mIdle d c = true → Map.get 0 s.idle (coreKey d c) + 64 ≤ s.time → s.readyTask d (c / 4) = none →
      s.readyTask d (nextCluster d (c / 4)) = some x → exec (.taskSteal d c) s = .next t)) ∧
  (s.mIdle d c = false → exec (.taskIssue d c) s = .next s ∧ exec (.taskSteal d c) s = .next s) ∧
  (∀ r, Map.get? s.running (coreKey d c) = some r → s.dieDown d = false → s.supplyHold = false → (r.phase = .words → s.mBusy d c = false) →
    let x := (s.taskView r d c).taskRest (s.mBusy d c) (ckOf d c r.ctx) r.task.data r.phase r.done 8320
    ∃ t, exec (.taskComplete d c) s = .next t ∧ t.strands = s.strands ∧ t.ops = s.ops ∧ t.cur = s.cur ∧ t.mem = x.1.mem ∧
      (x.2 = none → Map.get? t.running (coreKey d c) = none) ∧
      (∀ ph i, x.2 = some (ph, i) → Map.get? t.running (coreKey d c) = some { r with st := x.1.strand (ckOf d c r.ctx), phase := ph, done := i })) ∧
  (∀ r, Map.get? s.running (coreKey d c) = some r → r.phase = .words → s.mBusy d c = true → exec (.taskComplete d c) s = .next s)
/-- 08 R189 (vector shape), 06 R141 and 08 R206 (bindings), 07 R169 and 08 R191 (poison), 01 R21 (dependences). -/
def Obligations.TrapsAcrossFamiliesAndDependenceWaits : Prop :=
  (∀ (h : Head) (w : W1) (s : State),
   let two := laneOperands w true false
   let one := laneOperands w false false
   let ws := [wTD w, wTS w]
   let zq := zeroPt (vTD w) && w.c != 0
   let zd := zeroPt (vTS w) && w.c != 0
   let mode := w.imm.toNat % 4
   let forms : List (Instr × Nat × List (BitVec 7) × Option (BitVec 7) × List Nat) :=
     [(.vadd h w, 2, two, some w.d, ws), (.vsub h w, 2, two, some w.d, ws), (.vmul h w, 2, two, some w.d, ws), (.vmin h w, 2, two, some w.d, ws),
      (.vmax h w, 2, two, some w.d, ws), (.vabs h w, 2, one, some w.d, ws), (.vneg h w, 2, one, some w.d, ws), (.vclamp h w, 2, one, some w.d, ws),
      (.vfma h w, 3, laneOperands w true true, some w.d, ws), (.vcmp h w, 2, [w.a] ++ (if vscalar w then [] else [w.b]), none, [wTS w]),
      (.vsel h w, 2, [w.a] ++ (if vscalar w then [] else [w.b]), some w.d, ws)] ++
     (if vTS w ≠ 0 then [(.vand h w, 2, two, some w.d, [wTD w]), (.vor h w, 2, two, some w.d, [wTD w]), (.vxor h w, 2, two, some w.d, [wTD w]),
       (.vnot h w, 2, one, some w.d, [wTD w])] else []) ++
     [(.vshl h w, 2, laneOperands w (!w.imm.getLsbD 6) false, some w.d, [wTD w]), (.vshr h w, 2, laneOperands w (!w.imm.getLsbD 6) false, some w.d, [wTD w]),
      (.vsar h w, 2, laneOperands w (!w.imm.getLsbD 6) false, some w.d, [wTD w]),
      (.vexp2 h w, 3, one, some w.d, ws), (.vlog2 h w, 3, one, some w.d, ws), (.vrcp h w, 3, one, some w.d, ws), (.vrsq h w, 3, one, some w.d, ws),
      (.vtanh h w, 3, one, some w.d, ws), (.vcvt h w, 2, one, some w.d, ws), (.vscexp h w, 2, one, some w.d, [8, wTS w]),
      (.vqnt h w, 2, laneOperands w true zq, some w.d, ws ++ (if vscalar w then [] else [32]) ++ (if zq then [8] else [])),
      (.vdq h w, 2, laneOperands w true zd, some w.d, ws ++ [32] ++ (if zd then [8] else [])),
      (.vscacc h w, 2, laneOperands w true (w.c != 0), some w.d, [32, wTS w]),
      (.vredsum h w, 2, [w.a], some w.d, ws), (.vredmax h w, 2, [w.a], some w.d, ws), (.vredmin h w, 2, [w.a], some w.d, ws), (.vamax h w, 2, [w.a], some w.d, ws),
      (.vbcast h w, 2, one, some w.d, [wTD w]), (.vtrans h w, 2, one, some w.d, [wTD w]), (.vacomb h w, 2, [w.a], some w.d, []),
      (.vperm h w, 2, [w.a] ++ (if mode = 0 then [w.b] else []), some w.d, [wTD w] ++ (if mode = 0 then [16] else []))] ++
     (if vTS w ≠ 0 ∧ vscalar w = false then [(.vmov h w, 2, one, some w.d, [wTD w])] else [])
   ∀ i inc xs d widths, (i, inc, xs, d, widths) ∈ forms → s.reaches i h = true →
     let ready : Prop := (∀ x ∈ xs, s.vwait x (countOf xs x) = .ok ()) ∧ s.powerCheck inc = .ok () ∧
       (∀ x, d = some x → if Legal.qreg x then s.pushCheck (x.toNat - 0x40) 1 ≠ .error .wait else s.vwait x 0 = .ok ())
     let binding (x : BitVec 7) : TrapInfo := { cls := .streamBinding, code := 0, info := w64 (x.toNat - 0x40) }
     (ready → (∃ n ∈ widths, shEw s.me.vshape < n) →
       ∃ t, exec i s = .next t ∧ s.Traps t { cls := .vectorShape, code := 0, info := s.me.vshape.zeroExtend 64 }) ∧
     (ready → (∀ n ∈ widths, n ≤ shEw s.me.vshape) → Legal.qreg w.a = true →
       (let q := s.me.stream (w.a.toNat - 0x40); s.me.hdl = true ∨ q.state ≠ .inS ∨ q.count < q.done + countOf xs w.a) →
       ∃ t, exec i s = .next t ∧ s.Traps t (binding w.a)) ∧
     (∀ x, ready → (∀ n ∈ widths, n ≤ shEw s.me.vshape) → (∀ y ∈ xs, Legal.qreg y = false) → d = some x → Legal.qreg x = true →
       (let q := s.me.stream (x.toNat - 0x40); s.me.hdl = true ∨ q.state ≠ .outS ∨ q.count ≤ q.done) →
       ∃ t, exec i s = .next t ∧ s.Traps t (binding x)) ∧
     (s.vopen inc widths xs d = .ok () → i ≠ .vperm h w →
       ((Legal.vreg w.a = true ∧ bit s.me.vmark (s.vphys w.a) = true ∧ s.undefined s.me .v (.v (s.vphys w.a)) = false) ∨
        (Legal.qreg w.a = true ∧ ∃ y, (s.me.stream (w.a.toNat - 0x40)).buf[0]? = some y ∧ y.mark = true) ∨
        (Legal.breg w.a = true ∧ ∃ v, s.bypassed (w.a.toNat - 0x57) = .ok (v, true))) →
       ∃ t, exec i s = .next t ∧ s.Traps t { cls := .poisonConsumed, code := 0, info := w64 w.a.toNat })) ∧
  (∀ (h : Head) (s : State),
   let marked (x : BitVec 7) : Prop := 0x41 ≤ x.toNat ∧ bit s.me.amark (x.toNat - 0x40) = true ∧ s.undefined s.me .a (.a (x.toNat - 0x40)) = false
   let psn (x : BitVec 7) : TrapInfo := { cls := .poisonConsumed, code := 0, info := w64 x.toNat }
   (∀ w : W1, ∀ i ∈ ([.add h w, .sub h w, .mul h w, .mulh h w, .mulhn h w, .div h w, .divn h w, .rem h w, .andS h w, .orS h w, .xorS h w, .andn h w, .shl h w,
       .shr h w, .sar h w, .rot h w, .minS h w, .maxS h w, .minn h w, .maxn h w, .clz h w, .ctz h w, .popc h w, .bfx h w, .sel h w, .cmp h w,
       .aadd h w, .asub h w, .amul h w, .ashl h w, .ashr h w, .aand h w, .aor h w] : List Instr),
     s.reaches i h = true → marked w.a → ∃ t, exec i s = .next t ∧ s.Traps t (psn w.a)) ∧
   (∀ w : W2, ∀ i ∈ ([.ld h w, .st h w, .aswap h w, .acas h w, .afadd h w, .aiadd h w, .amin h w, .amax h w, .aandm h w, .aorm h w, .axorm h w, .aldacq h w,
       .astrel h w, .waita h w] : List Instr),
     s.reaches i h = true → marked w.base → ∃ t, exec i s = .next t ∧ s.Traps t (psn w.base))) ∧
  (∀ (d c ck n : Nat) (e z : Engine) (s : State),
   let x := (s.strand ck).eng e
   x.pos = .words → x.sec.begun = false → (z, n) ∈ x.sec.waits → ((s.strand ck).eng z).retc ≤ n →
   s.stands ck e = false ∧ s.candidate ck e = false ∧ s.pick d c e ≠ some ck)
/-- 07 R181, 09 R232, 06 R147, R148 and R151, 23 R447 to R449. The state of a send that times out while it is held is the schedule's (log 5); a line that becomes poisoned keeps its bytes (log 54). -/
def Obligations.CopiesAndSendsComplete : Prop :=
  ∀ (op : Nat) (o : Op) (s u : State),
  (∀ c c' : CopyOp, s.Due op o (.copy c) →
    (c.done < c.total → s.copyHeld o c = true → exec (.homeRequest op) s = .next s) ∧
    (c.done < c.total → s.copyHeld o c = false → s.slotFree o.ck = true → s.copyUnit o.ck c = some (u, c') → exec (.homeRequest op) s = .next (u.setOp { o with kind := .copy c' })) ∧
    ((if s.copyHeld o c then (s, c) else s.copyRun o.ck c c.units) = (u, c') → c'.done < c'.total → exec (.copyComplete op) s = .next (u.setOp { o with kind := .copy c' })) ∧
    ((if s.copyHeld o c then (s, c) else s.copyRun o.ck c c.units) = (u, c') → c'.total ≤ c'.done →
      let i := winTbase (u.win o.ck) + cpTN c'.imm
      exec (.copyComplete op) s = .next ((((if cpTD c'.fn then u.tileDone (ckDie o.ck) (ckCore o.ck) i 1 2
        else if cpTS c'.fn then u.tileDone (ckDie o.ck) (ckCore o.ck) i 3 0 else u).modStrand o.ck (fun st => st.countDown (cpN c'.fn)))).finishOp o))) ∧
  (∀ x, s.send? op = some (o, x) →
    let nb := sendNb x.imm
    let ty := x.finTy
    let n := blockBytes ty nb
    let src := Mem.readLE s.mem x.key (blockBytes (sendSty x.fn) nb)
    let fails : State := s.setSend o { x with acked := true, failed := true }
    (x.gone = false → o.born < s.time → (∀ p ∈ s.ops, p.sid = o.sid → p.id < o.id → p.fin = false → ∀ y, p.kind = .send y → y.gone = true) →
      x.t0.toNat ≤ s.fabricTime →
      exec (.sendDepart op) s = .next (s.setSend o { x with gone := true })) ∧
    (s.fabricTime < x.t0.toNat → exec (.sendDepart op) s = .next s) ∧
    (s.sendHeld o x = true → exec (.sendArrive op) s = .next s) ∧
    (x.gone = true → x.acked = false → s.sendHeld o x = false → x.fills = none →
      (∀ m, s.sendTarget o x = .error m → exec (.sendArrive op) s = .next fails) ∧
      (∀ d c off key, s.sendTarget o x = .ok (some (d, c, off, key)) →
        let at_ := ttabOff c (fld x.imm 15 8)
        let e := s.dget d at_
        let old := Mem.readLE s.mem key n
        (tileBase e ≠ off ∨ tileLen e < n → exec (.sendArrive op) s = .next fails) ∧
        (tileBase e = off → n ≤ tileLen e → tileState e ≠ 0 →
          exec (.sendArrive op) s = .next (s.setSend o { x with begun := some (x.begun.getD s.ftime) })) ∧
        (tileBase e = off → n ≤ tileLen e → tileState e = 0 → s.badBlocks x = [] →
          exec (.sendArrive op) s = .next (((s.fillTile key ty nb (x.deliver src old).2 [0] []).dput d at_ (setFld e 1 0 1)).setSend o
            { x with begun := some (x.begun.getD s.ftime), fills := some (d, c, key, old) })))) ∧
    (∀ d c key old, x.gone = true → x.acked = false → s.sendHeld o x = false → x.fills = some (d, c, key, old) →
      let rest := (List.range nb).drop 1
      let came (bad : List Nat) : State := (s.fillTile key ty nb (x.deliver src old).2 rest bad).tileDone d c (fld x.imm 15 8) 1 2
      (∀ m, s.sendTarget o x = .error m → Map.get 0 s.issued (coreKey d c) ≠ 0 → exec (.sendArrive op) s = .next s) ∧
      (s.sendTarget o x = .error .err → Map.get 0 s.issued (coreKey d c) = 0 → exec (.sendArrive op) s = .next ((came rest).setSend o { x with acked := true, failed := true })) ∧
      (∀ y, s.sendTarget o x = .ok (some y) → s.badBlocks x = [] → Map.get 0 s.issued (coreKey d c) = 0 →
        exec (.sendArrive op) s = .next ((came []).setSend o { x with acked := true, failed := false }))) ∧
    (∀ b, x.begun = some b → x.acked = false → x.fills = none →
      (b + 1100000 ≤ s.ftime → exec (.sendDtTimeout op) s = .next fails) ∧
      (s.ftime < b + 1100000 → exec (.sendDtTimeout op) s = .next s)) ∧
    (x.acked = true → s.ready o = true → o.dead = false → o.live = true →
      exec (.sendComplete op) s = .next (((s.tileDone (o.core / 64) (o.core % 64) x.tile 3 0).modStrand o.ck (fun st => st.sendDone x)).finishOp o)) ∧
    (x.acked = false ∨ s.ready o = false → exec (.sendComplete op) s = .next s))
/-- 16 R332, R339 to R347. The lines that an uncorrectable read notifies are log 44, that they keep their bytes log 54, and the banks that no copy serves log 70. -/
def Obligations.BankItemsAndCommandsComplete : Prop :=
  (∀ (op item : Nat) (o : Op) (b : BankOp) (x : BankItem) (s : State), s.bankItem? op item = some (o, b, x) →
   let d := o.die
   let h := s.header d x.blk
   let put (u : State) (st rec_ : Nat) : State :=
     ((u.vwrite o.ck (b.res + 0x240 * x.idx) rec_ 0x240).berrOf o.ck (fun r => berrStatus r st)).itemDone o b x
   (b.kind = .bqry →
     let toks := (List.range (hdNtok h)).filter (fun t => bit x.mask t)
     let hurt := s.poisoned (headerKey d x.blk) || toks.any (fun t =>
       s.poisonedRun (blockKey d x.blk (128 * t)) (hdDim h) || s.poisonedRun (blockKey d x.blk (0x2000 + 128 * t)) (hdDim h))
     let r := scan (fun i => Fmt.bf16.decode (b.data / 2 ^ (16 * i) % 2 ^ 16)) (s.block d x.blk) (f32d (b.data / 2 ^ 2048 % 2 ^ 32)) (fun t => bit x.mask t)
     (∀ rd, s.bankRetired d (bwNum x.blk) = true →
       exec (.bankQueryItem op item rd) s = .next (put s 3 (queryRecord x.idx x.word 3 0 0 0xFF800000 0 []))) ∧
     (s.bankRetired d (bwNum x.blk) = false → hurt = false →
       exec (.bankQueryItem op item .ok) s = .next (put s 0 (queryRecord x.idx x.word 0 toks.length (hdSeq h) r.1 r.2.1 r.2.2)) ∧
       exec (.bankQueryItem op item .corrected) s = .next (put s 1 (queryRecord x.idx x.word 1 toks.length (hdSeq h) r.1 r.2.1 r.2.2))) ∧
     (∀ rd, s.bankRetired d (bwNum x.blk) = false → (hurt = true ∨ ∃ k, rd = .uncorrectable k) →
       let lost (t : Nat) : Bool := s.poisonedRun (blockKey d x.blk (128 * t)) (hdDim h) || s.poisonedRun (blockKey d x.blk (0x2000 + 128 * t)) (hdDim h) ||
         (match rd with | .uncorrectable k => decide (k ≤ t) | _ => false)
       let seen := if s.poisoned (headerKey d x.blk) then 0 else (toks.takeWhile (fun t => !lost t)).length
       exec (.bankQueryItem op item rd) s = .next (put (s.blockLost d x.blk) 2 (queryRecord x.idx x.word 2 seen (hdSeq h) 0xFF800000 0 [])))) ∧
   (b.kind = .bapp →
     (∀ cause, s.appendCause d x.blk (bkOpt b.w) (bkN b.w) = some cause →
       exec (.bankAppendItem op item) s = .next ((s.berrOf o.ck (fun r => berrFail r cause x.blk)).itemDone o b x)) ∧
     (s.appendCause d x.blk (bkOpt b.w) (bkN b.w) = none →
       exec (.bankAppendItem op item) s = .next ((s.append o.ck x.blk b.a.toNat (bkN b.w) (bkOpt b.w)).itemDone o b x))) ∧
   (b.kind = .bmv →
     let hurt := s.poisoned (headerKey d x.blk) || s.poisonedRun (blockKey d x.blk 0) 16384
     let ys := (List.range 128).map (fun r => mvRow (fun i => Fmt.bf16.decode (b.data / 2 ^ (16 * i) % 2 ^ 16))
       (fun c => Fmt.e4m3.decode (Mem.read s.mem (blockKey d x.blk (128 * r + c))).toNat) (f32d (h % 2 ^ 32)))
     (∀ rd, s.bankRetired d (bwNum x.blk) = true →
       exec (.bankMvItem op item rd) s = .next (put s 3 (x.idx * 2 ^ 4160 + 3 * 2 ^ 4168))) ∧
     (s.bankRetired d (bwNum x.blk) = false → hurt = false →
       exec (.bankMvItem op item .ok) s = .next (put s 0 (packLE 32 ys + x.idx * 2 ^ 4160))))) ∧
  (∀ (op : Nat) (o : Op) (b : BankOp) (s : State), s.op? op = some o → o.kind = .bank b →
   (s.bankReady o b = true → ∃ u, exec (.bankCmdComplete op) s = .next ((u.modStrand o.ck (fun st => { st with bout := st.bout - 1 })).finishOp o) ∧
     (b.kind = .bqry ∨ b.kind = .bapp ∨ b.kind = .bmv → u = s) ∧
     (b.kind = .bsk → u = s.vwrite o.ck (b.b.toNat + 16 * bkK b.w) (sketchRows b.data (fld b.c 31 0) (bkN b.w)) (16 * bkN b.w)) ∧
     (b.kind = .bflt → u = s.filterRun o.ck b) ∧
     (b.kind = .bmap → u = s.vwrite o.ck b.a.toNat (s.availRecord (ckDie o.ck)) 576) ∧
     (b.kind = .berr → u = (s.vwrite o.ck b.a.toNat (s.strand o.ck).berr.toNat 64).modStrand o.ck (fun st => { st with berr := 0 }))) ∧
   (b.items ≠ [] → exec (.bankCmdComplete op) s = .next s))
/-- 17 R359, R366, R373. The moves that a die holds are log 49, the rounds of a move log 50, the status 2 of a page in hand log 81. -/
def Obligations.DieUnitsComplete : Prop :=
  ∀ (op : Nat) (o : Op) (s : State),
  (∀ d kind asid off, s.Due op o (.tlbinv d kind asid off) → ∃ t u, exec (.tlbinvComplete op) s = .next t ∧ t = u.finishOp o ∧
    u = s.modDie d (fun x => { x with tlb := (u.die d).tlb, mids := (u.die d).mids }) ∧
    (∀ e, e ∈ (u.die d).tlb ↔ e ∈ (s.die d).tlb ∧ ¬(2 ≤ kind ∨ (e.asid = asid ∧ (kind = 1 ∨ (kind = 0 ∧ e.page = off / e.size))))) ∧
    (∀ e, e ∈ (u.die d).mids ↔ e ∈ (s.die d).mids ∧ ¬(2 ≤ kind ∨ (e.asid = asid ∧ (kind = 1 ∨ (kind = 0 ∧ e.span = off / tableSpan e.level)))))) ∧
  (∀ va dst asid st busy, s.Due op o (.mpage va dst asid st busy) → ((s.movesOf (fld va 49 46)).head?.map (fun x => x.id)) = some op →
    ((s.die (fld va 49 46)).move.all (fun m => decide (op < m.seq))) = true →
    let d := fld va 49 46
    let answered (u : State) (v : Nat) : State := if st = 0 then u.finishOp o else u.opAnswer o st 8 v
    ((s.die d).mover = none →
      ((s.asidRoot d asid.toNat).bind (fun r => s.leafFrom d (fld va 45 0) 4 r) = none → exec (.mpageComplete op) s = .next (answered s 1)) ∧
      (s.movePlan va dst asid = none → exec (.mpageComplete op) s = .next (answered s 1)) ∧
      (s.movePlan va dst asid ≠ none → busy = true → exec (.mpageComplete op) s = .next (answered s 2)) ∧
      (∀ f f' n leaf, s.movePlan va dst asid = some (f, f', n, leaf) → busy = false → ∃ t m, exec (.mpageComplete op) s = .next t ∧
        t = { s with dies := t.dies } ∧ (t.die d).mover = some m ∧ m.src = f ∧ m.dst = f' ∧ m.n = n ∧ m.leaf = leaf ∧ m.marked = 0 ∧ m.rounds = 0 ∧
        m.ended = false ∧ m.todo = 2 ^ (n / m.unit) - 1)) ∧
    (∀ m, (s.die d).mover = some m → m.ended = false → exec (.mpageComplete op) s = .next (s.moveSome d m m.todo)) ∧
    (∀ m, (s.die d).mover = some m → m.ended = true →
      exec (.mpageComplete op) s = .next (answered (s.moveEnd m va asid).1 (s.moveEnd m va asid).2))) ∧
  (∀ b d res cap, s.Due op o (.kvfind b d res cap) →
    let r := s.referrers d b.toNat
    let ids := (r.1.take cap).map (fun p => p.2.toNat)
    exec (.kvfindComplete op) s = .next (s.opAnswer o res (16 + 8 * ids.length)
      (r.1.length + b2n (decide (cap < r.1.length)) * 2 ^ 64 + b2n r.2 * 2 ^ 65 + packLE 64 ids * 2 ^ 128)))
/-- 16 R336, R348 to R351, 17 R370. A BCMD write during a remapping step is log 33, a move beyond the bound log 34, the rounds and the freeze log 50, the bytes of a bank retired by force log 70. -/
def Obligations.BankRetirementAndBlockMoves : Prop :=
  (∀ (d n : Nat) (s : State), 2 ≤ d → d < 8 → n < 2048 →
   (exec (.bankRefresh d n) s = .next s) ∧
   (s.bankLive d n = true → exec (.bankRetiring d n) s =
     .next ((s.setBankst d n (setFld (s.bankst d n) 1 0 1)).notify d 6 n 0 0).1) ∧
   (s.bankLive d n = false → exec (.bankRetiring d n) s = .next s) ∧
   (∃ t, exec (.forcedRetirement d n) s = .next t ∧ t.bankRetired d n = true ∧
     bit (t.bankst d n) 2 = true ∧ t.mem = s.mem ∧ t.strands = s.strands ∧ t.ops = s.ops) ∧
   ((s.die d).remap = false →
     ((fld (s.bankst d n) 1 0 ≠ 1 ∨ s.bankInUse d n = true) → ∃ t, exec (.bcmdRetire d n) s = .next t ∧
       fld (t.bcmd d) 1 0 = 1 ∧ fld (t.bcmd d) 12 2 = n ∧ fld (t.bcmd d) 14 13 = 2 ∧ t = { s with dev := t.dev } ∧ t.bankst d n = s.bankst d n) ∧
     (fld (s.bankst d n) 1 0 = 1 → s.bankInUse d n = false → ∃ t, exec (.bcmdRetire d n) s = .next t ∧
       fld (t.bcmd d) 14 13 = 3 ∧ t.bankRetired d n = true ∧ t.mem = s.mem ∧ t.strands = s.strands)) ∧
   ((s.die d).remap = true → exec (.bcmdRetire d n) s = .next s ∧ exec (.bcmdRemap d) s = .next s) ∧
   ((s.die d).remap = false → (s.dput d 0x330000000008 2).capNamed d = true → ∃ t, exec (.bcmdRemap d) s = .next t ∧
     fld (t.bcmd d) 14 13 = 2 ∧ t = { s with dev := t.dev }) ∧
   ((s.die d).remap = false → (s.dput d 0x330000000008 2).capNamed d = false → ∃ t, exec (.bcmdRemap d) s = .next t ∧
     fld (t.bcmd d) 14 13 = 1 ∧ (t.die d).remap = true ∧ t = { s with dev := t.dev, dies := t.dies }) ∧
   ((s.die d).remap = true → ∃ t, exec (.remapComplete d) s = .next t ∧ fld (t.bcmd d) 14 13 = 3 ∧ (t.die d).remap = false ∧
     (t.die d).ltab = s.newLtab d ∧ (t.die d).epoch = (s.die d).epoch + 1 ∧
     (∀ key, s.interOff d key = none → (∀ k off, s.interOff d k = some off → t.homeKey d off ≠ some key) → t.byteAt key = s.byteAt key)) ∧
   ((s.die d).remap = false → exec (.remapComplete d) s = .next s)) ∧
  (∀ (d : Nat) (v : Word) (s : State), 2 ≤ d → d < 8 →
   let src := (s.dget d 0x330000000010).setWidth 22
   let dst := (s.dget d 0x330000000018).setWidth 22
   (bit v 0 = false → ∃ t, exec (.bmctlGo d v) s = .next t ∧ t = { s with dev := t.dev } ∧ fld (t.dget d 0x330000000020) 3 1 = fld v 3 1) ∧
   (bit v 0 = true → (s.die d).move = none → bwSlot src < 64 * s.kvb d → bwSlot dst < 64 * s.kvb d →
     ∃ t, exec (.bmctlGo d v) s = .next t ∧ t = { s with dev := t.dev, dies := t.dies } ∧ fld (t.dget d 0x330000000020) 3 1 = fld v 3 1 ∧
       fld (t.dget d 0x330000000020) 5 4 = 1 ∧ (t.die d).move = some { src, dst, seq := s.nextId }) ∧
   (∀ b, (s.die d).move = some b → (∀ o ∈ s.movesOf d, b.seq ≤ o.id) →
     ((s.die d).mover = none → ∃ t m, exec (.blockMoveDone d) s = .next t ∧ t = { s with dies := t.dies } ∧ (t.die d).mover = some m ∧
       m.src = blockKey d b.src 0 % 2 ^ 46 ∧ m.dst = blockKey d b.dst 0 % 2 ^ 46 ∧ m.n = 0x4000 ∧ m.marked = 0 ∧ m.rounds = 0 ∧ m.ended = false ∧
       m.todo = 2 ^ (0x4000 / m.unit) - 1) ∧
     (∀ m, (s.die d).mover = some m → m.ended = false → exec (.blockMoveDone d) s = .next (s.moveSome d m m.todo)) ∧
     (∀ m, (s.die d).mover = some m → m.ended = true → s.copyInto d b.src = true → exec (.blockMoveDone d) s = .next s) ∧
     (∀ m, (s.die d).mover = some m → m.ended = true → s.copyInto d b.src = false → ∃ t, exec (.blockMoveDone d) s = .next t ∧
       (t.die d).move = none ∧ (t.die d).mover = none ∧ fld (t.dget d 0x330000000020) 5 4 = 2 ∧ hdMoved (t.header d b.src) = true ∧
       t.mem = (s.moveBlock d b m).mem ∧ t.strands = s.strands)) ∧
   ((s.die d).kvset = false → ∃ t, exec (.kvboundWrite d v) s = .next t ∧ t = { s with dev := t.dev, dies := t.dies } ∧
     t.kvb d = fld v 4 0 ∧ (t.die d).kvset = true ∧
     ∀ c, c < 32 → ∀ b, b ∈ Map.get [] (t.die d).freeL c ↔ (b / 2 ^ 17 = c ∧ b ∈ t.allSlots d ∧ t.bankLive d (bwNum (BitVec.ofNat 22 b)) = true)) ∧
   ((s.die d).kvset = true → exec (.kvboundWrite d v) s = .next s))
/-- 17 R363, R367, R370 to R373. That a poisoned line keeps its bytes is log 54; when a queue is full is log 51; the area at RCBASE is log 90. -/
def Obligations.ReclaimerPoisonAndNotices : Prop :=
  (∀ (d col : Nat) (v : Word) (s : State), 2 ≤ d → d < 8 → col < 32 →
   let cyc := s.dget d 0x340000000058
   (∀ b rest, (Map.get [] (s.die d).freeL col).dropWhile (fun b => !s.bankLive d (bwNum (BitVec.ofNat 22 b))) = b :: rest →
     ∃ t, exec (.flpopRead d col) s = .next t ∧ t = { s with dies := t.dies } ∧ Map.get [] (t.die d).freeL col = rest ∧
       (∀ c, c ≠ col → Map.get [] (t.die d).freeL c = Map.get [] (s.die d).freeL c) ∧
       (s.rcPhase d = 0 → (t.die d).marks = (s.die d).marks) ∧ (s.rcPhase d ≠ 0 → NSet.mem (t.die d).marks b = true) ∧ (s.flpop d col).2 = w64 b) ∧
   ((Map.get [] (s.die d).freeL col).dropWhile (fun b => !s.bankLive d (bwNum (BitVec.ofNat 22 b))) = [] → (s.flpop d col).2 = 0xFFFFFFFF) ∧
   (bit v 0 = false → ∃ t, exec (.rcctlGo d v) s = .next t ∧ t = { s with dev := t.dev, dies := t.dies } ∧
     bit (t.dget d 0x340000000050) 1 = bit v 1 ∧ fld (t.dget d 0x340000000050) 31 16 = fld v 31 16 ∧ t.dget d 0x340000000058 = cyc) ∧
   (bit v 0 = true → s.rcPhase d ≠ 0 → ∃ t, exec (.rcctlGo d v) s = .next t ∧ t.dget d 0x340000000058 = cyc) ∧
   (bit v 0 = true → s.rcPhase d = 0 → ∃ t, exec (.rcctlGo d v) s = .next t ∧ t.rcPhase d = 1 ∧
     fld (t.dget d 0x340000000058) 3 2 = 0 ∧ fld (t.dget d 0x340000000058) 7 4 = 0 ∧ (t.die d).marks = [] ∧ (t.die d).visited = [] ∧
     (t.die d).gray = [] ∧ (t.die d).work = (s.die d).roots.map (fun p => p.1) ∧ t.mem = s.mem) ∧
   (let c := s.dget d 0x340000000050
    let due : Prop := bit c 1 = true ∧ (s.die d).period + 11000000 * fld c 31 16 ≤ s.ftime
    (due → exec (.reclaimPeriod d) s = .next ((s.modDie d (fun x => { x with period := s.ftime })).cycleStart d)) ∧
    (¬due → exec (.reclaimPeriod d) s = .next s)) ∧
   (s.rcPhase d ≠ 1 → exec (.grayOverflow d) s = .next s) ∧
   (s.rcPhase d ≠ 1 → s.rcPhase d ≠ 2 → exec (.reclaimCycleEnd d) s = .next s) ∧
   (s.rcPhase d = 1 → (s.die d).work = [] → (s.die d).gray = [] → ∃ t, exec (.reclaimCycleEnd d) s = .next t ∧
     t.rcPhase d = 2 ∧ (t.die d).swept = 0 ∧ (t.die d).marks = (s.die d).marks ∧ t.mem = s.mem ∧ t.strands = s.strands ∧ t.ops = s.ops) ∧
   (s.rcPhase d = 2 → ∃ t, exec (.reclaimCycleEnd d) s = .next t ∧
     t.rcPhase d = 0 ∧ fld (t.dget d 0x340000000058) 63 32 = (fld cyc 63 32 + 1) % 2 ^ 32 ∧ t.strands = s.strands ∧ t.ops = s.ops) ∧
   (s.rcPhase d = 1 → 4096 < (s.die d).gray.length → fld cyc 7 4 < 3 → ∃ t, exec (.grayOverflow d) s = .next t ∧
     fld (t.dget d 0x340000000058) 7 4 = fld cyc 7 4 + 1 ∧ t.rcPhase d = 1 ∧ (t.die d).gray = [] ∧ (t.die d).visited = [] ∧
     (t.die d).work = (s.die d).roots.map (fun p => p.1) ∧ t.mem = s.mem) ∧
   (s.rcPhase d = 1 → 4096 < (s.die d).gray.length → fld cyc 7 4 = 3 → ∃ t, exec (.grayOverflow d) s = .next t ∧
     t.rcPhase d = 0 ∧ fld (t.dget d 0x340000000058) 3 2 = 1 ∧ t.mem = s.mem)) ∧
  (∀ (d addr key : Nat) (s : State), d < 8 →
   (s.homeKey (addr / 2 ^ 46 % 16) (addr % 2 ^ 46) = some key →
     (s.poisoned key = true → exec (.uncorrectableError addr) s = .next s) ∧
     (s.poisoned key = false →
       let n := keyDie key
       let u := ({ s with poison := NSet.add s.poison (key / 64) } : State).moveMark key
       let w := s.dget n nqCtl
       let ok : Bool := decide (s.scansBusy n < 64)
       let slot : Option (Nat × Nat) := (keyBank? key).bind (fun p => if p.2 < s.kvb n * 2 ^ 20 then
         some (p.2 / 16384 + p.1 % 64 * 2 ^ 11 + p.1 / 64 * 2 ^ 17, s.rdPhys n (bankDirect p.1 (0x1FE0000 + 64 * (p.2 / 16384) + 16)) 8) else none)
       let e := nqEntry 3 (s.lineOff key) (match slot with | some b => b.1 | none => 2 ^ 64 - 1) (match slot with | some b => b2n ok + b.2 * 2 | none => 0)
       u.poisoned key = true ∧ u.mem = s.mem ∧ (∀ k, k / 64 ≠ key / 64 → u.poisoned k = s.poisoned k) ∧
       (8 ≤ n → exec (.uncorrectableError addr) s = .next u) ∧
       (n < 8 → ∃ t v, exec (.uncorrectableError addr) s = .next t ∧
         t = (match slot with | some b => if ok then v.modDie n (fun x => { x with scanQ := x.scanQ ++ [BitVec.ofNat 22 b.1] }) else v | none => v) ∧
         (bit w 48 = true → 0 < nqFree w → (s.die n).held = [] → v = u.nqPut n e) ∧
         (bit w 48 = true → (nqFree w = 0 ∨ (s.die n).held ≠ []) → (s.die n).held.length < 64 →
           v = u.modDie n (fun x => { x with held := x.held ++ [e] })) ∧
         (bit w 48 = false ∨ (64 ≤ (s.die n).held.length ∧ (nqFree w = 0 ∨ (s.die n).held ≠ [])) → v = u.nqLose n 3)))) ∧
   (∀ e rest, (s.die d).held = e :: rest → bit (s.dget d nqCtl) 48 = true → 0 < nqFree (s.dget d nqCtl) →
     exec (.heldNotificationPost d) s = .next ((s.nqPut d e).modDie d (fun x => { x with held := rest }))) ∧
   ((s.die d).held = [] ∨ bit (s.dget d nqCtl) 48 = false ∨ nqFree (s.dget d nqCtl) = 0 → exec (.heldNotificationPost d) s = .next s) ∧
   ((s.die d).scanQ = [] → exec (.referrerScan d) s = .next s) ∧
   (∀ b rest, (s.die d).scanQ = b :: rest → let rs := (s.referrers d b.toNat).1
     exec (.referrerScan d) s = .next ((rs.foldl (fun (u : State) p => (u.notify d 4 b.toNat p.2.toNat p.1).1)
       (s.modDie d (fun x => { x with scanQ := rest }))).notify d 5 b.toNat rs.length 0).1))
/-- 20 R397, R398, 21 R420. When a ring is full, and a ring of size 0, are log 51. -/
def Obligations.RequestRings : Prop :=
  ∀ (p q : Nat) (s : State),
  (s.sqEntry p = none → exec (.submissionSubmit p) s = .next s ∧ exec (.submissionCancel p) s = .next s) ∧
  (∀ e, s.sqEntry p = some e → q = fld e 25 8 →
    let htag := fld e 127 64
    let pd := fld e 31 28
    let clean : Prop := fld e 7 0 = 1 ∧ fld e 63 32 = 0 ∧ fld e 511 384 = 0 ∧ (pd = 0 ∨ pd = 1 ∨ pd = 15)
    let sound : Prop := fld e 63 32 = 0 ∧ fld e 511 384 = 0 ∧ (pd = 0 ∨ pd = 1 ∨ pd = 15)
    let answer (k cause st h : Nat) : State := s.cqPost p (cqEntry k q 0 cause st h 0 0)
    (fld e 7 0 ≠ 2 → exec (.submissionCancel p) s = .next s ∧
      (s.idPart q ≠ some p → exec (.submissionSubmit p) s = .next ((answer 2 0x20 0 htag).sqAdvance p)) ∧
      (s.idPart q = some p → s.rqLive q = true → exec (.submissionSubmit p) s = .next ((answer 2 0x21 (rqState (s.rq q)) htag).sqAdvance p)) ∧
      (s.idPart q = some p → s.rqLive q = false → ¬clean → exec (.submissionSubmit p) s = .next ((answer 2 0x22 (rqState (s.rq q)) htag).sqAdvance p)) ∧
      (s.idPart q = some p → s.rqLive q = false → clean → p < 16 → ∃ r, rqState r = 1 ∧ rqOwner r = 8 ∧ rqCreq r = false ∧ rqPart r = p ∧ rqLnum r = 1 ∧
        rqRoot r = 0 ∧ rqNroot r = 0 ∧ fld r 69 68 = fld e 27 26 ∧ fld r 73 70 = pd ∧ fld r 383 320 = htag ∧ fld r 447 384 = fld e 191 128 ∧
        fld r 511 448 = fld e 255 192 ∧ fld r 639 512 = fld e 383 256 ∧
        exec (.submissionSubmit p) s = .next ((((s.setRq q r).cqPost p (cqEntry 1 q 0 0 1 htag 0 0)).columbineLaunch q 0).sqAdvance p))) ∧
    (fld e 7 0 = 2 → exec (.submissionSubmit p) s = .next s ∧
      (s.idPart q ≠ some p → exec (.submissionCancel p) s = .next ((answer 2 0x20 0 htag).sqAdvance p)) ∧
      (s.idPart q = some p → ¬sound →
        exec (.submissionCancel p) s = .next ((answer 2 0x22 (rqState (s.rq q)) htag).sqAdvance p)) ∧
      (s.idPart q = some p → sound → s.rqLive q = false →
        exec (.submissionCancel p) s = .next ((answer 2 0x23 (rqState (s.rq q)) htag).sqAdvance p)) ∧
      (s.idPart q = some p → sound → s.rqLive q = true → 5 ≤ rqState (s.rq q) →
        exec (.submissionCancel p) s = .next ((answer 4 0 (rqState (s.rq q)) (fld (s.rq q) 383 320)).sqAdvance p)) ∧
      (s.idPart q = some p → sound → s.rqLive q = true → rqState (s.rq q) = 1 → ∃ u,
        u = s.withdraw q ∧ exec (.submissionCancel p) s =
          .next (((u.cqPost p (cqEntry 4 q 0 0 6 (fld (u.rq q) 383 320) 0 0)).finalRq q 6 1 0 true).sqAdvance p)))) ∧
  (∀ i x, s.cqHeld.findIdx? (fun x => x.1 == p) = some i → s.cqHeld[i]? = some x →
    (s.cqRoom p = false → exec (.completionEntryWrite p) s = .next s) ∧
    (s.cqRoom p = true → ∃ t, exec (.completionEntryWrite p) s = .next t ∧ t.cqHeld = s.cqHeld.eraseIdx i ∧
      let w := s.dget 8 (partOff p 0x18)
      t = { s with cqHeld := t.cqHeld, host := Mem.writeLE s.host (s.portOf p * 2 ^ 64 + fld (s.dget 8 (partOff p 0x10)) 63 12 * 4096 + 32 * fld w 47 32) x.2.toNat 32,
                   dev := t.dev, msix := t.msix } ∧
      t.dget 8 (partOff p 0x18) = setFld w 47 32 ((fld w 47 32 + 1) % ringSize w))) ∧
  (s.cqHeld.findIdx? (fun x => x.1 == p) = none → exec (.completionEntryWrite p) s = .next s)
/-- 20 R396, R398, R407, R411, R413. Kill reports that wait are log 63, the answer to a request of another partition is log 55. -/
def Obligations.RequestOwnership : Prop :=
  ∀ (op q d : Nat) (o : Op) (s : State),
  let r := s.rq q
  (s.rqEn = true → s.strands.any (fun x => ckDie x.1 == d && x.2.rqTag != 0 && x.2.rqTag == Map.get 0 s.rqTag q) = true →
    (rqState r = 1 → d < 16 → ∃ r', exec (.prefillBound q d) s = .next (s.setRq q r') ∧ rqState r' = 2 ∧ rqOwner r' = d ∧ fld r' 1023 7 = fld r 1023 7) ∧
    (rqState r ≠ 1 → exec (.prefillBound q d) s = .next s)) ∧
  (s.rqEn = false ∨ (∀ x ∈ s.strands, ckDie x.1 = d → x.2.rqTag ≠ 0 → x.2.rqTag ≠ Map.get 0 s.rqTag q) → exec (.prefillBound q d) s = .next s) ∧
  (∀ lnum power, (q, lnum, power) ∈ s.reports →
    let u : State := { s with reports := s.reports.erase (q, lnum, power) }
    (s.rqEn = true → rqLnum r = lnum → rqState r = 2 ∨ rqState r = 4 →
      exec (.killReport q lnum power) s = .next (u.finalRq q 7 (if power then 0x11 else 0x10) 0 true)) ∧
    (s.rqEn = false ∨ rqLnum r ≠ lnum ∨ (rqState r ≠ 2 ∧ rqState r ≠ 4) → exec (.killReport q lnum power) s = .next u)) ∧
  (∀ lnum power, (q, lnum, power) ∉ s.reports → exec (.killReport q lnum power) s = .next s) ∧
  (∀ st, s.Due op o (.rqcan q st) →
    (s.rqLive q = false ∨ rqPart r ≠ o.part.toNat → exec (.cancelEvent op) s = .next (s.rqAnswer o q 1 st)) ∧
    (s.rqLive q = true → rqPart r = o.part.toNat → 5 ≤ rqState r → exec (.cancelEvent op) s = .next (s.rqAnswer o q 6 st)) ∧
    (s.rqLive q = true → rqPart r = o.part.toNat → rqState r = 1 →
      exec (.cancelEvent op) s = .next (((s.withdraw q).finalRq q 6 2 0 true).rqAnswer o q 0 st)) ∧
    (s.rqLive q = true → rqPart r = o.part.toNat → rqState r = 2 ∨ rqState r = 4 → ∃ u : State,
      exec (.cancelEvent op) s = .next (u.rqAnswer o q 0 st) ∧ u.mem = (s.setRq q (setBit r 7 true)).mem ∧
      (rqCreq r = false → Map.get 1 u.creqBy q = 2) ∧ (rqCreq r = true → u.creqBy = s.creqBy))) ∧
  (∀ c h a, s.Due op o (.rqdone q c h a) →
    let mine : Prop := s.rqLive q = true ∧ rqOwner r = o.die ∧ rqPart r = o.part.toNat ∧ (rqState r = 2 ∨ rqState r = 4)
    (¬mine → exec (.rqdoneEvent op) s = .next (s.rqdoneIssue o h a false)) ∧
    (mine → rqCreq r = false → exec (.rqdoneEvent op) s = .next ((s.finalRq q 5 0 c.toNat true).rqdoneIssue o h a true)) ∧
    (mine → rqCreq r = true → exec (.rqdoneEvent op) s = .next ((s.finalRq q 6 (Map.get 1 s.creqBy q) c.toNat true).rqdoneIssue o h a true)))
/-- 20 R401 to R408, R411. The descriptor fields checked are log 52, a source line that cannot be read log 53, the block under way at a cancellation log 59, and the answer to another partition log 55. -/
def Obligations.HandoffEvents : Prop :=
  ∀ (op q : Nat) (o : Op) (h : Handoff) (s : State),
  let r := s.rq q
  (∀ kind x st, s.Due op o (.rqhand q kind x st) →
    let may : Prop := s.rqLive q = true ∧ rqPart r = o.part.toNat ∧ rqOwner r = o.die ∧ rqState r = (if kind = 0 then 2 else 4)
    (∃ u code, exec (.handoffEvent op) s = .next (State.rqAnswer u o q code st) ∧ (u, code) = s.handoff o q kind x) ∧
    (¬may → exec (.handoffEvent op) s = .next (s.rqAnswer o q 1 st)) ∧
    (may → rqCreq r = true → exec (.handoffEvent op) s = .next ((s.cancelRq q).rqAnswer o q 2 st)) ∧
    (may → rqCreq r = false → descBad kind x = true → exec (.handoffEvent op) s = .next (s.rqAnswer o q 3 st)) ∧
    (may → rqCreq r = false → descBad kind x = false → kind = 2 → hdAny x = true →
      exec (.handoffEvent op) s = .next ((s.commitRe q x).rqAnswer o q 0 st))) ∧
  (s.handoffs.find? (fun h => !h.begun) = some h →
    (h.rq = q → (s.handoffs.filter (fun x => x.begun)).length < 64 →
      exec (.handoffStart q) s = .next { s with handoffs := s.handoffs.map (fun x => if x.rq = q then { x with begun := true } else x) }) ∧
    (h.rq ≠ q ∨ 64 ≤ (s.handoffs.filter (fun x => x.begun)).length → exec (.handoffStart q) s = .next s)) ∧
  (s.handoffs.find? (fun h => h.rq == q && h.begun) = some h →
    (h.moved < h.slots.length → (∀ n, h.stopAt = some n → h.moved < n) →
      let u : State := { s.handBlock h with handoffs := (s.handBlock h).handoffs.map (fun x => if x.rq = q then { x with moved := x.moved + 1 } else x) }
      exec (.handoffBlock q) s = .next (u.setRq q (setFld (u.rq q) 47 32 (h.moved + 1)))) ∧
    (∀ n, h.stopAt = some n → n ≤ h.moved → exec (.handoffBlock q) s = .next s) ∧
    (h.moved < h.slots.length → exec (.commit q) s = .next s) ∧
    (h.slots.length ≤ h.moved → rqCreq r = true → exec (.commit q) s = .next (s.cancelRq q)) ∧
    (h.slots.length ≤ h.moved → rqCreq r = false → h.tdie < 8 →
      let v := s.writeTables h
      let page := h.pages.headD 0
      ((v.die h.tdie).roots.any (fun p => p.1 == page) = true ∨ 65536 ≤ (v.die h.tdie).roots.length →
        exec (.commit q) s = .next (v.finalRq q 7 0x12 0 true)) ∧
      ((v.die h.tdie).roots.any (fun p => p.1 == page) = false → (v.die h.tdie).roots.length < 65536 →
        let v := v.modDie h.tdie (fun y => { y with roots := y.roots ++ [(page, w64 (hdSeqId h.desc))],
                                                    work := if v.rcPhase h.tdie = 1 then y.work ++ [page] else y.work })
        ∃ r', rqState r' = 4 ∧ rqOwner r' = h.tdie ∧ rqRoot r' = rqNroot (v.rq q) ∧ rqNroot r' = 0 ∧ fld r' 319 256 = hdSeqId h.desc ∧
          rqLnum r' = (rqLnum (v.rq q) + 1) % 256 ∧ rqMoved r' = rqMoved (v.rq q) ∧ rqPart r' = rqPart (v.rq q) ∧
          (let u : State := { v.setRq q r' with handoffs := (v.setRq q r').handoffs.filter (fun x => x.rq != q) }
           exec (.commit q) s = .next ((u.unroot (rqRoot (v.rq q))).columbineLaunch q (h.desc.extractLsb' 192 64)))))) ∧
  (s.handoffs.find? (fun h => h.rq == q) = some h →
    (∀ n, h.stopAt = some n → n ≤ h.moved → exec (.handoffCancelStop q) s = .next (s.cancelRq q)) ∧
    (h.stopAt = none → exec (.handoffCancelStop q) s = .next s)) ∧
  (s.handoffs.find? (fun h => h.rq == q) = none → exec (.handoffCancelStop q) s = .next s ∧ exec (.handoffBlock q) s = .next s ∧ exec (.commit q) s = .next s)
/-- 20 R390, R391; 21 R419, R423, R424, R426, R427. What a package reset leaves is log 35, what the cryptographic checks decide log 15, the load area and the ports in recovery log 96, and the class of the strands killed when the package fails log 57. -/
def Obligations.HealthModulesAndPublication : Prop :=
  (∀ (op d m : Nat) (o : Op) (s : State),
   (d < 8 → m < modules d → NSet.mem s.modsDown (4 * d + m) = false →
     let u : State := { s with modsDown := NSet.add s.modsDown (4 * d + m) }
     ((∃ j, j < modules d ∧ j ≠ m ∧ NSet.mem s.modsDown (4 * d + j) = false) → (u.health id).failed = false →
       exec (.moduleDown d m) s = .next (u.health id) ∧ (u.health id).dieDown d = s.dieDown d ∧ (u.health id).strands = s.strands) ∧
     ((∀ j, j < modules d → j ≠ m → NSet.mem s.modsDown (4 * d + j) = true) → ∃ v, v = u.health (fun h => setBit h (2 + d) true) ∧
       exec (.moduleDown d m) s = .next ((v.dieLost d).packageFailed) ∧ v.dieDown d = true)) ∧
   (NSet.mem s.modsDown (4 * d + m) = true → exec (.moduleDown d m) s = .next s) ∧
   (∀ g c, s.Due op o (.publish g c) → s.earlierBusy o = false →
     let v : Word := Map.get 0 s.ver g + 1
     let u : State := ({ s with ver := Map.put s.ver g v } : State).wrHost
       (s.portOf (fld (s.dget 8 (0x3A0000000000 + 0x20 * g)) 4 1) * 2 ^ 64 + (s.dget 8 (0x3A0000000000 + 0x20 * g + 24)).toNat) v.toNat 8
     u.mem = s.mem ∧ Map.get 0 u.ver g = v ∧
     (c = 0 → exec (.publishComplete op) s = .next (u.finishOp o)) ∧ (c ≠ 0 → exec (.publishComplete op) s = .next (u.opAnswer o c 8 v.toNat))) ∧
   (∀ g c, s.Due op o (.publish g c) → s.earlierBusy o = true → exec (.publishComplete op) s = .next s)) ∧
  (∀ (img : FirmwareImage) (nonce : Word) (s : State),
   let good : Prop := img.present = true ∧ img.authOk = true ∧ Config.fusedMinimum.toNat ≤ img.svn.toNat
   let st (x : State) : Nat := fld (x.dget 8 fwstOff) 1 0
   (∃ t, exec (.packageReset img) s = .next t ∧ t.strands = [] ∧ t.ops = [] ∧ t.mem = [] ∧ t.hstate = 0 ∧ t.host = s.host ∧ t.attIdx = s.attIdx ∧
     (good → st t = 1 ∧ fld (t.dget 8 fwstOff) 31 16 = img.svn.toNat ∧ t.fidSet = true ∧ t.fid = (Config.straps s.free).setWidth 64 ∧
       ∀ k, k < 32 → k ≠ t.ownIndex → bit (t.devt k) 0 = Config.linkTrains s.free k ∧ fld (t.devt k) 63 2 = (if k < t.ownIndex then k else k - 1)) ∧
     (¬good → st t = 2 ∧ t.fidSet = false) ∧
     (∀ d off, (d, off) ≠ (8, fwstOff) → off < 2 ^ 46 → d < 9 → (good → d = 8 → off < fabOff 0) → t.dget d off = devReset d off)) ∧
   (st s = 2 → ∃ t, exec (.firmwareReload img) s = .next t ∧ t = { s with dev := t.dev, fidSet := t.fidSet, digest := t.digest, hstate := t.hstate, msix := t.msix } ∧
     (good → st t = 1 ∧ t.fidSet = true ∧ t.digest = Config.imageDigest s.free s.loadArea) ∧
     (¬good → st t = 2 ∧ t.digest = s.digest ∧ t.hstate = s.hstate ∧ t.msix = s.msix)) ∧
   (st s ≠ 2 → exec (.firmwareReload img) s = .next s) ∧
   (st s = 1 → s.attIdx < attLimit → ∃ t sig, exec (.attestationReport nonce) s = .next t ∧ t = { s with attIdx := t.attIdx, attest := t.attest } ∧
     t.attIdx = s.attIdx + 1 ∧ t.attest = s.attest ++ (List.range 4).map (fun i => s.digest.extractLsb' (64 * i) 64) ++ [w64 (fld (s.dget 8 fwstOff) 31 16), s.hstate, 1, nonce, sig]) ∧
   (st s ≠ 1 ∨ attLimit ≤ s.attIdx → exec (.attestationReport nonce) s = .next s) ∧
   (∃ u : State, exec .hubUncontainedError s = .next u.packageFailed ∧ u.failed = true ∧ u.mem = s.mem ∧ u.strands = s.strands ∧ u.dev = s.dev) ∧
   (∃ t, exec .firmwareReplaceRequest s = .next t ∧ 2 ≤ fld t.hstate 1 0 ∧ fld s.hstate 1 0 ≤ fld t.hstate 1 0 ∧ t = { s with hstate := t.hstate, msix := t.msix }))
/-- 21 R416 to R418. Partition 0 and an enabled partition are log 56, the bytes under old keys log 58. -/
def Obligations.PartitionsAndWindows : Prop :=
  ∀ (p w : Nat) (v : Word) (x : BitVec 256) (s : State),
  let old := s.partctl p
  (p < 16 → (bit v 2 = true ∨ bit old 0 = false) → (p = 0 ∨ s.partBusy p = true) →
    ∃ t, exec (.partctlEnable p v) s = .next t ∧ t = { s with dev := t.dev } ∧ t.partctl p = setBit old 40 true) ∧
  (p < 16 → (bit v 2 = true ∨ bit old 0 = false) → p ≠ 0 → s.partBusy p = false →
    ∃ t, exec (.partctlEnable p v) s = .next t ∧ t = { s with dev := t.dev, keyEp := t.keyEp } ∧ bit (t.partctl p) 0 = true ∧
      bit (t.partctl p) 1 = bit v 1 ∧ fld (t.partctl p) 39 8 = fld v 39 8 ∧ bit (t.partctl p) 40 = false ∧
      t.keyTag (BitVec.ofNat 4 p) = s.keyTag (BitVec.ofNat 4 p) + 16 ∧ ∀ q : BitVec 4, q.toNat ≠ p → t.keyTag q = s.keyTag q) ∧
  (p < 16 → bit v 2 = false → bit old 0 = true →
    ∃ t, exec (.partctlEnable p v) s = .next t ∧ t = { s with dev := t.dev } ∧ bit (t.partctl p) 0 = true ∧
      bit (t.partctl p) 1 = bit v 1 ∧ fld (t.partctl p) 39 8 = fld v 39 8 ∧ bit (t.partctl p) 40 = bit old 40) ∧
  (p < 16 → (p = 0 ∨ s.partBusy p = true) → ∃ t, exec (.partctlRekey p v) s = .next t ∧ t = { s with dev := t.dev } ∧ t.partctl p = setBit old 40 true) ∧
  (p < 16 → p ≠ 0 → s.partBusy p = false → ∃ t, exec (.partctlRekey p v) s = .next t ∧ t = { s with dev := t.dev, keyEp := t.keyEp } ∧
    bit (t.partctl p) 0 = bit v 0 ∧ bit (t.partctl p) 40 = false ∧ t.keyTag (BitVec.ofNat 4 p) = s.keyTag (BitVec.ofNat 4 p) + 16 ∧
    ∀ key, s.encrypted key = true → Map.get? s.tags (key / 64) = some (s.keyTag (BitVec.ofNat 4 p)) → t.foreign key (BitVec.ofNat 4 p) = true) ∧
  (w < 64 → s.ops.any (fun o => !o.fin && (match o.kind with | .publish g _ => g == w | _ => false)) = false →
    ∃ t, exec (.hwinWrite w x) s = .next t ∧ t = { s with dev := t.dev, ver := t.ver, host := t.host } ∧ Map.get 0 t.ver w = 0 ∧
      (∀ i, i < 4 → t.dget 8 (0x3A0000000000 + 0x20 * w + 8 * i) = hwinMask i (x.extractLsb' (64 * i) 64)) ∧
      t.host = Mem.writeLE s.host (s.portOf (fld x 4 1) * 2 ^ 64 + fld x 255 195 * 8) 0 8) ∧
  (s.ops.any (fun o => !o.fin && (match o.kind with | .publish g _ => g == w | _ => false)) = true → exec (.hwinWrite w x) s = .next s)
/-- 21 R421, R422, R425. The time of a sample, and the value of a source outside the state, are log 16; the registers of the supply are sensed (log 17). -/
def Obligations.SupplyEmergenciesAndMonitors : Prop :=
  (∀ (s : State),
   (bit s.supem 0 = false → ∃ t, exec .supplyEmergency s = .next t ∧ t = { s with dev := t.dev } ∧ bit t.supem 0 = true ∧
     fld t.supem 63 32 = min (fld s.supem 63 32 + 1) 0xFFFFFFFF ∧ fld t.supem 31 1 = fld s.supem 31 1) ∧
   (bit s.supem 0 = true → exec .supplyEmergency s = .next s) ∧
   (bit s.supem 0 = false ∨ s.victim = none → exec .victimKill s = .next s) ∧
   (∀ ck, bit s.supem 0 = true → s.victim = some ck → ∃ t u, exec .victimKill s = .next t ∧
     u = s.killWith ck { cls := .powerKill, code := 0, info := 0 } ∧ t = { u with dev := t.dev } ∧
     fld t.supem 31 16 = min (fld u.supem 31 16 + 1) 0xFFFF) ∧
   (let goesBefore (a b : Nat) : Prop := (ctxPriv (s.ctx a) = false ∧ ctxPriv (s.ctx b) = true) ∨ (ctxPriv (s.ctx a) = ctxPriv (s.ctx b) ∧
      (s.eff a < s.eff b ∨ (s.eff a = s.eff b ∧ ((s.strand b).bindFt < (s.strand a).bindFt ∨ ((s.strand a).bindFt = (s.strand b).bindFt ∧ b < a)))))
    ∀ ck, s.victim = some ck → s.running? ck = true ∧ ckDie ck < 8 ∧
      ∀ k, ckDie k < 8 → s.running? k = true → (∃ p ∈ s.strands, p.1 = k) → k ≠ ck → goesBefore ck k) ∧
   (∃ t, exec .emergencyClear s = .next t ∧ t = { s with dev := t.dev } ∧ bit t.supem 0 = false ∧ fld t.supem 63 1 = fld s.supem 63 1)) ∧
  (∀ (d u : Nat) (v : Word) (n : BitVec 32) (s : State), d < 9 → u < 64 →
   let c := s.dget d (monOff u 0)
   let x := s.monValue d (fld c 7 0) (fld c 12 8) n
   (∃ t, exec (.monitorEnable d u v) s = .next t ∧ t = { s with dev := t.dev } ∧ t.dget d (monOff u 0) = w64 (fld v 13 0) ∧
     (bit v 13 = true → bit c 13 = false → t.dget d (monOff u 8) = 0xFFFFFFFF ∧ t.dget d (monOff u 0x10) = 0 ∧ t.dget d (monOff u 0x18) = 0 ∧
       t.dget d (monOff u 0x20) = 0 ∧ ∀ k, k < 8 → t.dget d (monOff u (0x40 + 8 * k)) = 0) ∧
     ((bit v 13 = false ∨ bit c 13 = true) → ∀ o, o ≠ 0 → o < 0x100 → t.dget d (monOff u o) = s.dget d (monOff u o))) ∧
   (bit c 13 = false ∨ monSource d (fld c 7 0) = false → exec (.monitorValue d u n) s = .next s) ∧
   (bit c 13 = true → monSource d (fld c 7 0) = true → x < 2 ^ 32 → ∃ t, exec (.monitorValue d u n) s = .next t ∧ t = { s with dev := t.dev } ∧
     t.dget d (monOff u 0) = c ∧
     (t.dget d (monOff u 8)).toNat = min (s.dget d (monOff u 8)).toNat x ∧
     (t.dget d (monOff u 0x10)).toNat = max (s.dget d (monOff u 0x10)).toNat x ∧
     t.dget d (monOff u 0x18) = s.dget d (monOff u 0x18) + 1 ∧
     (t.dget d (monOff u 0x20)).toNat = min ((s.dget d (monOff u 0x20)).toNat + x) (2 ^ 64 - 1) ∧
     ∀ k, k < 16 → let bin (y : State) : Nat := fld (y.dget d (monOff u (0x40 + 8 * (k / 2)))) (32 * (k % 2) + 31) (32 * (k % 2))
       bin t = if k = monBin x then min (bin s + 1) 0xFFFFFFFF else bin s))
/-- 23 R436, R440, R443; 07 R163. The count of ticks is log 66, a 4-byte write of a command register log 60. -/
def Obligations.FabricTimeLinksAndRegisters : Prop :=
  (∀ (i : Nat) (v : Word) (slew : Int) (s : State),
   (s.fidSet = false → ∃ t, exec (.fidWrite v) s = .next t ∧ t = { s with dev := t.dev, fidSet := true, fabOld := s.fabOld ++ [s.fabTabs] } ∧ t.fid = w64 (fld v 12 0)) ∧
   (s.fidSet = true → exec (.fidWrite v) s = .next s) ∧
   (i < 31 → ∃ t, exec (.linkDown false i) s = .next t ∧ NSet.mem t.linksDown i = true ∧ (∀ k, k ≠ i → NSet.mem t.linksDown k = NSet.mem s.linksDown k) ∧
     t = { s with linksDown := t.linksDown, hstate := t.hstate, msix := t.msix } ∧
     (t.linksDown.length < 256 → 1 ≤ fld t.hstate 1 0)) ∧
   (i < 16 → ∃ t, exec (.linkDown true i) s = .next t ∧ NSet.mem t.linksDown (32 + i) = true ∧ bit (t.cmap i) 18 = true ∧
     fld (t.cmap i) 17 0 = fld (s.cmap i) 17 0 ∧ t = { s with linksDown := t.linksDown, hstate := t.hstate, msix := t.msix, dev := t.dev }) ∧
   (∃ t, exec (.timingFlit slew) s = .next t ∧ t = { s with ftime := t.ftime, slewAt := t.ftime, fhold := t.fhold, synced := true } ∧ s.fabricTime ≤ t.fabricTime ∧
     (s.synced = true → t.fhold = s.fhold ∧ t.ftime ≤ s.ftime + (s.ftime - s.slewAt) / 1000 ∧ s.ftime ≤ t.ftime + (s.ftime - s.slewAt) / 1000) ∧
     (s.synced = false → t.ftime = s.ftime + slew.toNat ∧ t.fhold = (-slew).toNat))) ∧
  (∀ (d off : Nat) (four : Bool) (v : Word) (s : State), off < 2 ^ 46 →
   ((9 ≤ d ∨ off < 0x300000000000 ∨ off % (if four then 4 else 8) ≠ 0) → exec (.registerWrite (d * 2 ^ 46 + off) four v) s = .next s) ∧
   (d < 2 → ∃ t, exec (.registerWrite (d * 2 ^ 46 + 0x320000000000) false v) s = .next t ∧ t = { s with dev := t.dev } ∧
     fld (t.dget d 0x320000000000) 15 0 = fld v 15 0 ∧ ∀ o, o ≠ 0x320000000000 → t.dget d o = s.dget d o) ∧
   (2 ≤ d → d < 8 → ∃ t, exec (.registerWrite (d * 2 ^ 46 + 0x330000000010) false v) s = .next t ∧ t = { s with dev := t.dev } ∧
     fld (t.dget d 0x330000000010) 21 0 = fld v 21 0) ∧
   (d = 8 → s.fidSet = false → ∃ t, exec (.registerWrite (d * 2 ^ 46 + 0x3B0000000000) false v) s = .next t ∧ t.fid = w64 (fld v 12 0) ∧ t.fidSet = true))
/-- 23 R453 to R455. Training is the event's (log 69); circuits of other packages are log 64. -/
def Obligations.CircuitPlanEvents : Prop :=
  ∀ (op : Nat) (o : Op) (down : List Nat) (settle : BitVec 16) (plan : List (BitVec 32)) (st : Word) (h : Head) (a : BitVec 7) (s : State),
  s.op? op = some o →
  (o.kind = .recirc plan st h a .sent → s.ready o = true →
    (s.planRunning = true ∨ s.frz = true → exec (.planTaken op) s = .next s) ∧
    (s.planRunning = false → s.frz = false → s.planBad plan = true → exec (.planTaken op) s = .next (s.recircDone o st h a 3 0 0)) ∧
    (s.planRunning = false → s.frz = false → s.planBad plan = false → ∃ t, exec (.planTaken op) s = .next t ∧ t.frz = true ∧ t.gen = s.gen ∧
      t = { s.setOp { o with kind := .recirc plan st h a (.frozen s.ftime) } with tgen := t.tgen })) ∧
  (∀ f, o.kind = .recirc plan st h a (.frozen f) → o.fin = false →
    (f + 11000000 ≤ s.ftime → ∃ t, exec (.freezeDrainTimeout op) s = .next t ∧
      t = { s with ops := t.ops, posted := t.posted, strands := t.strands } ∧ (∀ p ∈ t.ops, s.globalSend p = none) ∧
      (∀ p ∈ t.posted, p.globalOut = false) ∧ (∀ p ∈ t.strands, (p.2.eng .a).flight.all (fun f => !s.globalWatch f) = true)) ∧
    (s.ftime < f + 11000000 → exec (.freezeDrainTimeout op) s = .next s) ∧
    (s.undrained = true → exec (.circuitsTrained op down settle) s = .next s) ∧
    (s.undrained = false → ∃ (u : State) (nbad : Nat), exec (.circuitsTrained op down settle) s = .next (u.recircDone o st h a 0 nbad settle.toNat) ∧
      u.frz = false ∧ u.gen = (if s.gen = 0xFFFFFFFF then 1 else s.gen + 1) ∧ u.mem = s.mem ∧ u.strands = s.strands ∧ u.ops = s.ops ∧
      ∀ i, i < 512 → let e := plan.getD i 0
        (s.planChanges i e = false → u.circuit i = s.circuit i) ∧
        (s.planChanges i e = true → fld (u.circuit i) 17 0 = (if planV e then fld e 17 0 else 0) ∧
          bit (u.circuit i) 18 = (planV e && down.contains i))))
/-- The reset values of 05 R131, 06 R152, 15 R317, 16 R351, 17 R353, 21 R424, R425 and 23 R450. The schedule, an empty memory and free registers are the model's (logs 1, 2, 5). -/
def Obligations.ResetValues : Prop :=
  let s := State.reset
  s.memWf = true ∧ s.strands = [] ∧ s.gen = 1 ∧ s.frz = false ∧ fld s.hstate 1 0 = 0 ∧ s.fidSet = false ∧
  (∀ ck, ckDie ck < 9 → ckCore ck < 32 → ctxValid (s.ctx ck) = false ∧ s.running? ck = false) ∧
  (∀ d c i, d < 9 → c < 32 → i < 4 → s.dget d (coreBlock c + 8 * i) = 0x0C0C0C0C0C0C0C0C) ∧
  (∀ d, d < 2 → s.dget d 0x320000000000 = 2400 ∧ s.dget d 0x320000000008 = 50) ∧
  (∀ d, 2 ≤ d → d < 8 → s.dget d 0x330000000020 = 8 ∧ ∀ n, n < 2048 → s.bankLive d n = true) ∧
  (∀ d, d < 8 → s.dget d 0x340000000018 = 0xC5 ∧ s.dget d 0x340000000040 = 0x10000 ∧ s.dget d 0x340000000048 = 16) ∧
  s.dget 8 0x3A0000000908 = 64 ∧ (∀ d u, d < 9 → u < 64 → s.dget d (monOff u 8) = 0xFFFFFFFF ∧ s.dget d (monOff u 0) = 0)
/-- The step and the decoder agree: 02 R62, 06 R153. The schedule of turns is the model's (log 5). -/
def Obligations.StepRunsDecodedInstruction : Prop :=
  ∀ (s : State) (r : List Turn),
  let u : State := { s with free := s.free + 1, waited := false, agenda := r }
  (∀ (d c ck : Nat) (e : Engine) (raw : TextWord), s.agenda = .issue d c e :: r → u.mayChoose d c e = true → u.pick d c e = some ck →
    let v : State := { u.choice d c e ck with cur := ⟨ck, e⟩, waited := false }
    v.issued = Map.put u.issued (coreKey d c) (Map.get 0 u.issued (coreKey d c) ||| 2 ^ e.num) ∧ v.mem = s.mem ∧ v.dev = s.dev ∧
    ∀ bytes, v.fetch ck ((v.strand ck).eng e).walk.toNat 12 = .ok bytes → raw = BitVec.ofNat 96 bytes →
    (∀ i, decode v.myProfile e raw = .ok i → step s = exec i v) ∧
    (∀ i, parse e raw = some i → step s = exec i v) ∧
    (parse e raw = none → step s = exec (.unassignedOpcode e raw) v)) ∧
  (∀ i, s.agenda = .event i :: r → Instr.isEvent i = true → step s = exec i u) ∧
  (∀ d c e, s.agenda = .issue d c e :: r → (u.mayChoose d c e = false ∨ u.pick d c e = none) → step s = .next u) ∧
  (s.agenda = .tick :: r → (u.must = none → step s = .next u.endOfAclk) ∧ (∀ t, u.must = some t → step s = .next { t with agenda := .tick :: r }))
/-- Words from the encoding tables of 02 and the worked encodings of 02, 05, 08 and 09. -/
def Obligations.WordsDecodeAsWritten : Prop :=
  let hd (lb : BitVec 3) : Head := { pr := 0, pn := false, lb }
  (decode .p .s 0x1B000A00000000789ABCDEF0).toOption = some (.li (hd 0) { d := 5, a := 0, b := 0, c := 0, fn := 0, imm := 0x789ABCDEF0 }) ∧
  (decode .p .s 0x1C000A140000000000123456).toOption = some (.lih (hd 0) { d := 5, a := 5, b := 0, c := 0, fn := 0, imm := 0x123456 }) ∧
  (decode .p .s 0x42000E0000A0FFFFFFFFFFDE).toOption = some (.loop (hd 0) { a := 7, b := 0, k := false, cond := 0, fn := 0x0A0, tgt := 0xFFFFFFFFFFDE }) ∧
  (decode .p .s 0x4A0212000000000000000012).toOption = some (.sysrd (hd 2) { a := 9, b := 0, c := 0, fn := 0, imm := 0x012 }) ∧
  (decode .p .s 0x5803C4200000000000000000).toOption = some (.join (hd 3) { a := 0x62, b := 8, c := 0, fn := 0, imm := 0 }) ∧
  (decode .d .s 0x7203120C0000000000000000).toOption = some (.rqstat (hd 3) { a := 9, b := 3, c := 0, fn := 0, imm := 0 }) ∧
  (decode .p .a 0x10038B080300000000000040).toOption = some (.ld (hd 3) { d := 0x45, base := 0x42, idx := 0, sz := 3, ord := 0, scope := 0, x := false, pi := false, sc := false, rsv := false, off := 0x40 }) ∧
  (decode .p .a 0x011895280008000000000001).toOption = some (.aadd { pr := 1, pn := true, lb := 0 } { d := 0x4A, a := 0x4A, b := 0, c := 0, fn := 0x800, imm := 1 }) ∧
  (decode .p .a 0x180031A2C600000000000040).toOption = some (.qbind (hd 0) { q := 3, dir := 0, ety := 6, base := 0x45, pat := 0x46, scope := 0, rsv := 0, imm := 64 }) ∧
  (decode .p .v 0x31020C02C002040000000000).toOption = some (.vqnt (hd 2) { d := 6, a := 0, b := 0x58, c := 0, fn := 0x204, imm := 0 }) ∧
  (decode .p .v 0x480400100500000000000000).toOption = some (.vld (hd 4) { d := 0, base := 4, idx := 0, sz := 5, ord := 0, scope := 0, x := false, pi := false, sc := false, rsv := false, off := 0 }) ∧
  (decode .p .m 0x1007020C000FC60000000000).toOption = some (.mma (hd 7) { zd := 0, zs := 0, qa := 2, bv := 6, ms := 0, ks := 0x3F, ty := 3, acc := false, gz := 0, voff := 0, rsv := 0 }) ∧
  (decode .p .c 0x010700204869000000000103).toOption = some (.cpy (hd 7) { a := 0, b := 8, c := 9, fn := 0x069, imm := 0x103 }) ∧
  (decode .d .b 0x050714006000000000003FF0).toOption = some (.bflt (hd 7) { a := 0x0A, b := 0, c := 0x0C, fn := 0, imm := 0x3FF0 }) ∧
  (decode .p .v 0xF10000000000000000000001).toOption = some (.semw (hd 0) { a := 0, b := 0, c := 0, fn := 0, imm := 1 })
/-- 02 R39 to R62: no bit of an encoding is dropped, in either direction. -/
def Obligations.EncodingRoundTrip : Prop :=
  (∀ (pf : Profile) (e : Engine) (i : Instr), i.WellFormed pf → (i.engine? = none ∨ i.engine? = some e) →
     decode pf e (encode i) = .ok i) ∧
  (∀ (pf : Profile) (e : Engine) (w : TextWord) (i : Instr), decode pf e w = .ok i →
     encode i = w ∧ i.WellFormed pf ∧ (i.engine? = none ∨ i.engine? = some e))
/-- An invariant of the model (log 2): equal memories are equal data after every step. -/
def Obligations.StepKeepsCanonicalMemory : Prop :=
  ∀ s t : State, s.memWf = true → step s = .next t → t.memWf = true
/-- 00 R8 and 06 R137. -/
def Obligations.MemoryReadsWhatWasWritten : Prop :=
  (∀ (m : List Host.Cell) (k v n : Nat), Mem.wf m = true → Mem.wf (Mem.writeLE m k v n) = true ∧ Mem.readLE (Mem.writeLE m k v n) k n = v % 2 ^ (8 * n) ∧
    ∀ a, (a < k ∨ k + n ≤ a) → Mem.read (Mem.writeLE m k v n) a = Mem.read m a) ∧
  (∀ m n : List Host.Cell, Mem.wf m = true → Mem.wf n = true → (∀ k, Mem.read m k = Mem.read n k) → m = n) ∧
  (∀ (s : State) (ck o v n : Nat), s.inWindow ck o n = true → n ≤ 64 → (s.vaultKey ck o) % 64 + n ≤ 64 → s.memWf = true →
    let t := s.vwrite ck o v n
    t.memWf = true ∧ (0 < n → t.vread ck o n = v % 2 ^ (8 * n)) ∧
    ∀ a, (a < s.vaultKey ck o ∨ s.vaultKey ck o + n ≤ a) → t.byteAt a = s.byteAt a)
end

