-- ==== Sys2Proof/Laws/Encoding.lean ====
section
/-! SUPPORT. The fields of an encoded word read back: one lemma per format, and what decoding needs of an instruction's own word. -/

namespace Sys2Proof

theorem BitVec.extractLsb'_append_low {n m : Nat} (a : BitVec n) (b : BitVec m) {s l : Nat} (h : s + l ≤ m) :
    (a ++ b).extractLsb' s l = b.extractLsb' s l := by
  apply BitVec.eq_of_getLsbD_eq
  intro i hi
  simp only [BitVec.getLsbD_extractLsb', BitVec.getLsbD_append]
  rw [if_pos (by omega)]
theorem BitVec.extractLsb'_append_high {n m : Nat} (a : BitVec n) (b : BitVec m) {s l : Nat} (h : m ≤ s) :
    (a ++ b).extractLsb' s l = a.extractLsb' (s - m) l := by
  apply BitVec.eq_of_getLsbD_eq
  intro i hi
  simp only [BitVec.getLsbD_extractLsb', BitVec.getLsbD_append]
  rw [if_neg (by omega), show s + i - m = s - m + i by omega]
theorem BitVec.extractLsb'_whole {n : Nat} (a : BitVec n) : a.extractLsb' 0 n = a := by
  apply BitVec.eq_of_getLsbD_eq
  intro i hi
  simp only [BitVec.getLsbD_extractLsb', Nat.zero_add, hi, decide_true, Bool.true_and]
theorem BitVec.getLsbD_append_low {n m : Nat} (a : BitVec n) (b : BitVec m) {i : Nat} (h : i < m) : (a ++ b).getLsbD i = b.getLsbD i := by
  rw [BitVec.getLsbD_append, if_pos h]
theorem BitVec.getLsbD_append_high {n m : Nat} (a : BitVec n) (b : BitVec m) {i : Nat} (h : m ≤ i) : (a ++ b).getLsbD i = a.getLsbD (i - m) := by
  rw [BitVec.getLsbD_append, if_neg (by omega)]

variable (op : Nat) (h : Head)

theorem Head.ofBits_bits (b : BitVec 80) : Head.ofBits (h.bits op ++ b : BitVec 96) = h := by
  have e1 : (h.bits op ++ b : BitVec 96).extractLsb' 84 4 = h.pr := by
    unfold Head.bits
    repeat first | rw [BitVec.extractLsb'_append_low _ _ (by omega)] | rw [BitVec.extractLsb'_append_high _ _ (by omega)]
    exact BitVec.extractLsb'_whole _
  have e2 : (h.bits op ++ b : BitVec 96).getLsbD 83 = h.pn := by
    unfold Head.bits
    repeat first | rw [BitVec.getLsbD_append_low _ _ (by omega)] | rw [BitVec.getLsbD_append_high _ _ (by omega)]
    cases h.pn <;> rfl
  have e3 : (h.bits op ++ b : BitVec 96).extractLsb' 80 3 = h.lb := by
    unfold Head.bits
    repeat first | rw [BitVec.extractLsb'_append_low _ _ (by omega)] | rw [BitVec.extractLsb'_append_high _ _ (by omega)]
    exact BitVec.extractLsb'_whole _
  simp only [Head.ofBits, e1, e2, e3]
theorem Head.op_bits (b : BitVec 80) : (h.bits op ++ b : BitVec 96).extractLsb' 88 8 = BitVec.ofNat 8 op := by
  unfold Head.bits
  repeat first | rw [BitVec.extractLsb'_append_low _ _ (by omega)] | rw [BitVec.extractLsb'_append_high _ _ (by omega)]
  exact BitVec.extractLsb'_whole _
theorem W1.ofBits_bits (w : W1) : W1.ofBits (h.bits op ++ w.bits : BitVec 96) = w := by
  have e0 : (h.bits op ++ w.bits : BitVec 96).extractLsb' 73 7 = w.d := by
    unfold W1.bits
    repeat first | rw [BitVec.extractLsb'_append_low _ _ (by omega)] | rw [BitVec.extractLsb'_append_high _ _ (by omega)]
    exact BitVec.extractLsb'_whole _
  have e1 : (h.bits op ++ w.bits : BitVec 96).extractLsb' 66 7 = w.a := by
    unfold W1.bits
    repeat first | rw [BitVec.extractLsb'_append_low _ _ (by omega)] | rw [BitVec.extractLsb'_append_high _ _ (by omega)]
    exact BitVec.extractLsb'_whole _
  have e2 : (h.bits op ++ w.bits : BitVec 96).extractLsb' 59 7 = w.b := by
    unfold W1.bits
    repeat first | rw [BitVec.extractLsb'_append_low _ _ (by omega)] | rw [BitVec.extractLsb'_append_high _ _ (by omega)]
    exact BitVec.extractLsb'_whole _
  have e3 : (h.bits op ++ w.bits : BitVec 96).extractLsb' 52 7 = w.c := by
    unfold W1.bits
    repeat first | rw [BitVec.extractLsb'_append_low _ _ (by omega)] | rw [BitVec.extractLsb'_append_high _ _ (by omega)]
    exact BitVec.extractLsb'_whole _
  have e4 : (h.bits op ++ w.bits : BitVec 96).extractLsb' 40 12 = w.fn := by
    unfold W1.bits
    repeat first | rw [BitVec.extractLsb'_append_low _ _ (by omega)] | rw [BitVec.extractLsb'_append_high _ _ (by omega)]
    exact BitVec.extractLsb'_whole _
  have e5 : (h.bits op ++ w.bits : BitVec 96).extractLsb' 0 40 = w.imm := by
    unfold W1.bits
    repeat first | rw [BitVec.extractLsb'_append_low _ _ (by omega)] | rw [BitVec.extractLsb'_append_high _ _ (by omega)]
    exact BitVec.extractLsb'_whole _
  simp only [W1.ofBits, e0, e1, e2, e3, e4, e5]
theorem W2.ofBits_bits (w : W2) : W2.ofBits (h.bits op ++ w.bits : BitVec 96) = w := by
  have e0 : (h.bits op ++ w.bits : BitVec 96).extractLsb' 73 7 = w.d := by
    unfold W2.bits
    repeat first | rw [BitVec.extractLsb'_append_low _ _ (by omega)] | rw [BitVec.extractLsb'_append_high _ _ (by omega)]
    exact BitVec.extractLsb'_whole _
  have e1 : (h.bits op ++ w.bits : BitVec 96).extractLsb' 66 7 = w.base := by
    unfold W2.bits
    repeat first | rw [BitVec.extractLsb'_append_low _ _ (by omega)] | rw [BitVec.extractLsb'_append_high _ _ (by omega)]
    exact BitVec.extractLsb'_whole _
  have e2 : (h.bits op ++ w.bits : BitVec 96).extractLsb' 59 7 = w.idx := by
    unfold W2.bits
    repeat first | rw [BitVec.extractLsb'_append_low _ _ (by omega)] | rw [BitVec.extractLsb'_append_high _ _ (by omega)]
    exact BitVec.extractLsb'_whole _
  have e3 : (h.bits op ++ w.bits : BitVec 96).extractLsb' 56 3 = w.sz := by
    unfold W2.bits
    repeat first | rw [BitVec.extractLsb'_append_low _ _ (by omega)] | rw [BitVec.extractLsb'_append_high _ _ (by omega)]
    exact BitVec.extractLsb'_whole _
  have e4 : (h.bits op ++ w.bits : BitVec 96).extractLsb' 54 2 = w.ord := by
    unfold W2.bits
    repeat first | rw [BitVec.extractLsb'_append_low _ _ (by omega)] | rw [BitVec.extractLsb'_append_high _ _ (by omega)]
    exact BitVec.extractLsb'_whole _
  have e5 : (h.bits op ++ w.bits : BitVec 96).extractLsb' 52 2 = w.scope := by
    unfold W2.bits
    repeat first | rw [BitVec.extractLsb'_append_low _ _ (by omega)] | rw [BitVec.extractLsb'_append_high _ _ (by omega)]
    exact BitVec.extractLsb'_whole _
  have e6 : (h.bits op ++ w.bits : BitVec 96).getLsbD 51 = w.x := by
    unfold W2.bits
    repeat first | rw [BitVec.getLsbD_append_low _ _ (by omega)] | rw [BitVec.getLsbD_append_high _ _ (by omega)]
    cases w.x <;> rfl
  have e7 : (h.bits op ++ w.bits : BitVec 96).getLsbD 50 = w.pi := by
    unfold W2.bits
    repeat first | rw [BitVec.getLsbD_append_low _ _ (by omega)] | rw [BitVec.getLsbD_append_high _ _ (by omega)]
    cases w.pi <;> rfl
  have e8 : (h.bits op ++ w.bits : BitVec 96).getLsbD 49 = w.sc := by
    unfold W2.bits
    repeat first | rw [BitVec.getLsbD_append_low _ _ (by omega)] | rw [BitVec.getLsbD_append_high _ _ (by omega)]
    cases w.sc <;> rfl
  have e9 : (h.bits op ++ w.bits : BitVec 96).getLsbD 48 = w.rsv := by
    unfold W2.bits
    repeat first | rw [BitVec.getLsbD_append_low _ _ (by omega)] | rw [BitVec.getLsbD_append_high _ _ (by omega)]
    cases w.rsv <;> rfl
  have e10 : (h.bits op ++ w.bits : BitVec 96).extractLsb' 0 48 = w.off := by
    unfold W2.bits
    repeat first | rw [BitVec.extractLsb'_append_low _ _ (by omega)] | rw [BitVec.extractLsb'_append_high _ _ (by omega)]
    exact BitVec.extractLsb'_whole _
  simp only [W2.ofBits, e0, e1, e2, e3, e4, e5, e6, e7, e8, e9, e10]
theorem W3.ofBits_bits (w : W3) : W3.ofBits (h.bits op ++ w.bits : BitVec 96) = w := by
  have e0 : (h.bits op ++ w.bits : BitVec 96).extractLsb' 73 7 = w.a := by
    unfold W3.bits
    repeat first | rw [BitVec.extractLsb'_append_low _ _ (by omega)] | rw [BitVec.extractLsb'_append_high _ _ (by omega)]
    exact BitVec.extractLsb'_whole _
  have e1 : (h.bits op ++ w.bits : BitVec 96).extractLsb' 66 7 = w.b := by
    unfold W3.bits
    repeat first | rw [BitVec.extractLsb'_append_low _ _ (by omega)] | rw [BitVec.extractLsb'_append_high _ _ (by omega)]
    exact BitVec.extractLsb'_whole _
  have e2 : (h.bits op ++ w.bits : BitVec 96).getLsbD 65 = w.k := by
    unfold W3.bits
    repeat first | rw [BitVec.getLsbD_append_low _ _ (by omega)] | rw [BitVec.getLsbD_append_high _ _ (by omega)]
    cases w.k <;> rfl
  have e3 : (h.bits op ++ w.bits : BitVec 96).extractLsb' 60 5 = w.cond := by
    unfold W3.bits
    repeat first | rw [BitVec.extractLsb'_append_low _ _ (by omega)] | rw [BitVec.extractLsb'_append_high _ _ (by omega)]
    exact BitVec.extractLsb'_whole _
  have e4 : (h.bits op ++ w.bits : BitVec 96).extractLsb' 48 12 = w.fn := by
    unfold W3.bits
    repeat first | rw [BitVec.extractLsb'_append_low _ _ (by omega)] | rw [BitVec.extractLsb'_append_high _ _ (by omega)]
    exact BitVec.extractLsb'_whole _
  have e5 : (h.bits op ++ w.bits : BitVec 96).extractLsb' 0 48 = w.tgt := by
    unfold W3.bits
    repeat first | rw [BitVec.extractLsb'_append_low _ _ (by omega)] | rw [BitVec.extractLsb'_append_high _ _ (by omega)]
    exact BitVec.extractLsb'_whole _
  simp only [W3.ofBits, e0, e1, e2, e3, e4, e5]
theorem W4.ofBits_bits (w : W4) : W4.ofBits (h.bits op ++ w.bits : BitVec 96) = w := by
  have e0 : (h.bits op ++ w.bits : BitVec 96).extractLsb' 76 4 = w.q := by
    unfold W4.bits
    repeat first | rw [BitVec.extractLsb'_append_low _ _ (by omega)] | rw [BitVec.extractLsb'_append_high _ _ (by omega)]
    exact BitVec.extractLsb'_whole _
  have e1 : (h.bits op ++ w.bits : BitVec 96).extractLsb' 74 2 = w.dir := by
    unfold W4.bits
    repeat first | rw [BitVec.extractLsb'_append_low _ _ (by omega)] | rw [BitVec.extractLsb'_append_high _ _ (by omega)]
    exact BitVec.extractLsb'_whole _
  have e2 : (h.bits op ++ w.bits : BitVec 96).extractLsb' 70 4 = w.ety := by
    unfold W4.bits
    repeat first | rw [BitVec.extractLsb'_append_low _ _ (by omega)] | rw [BitVec.extractLsb'_append_high _ _ (by omega)]
    exact BitVec.extractLsb'_whole _
  have e3 : (h.bits op ++ w.bits : BitVec 96).extractLsb' 63 7 = w.base := by
    unfold W4.bits
    repeat first | rw [BitVec.extractLsb'_append_low _ _ (by omega)] | rw [BitVec.extractLsb'_append_high _ _ (by omega)]
    exact BitVec.extractLsb'_whole _
  have e4 : (h.bits op ++ w.bits : BitVec 96).extractLsb' 56 7 = w.pat := by
    unfold W4.bits
    repeat first | rw [BitVec.extractLsb'_append_low _ _ (by omega)] | rw [BitVec.extractLsb'_append_high _ _ (by omega)]
    exact BitVec.extractLsb'_whole _
  have e5 : (h.bits op ++ w.bits : BitVec 96).extractLsb' 54 2 = w.scope := by
    unfold W4.bits
    repeat first | rw [BitVec.extractLsb'_append_low _ _ (by omega)] | rw [BitVec.extractLsb'_append_high _ _ (by omega)]
    exact BitVec.extractLsb'_whole _
  have e6 : (h.bits op ++ w.bits : BitVec 96).extractLsb' 40 14 = w.rsv := by
    unfold W4.bits
    repeat first | rw [BitVec.extractLsb'_append_low _ _ (by omega)] | rw [BitVec.extractLsb'_append_high _ _ (by omega)]
    exact BitVec.extractLsb'_whole _
  have e7 : (h.bits op ++ w.bits : BitVec 96).extractLsb' 0 40 = w.imm := by
    unfold W4.bits
    repeat first | rw [BitVec.extractLsb'_append_low _ _ (by omega)] | rw [BitVec.extractLsb'_append_high _ _ (by omega)]
    exact BitVec.extractLsb'_whole _
  simp only [W4.ofBits, e0, e1, e2, e3, e4, e5, e6, e7]
theorem W5.ofBits_bits (w : W5) : W5.ofBits (h.bits op ++ w.bits : BitVec 96) = w := by
  have e0 : (h.bits op ++ w.bits : BitVec 96).extractLsb' 78 2 = w.zd := by
    unfold W5.bits
    repeat first | rw [BitVec.extractLsb'_append_low _ _ (by omega)] | rw [BitVec.extractLsb'_append_high _ _ (by omega)]
    exact BitVec.extractLsb'_whole _
  have e1 : (h.bits op ++ w.bits : BitVec 96).extractLsb' 76 2 = w.zs := by
    unfold W5.bits
    repeat first | rw [BitVec.extractLsb'_append_low _ _ (by omega)] | rw [BitVec.extractLsb'_append_high _ _ (by omega)]
    exact BitVec.extractLsb'_whole _
  have e2 : (h.bits op ++ w.bits : BitVec 96).extractLsb' 72 4 = w.qa := by
    unfold W5.bits
    repeat first | rw [BitVec.extractLsb'_append_low _ _ (by omega)] | rw [BitVec.extractLsb'_append_high _ _ (by omega)]
    exact BitVec.extractLsb'_whole _
  have e3 : (h.bits op ++ w.bits : BitVec 96).extractLsb' 65 7 = w.bv := by
    unfold W5.bits
    repeat first | rw [BitVec.extractLsb'_append_low _ _ (by omega)] | rw [BitVec.extractLsb'_append_high _ _ (by omega)]
    exact BitVec.extractLsb'_whole _
  have e4 : (h.bits op ++ w.bits : BitVec 96).extractLsb' 58 7 = w.ms := by
    unfold W5.bits
    repeat first | rw [BitVec.extractLsb'_append_low _ _ (by omega)] | rw [BitVec.extractLsb'_append_high _ _ (by omega)]
    exact BitVec.extractLsb'_whole _
  have e5 : (h.bits op ++ w.bits : BitVec 96).extractLsb' 46 12 = w.ks := by
    unfold W5.bits
    repeat first | rw [BitVec.extractLsb'_append_low _ _ (by omega)] | rw [BitVec.extractLsb'_append_high _ _ (by omega)]
    exact BitVec.extractLsb'_whole _
  have e6 : (h.bits op ++ w.bits : BitVec 96).extractLsb' 41 5 = w.ty := by
    unfold W5.bits
    repeat first | rw [BitVec.extractLsb'_append_low _ _ (by omega)] | rw [BitVec.extractLsb'_append_high _ _ (by omega)]
    exact BitVec.extractLsb'_whole _
  have e7 : (h.bits op ++ w.bits : BitVec 96).getLsbD 40 = w.acc := by
    unfold W5.bits
    repeat first | rw [BitVec.getLsbD_append_low _ _ (by omega)] | rw [BitVec.getLsbD_append_high _ _ (by omega)]
    cases w.acc <;> rfl
  have e8 : (h.bits op ++ w.bits : BitVec 96).extractLsb' 38 2 = w.gz := by
    unfold W5.bits
    repeat first | rw [BitVec.extractLsb'_append_low _ _ (by omega)] | rw [BitVec.extractLsb'_append_high _ _ (by omega)]
    exact BitVec.extractLsb'_whole _
  have e9 : (h.bits op ++ w.bits : BitVec 96).extractLsb' 16 22 = w.voff := by
    unfold W5.bits
    repeat first | rw [BitVec.extractLsb'_append_low _ _ (by omega)] | rw [BitVec.extractLsb'_append_high _ _ (by omega)]
    exact BitVec.extractLsb'_whole _
  have e10 : (h.bits op ++ w.bits : BitVec 96).extractLsb' 0 16 = w.rsv := by
    unfold W5.bits
    repeat first | rw [BitVec.extractLsb'_append_low _ _ (by omega)] | rw [BitVec.extractLsb'_append_high _ _ (by omega)]
    exact BitVec.extractLsb'_whole _
  simp only [W5.ofBits, e0, e1, e2, e3, e4, e5, e6, e7, e8, e9, e10]
theorem W6.ofBits_bits (w : W6) : W6.ofBits (h.bits op ++ w.bits : BitVec 96) = w := by
  have e0 : (h.bits op ++ w.bits : BitVec 96).extractLsb' 73 7 = w.a := by
    unfold W6.bits
    repeat first | rw [BitVec.extractLsb'_append_low _ _ (by omega)] | rw [BitVec.extractLsb'_append_high _ _ (by omega)]
    exact BitVec.extractLsb'_whole _
  have e1 : (h.bits op ++ w.bits : BitVec 96).extractLsb' 66 7 = w.b := by
    unfold W6.bits
    repeat first | rw [BitVec.extractLsb'_append_low _ _ (by omega)] | rw [BitVec.extractLsb'_append_high _ _ (by omega)]
    exact BitVec.extractLsb'_whole _
  have e2 : (h.bits op ++ w.bits : BitVec 96).extractLsb' 59 7 = w.c := by
    unfold W6.bits
    repeat first | rw [BitVec.extractLsb'_append_low _ _ (by omega)] | rw [BitVec.extractLsb'_append_high _ _ (by omega)]
    exact BitVec.extractLsb'_whole _
  have e3 : (h.bits op ++ w.bits : BitVec 96).extractLsb' 48 11 = w.fn := by
    unfold W6.bits
    repeat first | rw [BitVec.extractLsb'_append_low _ _ (by omega)] | rw [BitVec.extractLsb'_append_high _ _ (by omega)]
    exact BitVec.extractLsb'_whole _
  have e4 : (h.bits op ++ w.bits : BitVec 96).extractLsb' 0 48 = w.imm := by
    unfold W6.bits
    repeat first | rw [BitVec.extractLsb'_append_low _ _ (by omega)] | rw [BitVec.extractLsb'_append_high _ _ (by omega)]
    exact BitVec.extractLsb'_whole _
  simp only [W6.ofBits, e0, e1, e2, e3, e4]

/-- Decoding answers the instruction that its word names where every check passes. -/
theorem decode_of_parse {pf : Profile} {e : Engine} {w : TextWord} {i : Instr} (hp : parse e w = some i) (hi : i.WellFormed pf) :
    decode pf e w = .ok i := by
  unfold decode
  rw [hp]
  simp only
  rw [show i.reject? pf = none from hi]
/-- What a word that decodes names. -/
theorem parse_of_decode {pf : Profile} {e : Engine} {w : TextWord} {i : Instr} (hd : decode pf e w = .ok i) :
    parse e w = some i ∧ i.WellFormed pf := by
  unfold decode at hd
  split at hd
  · exact nomatch hd
  · next j hj =>
    split at hd
    · next hr => cases hd; exact ⟨hj, hr⟩
    · exact nomatch hd
/-- The engine's own opcode map, below the engine-neutral range. -/
theorem parse_low {e : Engine} {w : TextWord} {n : Nat} (hw : w.extractLsb' 88 8 = BitVec.ofNat 8 n) (hn : n < 0xF0) :
    parse e w = match e with
      | .s => opcodeMapS w n | .a => opcodeMapA w n | .v => opcodeMapV w n | .m => opcodeMapM w n | .c => opcodeMapC w n | .b => opcodeMapB w n := by
  have h : (w.extractLsb' 88 8).toNat = n := by rw [hw, BitVec.toNat_ofNat]; omega
  unfold parse
  simp only [h]
  rw [if_neg (by omega)]
  try (cases e <;> rfl)
theorem parse_high {e : Engine} {w : TextWord} {n : Nat} (hw : w.extractLsb' 88 8 = BitVec.ofNat 8 n) (hn : 0xF0 ≤ n) (h8 : n < 256) :
    parse e w = opcodeMapN w n := by
  have h : (w.extractLsb' 88 8).toNat = n := by rw [hw, BitVec.toNat_ofNat]; omega
  unfold parse
  simp only [h]
  rw [if_pos hn]

end Sys2Proof
end

