-- ==== Sys2Proof/Laws/Maps.lean ====
section
/-! SUPPORT. What sparse maps and memory lists do: a key reads what was last put there, every other key what it read before, and every
memory operation keeps the canonical form. -/

namespace Sys2Proof

@[simp] theorem Map.get_put_same {α : Type} (d : α) (m : Map α) (k : Nat) (v : α) : Map.get d (Map.put m k v) k = v := by
  induction m with
  | nil => simp [Map.put, Map.get]
  | cons p r ih =>
    obtain ⟨a, w⟩ := p
    simp only [Map.put]
    split
    · simp [Map.get]
    · split <;> simp_all [Map.get]

theorem Map.get_put_of_ne {α : Type} (d : α) (m : Map α) {k j : Nat} (v : α) (h : j ≠ k) :
    Map.get d (Map.put m k v) j = Map.get d m j := by
  induction m with
  | nil => simp [Map.put, Map.get, h]
  | cons p r ih =>
    obtain ⟨a, w⟩ := p
    simp only [Map.put]
    split
    · simp [Map.get, h]
    · split
      · subst_vars; simp [Map.get, h]
      · simp [Map.get, ih]

theorem Map.get_put {α : Type} (d : α) (m : Map α) (k j : Nat) (v : α) :
    Map.get d (Map.put m k v) j = if j = k then v else Map.get d m j := by
  split
  · subst_vars; simp
  · exact Map.get_put_of_ne d m v ‹_›

@[simp] theorem Map.get_del_same {α : Type} (d : α) (m : Map α) (k : Nat) : Map.get d (Map.del m k) k = d := by
  induction m with
  | nil => rfl
  | cons p r ih =>
    obtain ⟨a, w⟩ := p
    unfold Map.del at *
    by_cases h : a = k
    · simpa [h] using ih
    · have h' : ¬ k = a := fun e => h e.symm
      simpa [h, h', Map.get] using ih

theorem Map.get_del_of_ne {α : Type} (d : α) (m : Map α) {k j : Nat} (h : j ≠ k) : Map.get d (Map.del m k) j = Map.get d m j := by
  induction m with
  | nil => rfl
  | cons p r ih =>
    obtain ⟨a, w⟩ := p
    unfold Map.del at *
    by_cases e : a = k
    · subst e; simpa [Map.get, h] using ih
    · simp [e, Map.get, ih]

/-- A byte reads as it was last written (00 R8). -/
@[simp] theorem Mem.read_write_same (m : List Host.Cell) (k : Nat) (b : Byte) : Mem.read (Mem.write m k b) k = b := by
  unfold Mem.read Mem.write
  split
  · simp [*]
  · simp

/-- A write leaves every other byte alone. -/
theorem Mem.read_write_of_ne (m : List Host.Cell) {k j : Nat} (b : Byte) (h : j ≠ k) : Mem.read (Mem.write m k b) j = Mem.read m j := by
  unfold Mem.read Mem.write
  split
  · exact Map.get_del_of_ne _ m h
  · exact Map.get_put_of_ne _ m b h

theorem Mem.wfFrom_mono {lo lo' : Nat} {m : List Host.Cell} (h : Mem.wfFrom lo m = true) (hl : lo' ≤ lo) : Mem.wfFrom lo' m = true := by
  cases m with
  | nil => rfl
  | cons p r =>
    obtain ⟨a, b⟩ := p
    simp only [Mem.wfFrom, Bool.and_eq_true, decide_eq_true_eq] at *
    exact ⟨⟨by omega, h.1.2⟩, h.2⟩

theorem Mem.wfFrom_put {lo : Nat} {m : List Host.Cell} (k : Nat) {b : Byte} (h : Mem.wfFrom lo m = true) (hl : lo ≤ k)
    (hb : b ≠ Mem.unlisted) : Mem.wfFrom lo (Map.put m k b) = true := by
  induction m generalizing lo with
  | nil => simp [Map.put, Mem.wfFrom, hl, hb]
  | cons p r ih =>
    obtain ⟨a, w⟩ := p
    simp only [Mem.wfFrom, Bool.and_eq_true, decide_eq_true_eq] at h
    simp only [Map.put]
    split
    · simp only [Mem.wfFrom, Bool.and_eq_true, decide_eq_true_eq]
      refine ⟨⟨hl, by simpa using hb⟩, ⟨by omega, h.1.2⟩, h.2⟩
    · split
      · subst_vars
        simp only [Mem.wfFrom, Bool.and_eq_true, decide_eq_true_eq]
        exact ⟨⟨hl, by simpa using hb⟩, h.2⟩
      · simp only [Mem.wfFrom, Bool.and_eq_true, decide_eq_true_eq]
        exact ⟨h.1, ih h.2 (by omega)⟩

theorem Mem.wfFrom_filter {lo : Nat} {m : List Host.Cell} (f : Host.Cell → Bool) (h : Mem.wfFrom lo m = true) :
    Mem.wfFrom lo (m.filter f) = true := by
  induction m generalizing lo with
  | nil => rfl
  | cons p r ih =>
    obtain ⟨a, w⟩ := p
    simp only [Mem.wfFrom, Bool.and_eq_true, decide_eq_true_eq] at h
    rw [List.filter_cons]
    split
    · simp only [Mem.wfFrom, Bool.and_eq_true, decide_eq_true_eq]
      exact ⟨h.1, ih h.2⟩
    · exact Mem.wfFrom_mono (ih h.2) (by omega)

/-- Keeping some of the cells keeps the canonical form. -/
theorem Mem.wf_filter {m : List Host.Cell} (f : Host.Cell → Bool) (h : Mem.wf m = true) : Mem.wf (m.filter f) = true :=
  Mem.wfFrom_filter f h

/-- A write keeps the canonical form. -/
theorem Mem.wf_write {m : List Host.Cell} (k : Nat) (b : Byte) (h : Mem.wf m = true) : Mem.wf (Mem.write m k b) = true := by
  unfold Mem.write
  split
  · exact Mem.wf_filter _ h
  · exact Mem.wfFrom_put k h (Nat.zero_le k) ‹_›

theorem Mem.wf_writeLE {m : List Host.Cell} (k v n : Nat) (h : Mem.wf m = true) : Mem.wf (Mem.writeLE m k v n) = true := by
  induction n generalizing m k v with
  | zero => exact h
  | succ n ih => exact ih _ _ (Mem.wf_write _ _ h)

/-- A fold of writes keeps the canonical form. -/
theorem Mem.wf_foldl {α : Type} (f : List Host.Cell → α → List Host.Cell) (hf : ∀ m a, Mem.wf m = true → Mem.wf (f m a) = true)
    (l : List α) {m : List Host.Cell} (h : Mem.wf m = true) : Mem.wf (l.foldl f m) = true := by
  induction l generalizing m with
  | nil => exact h
  | cons a r ih => exact ih (hf _ _ h)

/-- Below its first listed address a memory reads as an unlisted one. -/
theorem Mem.read_below {lo : Nat} {m : List Host.Cell} (h : Mem.wfFrom lo m = true) {k : Nat} (hk : k < lo) : Mem.read m k = Mem.unlisted := by
  induction m generalizing lo with
  | nil => rfl
  | cons p r ih =>
    obtain ⟨a, w⟩ := p
    simp only [Mem.wfFrom, Bool.and_eq_true, decide_eq_true_eq] at h
    have : ¬ k = a := by omega
    simpa [Mem.read, Map.get, this] using ih h.2 (by omega)

/-- Two memories in canonical form that read alike everywhere are the same data. -/
theorem Mem.ext_from {lo : Nat} {m n : List Host.Cell} (hm : Mem.wfFrom lo m = true) (hn : Mem.wfFrom lo n = true)
    (h : ∀ k, Mem.read m k = Mem.read n k) : m = n := by
  induction m generalizing lo n with
  | nil =>
    cases n with
    | nil => rfl
    | cons p r =>
      obtain ⟨a, w⟩ := p
      simp only [Mem.wfFrom, Bool.and_eq_true, decide_eq_true_eq] at hn
      have := h a
      simp [Mem.read, Map.get] at this
      simp [← this] at hn
  | cons p r ih =>
    obtain ⟨a, w⟩ := p
    cases n with
    | nil =>
      simp only [Mem.wfFrom, Bool.and_eq_true, decide_eq_true_eq] at hm
      have := h a
      simp [Mem.read, Map.get] at this
      simp [this] at hm
    | cons q t =>
      obtain ⟨c, x⟩ := q
      simp only [Mem.wfFrom, Bool.and_eq_true, decide_eq_true_eq, bne_iff_ne] at hm hn
      have hac : a = c := by
        rcases Nat.lt_trichotomy a c with g | g | g
        · have e := h a
          have : Mem.read ((c, x) :: t) a = Mem.unlisted :=
            Mem.read_below (lo := c) (by simp [Mem.wfFrom, hn.2, hn.1.2]) g
          rw [this] at e
          exact absurd (by simpa [Mem.read, Map.get] using e) hm.1.2
        · exact g
        · have e := h c
          have : Mem.read ((a, w) :: r) c = Mem.unlisted :=
            Mem.read_below (lo := a) (by simp [Mem.wfFrom, hm.2, hm.1.2]) g
          rw [this] at e
          exact absurd (by simpa [Mem.read, Map.get] using e.symm) hn.1.2
      subst hac
      have hwx : w = x := by simpa [Mem.read, Map.get] using h a
      subst hwx
      have : r = t := by
        refine ih hm.2 hn.2 (fun k => ?_)
        by_cases g : k = a
        · subst g
          rw [Mem.read_below hm.2 (by omega), Mem.read_below hn.2 (by omega)]
        · simpa [Mem.read, Map.get, g] using h k
      rw [this]

end Sys2Proof
end

