-- ==== Sys2Proof/Laws/State.lean ====
section
/-! SUPPORT. What each update of the state and of a strand leaves alone, one lemma per field, so that no later proof unfolds a record update. -/

namespace Sys2Proof.Machine

@[simp] theorem State.setStrand_time (s : State) (ck : Nat) (st : Strand) : (s.setStrand ck st).time = s.time := rfl
@[simp] theorem State.setStrand_ftime (s : State) (ck : Nat) (st : Strand) : (s.setStrand ck st).ftime = s.ftime := rfl
@[simp] theorem State.setStrand_cur (s : State) (ck : Nat) (st : Strand) : (s.setStrand ck st).cur = s.cur := rfl
@[simp] theorem State.setStrand_agenda (s : State) (ck : Nat) (st : Strand) : (s.setStrand ck st).agenda = s.agenda := rfl
@[simp] theorem State.setStrand_free (s : State) (ck : Nat) (st : Strand) : (s.setStrand ck st).free = s.free := rfl
@[simp] theorem State.setStrand_waited (s : State) (ck : Nat) (st : Strand) : (s.setStrand ck st).waited = s.waited := rfl
@[simp] theorem State.setStrand_nextId (s : State) (ck : Nat) (st : Strand) : (s.setStrand ck st).nextId = s.nextId := rfl
@[simp] theorem State.setStrand_dev (s : State) (ck : Nat) (st : Strand) : (s.setStrand ck st).dev = s.dev := rfl
@[simp] theorem State.setStrand_mem (s : State) (ck : Nat) (st : Strand) : (s.setStrand ck st).mem = s.mem := rfl
@[simp] theorem State.setStrand_poison (s : State) (ck : Nat) (st : Strand) : (s.setStrand ck st).poison = s.poison := rfl
@[simp] theorem State.setStrand_tags (s : State) (ck : Nat) (st : Strand) : (s.setStrand ck st).tags = s.tags := rfl
@[simp] theorem State.setStrand_saved (s : State) (ck : Nat) (st : Strand) : (s.setStrand ck st).saved = s.saved := rfl
@[simp] theorem State.setStrand_host (s : State) (ck : Nat) (st : Strand) : (s.setStrand ck st).host = s.host := rfl
@[simp] theorem State.setStrand_rmem (s : State) (ck : Nat) (st : Strand) : (s.setStrand ck st).rmem = s.rmem := rfl
@[simp] theorem State.setStrand_keyEp (s : State) (ck : Nat) (st : Strand) : (s.setStrand ck st).keyEp = s.keyEp := rfl
@[simp] theorem State.setStrand_fabOld (s : State) (ck : Nat) (st : Strand) : (s.setStrand ck st).fabOld = s.fabOld := rfl
@[simp] theorem State.setStrand_issued (s : State) (ck : Nat) (st : Strand) : (s.setStrand ck st).issued = s.issued := rfl
@[simp] theorem State.setStrand_fifos (s : State) (ck : Nat) (st : Strand) : (s.setStrand ck st).fifos = s.fifos := rfl
@[simp] theorem State.setStrand_posted (s : State) (ck : Nat) (st : Strand) : (s.setStrand ck st).posted = s.posted := rfl
@[simp] theorem State.setStrand_shadows (s : State) (ck : Nat) (st : Strand) : (s.setStrand ck st).shadows = s.shadows := rfl
@[simp] theorem State.setStrand_late (s : State) (ck : Nat) (st : Strand) : (s.setStrand ck st).late = s.late := rfl
@[simp] theorem State.setStrand_ops (s : State) (ck : Nat) (st : Strand) : (s.setStrand ck st).ops = s.ops := rfl
@[simp] theorem State.setStrand_dies (s : State) (ck : Nat) (st : Strand) : (s.setStrand ck st).dies = s.dies := rfl
@[simp] theorem State.setStrand_queues (s : State) (ck : Nat) (st : Strand) : (s.setStrand ck st).queues = s.queues := rfl
@[simp] theorem State.setStrand_tasks (s : State) (ck : Nat) (st : Strand) : (s.setStrand ck st).tasks = s.tasks := rfl
@[simp] theorem State.setStrand_running (s : State) (ck : Nat) (st : Strand) : (s.setStrand ck st).running = s.running := rfl
@[simp] theorem State.setStrand_idle (s : State) (ck : Nat) (st : Strand) : (s.setStrand ck st).idle = s.idle := rfl
@[simp] theorem State.setStrand_handoffs (s : State) (ck : Nat) (st : Strand) : (s.setStrand ck st).handoffs = s.handoffs := rfl
@[simp] theorem State.setStrand_cqHeld (s : State) (ck : Nat) (st : Strand) : (s.setStrand ck st).cqHeld = s.cqHeld := rfl
@[simp] theorem State.setStrand_creqBy (s : State) (ck : Nat) (st : Strand) : (s.setStrand ck st).creqBy = s.creqBy := rfl
@[simp] theorem State.setStrand_rqTag (s : State) (ck : Nat) (st : Strand) : (s.setStrand ck st).rqTag = s.rqTag := rfl
@[simp] theorem State.setStrand_toLaunch (s : State) (ck : Nat) (st : Strand) : (s.setStrand ck st).toLaunch = s.toLaunch := rfl
@[simp] theorem State.setStrand_reports (s : State) (ck : Nat) (st : Strand) : (s.setStrand ck st).reports = s.reports := rfl
@[simp] theorem State.setStrand_ver (s : State) (ck : Nat) (st : Strand) : (s.setStrand ck st).ver = s.ver := rfl
@[simp] theorem State.setStrand_msix (s : State) (ck : Nat) (st : Strand) : (s.setStrand ck st).msix = s.msix := rfl
@[simp] theorem State.setStrand_modsDown (s : State) (ck : Nat) (st : Strand) : (s.setStrand ck st).modsDown = s.modsDown := rfl
@[simp] theorem State.setStrand_linksDown (s : State) (ck : Nat) (st : Strand) : (s.setStrand ck st).linksDown = s.linksDown := rfl
@[simp] theorem State.setStrand_fidSet (s : State) (ck : Nat) (st : Strand) : (s.setStrand ck st).fidSet = s.fidSet := rfl
@[simp] theorem State.setStrand_synced (s : State) (ck : Nat) (st : Strand) : (s.setStrand ck st).synced = s.synced := rfl
@[simp] theorem State.setStrand_fhold (s : State) (ck : Nat) (st : Strand) : (s.setStrand ck st).fhold = s.fhold := rfl
@[simp] theorem State.setStrand_slewAt (s : State) (ck : Nat) (st : Strand) : (s.setStrand ck st).slewAt = s.slewAt := rfl
@[simp] theorem State.setStrand_frzAt (s : State) (ck : Nat) (st : Strand) : (s.setStrand ck st).frzAt = s.frzAt := rfl
@[simp] theorem State.setStrand_podMap (s : State) (ck : Nat) (st : Strand) : (s.setStrand ck st).podMap = s.podMap := rfl
@[simp] theorem State.setStrand_hstate (s : State) (ck : Nat) (st : Strand) : (s.setStrand ck st).hstate = s.hstate := rfl
@[simp] theorem State.setStrand_tgen (s : State) (ck : Nat) (st : Strand) : (s.setStrand ck st).tgen = s.tgen := rfl
@[simp] theorem State.setStrand_attIdx (s : State) (ck : Nat) (st : Strand) : (s.setStrand ck st).attIdx = s.attIdx := rfl
@[simp] theorem State.setStrand_attest (s : State) (ck : Nat) (st : Strand) : (s.setStrand ck st).attest = s.attest := rfl
@[simp] theorem State.setStrand_cstopAt (s : State) (ck : Nat) (st : Strand) : (s.setStrand ck st).cstopAt = s.cstopAt := rfl
@[simp] theorem State.setStrand_laterT (s : State) (ck : Nat) (st : Strand) : (s.setStrand ck st).laterT = s.laterT := rfl
@[simp] theorem State.setStrand_slotOld (s : State) (ck : Nat) (st : Strand) : (s.setStrand ck st).slotOld = s.slotOld := rfl
@[simp] theorem State.setStrand_loadArea (s : State) (ck : Nat) (st : Strand) : (s.setStrand ck st).loadArea = s.loadArea := rfl
@[simp] theorem State.setStrand_digest (s : State) (ck : Nat) (st : Strand) : (s.setStrand ck st).digest = s.digest := rfl
@[simp] theorem State.setStrand_vffOld (s : State) (ck : Nat) (st : Strand) : (s.setStrand ck st).vffOld = s.vffOld := rfl
@[simp] theorem State.setStrand_arriving (s : State) (ck : Nat) (st : Strand) : (s.setStrand ck st).arriving = s.arriving := rfl

@[simp] theorem State.modStrand_time (s : State) (ck : Nat) (f : Strand → Strand) : (s.modStrand ck f).time = s.time := rfl
@[simp] theorem State.modStrand_ftime (s : State) (ck : Nat) (f : Strand → Strand) : (s.modStrand ck f).ftime = s.ftime := rfl
@[simp] theorem State.modStrand_cur (s : State) (ck : Nat) (f : Strand → Strand) : (s.modStrand ck f).cur = s.cur := rfl
@[simp] theorem State.modStrand_agenda (s : State) (ck : Nat) (f : Strand → Strand) : (s.modStrand ck f).agenda = s.agenda := rfl
@[simp] theorem State.modStrand_free (s : State) (ck : Nat) (f : Strand → Strand) : (s.modStrand ck f).free = s.free := rfl
@[simp] theorem State.modStrand_waited (s : State) (ck : Nat) (f : Strand → Strand) : (s.modStrand ck f).waited = s.waited := rfl
@[simp] theorem State.modStrand_nextId (s : State) (ck : Nat) (f : Strand → Strand) : (s.modStrand ck f).nextId = s.nextId := rfl
@[simp] theorem State.modStrand_dev (s : State) (ck : Nat) (f : Strand → Strand) : (s.modStrand ck f).dev = s.dev := rfl
@[simp] theorem State.modStrand_mem (s : State) (ck : Nat) (f : Strand → Strand) : (s.modStrand ck f).mem = s.mem := rfl
@[simp] theorem State.modStrand_poison (s : State) (ck : Nat) (f : Strand → Strand) : (s.modStrand ck f).poison = s.poison := rfl
@[simp] theorem State.modStrand_tags (s : State) (ck : Nat) (f : Strand → Strand) : (s.modStrand ck f).tags = s.tags := rfl
@[simp] theorem State.modStrand_saved (s : State) (ck : Nat) (f : Strand → Strand) : (s.modStrand ck f).saved = s.saved := rfl
@[simp] theorem State.modStrand_host (s : State) (ck : Nat) (f : Strand → Strand) : (s.modStrand ck f).host = s.host := rfl
@[simp] theorem State.modStrand_rmem (s : State) (ck : Nat) (f : Strand → Strand) : (s.modStrand ck f).rmem = s.rmem := rfl
@[simp] theorem State.modStrand_keyEp (s : State) (ck : Nat) (f : Strand → Strand) : (s.modStrand ck f).keyEp = s.keyEp := rfl
@[simp] theorem State.modStrand_fabOld (s : State) (ck : Nat) (f : Strand → Strand) : (s.modStrand ck f).fabOld = s.fabOld := rfl
@[simp] theorem State.modStrand_issued (s : State) (ck : Nat) (f : Strand → Strand) : (s.modStrand ck f).issued = s.issued := rfl
@[simp] theorem State.modStrand_fifos (s : State) (ck : Nat) (f : Strand → Strand) : (s.modStrand ck f).fifos = s.fifos := rfl
@[simp] theorem State.modStrand_posted (s : State) (ck : Nat) (f : Strand → Strand) : (s.modStrand ck f).posted = s.posted := rfl
@[simp] theorem State.modStrand_shadows (s : State) (ck : Nat) (f : Strand → Strand) : (s.modStrand ck f).shadows = s.shadows := rfl
@[simp] theorem State.modStrand_late (s : State) (ck : Nat) (f : Strand → Strand) : (s.modStrand ck f).late = s.late := rfl
@[simp] theorem State.modStrand_ops (s : State) (ck : Nat) (f : Strand → Strand) : (s.modStrand ck f).ops = s.ops := rfl
@[simp] theorem State.modStrand_dies (s : State) (ck : Nat) (f : Strand → Strand) : (s.modStrand ck f).dies = s.dies := rfl
@[simp] theorem State.modStrand_queues (s : State) (ck : Nat) (f : Strand → Strand) : (s.modStrand ck f).queues = s.queues := rfl
@[simp] theorem State.modStrand_tasks (s : State) (ck : Nat) (f : Strand → Strand) : (s.modStrand ck f).tasks = s.tasks := rfl
@[simp] theorem State.modStrand_running (s : State) (ck : Nat) (f : Strand → Strand) : (s.modStrand ck f).running = s.running := rfl
@[simp] theorem State.modStrand_idle (s : State) (ck : Nat) (f : Strand → Strand) : (s.modStrand ck f).idle = s.idle := rfl
@[simp] theorem State.modStrand_handoffs (s : State) (ck : Nat) (f : Strand → Strand) : (s.modStrand ck f).handoffs = s.handoffs := rfl
@[simp] theorem State.modStrand_cqHeld (s : State) (ck : Nat) (f : Strand → Strand) : (s.modStrand ck f).cqHeld = s.cqHeld := rfl
@[simp] theorem State.modStrand_creqBy (s : State) (ck : Nat) (f : Strand → Strand) : (s.modStrand ck f).creqBy = s.creqBy := rfl
@[simp] theorem State.modStrand_rqTag (s : State) (ck : Nat) (f : Strand → Strand) : (s.modStrand ck f).rqTag = s.rqTag := rfl
@[simp] theorem State.modStrand_toLaunch (s : State) (ck : Nat) (f : Strand → Strand) : (s.modStrand ck f).toLaunch = s.toLaunch := rfl
@[simp] theorem State.modStrand_reports (s : State) (ck : Nat) (f : Strand → Strand) : (s.modStrand ck f).reports = s.reports := rfl
@[simp] theorem State.modStrand_ver (s : State) (ck : Nat) (f : Strand → Strand) : (s.modStrand ck f).ver = s.ver := rfl
@[simp] theorem State.modStrand_msix (s : State) (ck : Nat) (f : Strand → Strand) : (s.modStrand ck f).msix = s.msix := rfl
@[simp] theorem State.modStrand_modsDown (s : State) (ck : Nat) (f : Strand → Strand) : (s.modStrand ck f).modsDown = s.modsDown := rfl
@[simp] theorem State.modStrand_linksDown (s : State) (ck : Nat) (f : Strand → Strand) : (s.modStrand ck f).linksDown = s.linksDown := rfl
@[simp] theorem State.modStrand_fidSet (s : State) (ck : Nat) (f : Strand → Strand) : (s.modStrand ck f).fidSet = s.fidSet := rfl
@[simp] theorem State.modStrand_synced (s : State) (ck : Nat) (f : Strand → Strand) : (s.modStrand ck f).synced = s.synced := rfl
@[simp] theorem State.modStrand_fhold (s : State) (ck : Nat) (f : Strand → Strand) : (s.modStrand ck f).fhold = s.fhold := rfl
@[simp] theorem State.modStrand_slewAt (s : State) (ck : Nat) (f : Strand → Strand) : (s.modStrand ck f).slewAt = s.slewAt := rfl
@[simp] theorem State.modStrand_frzAt (s : State) (ck : Nat) (f : Strand → Strand) : (s.modStrand ck f).frzAt = s.frzAt := rfl
@[simp] theorem State.modStrand_podMap (s : State) (ck : Nat) (f : Strand → Strand) : (s.modStrand ck f).podMap = s.podMap := rfl
@[simp] theorem State.modStrand_hstate (s : State) (ck : Nat) (f : Strand → Strand) : (s.modStrand ck f).hstate = s.hstate := rfl
@[simp] theorem State.modStrand_tgen (s : State) (ck : Nat) (f : Strand → Strand) : (s.modStrand ck f).tgen = s.tgen := rfl
@[simp] theorem State.modStrand_attIdx (s : State) (ck : Nat) (f : Strand → Strand) : (s.modStrand ck f).attIdx = s.attIdx := rfl
@[simp] theorem State.modStrand_attest (s : State) (ck : Nat) (f : Strand → Strand) : (s.modStrand ck f).attest = s.attest := rfl
@[simp] theorem State.modStrand_cstopAt (s : State) (ck : Nat) (f : Strand → Strand) : (s.modStrand ck f).cstopAt = s.cstopAt := rfl
@[simp] theorem State.modStrand_laterT (s : State) (ck : Nat) (f : Strand → Strand) : (s.modStrand ck f).laterT = s.laterT := rfl
@[simp] theorem State.modStrand_slotOld (s : State) (ck : Nat) (f : Strand → Strand) : (s.modStrand ck f).slotOld = s.slotOld := rfl
@[simp] theorem State.modStrand_loadArea (s : State) (ck : Nat) (f : Strand → Strand) : (s.modStrand ck f).loadArea = s.loadArea := rfl
@[simp] theorem State.modStrand_digest (s : State) (ck : Nat) (f : Strand → Strand) : (s.modStrand ck f).digest = s.digest := rfl
@[simp] theorem State.modStrand_vffOld (s : State) (ck : Nat) (f : Strand → Strand) : (s.modStrand ck f).vffOld = s.vffOld := rfl
@[simp] theorem State.modStrand_arriving (s : State) (ck : Nat) (f : Strand → Strand) : (s.modStrand ck f).arriving = s.arriving := rfl

@[simp] theorem State.modMe_time (s : State) (f : Strand → Strand) : (s.modMe f).time = s.time := rfl
@[simp] theorem State.modMe_ftime (s : State) (f : Strand → Strand) : (s.modMe f).ftime = s.ftime := rfl
@[simp] theorem State.modMe_cur (s : State) (f : Strand → Strand) : (s.modMe f).cur = s.cur := rfl
@[simp] theorem State.modMe_agenda (s : State) (f : Strand → Strand) : (s.modMe f).agenda = s.agenda := rfl
@[simp] theorem State.modMe_free (s : State) (f : Strand → Strand) : (s.modMe f).free = s.free := rfl
@[simp] theorem State.modMe_waited (s : State) (f : Strand → Strand) : (s.modMe f).waited = s.waited := rfl
@[simp] theorem State.modMe_nextId (s : State) (f : Strand → Strand) : (s.modMe f).nextId = s.nextId := rfl
@[simp] theorem State.modMe_dev (s : State) (f : Strand → Strand) : (s.modMe f).dev = s.dev := rfl
@[simp] theorem State.modMe_mem (s : State) (f : Strand → Strand) : (s.modMe f).mem = s.mem := rfl
@[simp] theorem State.modMe_poison (s : State) (f : Strand → Strand) : (s.modMe f).poison = s.poison := rfl
@[simp] theorem State.modMe_tags (s : State) (f : Strand → Strand) : (s.modMe f).tags = s.tags := rfl
@[simp] theorem State.modMe_saved (s : State) (f : Strand → Strand) : (s.modMe f).saved = s.saved := rfl
@[simp] theorem State.modMe_host (s : State) (f : Strand → Strand) : (s.modMe f).host = s.host := rfl
@[simp] theorem State.modMe_rmem (s : State) (f : Strand → Strand) : (s.modMe f).rmem = s.rmem := rfl
@[simp] theorem State.modMe_keyEp (s : State) (f : Strand → Strand) : (s.modMe f).keyEp = s.keyEp := rfl
@[simp] theorem State.modMe_fabOld (s : State) (f : Strand → Strand) : (s.modMe f).fabOld = s.fabOld := rfl
@[simp] theorem State.modMe_issued (s : State) (f : Strand → Strand) : (s.modMe f).issued = s.issued := rfl
@[simp] theorem State.modMe_fifos (s : State) (f : Strand → Strand) : (s.modMe f).fifos = s.fifos := rfl
@[simp] theorem State.modMe_posted (s : State) (f : Strand → Strand) : (s.modMe f).posted = s.posted := rfl
@[simp] theorem State.modMe_shadows (s : State) (f : Strand → Strand) : (s.modMe f).shadows = s.shadows := rfl
@[simp] theorem State.modMe_late (s : State) (f : Strand → Strand) : (s.modMe f).late = s.late := rfl
@[simp] theorem State.modMe_ops (s : State) (f : Strand → Strand) : (s.modMe f).ops = s.ops := rfl
@[simp] theorem State.modMe_dies (s : State) (f : Strand → Strand) : (s.modMe f).dies = s.dies := rfl
@[simp] theorem State.modMe_queues (s : State) (f : Strand → Strand) : (s.modMe f).queues = s.queues := rfl
@[simp] theorem State.modMe_tasks (s : State) (f : Strand → Strand) : (s.modMe f).tasks = s.tasks := rfl
@[simp] theorem State.modMe_running (s : State) (f : Strand → Strand) : (s.modMe f).running = s.running := rfl
@[simp] theorem State.modMe_idle (s : State) (f : Strand → Strand) : (s.modMe f).idle = s.idle := rfl
@[simp] theorem State.modMe_handoffs (s : State) (f : Strand → Strand) : (s.modMe f).handoffs = s.handoffs := rfl
@[simp] theorem State.modMe_cqHeld (s : State) (f : Strand → Strand) : (s.modMe f).cqHeld = s.cqHeld := rfl
@[simp] theorem State.modMe_creqBy (s : State) (f : Strand → Strand) : (s.modMe f).creqBy = s.creqBy := rfl
@[simp] theorem State.modMe_rqTag (s : State) (f : Strand → Strand) : (s.modMe f).rqTag = s.rqTag := rfl
@[simp] theorem State.modMe_toLaunch (s : State) (f : Strand → Strand) : (s.modMe f).toLaunch = s.toLaunch := rfl
@[simp] theorem State.modMe_reports (s : State) (f : Strand → Strand) : (s.modMe f).reports = s.reports := rfl
@[simp] theorem State.modMe_ver (s : State) (f : Strand → Strand) : (s.modMe f).ver = s.ver := rfl
@[simp] theorem State.modMe_msix (s : State) (f : Strand → Strand) : (s.modMe f).msix = s.msix := rfl
@[simp] theorem State.modMe_modsDown (s : State) (f : Strand → Strand) : (s.modMe f).modsDown = s.modsDown := rfl
@[simp] theorem State.modMe_linksDown (s : State) (f : Strand → Strand) : (s.modMe f).linksDown = s.linksDown := rfl
@[simp] theorem State.modMe_fidSet (s : State) (f : Strand → Strand) : (s.modMe f).fidSet = s.fidSet := rfl
@[simp] theorem State.modMe_synced (s : State) (f : Strand → Strand) : (s.modMe f).synced = s.synced := rfl
@[simp] theorem State.modMe_fhold (s : State) (f : Strand → Strand) : (s.modMe f).fhold = s.fhold := rfl
@[simp] theorem State.modMe_slewAt (s : State) (f : Strand → Strand) : (s.modMe f).slewAt = s.slewAt := rfl
@[simp] theorem State.modMe_frzAt (s : State) (f : Strand → Strand) : (s.modMe f).frzAt = s.frzAt := rfl
@[simp] theorem State.modMe_podMap (s : State) (f : Strand → Strand) : (s.modMe f).podMap = s.podMap := rfl
@[simp] theorem State.modMe_hstate (s : State) (f : Strand → Strand) : (s.modMe f).hstate = s.hstate := rfl
@[simp] theorem State.modMe_tgen (s : State) (f : Strand → Strand) : (s.modMe f).tgen = s.tgen := rfl
@[simp] theorem State.modMe_attIdx (s : State) (f : Strand → Strand) : (s.modMe f).attIdx = s.attIdx := rfl
@[simp] theorem State.modMe_attest (s : State) (f : Strand → Strand) : (s.modMe f).attest = s.attest := rfl
@[simp] theorem State.modMe_cstopAt (s : State) (f : Strand → Strand) : (s.modMe f).cstopAt = s.cstopAt := rfl
@[simp] theorem State.modMe_laterT (s : State) (f : Strand → Strand) : (s.modMe f).laterT = s.laterT := rfl
@[simp] theorem State.modMe_slotOld (s : State) (f : Strand → Strand) : (s.modMe f).slotOld = s.slotOld := rfl
@[simp] theorem State.modMe_loadArea (s : State) (f : Strand → Strand) : (s.modMe f).loadArea = s.loadArea := rfl
@[simp] theorem State.modMe_digest (s : State) (f : Strand → Strand) : (s.modMe f).digest = s.digest := rfl
@[simp] theorem State.modMe_vffOld (s : State) (f : Strand → Strand) : (s.modMe f).vffOld = s.vffOld := rfl
@[simp] theorem State.modMe_arriving (s : State) (f : Strand → Strand) : (s.modMe f).arriving = s.arriving := rfl

@[simp] theorem State.dput_time (s : State) (d off : Nat) (v : Word) : (s.dput d off v).time = s.time := rfl
@[simp] theorem State.dput_ftime (s : State) (d off : Nat) (v : Word) : (s.dput d off v).ftime = s.ftime := rfl
@[simp] theorem State.dput_cur (s : State) (d off : Nat) (v : Word) : (s.dput d off v).cur = s.cur := rfl
@[simp] theorem State.dput_agenda (s : State) (d off : Nat) (v : Word) : (s.dput d off v).agenda = s.agenda := rfl
@[simp] theorem State.dput_free (s : State) (d off : Nat) (v : Word) : (s.dput d off v).free = s.free := rfl
@[simp] theorem State.dput_waited (s : State) (d off : Nat) (v : Word) : (s.dput d off v).waited = s.waited := rfl
@[simp] theorem State.dput_nextId (s : State) (d off : Nat) (v : Word) : (s.dput d off v).nextId = s.nextId := rfl
@[simp] theorem State.dput_mem (s : State) (d off : Nat) (v : Word) : (s.dput d off v).mem = s.mem := rfl
@[simp] theorem State.dput_poison (s : State) (d off : Nat) (v : Word) : (s.dput d off v).poison = s.poison := rfl
@[simp] theorem State.dput_tags (s : State) (d off : Nat) (v : Word) : (s.dput d off v).tags = s.tags := rfl
@[simp] theorem State.dput_saved (s : State) (d off : Nat) (v : Word) : (s.dput d off v).saved = s.saved := rfl
@[simp] theorem State.dput_host (s : State) (d off : Nat) (v : Word) : (s.dput d off v).host = s.host := rfl
@[simp] theorem State.dput_rmem (s : State) (d off : Nat) (v : Word) : (s.dput d off v).rmem = s.rmem := rfl
@[simp] theorem State.dput_keyEp (s : State) (d off : Nat) (v : Word) : (s.dput d off v).keyEp = s.keyEp := rfl
@[simp] theorem State.dput_fabOld (s : State) (d off : Nat) (v : Word) : (s.dput d off v).fabOld = s.fabOld := rfl
@[simp] theorem State.dput_strands (s : State) (d off : Nat) (v : Word) : (s.dput d off v).strands = s.strands := rfl
@[simp] theorem State.dput_issued (s : State) (d off : Nat) (v : Word) : (s.dput d off v).issued = s.issued := rfl
@[simp] theorem State.dput_fifos (s : State) (d off : Nat) (v : Word) : (s.dput d off v).fifos = s.fifos := rfl
@[simp] theorem State.dput_posted (s : State) (d off : Nat) (v : Word) : (s.dput d off v).posted = s.posted := rfl
@[simp] theorem State.dput_shadows (s : State) (d off : Nat) (v : Word) : (s.dput d off v).shadows = s.shadows := rfl
@[simp] theorem State.dput_late (s : State) (d off : Nat) (v : Word) : (s.dput d off v).late = s.late := rfl
@[simp] theorem State.dput_ops (s : State) (d off : Nat) (v : Word) : (s.dput d off v).ops = s.ops := rfl
@[simp] theorem State.dput_dies (s : State) (d off : Nat) (v : Word) : (s.dput d off v).dies = s.dies := rfl
@[simp] theorem State.dput_queues (s : State) (d off : Nat) (v : Word) : (s.dput d off v).queues = s.queues := rfl
@[simp] theorem State.dput_tasks (s : State) (d off : Nat) (v : Word) : (s.dput d off v).tasks = s.tasks := rfl
@[simp] theorem State.dput_running (s : State) (d off : Nat) (v : Word) : (s.dput d off v).running = s.running := rfl
@[simp] theorem State.dput_idle (s : State) (d off : Nat) (v : Word) : (s.dput d off v).idle = s.idle := rfl
@[simp] theorem State.dput_handoffs (s : State) (d off : Nat) (v : Word) : (s.dput d off v).handoffs = s.handoffs := rfl
@[simp] theorem State.dput_cqHeld (s : State) (d off : Nat) (v : Word) : (s.dput d off v).cqHeld = s.cqHeld := rfl
@[simp] theorem State.dput_creqBy (s : State) (d off : Nat) (v : Word) : (s.dput d off v).creqBy = s.creqBy := rfl
@[simp] theorem State.dput_rqTag (s : State) (d off : Nat) (v : Word) : (s.dput d off v).rqTag = s.rqTag := rfl
@[simp] theorem State.dput_toLaunch (s : State) (d off : Nat) (v : Word) : (s.dput d off v).toLaunch = s.toLaunch := rfl
@[simp] theorem State.dput_reports (s : State) (d off : Nat) (v : Word) : (s.dput d off v).reports = s.reports := rfl
@[simp] theorem State.dput_ver (s : State) (d off : Nat) (v : Word) : (s.dput d off v).ver = s.ver := rfl
@[simp] theorem State.dput_msix (s : State) (d off : Nat) (v : Word) : (s.dput d off v).msix = s.msix := rfl
@[simp] theorem State.dput_modsDown (s : State) (d off : Nat) (v : Word) : (s.dput d off v).modsDown = s.modsDown := rfl
@[simp] theorem State.dput_linksDown (s : State) (d off : Nat) (v : Word) : (s.dput d off v).linksDown = s.linksDown := rfl
@[simp] theorem State.dput_fidSet (s : State) (d off : Nat) (v : Word) : (s.dput d off v).fidSet = s.fidSet := rfl
@[simp] theorem State.dput_synced (s : State) (d off : Nat) (v : Word) : (s.dput d off v).synced = s.synced := rfl
@[simp] theorem State.dput_fhold (s : State) (d off : Nat) (v : Word) : (s.dput d off v).fhold = s.fhold := rfl
@[simp] theorem State.dput_slewAt (s : State) (d off : Nat) (v : Word) : (s.dput d off v).slewAt = s.slewAt := rfl
@[simp] theorem State.dput_frzAt (s : State) (d off : Nat) (v : Word) : (s.dput d off v).frzAt = s.frzAt := rfl
@[simp] theorem State.dput_podMap (s : State) (d off : Nat) (v : Word) : (s.dput d off v).podMap = s.podMap := rfl
@[simp] theorem State.dput_hstate (s : State) (d off : Nat) (v : Word) : (s.dput d off v).hstate = s.hstate := rfl
@[simp] theorem State.dput_tgen (s : State) (d off : Nat) (v : Word) : (s.dput d off v).tgen = s.tgen := rfl
@[simp] theorem State.dput_attIdx (s : State) (d off : Nat) (v : Word) : (s.dput d off v).attIdx = s.attIdx := rfl
@[simp] theorem State.dput_attest (s : State) (d off : Nat) (v : Word) : (s.dput d off v).attest = s.attest := rfl
@[simp] theorem State.dput_cstopAt (s : State) (d off : Nat) (v : Word) : (s.dput d off v).cstopAt = s.cstopAt := rfl
@[simp] theorem State.dput_laterT (s : State) (d off : Nat) (v : Word) : (s.dput d off v).laterT = s.laterT := rfl
@[simp] theorem State.dput_slotOld (s : State) (d off : Nat) (v : Word) : (s.dput d off v).slotOld = s.slotOld := rfl
@[simp] theorem State.dput_loadArea (s : State) (d off : Nat) (v : Word) : (s.dput d off v).loadArea = s.loadArea := rfl
@[simp] theorem State.dput_digest (s : State) (d off : Nat) (v : Word) : (s.dput d off v).digest = s.digest := rfl
@[simp] theorem State.dput_vffOld (s : State) (d off : Nat) (v : Word) : (s.dput d off v).vffOld = s.vffOld := rfl
@[simp] theorem State.dput_arriving (s : State) (d off : Nat) (v : Word) : (s.dput d off v).arriving = s.arriving := rfl

@[simp] theorem State.setCtx_time (s : State) (ck : Nat) (v : Word) : (s.setCtx ck v).time = s.time := rfl
@[simp] theorem State.setCtx_ftime (s : State) (ck : Nat) (v : Word) : (s.setCtx ck v).ftime = s.ftime := rfl
@[simp] theorem State.setCtx_cur (s : State) (ck : Nat) (v : Word) : (s.setCtx ck v).cur = s.cur := rfl
@[simp] theorem State.setCtx_agenda (s : State) (ck : Nat) (v : Word) : (s.setCtx ck v).agenda = s.agenda := rfl
@[simp] theorem State.setCtx_free (s : State) (ck : Nat) (v : Word) : (s.setCtx ck v).free = s.free := rfl
@[simp] theorem State.setCtx_waited (s : State) (ck : Nat) (v : Word) : (s.setCtx ck v).waited = s.waited := rfl
@[simp] theorem State.setCtx_nextId (s : State) (ck : Nat) (v : Word) : (s.setCtx ck v).nextId = s.nextId := rfl
@[simp] theorem State.setCtx_mem (s : State) (ck : Nat) (v : Word) : (s.setCtx ck v).mem = s.mem := rfl
@[simp] theorem State.setCtx_poison (s : State) (ck : Nat) (v : Word) : (s.setCtx ck v).poison = s.poison := rfl
@[simp] theorem State.setCtx_tags (s : State) (ck : Nat) (v : Word) : (s.setCtx ck v).tags = s.tags := rfl
@[simp] theorem State.setCtx_saved (s : State) (ck : Nat) (v : Word) : (s.setCtx ck v).saved = s.saved := rfl
@[simp] theorem State.setCtx_host (s : State) (ck : Nat) (v : Word) : (s.setCtx ck v).host = s.host := rfl
@[simp] theorem State.setCtx_rmem (s : State) (ck : Nat) (v : Word) : (s.setCtx ck v).rmem = s.rmem := rfl
@[simp] theorem State.setCtx_keyEp (s : State) (ck : Nat) (v : Word) : (s.setCtx ck v).keyEp = s.keyEp := rfl
@[simp] theorem State.setCtx_fabOld (s : State) (ck : Nat) (v : Word) : (s.setCtx ck v).fabOld = s.fabOld := rfl
@[simp] theorem State.setCtx_strands (s : State) (ck : Nat) (v : Word) : (s.setCtx ck v).strands = s.strands := rfl
@[simp] theorem State.setCtx_issued (s : State) (ck : Nat) (v : Word) : (s.setCtx ck v).issued = s.issued := rfl
@[simp] theorem State.setCtx_fifos (s : State) (ck : Nat) (v : Word) : (s.setCtx ck v).fifos = s.fifos := rfl
@[simp] theorem State.setCtx_posted (s : State) (ck : Nat) (v : Word) : (s.setCtx ck v).posted = s.posted := rfl
@[simp] theorem State.setCtx_shadows (s : State) (ck : Nat) (v : Word) : (s.setCtx ck v).shadows = s.shadows := rfl
@[simp] theorem State.setCtx_late (s : State) (ck : Nat) (v : Word) : (s.setCtx ck v).late = s.late := rfl
@[simp] theorem State.setCtx_ops (s : State) (ck : Nat) (v : Word) : (s.setCtx ck v).ops = s.ops := rfl
@[simp] theorem State.setCtx_dies (s : State) (ck : Nat) (v : Word) : (s.setCtx ck v).dies = s.dies := rfl
@[simp] theorem State.setCtx_queues (s : State) (ck : Nat) (v : Word) : (s.setCtx ck v).queues = s.queues := rfl
@[simp] theorem State.setCtx_tasks (s : State) (ck : Nat) (v : Word) : (s.setCtx ck v).tasks = s.tasks := rfl
@[simp] theorem State.setCtx_running (s : State) (ck : Nat) (v : Word) : (s.setCtx ck v).running = s.running := rfl
@[simp] theorem State.setCtx_idle (s : State) (ck : Nat) (v : Word) : (s.setCtx ck v).idle = s.idle := rfl
@[simp] theorem State.setCtx_handoffs (s : State) (ck : Nat) (v : Word) : (s.setCtx ck v).handoffs = s.handoffs := rfl
@[simp] theorem State.setCtx_cqHeld (s : State) (ck : Nat) (v : Word) : (s.setCtx ck v).cqHeld = s.cqHeld := rfl
@[simp] theorem State.setCtx_creqBy (s : State) (ck : Nat) (v : Word) : (s.setCtx ck v).creqBy = s.creqBy := rfl
@[simp] theorem State.setCtx_rqTag (s : State) (ck : Nat) (v : Word) : (s.setCtx ck v).rqTag = s.rqTag := rfl
@[simp] theorem State.setCtx_toLaunch (s : State) (ck : Nat) (v : Word) : (s.setCtx ck v).toLaunch = s.toLaunch := rfl
@[simp] theorem State.setCtx_reports (s : State) (ck : Nat) (v : Word) : (s.setCtx ck v).reports = s.reports := rfl
@[simp] theorem State.setCtx_ver (s : State) (ck : Nat) (v : Word) : (s.setCtx ck v).ver = s.ver := rfl
@[simp] theorem State.setCtx_msix (s : State) (ck : Nat) (v : Word) : (s.setCtx ck v).msix = s.msix := rfl
@[simp] theorem State.setCtx_modsDown (s : State) (ck : Nat) (v : Word) : (s.setCtx ck v).modsDown = s.modsDown := rfl
@[simp] theorem State.setCtx_linksDown (s : State) (ck : Nat) (v : Word) : (s.setCtx ck v).linksDown = s.linksDown := rfl
@[simp] theorem State.setCtx_fidSet (s : State) (ck : Nat) (v : Word) : (s.setCtx ck v).fidSet = s.fidSet := rfl
@[simp] theorem State.setCtx_synced (s : State) (ck : Nat) (v : Word) : (s.setCtx ck v).synced = s.synced := rfl
@[simp] theorem State.setCtx_fhold (s : State) (ck : Nat) (v : Word) : (s.setCtx ck v).fhold = s.fhold := rfl
@[simp] theorem State.setCtx_slewAt (s : State) (ck : Nat) (v : Word) : (s.setCtx ck v).slewAt = s.slewAt := rfl
@[simp] theorem State.setCtx_frzAt (s : State) (ck : Nat) (v : Word) : (s.setCtx ck v).frzAt = s.frzAt := rfl
@[simp] theorem State.setCtx_podMap (s : State) (ck : Nat) (v : Word) : (s.setCtx ck v).podMap = s.podMap := rfl
@[simp] theorem State.setCtx_hstate (s : State) (ck : Nat) (v : Word) : (s.setCtx ck v).hstate = s.hstate := rfl
@[simp] theorem State.setCtx_tgen (s : State) (ck : Nat) (v : Word) : (s.setCtx ck v).tgen = s.tgen := rfl
@[simp] theorem State.setCtx_attIdx (s : State) (ck : Nat) (v : Word) : (s.setCtx ck v).attIdx = s.attIdx := rfl
@[simp] theorem State.setCtx_attest (s : State) (ck : Nat) (v : Word) : (s.setCtx ck v).attest = s.attest := rfl
@[simp] theorem State.setCtx_cstopAt (s : State) (ck : Nat) (v : Word) : (s.setCtx ck v).cstopAt = s.cstopAt := rfl
@[simp] theorem State.setCtx_laterT (s : State) (ck : Nat) (v : Word) : (s.setCtx ck v).laterT = s.laterT := rfl
@[simp] theorem State.setCtx_slotOld (s : State) (ck : Nat) (v : Word) : (s.setCtx ck v).slotOld = s.slotOld := rfl
@[simp] theorem State.setCtx_loadArea (s : State) (ck : Nat) (v : Word) : (s.setCtx ck v).loadArea = s.loadArea := rfl
@[simp] theorem State.setCtx_digest (s : State) (ck : Nat) (v : Word) : (s.setCtx ck v).digest = s.digest := rfl
@[simp] theorem State.setCtx_vffOld (s : State) (ck : Nat) (v : Word) : (s.setCtx ck v).vffOld = s.vffOld := rfl
@[simp] theorem State.setCtx_arriving (s : State) (ck : Nat) (v : Word) : (s.setCtx ck v).arriving = s.arriving := rfl

@[simp] theorem State.setDie_time (s : State) (d : Nat) (x : Die) : (s.setDie d x).time = s.time := rfl
@[simp] theorem State.setDie_ftime (s : State) (d : Nat) (x : Die) : (s.setDie d x).ftime = s.ftime := rfl
@[simp] theorem State.setDie_cur (s : State) (d : Nat) (x : Die) : (s.setDie d x).cur = s.cur := rfl
@[simp] theorem State.setDie_agenda (s : State) (d : Nat) (x : Die) : (s.setDie d x).agenda = s.agenda := rfl
@[simp] theorem State.setDie_free (s : State) (d : Nat) (x : Die) : (s.setDie d x).free = s.free := rfl
@[simp] theorem State.setDie_waited (s : State) (d : Nat) (x : Die) : (s.setDie d x).waited = s.waited := rfl
@[simp] theorem State.setDie_nextId (s : State) (d : Nat) (x : Die) : (s.setDie d x).nextId = s.nextId := rfl
@[simp] theorem State.setDie_dev (s : State) (d : Nat) (x : Die) : (s.setDie d x).dev = s.dev := rfl
@[simp] theorem State.setDie_mem (s : State) (d : Nat) (x : Die) : (s.setDie d x).mem = s.mem := rfl
@[simp] theorem State.setDie_poison (s : State) (d : Nat) (x : Die) : (s.setDie d x).poison = s.poison := rfl
@[simp] theorem State.setDie_tags (s : State) (d : Nat) (x : Die) : (s.setDie d x).tags = s.tags := rfl
@[simp] theorem State.setDie_saved (s : State) (d : Nat) (x : Die) : (s.setDie d x).saved = s.saved := rfl
@[simp] theorem State.setDie_host (s : State) (d : Nat) (x : Die) : (s.setDie d x).host = s.host := rfl
@[simp] theorem State.setDie_rmem (s : State) (d : Nat) (x : Die) : (s.setDie d x).rmem = s.rmem := rfl
@[simp] theorem State.setDie_keyEp (s : State) (d : Nat) (x : Die) : (s.setDie d x).keyEp = s.keyEp := rfl
@[simp] theorem State.setDie_fabOld (s : State) (d : Nat) (x : Die) : (s.setDie d x).fabOld = s.fabOld := rfl
@[simp] theorem State.setDie_strands (s : State) (d : Nat) (x : Die) : (s.setDie d x).strands = s.strands := rfl
@[simp] theorem State.setDie_issued (s : State) (d : Nat) (x : Die) : (s.setDie d x).issued = s.issued := rfl
@[simp] theorem State.setDie_fifos (s : State) (d : Nat) (x : Die) : (s.setDie d x).fifos = s.fifos := rfl
@[simp] theorem State.setDie_posted (s : State) (d : Nat) (x : Die) : (s.setDie d x).posted = s.posted := rfl
@[simp] theorem State.setDie_shadows (s : State) (d : Nat) (x : Die) : (s.setDie d x).shadows = s.shadows := rfl
@[simp] theorem State.setDie_late (s : State) (d : Nat) (x : Die) : (s.setDie d x).late = s.late := rfl
@[simp] theorem State.setDie_ops (s : State) (d : Nat) (x : Die) : (s.setDie d x).ops = s.ops := rfl
@[simp] theorem State.setDie_queues (s : State) (d : Nat) (x : Die) : (s.setDie d x).queues = s.queues := rfl
@[simp] theorem State.setDie_tasks (s : State) (d : Nat) (x : Die) : (s.setDie d x).tasks = s.tasks := rfl
@[simp] theorem State.setDie_running (s : State) (d : Nat) (x : Die) : (s.setDie d x).running = s.running := rfl
@[simp] theorem State.setDie_idle (s : State) (d : Nat) (x : Die) : (s.setDie d x).idle = s.idle := rfl
@[simp] theorem State.setDie_handoffs (s : State) (d : Nat) (x : Die) : (s.setDie d x).handoffs = s.handoffs := rfl
@[simp] theorem State.setDie_cqHeld (s : State) (d : Nat) (x : Die) : (s.setDie d x).cqHeld = s.cqHeld := rfl
@[simp] theorem State.setDie_creqBy (s : State) (d : Nat) (x : Die) : (s.setDie d x).creqBy = s.creqBy := rfl
@[simp] theorem State.setDie_rqTag (s : State) (d : Nat) (x : Die) : (s.setDie d x).rqTag = s.rqTag := rfl
@[simp] theorem State.setDie_toLaunch (s : State) (d : Nat) (x : Die) : (s.setDie d x).toLaunch = s.toLaunch := rfl
@[simp] theorem State.setDie_reports (s : State) (d : Nat) (x : Die) : (s.setDie d x).reports = s.reports := rfl
@[simp] theorem State.setDie_ver (s : State) (d : Nat) (x : Die) : (s.setDie d x).ver = s.ver := rfl
@[simp] theorem State.setDie_msix (s : State) (d : Nat) (x : Die) : (s.setDie d x).msix = s.msix := rfl
@[simp] theorem State.setDie_modsDown (s : State) (d : Nat) (x : Die) : (s.setDie d x).modsDown = s.modsDown := rfl
@[simp] theorem State.setDie_linksDown (s : State) (d : Nat) (x : Die) : (s.setDie d x).linksDown = s.linksDown := rfl
@[simp] theorem State.setDie_fidSet (s : State) (d : Nat) (x : Die) : (s.setDie d x).fidSet = s.fidSet := rfl
@[simp] theorem State.setDie_synced (s : State) (d : Nat) (x : Die) : (s.setDie d x).synced = s.synced := rfl
@[simp] theorem State.setDie_fhold (s : State) (d : Nat) (x : Die) : (s.setDie d x).fhold = s.fhold := rfl
@[simp] theorem State.setDie_slewAt (s : State) (d : Nat) (x : Die) : (s.setDie d x).slewAt = s.slewAt := rfl
@[simp] theorem State.setDie_frzAt (s : State) (d : Nat) (x : Die) : (s.setDie d x).frzAt = s.frzAt := rfl
@[simp] theorem State.setDie_podMap (s : State) (d : Nat) (x : Die) : (s.setDie d x).podMap = s.podMap := rfl
@[simp] theorem State.setDie_hstate (s : State) (d : Nat) (x : Die) : (s.setDie d x).hstate = s.hstate := rfl
@[simp] theorem State.setDie_tgen (s : State) (d : Nat) (x : Die) : (s.setDie d x).tgen = s.tgen := rfl
@[simp] theorem State.setDie_attIdx (s : State) (d : Nat) (x : Die) : (s.setDie d x).attIdx = s.attIdx := rfl
@[simp] theorem State.setDie_attest (s : State) (d : Nat) (x : Die) : (s.setDie d x).attest = s.attest := rfl
@[simp] theorem State.setDie_cstopAt (s : State) (d : Nat) (x : Die) : (s.setDie d x).cstopAt = s.cstopAt := rfl
@[simp] theorem State.setDie_laterT (s : State) (d : Nat) (x : Die) : (s.setDie d x).laterT = s.laterT := rfl
@[simp] theorem State.setDie_slotOld (s : State) (d : Nat) (x : Die) : (s.setDie d x).slotOld = s.slotOld := rfl
@[simp] theorem State.setDie_loadArea (s : State) (d : Nat) (x : Die) : (s.setDie d x).loadArea = s.loadArea := rfl
@[simp] theorem State.setDie_digest (s : State) (d : Nat) (x : Die) : (s.setDie d x).digest = s.digest := rfl
@[simp] theorem State.setDie_vffOld (s : State) (d : Nat) (x : Die) : (s.setDie d x).vffOld = s.vffOld := rfl
@[simp] theorem State.setDie_arriving (s : State) (d : Nat) (x : Die) : (s.setDie d x).arriving = s.arriving := rfl

@[simp] theorem State.modDie_time (s : State) (d : Nat) (f : Die → Die) : (s.modDie d f).time = s.time := rfl
@[simp] theorem State.modDie_ftime (s : State) (d : Nat) (f : Die → Die) : (s.modDie d f).ftime = s.ftime := rfl
@[simp] theorem State.modDie_cur (s : State) (d : Nat) (f : Die → Die) : (s.modDie d f).cur = s.cur := rfl
@[simp] theorem State.modDie_agenda (s : State) (d : Nat) (f : Die → Die) : (s.modDie d f).agenda = s.agenda := rfl
@[simp] theorem State.modDie_free (s : State) (d : Nat) (f : Die → Die) : (s.modDie d f).free = s.free := rfl
@[simp] theorem State.modDie_waited (s : State) (d : Nat) (f : Die → Die) : (s.modDie d f).waited = s.waited := rfl
@[simp] theorem State.modDie_nextId (s : State) (d : Nat) (f : Die → Die) : (s.modDie d f).nextId = s.nextId := rfl
@[simp] theorem State.modDie_dev (s : State) (d : Nat) (f : Die → Die) : (s.modDie d f).dev = s.dev := rfl
@[simp] theorem State.modDie_mem (s : State) (d : Nat) (f : Die → Die) : (s.modDie d f).mem = s.mem := rfl
@[simp] theorem State.modDie_poison (s : State) (d : Nat) (f : Die → Die) : (s.modDie d f).poison = s.poison := rfl
@[simp] theorem State.modDie_tags (s : State) (d : Nat) (f : Die → Die) : (s.modDie d f).tags = s.tags := rfl
@[simp] theorem State.modDie_saved (s : State) (d : Nat) (f : Die → Die) : (s.modDie d f).saved = s.saved := rfl
@[simp] theorem State.modDie_host (s : State) (d : Nat) (f : Die → Die) : (s.modDie d f).host = s.host := rfl
@[simp] theorem State.modDie_rmem (s : State) (d : Nat) (f : Die → Die) : (s.modDie d f).rmem = s.rmem := rfl
@[simp] theorem State.modDie_keyEp (s : State) (d : Nat) (f : Die → Die) : (s.modDie d f).keyEp = s.keyEp := rfl
@[simp] theorem State.modDie_fabOld (s : State) (d : Nat) (f : Die → Die) : (s.modDie d f).fabOld = s.fabOld := rfl
@[simp] theorem State.modDie_strands (s : State) (d : Nat) (f : Die → Die) : (s.modDie d f).strands = s.strands := rfl
@[simp] theorem State.modDie_issued (s : State) (d : Nat) (f : Die → Die) : (s.modDie d f).issued = s.issued := rfl
@[simp] theorem State.modDie_fifos (s : State) (d : Nat) (f : Die → Die) : (s.modDie d f).fifos = s.fifos := rfl
@[simp] theorem State.modDie_posted (s : State) (d : Nat) (f : Die → Die) : (s.modDie d f).posted = s.posted := rfl
@[simp] theorem State.modDie_shadows (s : State) (d : Nat) (f : Die → Die) : (s.modDie d f).shadows = s.shadows := rfl
@[simp] theorem State.modDie_late (s : State) (d : Nat) (f : Die → Die) : (s.modDie d f).late = s.late := rfl
@[simp] theorem State.modDie_ops (s : State) (d : Nat) (f : Die → Die) : (s.modDie d f).ops = s.ops := rfl
@[simp] theorem State.modDie_queues (s : State) (d : Nat) (f : Die → Die) : (s.modDie d f).queues = s.queues := rfl
@[simp] theorem State.modDie_tasks (s : State) (d : Nat) (f : Die → Die) : (s.modDie d f).tasks = s.tasks := rfl
@[simp] theorem State.modDie_running (s : State) (d : Nat) (f : Die → Die) : (s.modDie d f).running = s.running := rfl
@[simp] theorem State.modDie_idle (s : State) (d : Nat) (f : Die → Die) : (s.modDie d f).idle = s.idle := rfl
@[simp] theorem State.modDie_handoffs (s : State) (d : Nat) (f : Die → Die) : (s.modDie d f).handoffs = s.handoffs := rfl
@[simp] theorem State.modDie_cqHeld (s : State) (d : Nat) (f : Die → Die) : (s.modDie d f).cqHeld = s.cqHeld := rfl
@[simp] theorem State.modDie_creqBy (s : State) (d : Nat) (f : Die → Die) : (s.modDie d f).creqBy = s.creqBy := rfl
@[simp] theorem State.modDie_rqTag (s : State) (d : Nat) (f : Die → Die) : (s.modDie d f).rqTag = s.rqTag := rfl
@[simp] theorem State.modDie_toLaunch (s : State) (d : Nat) (f : Die → Die) : (s.modDie d f).toLaunch = s.toLaunch := rfl
@[simp] theorem State.modDie_reports (s : State) (d : Nat) (f : Die → Die) : (s.modDie d f).reports = s.reports := rfl
@[simp] theorem State.modDie_ver (s : State) (d : Nat) (f : Die → Die) : (s.modDie d f).ver = s.ver := rfl
@[simp] theorem State.modDie_msix (s : State) (d : Nat) (f : Die → Die) : (s.modDie d f).msix = s.msix := rfl
@[simp] theorem State.modDie_modsDown (s : State) (d : Nat) (f : Die → Die) : (s.modDie d f).modsDown = s.modsDown := rfl
@[simp] theorem State.modDie_linksDown (s : State) (d : Nat) (f : Die → Die) : (s.modDie d f).linksDown = s.linksDown := rfl
@[simp] theorem State.modDie_fidSet (s : State) (d : Nat) (f : Die → Die) : (s.modDie d f).fidSet = s.fidSet := rfl
@[simp] theorem State.modDie_synced (s : State) (d : Nat) (f : Die → Die) : (s.modDie d f).synced = s.synced := rfl
@[simp] theorem State.modDie_fhold (s : State) (d : Nat) (f : Die → Die) : (s.modDie d f).fhold = s.fhold := rfl
@[simp] theorem State.modDie_slewAt (s : State) (d : Nat) (f : Die → Die) : (s.modDie d f).slewAt = s.slewAt := rfl
@[simp] theorem State.modDie_frzAt (s : State) (d : Nat) (f : Die → Die) : (s.modDie d f).frzAt = s.frzAt := rfl
@[simp] theorem State.modDie_podMap (s : State) (d : Nat) (f : Die → Die) : (s.modDie d f).podMap = s.podMap := rfl
@[simp] theorem State.modDie_hstate (s : State) (d : Nat) (f : Die → Die) : (s.modDie d f).hstate = s.hstate := rfl
@[simp] theorem State.modDie_tgen (s : State) (d : Nat) (f : Die → Die) : (s.modDie d f).tgen = s.tgen := rfl
@[simp] theorem State.modDie_attIdx (s : State) (d : Nat) (f : Die → Die) : (s.modDie d f).attIdx = s.attIdx := rfl
@[simp] theorem State.modDie_attest (s : State) (d : Nat) (f : Die → Die) : (s.modDie d f).attest = s.attest := rfl
@[simp] theorem State.modDie_cstopAt (s : State) (d : Nat) (f : Die → Die) : (s.modDie d f).cstopAt = s.cstopAt := rfl
@[simp] theorem State.modDie_laterT (s : State) (d : Nat) (f : Die → Die) : (s.modDie d f).laterT = s.laterT := rfl
@[simp] theorem State.modDie_slotOld (s : State) (d : Nat) (f : Die → Die) : (s.modDie d f).slotOld = s.slotOld := rfl
@[simp] theorem State.modDie_loadArea (s : State) (d : Nat) (f : Die → Die) : (s.modDie d f).loadArea = s.loadArea := rfl
@[simp] theorem State.modDie_digest (s : State) (d : Nat) (f : Die → Die) : (s.modDie d f).digest = s.digest := rfl
@[simp] theorem State.modDie_vffOld (s : State) (d : Nat) (f : Die → Die) : (s.modDie d f).vffOld = s.vffOld := rfl
@[simp] theorem State.modDie_arriving (s : State) (d : Nat) (f : Die → Die) : (s.modDie d f).arriving = s.arriving := rfl

@[simp] theorem State.setOp_time (s : State) (o : Op) : (s.setOp o).time = s.time := rfl
@[simp] theorem State.setOp_ftime (s : State) (o : Op) : (s.setOp o).ftime = s.ftime := rfl
@[simp] theorem State.setOp_cur (s : State) (o : Op) : (s.setOp o).cur = s.cur := rfl
@[simp] theorem State.setOp_agenda (s : State) (o : Op) : (s.setOp o).agenda = s.agenda := rfl
@[simp] theorem State.setOp_free (s : State) (o : Op) : (s.setOp o).free = s.free := rfl
@[simp] theorem State.setOp_waited (s : State) (o : Op) : (s.setOp o).waited = s.waited := rfl
@[simp] theorem State.setOp_nextId (s : State) (o : Op) : (s.setOp o).nextId = s.nextId := rfl
@[simp] theorem State.setOp_dev (s : State) (o : Op) : (s.setOp o).dev = s.dev := rfl
@[simp] theorem State.setOp_mem (s : State) (o : Op) : (s.setOp o).mem = s.mem := rfl
@[simp] theorem State.setOp_poison (s : State) (o : Op) : (s.setOp o).poison = s.poison := rfl
@[simp] theorem State.setOp_tags (s : State) (o : Op) : (s.setOp o).tags = s.tags := rfl
@[simp] theorem State.setOp_saved (s : State) (o : Op) : (s.setOp o).saved = s.saved := rfl
@[simp] theorem State.setOp_host (s : State) (o : Op) : (s.setOp o).host = s.host := rfl
@[simp] theorem State.setOp_rmem (s : State) (o : Op) : (s.setOp o).rmem = s.rmem := rfl
@[simp] theorem State.setOp_keyEp (s : State) (o : Op) : (s.setOp o).keyEp = s.keyEp := rfl
@[simp] theorem State.setOp_fabOld (s : State) (o : Op) : (s.setOp o).fabOld = s.fabOld := rfl
@[simp] theorem State.setOp_strands (s : State) (o : Op) : (s.setOp o).strands = s.strands := rfl
@[simp] theorem State.setOp_issued (s : State) (o : Op) : (s.setOp o).issued = s.issued := rfl
@[simp] theorem State.setOp_fifos (s : State) (o : Op) : (s.setOp o).fifos = s.fifos := rfl
@[simp] theorem State.setOp_posted (s : State) (o : Op) : (s.setOp o).posted = s.posted := rfl
@[simp] theorem State.setOp_shadows (s : State) (o : Op) : (s.setOp o).shadows = s.shadows := rfl
@[simp] theorem State.setOp_late (s : State) (o : Op) : (s.setOp o).late = s.late := rfl
@[simp] theorem State.setOp_dies (s : State) (o : Op) : (s.setOp o).dies = s.dies := rfl
@[simp] theorem State.setOp_queues (s : State) (o : Op) : (s.setOp o).queues = s.queues := rfl
@[simp] theorem State.setOp_tasks (s : State) (o : Op) : (s.setOp o).tasks = s.tasks := rfl
@[simp] theorem State.setOp_running (s : State) (o : Op) : (s.setOp o).running = s.running := rfl
@[simp] theorem State.setOp_idle (s : State) (o : Op) : (s.setOp o).idle = s.idle := rfl
@[simp] theorem State.setOp_handoffs (s : State) (o : Op) : (s.setOp o).handoffs = s.handoffs := rfl
@[simp] theorem State.setOp_cqHeld (s : State) (o : Op) : (s.setOp o).cqHeld = s.cqHeld := rfl
@[simp] theorem State.setOp_creqBy (s : State) (o : Op) : (s.setOp o).creqBy = s.creqBy := rfl
@[simp] theorem State.setOp_rqTag (s : State) (o : Op) : (s.setOp o).rqTag = s.rqTag := rfl
@[simp] theorem State.setOp_toLaunch (s : State) (o : Op) : (s.setOp o).toLaunch = s.toLaunch := rfl
@[simp] theorem State.setOp_reports (s : State) (o : Op) : (s.setOp o).reports = s.reports := rfl
@[simp] theorem State.setOp_ver (s : State) (o : Op) : (s.setOp o).ver = s.ver := rfl
@[simp] theorem State.setOp_msix (s : State) (o : Op) : (s.setOp o).msix = s.msix := rfl
@[simp] theorem State.setOp_modsDown (s : State) (o : Op) : (s.setOp o).modsDown = s.modsDown := rfl
@[simp] theorem State.setOp_linksDown (s : State) (o : Op) : (s.setOp o).linksDown = s.linksDown := rfl
@[simp] theorem State.setOp_fidSet (s : State) (o : Op) : (s.setOp o).fidSet = s.fidSet := rfl
@[simp] theorem State.setOp_synced (s : State) (o : Op) : (s.setOp o).synced = s.synced := rfl
@[simp] theorem State.setOp_fhold (s : State) (o : Op) : (s.setOp o).fhold = s.fhold := rfl
@[simp] theorem State.setOp_slewAt (s : State) (o : Op) : (s.setOp o).slewAt = s.slewAt := rfl
@[simp] theorem State.setOp_frzAt (s : State) (o : Op) : (s.setOp o).frzAt = s.frzAt := rfl
@[simp] theorem State.setOp_podMap (s : State) (o : Op) : (s.setOp o).podMap = s.podMap := rfl
@[simp] theorem State.setOp_hstate (s : State) (o : Op) : (s.setOp o).hstate = s.hstate := rfl
@[simp] theorem State.setOp_tgen (s : State) (o : Op) : (s.setOp o).tgen = s.tgen := rfl
@[simp] theorem State.setOp_attIdx (s : State) (o : Op) : (s.setOp o).attIdx = s.attIdx := rfl
@[simp] theorem State.setOp_attest (s : State) (o : Op) : (s.setOp o).attest = s.attest := rfl
@[simp] theorem State.setOp_cstopAt (s : State) (o : Op) : (s.setOp o).cstopAt = s.cstopAt := rfl
@[simp] theorem State.setOp_laterT (s : State) (o : Op) : (s.setOp o).laterT = s.laterT := rfl
@[simp] theorem State.setOp_slotOld (s : State) (o : Op) : (s.setOp o).slotOld = s.slotOld := rfl
@[simp] theorem State.setOp_loadArea (s : State) (o : Op) : (s.setOp o).loadArea = s.loadArea := rfl
@[simp] theorem State.setOp_digest (s : State) (o : Op) : (s.setOp o).digest = s.digest := rfl
@[simp] theorem State.setOp_vffOld (s : State) (o : Op) : (s.setOp o).vffOld = s.vffOld := rfl
@[simp] theorem State.setOp_arriving (s : State) (o : Op) : (s.setOp o).arriving = s.arriving := rfl

@[simp] theorem State.dropOp_time (s : State) (id : Nat) : (s.dropOp id).time = s.time := rfl
@[simp] theorem State.dropOp_ftime (s : State) (id : Nat) : (s.dropOp id).ftime = s.ftime := rfl
@[simp] theorem State.dropOp_cur (s : State) (id : Nat) : (s.dropOp id).cur = s.cur := rfl
@[simp] theorem State.dropOp_agenda (s : State) (id : Nat) : (s.dropOp id).agenda = s.agenda := rfl
@[simp] theorem State.dropOp_free (s : State) (id : Nat) : (s.dropOp id).free = s.free := rfl
@[simp] theorem State.dropOp_waited (s : State) (id : Nat) : (s.dropOp id).waited = s.waited := rfl
@[simp] theorem State.dropOp_nextId (s : State) (id : Nat) : (s.dropOp id).nextId = s.nextId := rfl
@[simp] theorem State.dropOp_dev (s : State) (id : Nat) : (s.dropOp id).dev = s.dev := rfl
@[simp] theorem State.dropOp_mem (s : State) (id : Nat) : (s.dropOp id).mem = s.mem := rfl
@[simp] theorem State.dropOp_poison (s : State) (id : Nat) : (s.dropOp id).poison = s.poison := rfl
@[simp] theorem State.dropOp_tags (s : State) (id : Nat) : (s.dropOp id).tags = s.tags := rfl
@[simp] theorem State.dropOp_saved (s : State) (id : Nat) : (s.dropOp id).saved = s.saved := rfl
@[simp] theorem State.dropOp_host (s : State) (id : Nat) : (s.dropOp id).host = s.host := rfl
@[simp] theorem State.dropOp_rmem (s : State) (id : Nat) : (s.dropOp id).rmem = s.rmem := rfl
@[simp] theorem State.dropOp_keyEp (s : State) (id : Nat) : (s.dropOp id).keyEp = s.keyEp := rfl
@[simp] theorem State.dropOp_fabOld (s : State) (id : Nat) : (s.dropOp id).fabOld = s.fabOld := rfl
@[simp] theorem State.dropOp_strands (s : State) (id : Nat) : (s.dropOp id).strands = s.strands := rfl
@[simp] theorem State.dropOp_issued (s : State) (id : Nat) : (s.dropOp id).issued = s.issued := rfl
@[simp] theorem State.dropOp_fifos (s : State) (id : Nat) : (s.dropOp id).fifos = s.fifos := rfl
@[simp] theorem State.dropOp_posted (s : State) (id : Nat) : (s.dropOp id).posted = s.posted := rfl
@[simp] theorem State.dropOp_shadows (s : State) (id : Nat) : (s.dropOp id).shadows = s.shadows := rfl
@[simp] theorem State.dropOp_late (s : State) (id : Nat) : (s.dropOp id).late = s.late := rfl
@[simp] theorem State.dropOp_dies (s : State) (id : Nat) : (s.dropOp id).dies = s.dies := rfl
@[simp] theorem State.dropOp_queues (s : State) (id : Nat) : (s.dropOp id).queues = s.queues := rfl
@[simp] theorem State.dropOp_tasks (s : State) (id : Nat) : (s.dropOp id).tasks = s.tasks := rfl
@[simp] theorem State.dropOp_running (s : State) (id : Nat) : (s.dropOp id).running = s.running := rfl
@[simp] theorem State.dropOp_idle (s : State) (id : Nat) : (s.dropOp id).idle = s.idle := rfl
@[simp] theorem State.dropOp_handoffs (s : State) (id : Nat) : (s.dropOp id).handoffs = s.handoffs := rfl
@[simp] theorem State.dropOp_cqHeld (s : State) (id : Nat) : (s.dropOp id).cqHeld = s.cqHeld := rfl
@[simp] theorem State.dropOp_creqBy (s : State) (id : Nat) : (s.dropOp id).creqBy = s.creqBy := rfl
@[simp] theorem State.dropOp_rqTag (s : State) (id : Nat) : (s.dropOp id).rqTag = s.rqTag := rfl
@[simp] theorem State.dropOp_toLaunch (s : State) (id : Nat) : (s.dropOp id).toLaunch = s.toLaunch := rfl
@[simp] theorem State.dropOp_reports (s : State) (id : Nat) : (s.dropOp id).reports = s.reports := rfl
@[simp] theorem State.dropOp_ver (s : State) (id : Nat) : (s.dropOp id).ver = s.ver := rfl
@[simp] theorem State.dropOp_msix (s : State) (id : Nat) : (s.dropOp id).msix = s.msix := rfl
@[simp] theorem State.dropOp_modsDown (s : State) (id : Nat) : (s.dropOp id).modsDown = s.modsDown := rfl
@[simp] theorem State.dropOp_linksDown (s : State) (id : Nat) : (s.dropOp id).linksDown = s.linksDown := rfl
@[simp] theorem State.dropOp_fidSet (s : State) (id : Nat) : (s.dropOp id).fidSet = s.fidSet := rfl
@[simp] theorem State.dropOp_synced (s : State) (id : Nat) : (s.dropOp id).synced = s.synced := rfl
@[simp] theorem State.dropOp_fhold (s : State) (id : Nat) : (s.dropOp id).fhold = s.fhold := rfl
@[simp] theorem State.dropOp_slewAt (s : State) (id : Nat) : (s.dropOp id).slewAt = s.slewAt := rfl
@[simp] theorem State.dropOp_frzAt (s : State) (id : Nat) : (s.dropOp id).frzAt = s.frzAt := rfl
@[simp] theorem State.dropOp_podMap (s : State) (id : Nat) : (s.dropOp id).podMap = s.podMap := rfl
@[simp] theorem State.dropOp_hstate (s : State) (id : Nat) : (s.dropOp id).hstate = s.hstate := rfl
@[simp] theorem State.dropOp_tgen (s : State) (id : Nat) : (s.dropOp id).tgen = s.tgen := rfl
@[simp] theorem State.dropOp_attIdx (s : State) (id : Nat) : (s.dropOp id).attIdx = s.attIdx := rfl
@[simp] theorem State.dropOp_attest (s : State) (id : Nat) : (s.dropOp id).attest = s.attest := rfl
@[simp] theorem State.dropOp_cstopAt (s : State) (id : Nat) : (s.dropOp id).cstopAt = s.cstopAt := rfl
@[simp] theorem State.dropOp_laterT (s : State) (id : Nat) : (s.dropOp id).laterT = s.laterT := rfl
@[simp] theorem State.dropOp_slotOld (s : State) (id : Nat) : (s.dropOp id).slotOld = s.slotOld := rfl
@[simp] theorem State.dropOp_loadArea (s : State) (id : Nat) : (s.dropOp id).loadArea = s.loadArea := rfl
@[simp] theorem State.dropOp_digest (s : State) (id : Nat) : (s.dropOp id).digest = s.digest := rfl
@[simp] theorem State.dropOp_vffOld (s : State) (id : Nat) : (s.dropOp id).vffOld = s.vffOld := rfl
@[simp] theorem State.dropOp_arriving (s : State) (id : Nat) : (s.dropOp id).arriving = s.arriving := rfl

@[simp] theorem Strand.setEng_sid (st : Strand) (e : Engine) (x : EStream) : (st.setEng e x).sid = st.sid := rfl
@[simp] theorem Strand.setEng_s (st : Strand) (e : Engine) (x : EStream) : (st.setEng e x).s = st.s := rfl
@[simp] theorem Strand.setEng_a (st : Strand) (e : Engine) (x : EStream) : (st.setEng e x).a = st.a := rfl
@[simp] theorem Strand.setEng_amark (st : Strand) (e : Engine) (x : EStream) : (st.setEng e x).amark = st.amark := rfl
@[simp] theorem Strand.setEng_v (st : Strand) (e : Engine) (x : EStream) : (st.setEng e x).v = st.v := rfl
@[simp] theorem Strand.setEng_vmark (st : Strand) (e : Engine) (x : EStream) : (st.setEng e x).vmark = st.vmark := rfl
@[simp] theorem Strand.setEng_m (st : Strand) (e : Engine) (x : EStream) : (st.setEng e x).m = st.m := rfl
@[simp] theorem Strand.setEng_z (st : Strand) (e : Engine) (x : EStream) : (st.setEng e x).z = st.z := rfl
@[simp] theorem Strand.setEng_ztag (st : Strand) (e : Engine) (x : EStream) : (st.setEng e x).ztag = st.ztag := rfl
@[simp] theorem Strand.setEng_accp (st : Strand) (e : Engine) (x : EStream) : (st.setEng e x).accp = st.accp := rfl
@[simp] theorem Strand.setEng_q (st : Strand) (e : Engine) (x : EStream) : (st.setEng e x).q = st.q := rfl
@[simp] theorem Strand.setEng_h (st : Strand) (e : Engine) (x : EStream) : (st.setEng e x).h = st.h := rfl
@[simp] theorem Strand.setEng_n (st : Strand) (e : Engine) (x : EStream) : (st.setEng e x).n = st.n := rfl
@[simp] theorem Strand.setEng_rstack (st : Strand) (e : Engine) (x : EStream) : (st.setEng e x).rstack = st.rstack := rfl
@[simp] theorem Strand.setEng_rsdep (st : Strand) (e : Engine) (x : EStream) : (st.setEng e x).rsdep = st.rsdep := rfl
@[simp] theorem Strand.setEng_rsbase (st : Strand) (e : Engine) (x : EStream) : (st.setEng e x).rsbase = st.rsbase := rfl
@[simp] theorem Strand.setEng_prioc (st : Strand) (e : Engine) (x : EStream) : (st.setEng e x).prioc = st.prioc := rfl
@[simp] theorem Strand.setEng_slipw (st : Strand) (e : Engine) (x : EStream) : (st.setEng e x).slipw = st.slipw := rfl
@[simp] theorem Strand.setEng_fstat (st : Strand) (e : Engine) (x : EStream) : (st.setEng e x).fstat = st.fstat := rfl
@[simp] theorem Strand.setEng_fstat0 (st : Strand) (e : Engine) (x : EStream) : (st.setEng e x).fstat0 = st.fstat0 := rfl
@[simp] theorem Strand.setEng_vshape (st : Strand) (e : Engine) (x : EStream) : (st.setEng e x).vshape = st.vshape := rfl
@[simp] theorem Strand.setEng_rotb (st : Strand) (e : Engine) (x : EStream) : (st.setEng e x).rotb = st.rotb := rfl
@[simp] theorem Strand.setEng_ashape (st : Strand) (e : Engine) (x : EStream) : (st.setEng e x).ashape = st.ashape := rfl
@[simp] theorem Strand.setEng_tgb (st : Strand) (e : Engine) (x : EStream) : (st.setEng e x).tgb = st.tgb := rfl
@[simp] theorem Strand.setEng_phs (st : Strand) (e : Engine) (x : EStream) : (st.setEng e x).phs = st.phs := rfl
@[simp] theorem Strand.setEng_cerr (st : Strand) (e : Engine) (x : EStream) : (st.setEng e x).cerr = st.cerr := rfl
@[simp] theorem Strand.setEng_dq (st : Strand) (e : Engine) (x : EStream) : (st.setEng e x).dq = st.dq := rfl
@[simp] theorem Strand.setEng_dqbase (st : Strand) (e : Engine) (x : EStream) : (st.setEng e x).dqbase = st.dqbase := rfl
@[simp] theorem Strand.setEng_pbuf (st : Strand) (e : Engine) (x : EStream) : (st.setEng e x).pbuf = st.pbuf := rfl
@[simp] theorem Strand.setEng_loads (st : Strand) (e : Engine) (x : EStream) : (st.setEng e x).loads = st.loads := rfl
@[simp] theorem Strand.setEng_failed (st : Strand) (e : Engine) (x : EStream) : (st.setEng e x).failed = st.failed := rfl
@[simp] theorem Strand.setEng_groups (st : Strand) (e : Engine) (x : EStream) : (st.setEng e x).groups = st.groups := rfl
@[simp] theorem Strand.setEng_park (st : Strand) (e : Engine) (x : EStream) : (st.setEng e x).park = st.park := rfl
@[simp] theorem Strand.setEng_yieldp (st : Strand) (e : Engine) (x : EStream) : (st.setEng e x).yieldp = st.yieldp := rfl
@[simp] theorem Strand.setEng_bout (st : Strand) (e : Engine) (x : EStream) : (st.setEng e x).bout = st.bout := rfl
@[simp] theorem Strand.setEng_berr (st : Strand) (e : Engine) (x : EStream) : (st.setEng e x).berr = st.berr := rfl
@[simp] theorem Strand.setEng_level (st : Strand) (e : Engine) (x : EStream) : (st.setEng e x).level = st.level := rfl
@[simp] theorem Strand.setEng_regionAt (st : Strand) (e : Engine) (x : EStream) : (st.setEng e x).regionAt = st.regionAt := rfl
@[simp] theorem Strand.setEng_bandW (st : Strand) (e : Engine) (x : EStream) : (st.setEng e x).bandW = st.bandW := rfl
@[simp] theorem Strand.setEng_grants (st : Strand) (e : Engine) (x : EStream) : (st.setEng e x).grants = st.grants := rfl
@[simp] theorem Strand.setEng_mstat (st : Strand) (e : Engine) (x : EStream) : (st.setEng e x).mstat = st.mstat := rfl
@[simp] theorem Strand.setEng_hdl (st : Strand) (e : Engine) (x : EStream) : (st.setEng e x).hdl = st.hdl := rfl
@[simp] theorem Strand.setEng_pend (st : Strand) (e : Engine) (x : EStream) : (st.setEng e x).pend = st.pend := rfl
@[simp] theorem Strand.setEng_pendW (st : Strand) (e : Engine) (x : EStream) : (st.setEng e x).pendW = st.pendW := rfl
@[simp] theorem Strand.setEng_slow (st : Strand) (e : Engine) (x : EStream) : (st.setEng e x).slow = st.slow := rfl
@[simp] theorem Strand.setEng_closing (st : Strand) (e : Engine) (x : EStream) : (st.setEng e x).closing = st.closing := rfl
@[simp] theorem Strand.setEng_full (st : Strand) (e : Engine) (x : EStream) : (st.setEng e x).full = st.full := rfl
@[simp] theorem Strand.setEng_fullAt (st : Strand) (e : Engine) (x : EStream) : (st.setEng e x).fullAt = st.fullAt := rfl
@[simp] theorem Strand.setEng_bar (st : Strand) (e : Engine) (x : EStream) : (st.setEng e x).bar = st.bar := rfl
@[simp] theorem Strand.setEng_rq (st : Strand) (e : Engine) (x : EStream) : (st.setEng e x).rq = st.rq := rfl
@[simp] theorem Strand.setEng_rqTag (st : Strand) (e : Engine) (x : EStream) : (st.setEng e x).rqTag = st.rqTag := rfl
@[simp] theorem Strand.setEng_text (st : Strand) (e : Engine) (x : EStream) : (st.setEng e x).text = st.text := rfl
@[simp] theorem Strand.setEng_bindAt (st : Strand) (e : Engine) (x : EStream) : (st.setEng e x).bindAt = st.bindAt := rfl
@[simp] theorem Strand.setEng_bindFt (st : Strand) (e : Engine) (x : EStream) : (st.setEng e x).bindFt = st.bindFt := rfl
@[simp] theorem Strand.setEng_skip (st : Strand) (e : Engine) (x : EStream) : (st.setEng e x).skip = st.skip := rfl
@[simp] theorem Strand.setEng_later (st : Strand) (e : Engine) (x : EStream) : (st.setEng e x).later = st.later := rfl
@[simp] theorem Strand.setEng_laterQ (st : Strand) (e : Engine) (x : EStream) : (st.setEng e x).laterQ = st.laterQ := rfl
@[simp] theorem Strand.setEng_laterH (st : Strand) (e : Engine) (x : EStream) : (st.setEng e x).laterH = st.laterH := rfl
@[simp] theorem Strand.setEng_posts (st : Strand) (e : Engine) (x : EStream) : (st.setEng e x).posts = st.posts := rfl
@[simp] theorem Strand.setEng_await (st : Strand) (e : Engine) (x : EStream) : (st.setEng e x).await = st.await := rfl
@[simp] theorem Strand.setEng_recIn (st : Strand) (e : Engine) (x : EStream) : (st.setEng e x).recIn = st.recIn := rfl

@[simp] theorem Strand.setStream_sid (st : Strand) (q : Nat) (x : Stream) : (st.setStream q x).sid = st.sid := rfl
@[simp] theorem Strand.setStream_s (st : Strand) (q : Nat) (x : Stream) : (st.setStream q x).s = st.s := rfl
@[simp] theorem Strand.setStream_a (st : Strand) (q : Nat) (x : Stream) : (st.setStream q x).a = st.a := rfl
@[simp] theorem Strand.setStream_amark (st : Strand) (q : Nat) (x : Stream) : (st.setStream q x).amark = st.amark := rfl
@[simp] theorem Strand.setStream_v (st : Strand) (q : Nat) (x : Stream) : (st.setStream q x).v = st.v := rfl
@[simp] theorem Strand.setStream_vmark (st : Strand) (q : Nat) (x : Stream) : (st.setStream q x).vmark = st.vmark := rfl
@[simp] theorem Strand.setStream_m (st : Strand) (q : Nat) (x : Stream) : (st.setStream q x).m = st.m := rfl
@[simp] theorem Strand.setStream_z (st : Strand) (q : Nat) (x : Stream) : (st.setStream q x).z = st.z := rfl
@[simp] theorem Strand.setStream_ztag (st : Strand) (q : Nat) (x : Stream) : (st.setStream q x).ztag = st.ztag := rfl
@[simp] theorem Strand.setStream_accp (st : Strand) (q : Nat) (x : Stream) : (st.setStream q x).accp = st.accp := rfl
@[simp] theorem Strand.setStream_h (st : Strand) (q : Nat) (x : Stream) : (st.setStream q x).h = st.h := rfl
@[simp] theorem Strand.setStream_n (st : Strand) (q : Nat) (x : Stream) : (st.setStream q x).n = st.n := rfl
@[simp] theorem Strand.setStream_rstack (st : Strand) (q : Nat) (x : Stream) : (st.setStream q x).rstack = st.rstack := rfl
@[simp] theorem Strand.setStream_rsdep (st : Strand) (q : Nat) (x : Stream) : (st.setStream q x).rsdep = st.rsdep := rfl
@[simp] theorem Strand.setStream_rsbase (st : Strand) (q : Nat) (x : Stream) : (st.setStream q x).rsbase = st.rsbase := rfl
@[simp] theorem Strand.setStream_prioc (st : Strand) (q : Nat) (x : Stream) : (st.setStream q x).prioc = st.prioc := rfl
@[simp] theorem Strand.setStream_slipw (st : Strand) (q : Nat) (x : Stream) : (st.setStream q x).slipw = st.slipw := rfl
@[simp] theorem Strand.setStream_fstat (st : Strand) (q : Nat) (x : Stream) : (st.setStream q x).fstat = st.fstat := rfl
@[simp] theorem Strand.setStream_fstat0 (st : Strand) (q : Nat) (x : Stream) : (st.setStream q x).fstat0 = st.fstat0 := rfl
@[simp] theorem Strand.setStream_vshape (st : Strand) (q : Nat) (x : Stream) : (st.setStream q x).vshape = st.vshape := rfl
@[simp] theorem Strand.setStream_rotb (st : Strand) (q : Nat) (x : Stream) : (st.setStream q x).rotb = st.rotb := rfl
@[simp] theorem Strand.setStream_ashape (st : Strand) (q : Nat) (x : Stream) : (st.setStream q x).ashape = st.ashape := rfl
@[simp] theorem Strand.setStream_tgb (st : Strand) (q : Nat) (x : Stream) : (st.setStream q x).tgb = st.tgb := rfl
@[simp] theorem Strand.setStream_phs (st : Strand) (q : Nat) (x : Stream) : (st.setStream q x).phs = st.phs := rfl
@[simp] theorem Strand.setStream_cerr (st : Strand) (q : Nat) (x : Stream) : (st.setStream q x).cerr = st.cerr := rfl
@[simp] theorem Strand.setStream_es (st : Strand) (q : Nat) (x : Stream) : (st.setStream q x).es = st.es := rfl
@[simp] theorem Strand.setStream_dq (st : Strand) (q : Nat) (x : Stream) : (st.setStream q x).dq = st.dq := rfl
@[simp] theorem Strand.setStream_dqbase (st : Strand) (q : Nat) (x : Stream) : (st.setStream q x).dqbase = st.dqbase := rfl
@[simp] theorem Strand.setStream_pbuf (st : Strand) (q : Nat) (x : Stream) : (st.setStream q x).pbuf = st.pbuf := rfl
@[simp] theorem Strand.setStream_loads (st : Strand) (q : Nat) (x : Stream) : (st.setStream q x).loads = st.loads := rfl
@[simp] theorem Strand.setStream_failed (st : Strand) (q : Nat) (x : Stream) : (st.setStream q x).failed = st.failed := rfl
@[simp] theorem Strand.setStream_groups (st : Strand) (q : Nat) (x : Stream) : (st.setStream q x).groups = st.groups := rfl
@[simp] theorem Strand.setStream_park (st : Strand) (q : Nat) (x : Stream) : (st.setStream q x).park = st.park := rfl
@[simp] theorem Strand.setStream_yieldp (st : Strand) (q : Nat) (x : Stream) : (st.setStream q x).yieldp = st.yieldp := rfl
@[simp] theorem Strand.setStream_bout (st : Strand) (q : Nat) (x : Stream) : (st.setStream q x).bout = st.bout := rfl
@[simp] theorem Strand.setStream_berr (st : Strand) (q : Nat) (x : Stream) : (st.setStream q x).berr = st.berr := rfl
@[simp] theorem Strand.setStream_level (st : Strand) (q : Nat) (x : Stream) : (st.setStream q x).level = st.level := rfl
@[simp] theorem Strand.setStream_regionAt (st : Strand) (q : Nat) (x : Stream) : (st.setStream q x).regionAt = st.regionAt := rfl
@[simp] theorem Strand.setStream_bandW (st : Strand) (q : Nat) (x : Stream) : (st.setStream q x).bandW = st.bandW := rfl
@[simp] theorem Strand.setStream_grants (st : Strand) (q : Nat) (x : Stream) : (st.setStream q x).grants = st.grants := rfl
@[simp] theorem Strand.setStream_mstat (st : Strand) (q : Nat) (x : Stream) : (st.setStream q x).mstat = st.mstat := rfl
@[simp] theorem Strand.setStream_hdl (st : Strand) (q : Nat) (x : Stream) : (st.setStream q x).hdl = st.hdl := rfl
@[simp] theorem Strand.setStream_pend (st : Strand) (q : Nat) (x : Stream) : (st.setStream q x).pend = st.pend := rfl
@[simp] theorem Strand.setStream_pendW (st : Strand) (q : Nat) (x : Stream) : (st.setStream q x).pendW = st.pendW := rfl
@[simp] theorem Strand.setStream_slow (st : Strand) (q : Nat) (x : Stream) : (st.setStream q x).slow = st.slow := rfl
@[simp] theorem Strand.setStream_closing (st : Strand) (q : Nat) (x : Stream) : (st.setStream q x).closing = st.closing := rfl
@[simp] theorem Strand.setStream_full (st : Strand) (q : Nat) (x : Stream) : (st.setStream q x).full = st.full := rfl
@[simp] theorem Strand.setStream_fullAt (st : Strand) (q : Nat) (x : Stream) : (st.setStream q x).fullAt = st.fullAt := rfl
@[simp] theorem Strand.setStream_bar (st : Strand) (q : Nat) (x : Stream) : (st.setStream q x).bar = st.bar := rfl
@[simp] theorem Strand.setStream_rq (st : Strand) (q : Nat) (x : Stream) : (st.setStream q x).rq = st.rq := rfl
@[simp] theorem Strand.setStream_rqTag (st : Strand) (q : Nat) (x : Stream) : (st.setStream q x).rqTag = st.rqTag := rfl
@[simp] theorem Strand.setStream_text (st : Strand) (q : Nat) (x : Stream) : (st.setStream q x).text = st.text := rfl
@[simp] theorem Strand.setStream_bindAt (st : Strand) (q : Nat) (x : Stream) : (st.setStream q x).bindAt = st.bindAt := rfl
@[simp] theorem Strand.setStream_bindFt (st : Strand) (q : Nat) (x : Stream) : (st.setStream q x).bindFt = st.bindFt := rfl
@[simp] theorem Strand.setStream_skip (st : Strand) (q : Nat) (x : Stream) : (st.setStream q x).skip = st.skip := rfl
@[simp] theorem Strand.setStream_later (st : Strand) (q : Nat) (x : Stream) : (st.setStream q x).later = st.later := rfl
@[simp] theorem Strand.setStream_laterQ (st : Strand) (q : Nat) (x : Stream) : (st.setStream q x).laterQ = st.laterQ := rfl
@[simp] theorem Strand.setStream_laterH (st : Strand) (q : Nat) (x : Stream) : (st.setStream q x).laterH = st.laterH := rfl
@[simp] theorem Strand.setStream_posts (st : Strand) (q : Nat) (x : Stream) : (st.setStream q x).posts = st.posts := rfl
@[simp] theorem Strand.setStream_await (st : Strand) (q : Nat) (x : Stream) : (st.setStream q x).await = st.await := rfl
@[simp] theorem Strand.setStream_recIn (st : Strand) (q : Nat) (x : Stream) : (st.setStream q x).recIn = st.recIn := rfl

@[simp] theorem Strand.setSem_sid (st : Strand) (n : Nat) (x : Sem) : (st.setSem n x).sid = st.sid := rfl
@[simp] theorem Strand.setSem_s (st : Strand) (n : Nat) (x : Sem) : (st.setSem n x).s = st.s := rfl
@[simp] theorem Strand.setSem_a (st : Strand) (n : Nat) (x : Sem) : (st.setSem n x).a = st.a := rfl
@[simp] theorem Strand.setSem_amark (st : Strand) (n : Nat) (x : Sem) : (st.setSem n x).amark = st.amark := rfl
@[simp] theorem Strand.setSem_v (st : Strand) (n : Nat) (x : Sem) : (st.setSem n x).v = st.v := rfl
@[simp] theorem Strand.setSem_vmark (st : Strand) (n : Nat) (x : Sem) : (st.setSem n x).vmark = st.vmark := rfl
@[simp] theorem Strand.setSem_m (st : Strand) (n : Nat) (x : Sem) : (st.setSem n x).m = st.m := rfl
@[simp] theorem Strand.setSem_z (st : Strand) (n : Nat) (x : Sem) : (st.setSem n x).z = st.z := rfl
@[simp] theorem Strand.setSem_ztag (st : Strand) (n : Nat) (x : Sem) : (st.setSem n x).ztag = st.ztag := rfl
@[simp] theorem Strand.setSem_accp (st : Strand) (n : Nat) (x : Sem) : (st.setSem n x).accp = st.accp := rfl
@[simp] theorem Strand.setSem_q (st : Strand) (n : Nat) (x : Sem) : (st.setSem n x).q = st.q := rfl
@[simp] theorem Strand.setSem_n (st : Strand) (n : Nat) (x : Sem) : (st.setSem n x).n = st.n := rfl
@[simp] theorem Strand.setSem_rstack (st : Strand) (n : Nat) (x : Sem) : (st.setSem n x).rstack = st.rstack := rfl
@[simp] theorem Strand.setSem_rsdep (st : Strand) (n : Nat) (x : Sem) : (st.setSem n x).rsdep = st.rsdep := rfl
@[simp] theorem Strand.setSem_rsbase (st : Strand) (n : Nat) (x : Sem) : (st.setSem n x).rsbase = st.rsbase := rfl
@[simp] theorem Strand.setSem_prioc (st : Strand) (n : Nat) (x : Sem) : (st.setSem n x).prioc = st.prioc := rfl
@[simp] theorem Strand.setSem_slipw (st : Strand) (n : Nat) (x : Sem) : (st.setSem n x).slipw = st.slipw := rfl
@[simp] theorem Strand.setSem_fstat (st : Strand) (n : Nat) (x : Sem) : (st.setSem n x).fstat = st.fstat := rfl
@[simp] theorem Strand.setSem_fstat0 (st : Strand) (n : Nat) (x : Sem) : (st.setSem n x).fstat0 = st.fstat0 := rfl
@[simp] theorem Strand.setSem_vshape (st : Strand) (n : Nat) (x : Sem) : (st.setSem n x).vshape = st.vshape := rfl
@[simp] theorem Strand.setSem_rotb (st : Strand) (n : Nat) (x : Sem) : (st.setSem n x).rotb = st.rotb := rfl
@[simp] theorem Strand.setSem_ashape (st : Strand) (n : Nat) (x : Sem) : (st.setSem n x).ashape = st.ashape := rfl
@[simp] theorem Strand.setSem_tgb (st : Strand) (n : Nat) (x : Sem) : (st.setSem n x).tgb = st.tgb := rfl
@[simp] theorem Strand.setSem_phs (st : Strand) (n : Nat) (x : Sem) : (st.setSem n x).phs = st.phs := rfl
@[simp] theorem Strand.setSem_cerr (st : Strand) (n : Nat) (x : Sem) : (st.setSem n x).cerr = st.cerr := rfl
@[simp] theorem Strand.setSem_es (st : Strand) (n : Nat) (x : Sem) : (st.setSem n x).es = st.es := rfl
@[simp] theorem Strand.setSem_dq (st : Strand) (n : Nat) (x : Sem) : (st.setSem n x).dq = st.dq := rfl
@[simp] theorem Strand.setSem_dqbase (st : Strand) (n : Nat) (x : Sem) : (st.setSem n x).dqbase = st.dqbase := rfl
@[simp] theorem Strand.setSem_pbuf (st : Strand) (n : Nat) (x : Sem) : (st.setSem n x).pbuf = st.pbuf := rfl
@[simp] theorem Strand.setSem_loads (st : Strand) (n : Nat) (x : Sem) : (st.setSem n x).loads = st.loads := rfl
@[simp] theorem Strand.setSem_failed (st : Strand) (n : Nat) (x : Sem) : (st.setSem n x).failed = st.failed := rfl
@[simp] theorem Strand.setSem_groups (st : Strand) (n : Nat) (x : Sem) : (st.setSem n x).groups = st.groups := rfl
@[simp] theorem Strand.setSem_park (st : Strand) (n : Nat) (x : Sem) : (st.setSem n x).park = st.park := rfl
@[simp] theorem Strand.setSem_yieldp (st : Strand) (n : Nat) (x : Sem) : (st.setSem n x).yieldp = st.yieldp := rfl
@[simp] theorem Strand.setSem_bout (st : Strand) (n : Nat) (x : Sem) : (st.setSem n x).bout = st.bout := rfl
@[simp] theorem Strand.setSem_berr (st : Strand) (n : Nat) (x : Sem) : (st.setSem n x).berr = st.berr := rfl
@[simp] theorem Strand.setSem_level (st : Strand) (n : Nat) (x : Sem) : (st.setSem n x).level = st.level := rfl
@[simp] theorem Strand.setSem_regionAt (st : Strand) (n : Nat) (x : Sem) : (st.setSem n x).regionAt = st.regionAt := rfl
@[simp] theorem Strand.setSem_bandW (st : Strand) (n : Nat) (x : Sem) : (st.setSem n x).bandW = st.bandW := rfl
@[simp] theorem Strand.setSem_grants (st : Strand) (n : Nat) (x : Sem) : (st.setSem n x).grants = st.grants := rfl
@[simp] theorem Strand.setSem_mstat (st : Strand) (n : Nat) (x : Sem) : (st.setSem n x).mstat = st.mstat := rfl
@[simp] theorem Strand.setSem_hdl (st : Strand) (n : Nat) (x : Sem) : (st.setSem n x).hdl = st.hdl := rfl
@[simp] theorem Strand.setSem_pend (st : Strand) (n : Nat) (x : Sem) : (st.setSem n x).pend = st.pend := rfl
@[simp] theorem Strand.setSem_pendW (st : Strand) (n : Nat) (x : Sem) : (st.setSem n x).pendW = st.pendW := rfl
@[simp] theorem Strand.setSem_slow (st : Strand) (n : Nat) (x : Sem) : (st.setSem n x).slow = st.slow := rfl
@[simp] theorem Strand.setSem_closing (st : Strand) (n : Nat) (x : Sem) : (st.setSem n x).closing = st.closing := rfl
@[simp] theorem Strand.setSem_full (st : Strand) (n : Nat) (x : Sem) : (st.setSem n x).full = st.full := rfl
@[simp] theorem Strand.setSem_fullAt (st : Strand) (n : Nat) (x : Sem) : (st.setSem n x).fullAt = st.fullAt := rfl
@[simp] theorem Strand.setSem_bar (st : Strand) (n : Nat) (x : Sem) : (st.setSem n x).bar = st.bar := rfl
@[simp] theorem Strand.setSem_rq (st : Strand) (n : Nat) (x : Sem) : (st.setSem n x).rq = st.rq := rfl
@[simp] theorem Strand.setSem_rqTag (st : Strand) (n : Nat) (x : Sem) : (st.setSem n x).rqTag = st.rqTag := rfl
@[simp] theorem Strand.setSem_text (st : Strand) (n : Nat) (x : Sem) : (st.setSem n x).text = st.text := rfl
@[simp] theorem Strand.setSem_bindAt (st : Strand) (n : Nat) (x : Sem) : (st.setSem n x).bindAt = st.bindAt := rfl
@[simp] theorem Strand.setSem_bindFt (st : Strand) (n : Nat) (x : Sem) : (st.setSem n x).bindFt = st.bindFt := rfl
@[simp] theorem Strand.setSem_skip (st : Strand) (n : Nat) (x : Sem) : (st.setSem n x).skip = st.skip := rfl
@[simp] theorem Strand.setSem_later (st : Strand) (n : Nat) (x : Sem) : (st.setSem n x).later = st.later := rfl
@[simp] theorem Strand.setSem_laterQ (st : Strand) (n : Nat) (x : Sem) : (st.setSem n x).laterQ = st.laterQ := rfl
@[simp] theorem Strand.setSem_laterH (st : Strand) (n : Nat) (x : Sem) : (st.setSem n x).laterH = st.laterH := rfl
@[simp] theorem Strand.setSem_posts (st : Strand) (n : Nat) (x : Sem) : (st.setSem n x).posts = st.posts := rfl
@[simp] theorem Strand.setSem_await (st : Strand) (n : Nat) (x : Sem) : (st.setSem n x).await = st.await := rfl
@[simp] theorem Strand.setSem_recIn (st : Strand) (n : Nat) (x : Sem) : (st.setSem n x).recIn = st.recIn := rfl

theorem State.strand_setStrand (s : State) (ck c : Nat) (st : Strand) : (s.setStrand ck st).strand c = if c = ck then st else s.strand c :=
  Map.get_put _ _ _ _ _
theorem State.strand_modStrand (s : State) (ck c : Nat) (f : Strand → Strand) :
    (s.modStrand ck f).strand c = if c = ck then f (s.strand ck) else s.strand c := Map.get_put _ _ _ _ _
theorem State.die_setDie (s : State) (d c : Nat) (x : Die) : (s.setDie d x).die c = if c = d then x else s.die c := Map.get_put _ _ _ _ _
theorem State.die_modDie (s : State) (d c : Nat) (f : Die → Die) : (s.modDie d f).die c = if c = d then f (s.die d) else s.die c :=
  Map.get_put _ _ _ _ _
@[simp] theorem State.dget_dput_same (s : State) (d off : Nat) (v : Word) : (s.dput d off v).dget d off = v := Map.get_put_same _ _ _ _
theorem State.dget_dput_of_ne (s : State) {d off d' off' : Nat} (v : Word) (h : d' * 2 ^ 46 + off' ≠ d * 2 ^ 46 + off) :
    (s.dput d off v).dget d' off' = s.dget d' off' := Map.get_put_of_ne _ _ _ h
theorem Strand.stream_setStream (st : Strand) (q r : Nat) (x : Stream) : (st.setStream q x).stream r = if r = q then x else st.stream r :=
  Map.get_put _ _ _ _ _
theorem Strand.sem_setSem (st : Strand) (n m : Nat) (x : Sem) : (st.setSem n x).sem m = if m = n then x else st.sem m := Map.get_put _ _ _ _ _

end Sys2Proof.Machine
end

