-- ==== Sys2Proof/Laws/Memory.lean ====
section
/-! SUPPORT. Every operation that writes memory keeps the canonical form of package memory and of host memory. -/

namespace Sys2Proof.Machine

/-- What `s` holds in canonical form, `t` holds in canonical form. -/
def State.Keeps (s t : State) : Prop := (Mem.wf s.mem = true → Mem.wf t.mem = true) ∧ (Mem.wf s.host = true → Mem.wf t.host = true)

theorem State.Keeps.refl (s : State) : s.Keeps s := ⟨id, id⟩
theorem State.Keeps.trans {s t u : State} (h : s.Keeps t) (k : t.Keeps u) : s.Keeps u := ⟨fun x => k.1 (h.1 x), fun x => k.2 (h.2 x)⟩
/-- A state that differs in neither memory. -/
theorem State.Keeps.of_eq {s t : State} (h : t.mem = s.mem) (k : t.host = s.host) : s.Keeps t := ⟨fun x => h ▸ x, fun x => k ▸ x⟩
theorem State.Keeps.ite {s t u : State} (c : Prop) [Decidable c] (h : s.Keeps t) (k : s.Keeps u) : s.Keeps (if c then t else u) := by
  split <;> assumption
/-- A fold of steps that each keep the form. -/
theorem State.Keeps.foldl {α : Type} (f : State → α → State) (hf : ∀ (s : State) a, s.Keeps (f s a)) (l : List α) (s : State) : s.Keeps (l.foldl f s) := by
  induction l generalizing s with
  | nil => exact .refl s
  | cons a r ih => exact (hf s a).trans (ih _)

theorem Except.bind_ok {ε α β : Type} {x : Except ε α} {f : α → Except ε β} {b : β} (h : (x >>= f) = .ok b) : ∃ a, x = .ok a ∧ f a = .ok b := by
  cases x with
  | error e => simp [bind, Except.bind] at h
  | ok a => exact ⟨a, rfl, h⟩
theorem State.Keeps.foldlM_ok {ε α : Type} (f : State → α → Except ε State) (hf : ∀ s a t, f s a = .ok t → s.Keeps t) (l : List α) (s t : State)
    (h : l.foldlM f s = .ok t) : s.Keeps t := by
  induction l generalizing s with
  | nil => simp [List.foldlM, pure, Except.pure] at h; subst h; exact .refl _
  | cons a r ih =>
    rw [List.foldlM_cons] at h
    obtain ⟨u, hu, h⟩ := Except.bind_ok h
    exact (hf _ _ _ hu).trans (ih _ h)
theorem State.Keeps.foldlM_some {α : Type} (f : State → α → Option State) (hf : ∀ s a t, f s a = some t → s.Keeps t) (l : List α) (s t : State)
    (h : l.foldlM f s = some t) : s.Keeps t := by
  induction l generalizing s with
  | nil => simp [List.foldlM] at h; subst h; exact .refl _
  | cons a r ih =>
    rw [List.foldlM_cons] at h
    obtain ⟨u, hu, h⟩ := Option.bind_eq_some_iff.mp h
    exact (hf _ _ _ hu).trans (ih _ h)

theorem Mem.wf_writeMasked {m : List Host.Cell} (k d b n : Nat) (h : Mem.wf m = true) : Mem.wf (Mem.writeMasked m k d b n) = true := by
  induction n generalizing m k d b with
  | zero => exact h
  | succ n ih =>
    unfold Mem.writeMasked
    apply ih
    split
    · exact Mem.wf_write _ _ h
    · exact h
theorem State.wf_cipherLine (s : State) (part : BitVec 4) (k n : Nat) (h : Mem.wf s.mem = true) : Mem.wf (s.cipherLine part k n) = true := by
  induction n with
  | zero => exact h
  | succ n ih => exact Mem.wf_write _ _ ih

theorem State.modDie_keeps (s : State) (d : Nat) (f : Die → Die) : s.Keeps (s.modDie d f) := .of_eq rfl rfl
theorem State.modStrand_keeps (s : State) (ck : Nat) (f : Strand → Strand) : s.Keeps (s.modStrand ck f) := .of_eq rfl rfl
theorem State.dput_keeps (s : State) (d o : Nat) (v : Word) : s.Keeps (s.dput d o v) := .of_eq rfl rfl
theorem State.gray_keeps (s : State) (k : Nat) : s.Keeps (s.gray k) := by
  unfold State.gray
  exact .ite _ (State.modDie_keeps ..) (.refl s)
theorem State.moveMark_keeps (s : State) (k : Nat) : s.Keeps (s.moveMark k) := by
  unfold State.moveMark
  dsimp only
  repeat' split
  all_goals exact .refl s
theorem State.mark_keeps (s : State) (k : Nat) : s.Keeps (s.mark k) := by
  have h : s.Keeps { s with poison := NSet.add s.poison (k / 64) } := .of_eq rfl rfl
  exact h.trans (State.moveMark_keeps _ _)
theorem State.clearShades_keeps (s : State) (k n : Nat) : s.Keeps (s.clearShades k n) := by
  unfold State.clearShades
  exact .ite _ (.refl s) (.of_eq rfl rfl)
theorem State.readVlds_keeps (s : State) (ck id : Nat) : s.Keeps (s.readVlds ck id) := .of_eq rfl rfl
theorem State.noteWrite_keeps (s : State) (k : Nat) : s.Keeps (s.noteWrite k) := (State.gray_keeps ..).trans (State.moveMark_keeps ..)
theorem State.noteWrites_keeps (s : State) (k n : Nat) : s.Keeps (s.noteWrites k n) :=
  .ite _ (.refl s) (.foldl _ (fun _ _ => State.noteWrite_keeps ..) _ _)
/-- The one operation that writes bytes of a line at their home. -/
theorem State.wrLine_keeps (s : State) (part : BitVec 4) (key data mask : Nat) : s.Keeps (s.wrLine part key data mask) := by
  have h : (Mem.wf s.mem = true → Mem.wf (Mem.writeMasked (if s.foreign key part then s.cipherLine part key 64 else s.mem) key data mask 64) = true) := fun h =>
    Mem.wf_writeMasked _ _ _ _ (by split; exact State.wf_cipherLine _ _ _ _ h; exact h)
  unfold State.wrLine
  refine .ite _ (.refl s) (State.Keeps.trans ⟨fun x => ?_, fun x => ?_⟩ (State.noteWrite_keeps _ _)) <;> (split <;> split <;> first | exact h x | exact x)
theorem State.wrKey_keeps (s : State) (part : BitVec 4) (key data n : Nat) : s.Keeps (s.wrKey part key data n) := State.wrLine_keeps ..
theorem State.wrPhys_keeps (s : State) (d off data n : Nat) : s.Keeps (s.wrPhys d off data n) := by
  unfold State.wrPhys
  split
  · exact State.wrKey_keeps ..
  · exact .refl s
theorem State.wrPhysRun_keeps (s : State) (d off data n : Nat) : s.Keeps (s.wrPhysRun d off data n) := by
  induction n generalizing s off data with
  | zero => exact .refl s
  | succ n ih => exact (State.wrPhys_keeps ..).trans (ih _ _ _)
theorem State.wrHost_keeps (s : State) (a data n : Nat) : s.Keeps (s.wrHost a data n) := ⟨id, fun h => Mem.wf_writeLE _ _ _ h⟩
theorem State.wrVaultKey_keeps (s : State) (key data n : Nat) : s.Keeps (s.wrVaultKey key data n) :=
  .foldl _ (fun _ _ => State.wrKey_keeps ..) _ _
theorem State.vwrite_keeps (s : State) (ck o data n : Nat) : s.Keeps (s.vwrite ck o data n) := State.wrVaultKey_keeps ..
theorem State.nqPut_keeps (s : State) (d : Nat) (e : BitVec 256) : s.Keeps (s.nqPut d e) := (State.wrPhysRun_keeps ..).trans (State.dput_keeps ..)
theorem State.nqLose_keeps (s : State) (d k : Nat) : s.Keeps (s.nqLose d k) := .of_eq rfl rfl
theorem State.notify_keeps (s : State) (d k a b c : Nat) : s.Keeps (s.notify d k a b c).1 := by
  unfold State.notify
  dsimp only
  repeat' split
  all_goals first | exact State.nqPut_keeps .. | exact State.nqLose_keeps .. | exact State.modDie_keeps ..
theorem State.touch_keeps (s : State) (d phys rd : Nat) (far : Bool) : s.Keeps (s.touch d phys rd far) := by
  unfold State.touch
  dsimp only
  have k (a b c e f : Nat) (x : Nat × Nat × Nat × Nat) : s.Keeps ((s.notify a b c e f).1.wrPhys x.1 x.2.1 x.2.2.1 x.2.2.2) :=
    (State.notify_keeps ..).trans (State.wrPhys_keeps ..)
  repeat' split
  all_goals first | exact .refl s | exact State.wrPhys_keeps .. | skip
  all_goals first | exact k _ _ _ _ _ (_, _, _, _)
theorem State.wrHome_keeps {s t : State} {g : Agent} {ea data mask : Nat} (h : s.wrHome g ea data mask = .ok t) : s.Keeps t := by
  unfold State.wrHome at h
  split at h <;> simp at h
  · subst h; exact (State.wrLine_keeps ..).trans (State.touch_keeps ..)
  · subst h; exact ⟨id, fun h => Mem.wf_writeMasked _ _ _ _ h⟩
  · subst h; exact .of_eq rfl rfl
theorem State.atomHome_keeps {s : State} {g : Agent} {ea n : Nat} {f : Nat → Nat} {t : State × Nat × Bool} (h : s.atomHome g ea n f = some t) :
    s.Keeps t.1 := by
  unfold State.atomHome at h
  split at h
  · split at h <;> simp at h <;> subst h
    · exact State.touch_keeps ..
    · exact (State.wrKey_keeps ..).trans (State.touch_keeps ..)
  · simp at h; subst h; exact State.wrHost_keeps ..
  · split at h <;> simp at h <;> subst h
    · exact .refl _
    · exact .of_eq rfl rfl
  all_goals (simp at h; try (subst h; exact .refl _))
theorem State.fillRequest_keeps (s : State) (ck id : Nat) (v : Word) (m : Bool) : s.Keeps (s.fillRequest ck id v m) := State.modStrand_keeps ..
theorem State.fillPiece_keeps (s : State) (p : Posted) (x : Nat) (m : Bool) : s.Keeps (s.fillPiece p x m) := by
  unfold State.fillPiece
  dsimp only
  repeat' split
  all_goals exact .refl s
theorem State.answerErr_keeps (s : State) (p : Posted) : s.Keeps (s.answerErr p) := by
  unfold State.answerErr
  split
  · exact State.fillPiece_keeps ..
  · exact State.fillRequest_keeps ..
  · exact State.modStrand_keeps ..
theorem State.answerFail_keeps (s : State) (p : Posted) : s.Keeps (s.answerFail p) := State.modStrand_keeps ..
theorem State.setTabs_keeps (s : State) (m : Map Word) : s.Keeps (s.setTabs m) := .of_eq rfl rfl
theorem State.asOf_keeps (s : State) (v : Nat) : s.Keeps (s.asOf v) := by
  unfold State.asOf
  split
  · exact State.setTabs_keeps ..
  · exact .refl s
theorem State.underTabs_keeps (s : State) (v : Nat) (f : State → State) (hf : ∀ s : State, s.Keeps (f s)) : s.Keeps (s.underTabs v f) := by
  unfold State.underTabs
  exact .ite _ (((State.asOf_keeps ..).trans (hf _)).trans (State.setTabs_keeps ..)) (hf s)
/-- What a posted request does at its home. -/
theorem State.performAt_keeps (s : State) (p : Posted) : s.Keeps (s.performAt p) := by
  have ans : ∀ (r : Except Miss State), (∀ t, r = .ok t → s.Keeps t) →
      s.Keeps (match r with | .ok t => t | .error .err => s.answerErr p | .error .fail => s.answerFail p) := by
    intro r hr
    split
    · exact hr _ rfl
    · exact State.answerErr_keeps ..
    · exact State.answerFail_keeps ..
  unfold State.performAt
  dsimp only
  split
  · exact ans _ (fun t h => State.wrHome_keeps h)
  · exact ans _ (fun t h => State.wrHome_keeps h)
  · split
    · exact State.answerFail_keeps ..
    · exact State.answerFail_keeps ..
    · exact .refl s
  · refine ans _ (fun t h => ?_)
    cases e : s.wrHome p.agent (p.ea / 64 * 64) _ _ with
    | error m => rw [e] at h; simp [Except.map] at h
    | ok u =>
      rw [e] at h
      simp only [Except.map, Except.ok.injEq] at h
      subst h
      refine (State.wrHome_keeps e).trans ?_
      repeat' split
      all_goals first | exact .refl _ | exact State.mark_keeps ..
  · rename_i k x n b e res pre pm _
    refine ans _ (fun t h => ?_)
    split at h
    · simp at h
    · rename_i u hu
      have hk : s.Keeps u := by
        split at hu
        · simp at hu; subst hu; exact .refl s
        · exact State.wrHome_keeps hu
      split at h
      · simp at h
      · rename_i r hr
        simp only [Except.ok.injEq] at h
        subst h
        refine (hk.trans (State.atomHome_keeps hr)).trans ?_
        repeat' split
        all_goals exact .refl _
  · split
    · exact State.answerErr_keeps ..
    · exact State.answerFail_keeps ..
    · exact (State.touch_keeps ..).trans (State.fillPiece_keeps ..)
    · exact State.fillPiece_keeps ..
    · exact State.fillPiece_keeps ..
    · exact State.answerFail_keeps ..
  · exact .ite _ (((State.readVlds_keeps ..).trans (State.vwrite_keeps ..)).trans (State.mark_keeps ..)) ((State.readVlds_keeps ..).trans (State.vwrite_keeps ..))
theorem State.perform1_keeps (s : State) (p : Posted) : s.Keeps (s.perform1 p) := by
  have k : s.Keeps { s with posted := s.posted.filter (fun q => q.id != p.id) } := .of_eq rfl rfl
  exact k.trans (.ite _ (State.answerErr_keeps ..) (State.underTabs_keeps _ _ _ (fun _ => State.performAt_keeps ..)))
theorem State.drainBy_keeps (act : State → Posted → State) (ha : ∀ (s : State) p, s.Keeps (act s p)) (sel : Posted → Bool) (n : Nat) (s : State) :
    s.Keeps (State.drainBy act sel n s) := by
  induction n generalizing s with
  | zero => exact .refl s
  | succ n ih =>
    unfold State.drainBy
    split
    · exact (ha _ _).trans (ih _)
    · exact .refl s
theorem State.drainEgress_keeps (s : State) (d l : Nat) : s.Keeps (s.drainEgress d l) := State.drainBy_keeps _ State.perform1_keeps _ _ _
theorem State.perform_keeps (s : State) (p : Posted) : s.Keeps (s.perform p) := by
  unfold State.perform
  refine State.Keeps.trans ?_ (State.perform1_keeps ..)
  exact .ite _ (State.drainEgress_keeps ..) (.refl s)
theorem State.drain_keeps (s : State) (sel : Posted → Bool) : s.Keeps (s.drain sel) := State.drainBy_keeps _ State.perform_keeps _ _ _
theorem State.behind_keeps (s : State) (g : Agent) (ea : Nat) : s.Keeps (s.behind g ea) := .ite _ (.refl s) (State.drainEgress_keeps ..)
theorem State.count_keeps (s : State) (g : Agent) (ea : Nat) (w : Bool) : s.Keeps (s.count g ea w) := by
  unfold State.count
  refine (State.behind_keeps s g ea).trans ?_
  dsimp only
  split
  · exact State.touch_keeps ..
  · exact .refl _
theorem State.accept_keeps (s : State) (p : Posted) : s.Keeps (s.accept p) := .ite _ (.refl s) (.ite _ (State.perform1_keeps ..) (.of_eq rfl rfl))
/-- The event of a posted request. -/
theorem State.homeRequest_keeps (s : State) (p : Posted) : s.Keeps (s.homeRequest p) :=
  .ite _ (.refl s) (.ite _ (State.accept_keeps ..) (State.perform_keeps ..))
theorem State.unshade_keeps (s : State) (ck paths : Nat) : s.Keeps (s.unshade ck paths) := .of_eq rfl rfl
theorem State.shade_keeps (s : State) (ck path key n : Nat) : s.Keeps (s.shade ck path key n) := .ite _ (.refl s) (.of_eq rfl rfl)
theorem State.performOwn_keeps (s : State) (ck : Nat) : s.Keeps (s.performOwn ck) :=
  (State.unshade_keeps ..).trans (.ite _ (.refl _) ((State.drain_keeps ..).trans (.foldl _ State.perform1_keeps _ _)))
theorem State.settleVault_keeps (s : State) (ck id : Nat) : s.Keeps (s.settleVault ck id) :=
  State.Keeps.trans (.ite _ (.refl s) (State.drain_keeps ..)) (State.readVlds_keeps ..)
theorem State.settlePath_keeps (s : State) (ck path : Nat) : s.Keeps (s.settlePath ck path) := .ite _ (.refl s) (State.drain_keeps ..)
theorem State.settleOwn_keeps (s : State) (ck ea n : Nat) : s.Keeps (s.settleOwn ck ea n) :=
  .ite _ (.refl s) (.foldl _ (fun _ _ => State.drain_keeps ..) _ _)
theorem State.settleLine_keeps (s : State) (ck ea m : Nat) : s.Keeps (s.settleLine ck ea m) := .ite _ (.refl s) (State.drain_keeps ..)
theorem State.postAs_keeps (s : State) (ck path ea stage : Nat) (gen : BitVec 32) (tabs : Nat) (k : PostKind) :
    s.Keeps (s.postAs ck path ea stage gen tabs k) := .of_eq rfl rfl
theorem State.post_keeps (s : State) (ck ea : Nat) (k : PostKind) : s.Keeps (s.post ck ea k) := State.postAs_keeps ..
theorem State.nearStore_keeps (s : State) (ck off data n : Nat) : s.Keeps (s.nearStore ck off data n) :=
  .ite _ (State.postAs_keeps ..) ((State.settleVault_keeps ..).trans (State.vwrite_keeps ..))
theorem State.wrPiece_keeps {s t : State} {g : Agent} {ea data mask : Nat} (h : s.wrPiece g ea data mask = .ok t) : s.Keeps t :=
  (State.behind_keeps s g ea).trans (State.wrHome_keeps h)
theorem State.wrRange_keeps (s : State) (g : Agent) (ea n data : Nat) : s.Keeps (s.wrRange g ea n data).1 := by
  unfold State.wrRange
  suffices h : ∀ (l : List (Nat × Nat × Nat)) (x : State × Option Miss), s.Keeps x.1 → s.Keeps (l.foldl (fun (s, m) q =>
      let sh := q.2.1 % 64
      match s.wrPiece g ((q.2.1 - sh) % 2 ^ 64) (data / 2 ^ (8 * q.1) % 2 ^ (8 * q.2.2) * 2 ^ (8 * sh)) ((2 ^ q.2.2 - 1) * 2 ^ sh) with
      | .ok s => (s, m)
      | .error e => (s, m.orElse (fun _ => some e))) x).1 from h _ _ (.refl s)
  intro l
  induction l with
  | nil => exact fun _ h => h
  | cons q r ih =>
    intro x h
    refine ih _ ?_
    dsimp only
    split
    · exact h.trans (State.wrPiece_keeps ‹_›)
    · exact h
theorem State.markRange_keeps (s : State) (g : Agent) (ea n : Nat) : s.Keeps (s.markRange g ea n) := by
  refine .foldl _ (fun s q => ?_) _ _
  split
  · exact State.mark_keeps ..
  · exact .refl s
theorem State.storeHome_keeps {s t : State} {ck : Nat} {ea : Word} {n v : Nat} (h : s.storeHome ck ea n v = .ok t) : s.Keeps t := by
  unfold State.storeHome at h
  have k := State.wrRange_keeps s (s.me? ck) ea.toNat n v
  split at h <;> rename_i e <;> rw [e] at k
  · simp at h; subst h; exact k
  · simp at h; subst h; exact k.trans (State.modStrand_keeps ..)
  · simp at h
theorem State.postAt_keeps (s : State) (ck path ea stage : Nat) (gen : BitVec 32) (tabs : Nat) (k : PostKind) : s.Keeps (s.postAt ck path ea stage gen tabs k) := by
  unfold State.postAt
  refine State.Keeps.trans (State.Keeps.ite _ (State.drainBy_keeps _ State.accept_keeps _ _ _) (.refl s)) (State.postAs_keeps ..)
/-- A request routed by other fabric tables keeps what the request does. -/
theorem State.byTabs_keeps {s t : State} {v : Nat} {f : State → Except Stop State} (hf : ∀ u w : State, f u = .ok w → u.Keeps w) (h : s.byTabs v f = .ok t) : s.Keeps t := by
  unfold State.byTabs at h
  split at h
  · cases e : f (s.asOf v) with
    | error _ => rw [e] at h; simp [Except.map] at h
    | ok u =>
      rw [e] at h
      simp only [Except.map, Except.ok.injEq] at h
      subst h
      exact ((State.asOf_keeps ..).trans (hf _ _ e)).trans (State.setTabs_keeps ..)
  · exact hf _ _ h
theorem State.publishRouted_keeps {s t : State} {ck scope : Nat} {p : PEntry} (h : s.publishRouted ck scope p = .ok t) : s.Keeps t := by
  unfold State.publishRouted at h
  dsimp only at h
  refine (State.settleLine_keeps s ck (p.line * 64) (p.todo (s.global (w64 (p.line * 64)))).toNat).trans ?_
  generalize s.settleLine ck (p.line * 64) (p.todo (s.global (w64 (p.line * 64)))).toNat = u at h
  have kv : u.Keeps (if s.global (w64 (p.line * 64)) = true ∧ p.valid &&& ~~~p.pub &&& p.dead ≠ 0 then
      u.modStrand ck (fun st => { st with cerr := true }) else u) := .ite _ (State.modStrand_keeps ..) (.refl u)
  refine kv.trans ?_
  generalize (if s.global (w64 (p.line * 64)) = true ∧ p.valid &&& ~~~p.pub &&& p.dead ≠ 0 then
      u.modStrand ck (fun st => { st with cerr := true }) else u) = w at h ⊢
  repeat' split at h
  all_goals simp only [Except.ok.injEq, reduceCtorEq] at h
  all_goals subst h
  all_goals first | exact .refl _ | exact State.modStrand_keeps .. | exact State.postAt_keeps .. | exact State.wrPiece_keeps ‹_›
theorem State.publishEntry_keeps {s t : State} {ck scope : Nat} {p : PEntry} (h : s.publishEntry ck scope p = .ok t) : s.Keeps t :=
  State.byTabs_keeps (fun _ _ h => State.publishRouted_keeps h) h
theorem State.publishAt_keeps {s t : State} {ck scope : Nat} (h : s.publishAt ck scope = .ok t) : s.Keeps t := by
  unfold State.publishAt at h
  split at h
  · simp at h
  · obtain ⟨u, hu, h⟩ := Except.bind_ok h
    simp at h; subst h
    exact (State.Keeps.foldlM_ok _ (fun _ _ _ h => State.publishEntry_keeps h) _ _ _ hu).trans (State.modStrand_keeps ..)
theorem State.publish_keeps {s t : State} {ck : Nat} (h : s.publish ck = .ok t) : s.Keeps t := State.publishAt_keeps h
theorem State.dropEntry_keeps (s : State) (ck line : Nat) : s.Keeps (s.dropEntry ck line) := State.modStrand_keeps ..
theorem State.publishLine_keeps {s t : State} {ck ea n : Nat} (h : s.publishLine ck ea n = .ok t) : s.Keeps t := by
  unfold State.publishLine at h
  split at h
  · simp at h; subst h; exact (State.settleOwn_keeps ..).trans (State.behind_keeps ..)
  · dsimp only at h
    have h : (do let s' ← s.publishEntry ck 3 ‹PEntry›; Except.ok (((s'.dropEntry ck (‹PEntry›).line).settleOwn ck ea n).behind (s.me? ck) ea) : Except Stop State) = .ok t := by
      split at h
      · simp [bind, Except.bind] at h
      · exact h
    obtain ⟨u, hu, h⟩ := Except.bind_ok h
    simp at h; subst h
    exact (((State.publishEntry_keeps hu).trans (State.dropEntry_keeps ..)).trans (State.settleOwn_keeps ..)).trans (State.behind_keeps ..)
theorem State.atomicAt_keeps {s : State} {ea : Word} {n : Nat} {f : Nat → Nat} {t : State × Nat × Bool} (h : s.atomicAt ea n f = .ok t) : s.Keeps t.1 := by
  unfold State.atomicAt at h
  split at h <;> simp at h
  subst h
  exact (State.behind_keeps ..).trans (State.atomHome_keeps ‹_›)
theorem State.release_keeps {s t : State} {ea : Word} {n v : Nat} (h : s.release ea n v = .ok t) : s.Keeps t := by
  unfold State.release at h
  dsimp only at h
  have map_ok : ∀ {r : Except Stop State} {f : State → State}, (∀ u, r = .ok u → s.Keeps u) → (∀ u : State, u.Keeps (f u)) → r.map f = .ok t → s.Keeps t := by
    intro r f hr hf e
    cases r with
    | error _ => simp [Except.map] at e
    | ok u => simp [Except.map] at e; subst e; exact (hr u rfl).trans (hf u)
  refine map_ok (fun u hu => ?_) (fun u => State.modStrand_keeps ..) h
  split at hu
  · simp at hu; subst hu; exact State.post_keeps ..
  · exact (State.settleOwn_keeps ..).trans (State.storeHome_keeps hu)
theorem State.copyWrite_keeps {s t : State} {ck : Nat} {r : Route} {x : CopySide} {n v : Nat} {bad : Bool}
    (h : s.copyWrite ck r x n v bad = some t) : s.Keeps t := by
  unfold State.copyWrite at h
  dsimp only at h
  split at h
  · split at h <;> simp at h <;> subst h
    · split
      · exact ((State.vwrite_keeps ..).trans (State.clearShades_keeps ..)).trans (State.mark_keeps ..)
      · exact (State.vwrite_keeps ..).trans (State.clearShades_keeps ..)
    · exact State.modStrand_keeps ..
  · simp at h; subst h; exact .refl _
  · simp only [Option.map_eq_some_iff] at h
    obtain ⟨ok, -, rfl⟩ := h
    split
    · exact State.modStrand_keeps ..
    · have k0 : ∀ w : State, s.Keeps w → s.Keeps (match w.wrRange (w.me? ck) (‹Word›).toNat n v with
          | (u, none) => if bad then u.markRange (u.me? ck) (‹Word›).toNat n else u
          | (_, some _) => s.modStrand ck (fun st => { st with cerr := true })) := by
        intro w kw
        have k := State.wrRange_keeps w (w.me? ck) (‹Word›).toNat n v
        split
        · next u e =>
          rw [e] at k
          exact (kw.trans k).trans (.ite _ (State.markRange_keeps ..) (.refl _))
        · exact State.modStrand_keeps ..
      have kc (w : State) (kw : s.Keeps w) (stage at_ : Nat) (k : PostKind) (c : Bool) :
          s.Keeps (if c = true then w.postAt ck 3 at_ stage r.gen r.tabs k else
            match w.wrRange (w.me? ck) (‹Word›).toNat n v with
            | (u, none) => if bad then u.markRange (u.me? ck) (‹Word›).toNat n else u
            | (_, some _) => s.modStrand ck (fun st => { st with cerr := true })) := by
        split
        · exact kw.trans (State.postAt_keeps ..)
        · exact k0 _ kw
      split
      · exact kc _ (State.shade_keeps ..) _ _ _ _
      · exact kc _ (.refl s) _ _ _ _
theorem State.copyMove_keeps {s t : State} {ck : Nat} {r : Route} {src dst : CopySide} {n : Nat} (h : s.copyMove ck r src dst n = some t) : s.Keeps t := by
  refine State.Keeps.foldlM_some _ (fun s p t h => ?_) _ _ _ h
  unfold State.copyPiece at h
  obtain ⟨r, -, h⟩ := Option.bind_eq_some_iff.mp h
  dsimp only at h
  split at h
  · exact (State.count_keeps ..).trans (State.copyWrite_keeps h)
  · exact State.copyWrite_keeps h
/-- 10 R248: a range made zero. -/
theorem State.zeroRun_keeps (s : State) (d off n : Nat) : s.Keeps (s.zeroRun d off n) := by
  unfold State.zeroRun
  split
  · exact .refl s
  · refine .ite _ (.refl s) (State.Keeps.trans ?_ (State.noteWrites_keeps ..))
    exact ⟨fun h => Mem.wf_filter _ h, id⟩
theorem State.zeroRange_keeps (s : State) (d off n : Nat) : s.Keeps (s.zeroRange d off n) := .foldl _ (fun _ _ => State.zeroRun_keeps ..) _ _
/-- 17 R366: a run of lines moved. -/
theorem State.moveRun_keeps (s : State) (ks kd n : Nat) : s.Keeps (s.moveRun ks kd n) := by
  unfold State.moveRun
  refine State.Keeps.trans (t := { s with mem := _ }) ⟨fun h => Mem.wf_foldl _ (fun _ _ => Mem.wf_write _ _) _ (Mem.wf_filter _ h), id⟩
    (State.Keeps.trans (.foldl _ (fun s i => ?_) _ _) (State.noteWrites_keeps ..))
  dsimp only
  exact .ite _ (.of_eq rfl rfl) (.of_eq rfl rfl)
theorem State.moveLines_keeps (s : State) (d : Nat) (m : Mover) (mask : Nat) : s.Keeps (s.moveLines d m mask) := by
  refine .foldl _ (fun s i => ?_) _ _
  dsimp only
  split
  · exact .ite _ (State.moveRun_keeps ..) (.foldl _ (fun _ _ => State.moveRun_keeps ..) _ _)
  · exact .refl s
/-- 16 R349: the interleaved region laid out anew. -/
theorem State.relay_keeps (s : State) (d : Nat) : s.Keeps (s.relay d) := by
  refine ⟨fun h => Mem.wf_foldl _ (fun m p h => ?_) _ (Mem.wf_filter _ h), id⟩
  dsimp only
  split
  · exact Mem.wf_write _ _ h
  · exact h
theorem State.poisonNote_keeps (s : State) (k : Nat) : s.Keeps (s.poisonNote k) := by
  unfold State.poisonNote
  dsimp only
  refine .ite _ (.refl s) ?_
  split
  · refine .ite _ (.ite _ ((State.notify_keeps ..).trans (State.modDie_keeps ..)) (State.notify_keeps ..)) (State.notify_keeps ..)
  · exact State.notify_keeps ..
/-- 17 R367. -/
theorem State.markNew_keeps (s : State) (k : Nat) : s.Keeps (s.markNew k) :=
  .ite _ (.refl s) ((State.mark_keeps ..).trans (State.poisonNote_keeps ..))
/-- 16 R340: every line of a block lost. -/
theorem State.blockLost_keeps (s : State) (d : Nat) (b : BitVec 22) : s.Keeps (s.blockLost d b) := .foldl _ (fun _ _ => State.markNew_keeps ..) _ _
/-- 12 R265: an arrival. -/
theorem State.arrive_keeps (s : State) (g : Agent) (o : Word) (st : Nat) (fl : BitVec 7) : s.Keeps (s.arrive g o st fl) := by
  unfold State.arrive
  refine .ite _ (.refl s) ((State.behind_keeps s g o.toNat).trans ?_)
  dsimp only
  split
  · exact .ite _ (State.poisonNote_keeps ..) ((State.wrKey_keeps ..).trans (State.touch_keeps ..))
  · exact .refl _
theorem State.appendLine_keeps (s : State) (ck off key : Nat) : s.Keeps (s.appendLine ck off key) := by
  unfold State.appendLine
  exact .ite _ ((State.wrKey_keeps ..).trans (State.mark_keeps ..)) (State.wrKey_keeps ..)
/-- Both memories are in canonical form at reset. -/
theorem State.reset_memWf : Mem.wf State.reset.mem = true ∧ Mem.wf State.reset.host = true := ⟨rfl, rfl⟩

end Sys2Proof.Machine
end

