-- ==== Sys2Proof/Laws/PerInstr.lean ====
section
/-! SUPPORT. For every instruction: the word that it encodes to decodes to it (02 R39 to R62). One lemma for each constructor; an event has no
word, and no word is well-formed as one. -/

namespace Sys2Proof.Laws.RoundTrip

/-- Decoding the encoding of a well-formed instruction, in an engine that may hold it, gives the instruction back. -/
def Statement (i : Instr) : Prop :=
  ∀ (pf : Profile) (e : Engine), i.WellFormed pf → (i.engine? = none ∨ i.engine? = some e) → decode pf e (encode i) = .ok i

theorem fieldsOk_of_wellFormed {pf : Profile} {i : Instr} (h : i.WellFormed pf) : i.fieldsOk pf = true := by
  unfold Instr.WellFormed Instr.reject? at h
  split at h
  · exact nomatch h
  · split at h
    · exact nomatch h
    · split at h
      · exact nomatch h
      · split at h
        · exact nomatch h
        · next hf => simp_all
/-- Bits of FN stand at 48 in a W6 word. -/
theorem fnBit (op : Nat) (h : Head) (w : W6) : (h.bits op ++ w.bits : BitVec 96).getLsbD 48 = w.fn.getLsbD 0 := by
  unfold W6.bits
  repeat first | rw [BitVec.getLsbD_append_low _ _ (by omega)] | rw [BitVec.getLsbD_append_high _ _ (by omega)]
theorem fnBits (op : Nat) (h : Head) (w : W6) : (h.bits op ++ w.bits : BitVec 96).extractLsb' 48 2 = w.fn.extractLsb' 0 2 := by
  unfold W6.bits
  repeat first | rw [BitVec.extractLsb'_append_low _ _ (by omega)] | rw [BitVec.extractLsb'_append_high _ _ (by omega)]

theorem add (h : Head) (w : W1) : Statement (.add h w) := by
  intro pf e hw he
  obtain he | he : none = some Engine.s ∨ some Engine.s = some e := he.imp (fun h => nomatch h) id
  · exact nomatch he
  cases he
  refine decode_of_parse ((parse_low (Head.op_bits 1 h w.bits) (by decide)).trans ?_) hw
  show some (Instr.add (.ofBits _) (.ofBits _)) = _
  rw [Head.ofBits_bits, W1.ofBits_bits]
theorem sub (h : Head) (w : W1) : Statement (.sub h w) := by
  intro pf e hw he
  obtain he | he : none = some Engine.s ∨ some Engine.s = some e := he.imp (fun h => nomatch h) id
  · exact nomatch he
  cases he
  refine decode_of_parse ((parse_low (Head.op_bits 2 h w.bits) (by decide)).trans ?_) hw
  show some (Instr.sub (.ofBits _) (.ofBits _)) = _
  rw [Head.ofBits_bits, W1.ofBits_bits]
theorem mul (h : Head) (w : W1) : Statement (.mul h w) := by
  intro pf e hw he
  obtain he | he : none = some Engine.s ∨ some Engine.s = some e := he.imp (fun h => nomatch h) id
  · exact nomatch he
  cases he
  refine decode_of_parse ((parse_low (Head.op_bits 3 h w.bits) (by decide)).trans ?_) hw
  show some (Instr.mul (.ofBits _) (.ofBits _)) = _
  rw [Head.ofBits_bits, W1.ofBits_bits]
theorem mulh (h : Head) (w : W1) : Statement (.mulh h w) := by
  intro pf e hw he
  obtain he | he : none = some Engine.s ∨ some Engine.s = some e := he.imp (fun h => nomatch h) id
  · exact nomatch he
  cases he
  refine decode_of_parse ((parse_low (Head.op_bits 4 h w.bits) (by decide)).trans ?_) hw
  show some (Instr.mulh (.ofBits _) (.ofBits _)) = _
  rw [Head.ofBits_bits, W1.ofBits_bits]
theorem mulhn (h : Head) (w : W1) : Statement (.mulhn h w) := by
  intro pf e hw he
  obtain he | he : none = some Engine.s ∨ some Engine.s = some e := he.imp (fun h => nomatch h) id
  · exact nomatch he
  cases he
  refine decode_of_parse ((parse_low (Head.op_bits 5 h w.bits) (by decide)).trans ?_) hw
  show some (Instr.mulhn (.ofBits _) (.ofBits _)) = _
  rw [Head.ofBits_bits, W1.ofBits_bits]
theorem div (h : Head) (w : W1) : Statement (.div h w) := by
  intro pf e hw he
  obtain he | he : none = some Engine.s ∨ some Engine.s = some e := he.imp (fun h => nomatch h) id
  · exact nomatch he
  cases he
  refine decode_of_parse ((parse_low (Head.op_bits 6 h w.bits) (by decide)).trans ?_) hw
  show some (Instr.div (.ofBits _) (.ofBits _)) = _
  rw [Head.ofBits_bits, W1.ofBits_bits]
theorem divn (h : Head) (w : W1) : Statement (.divn h w) := by
  intro pf e hw he
  obtain he | he : none = some Engine.s ∨ some Engine.s = some e := he.imp (fun h => nomatch h) id
  · exact nomatch he
  cases he
  refine decode_of_parse ((parse_low (Head.op_bits 7 h w.bits) (by decide)).trans ?_) hw
  show some (Instr.divn (.ofBits _) (.ofBits _)) = _
  rw [Head.ofBits_bits, W1.ofBits_bits]
theorem rem (h : Head) (w : W1) : Statement (.rem h w) := by
  intro pf e hw he
  obtain he | he : none = some Engine.s ∨ some Engine.s = some e := he.imp (fun h => nomatch h) id
  · exact nomatch he
  cases he
  refine decode_of_parse ((parse_low (Head.op_bits 8 h w.bits) (by decide)).trans ?_) hw
  show some (Instr.rem (.ofBits _) (.ofBits _)) = _
  rw [Head.ofBits_bits, W1.ofBits_bits]
theorem andS (h : Head) (w : W1) : Statement (.andS h w) := by
  intro pf e hw he
  obtain he | he : none = some Engine.s ∨ some Engine.s = some e := he.imp (fun h => nomatch h) id
  · exact nomatch he
  cases he
  refine decode_of_parse ((parse_low (Head.op_bits 9 h w.bits) (by decide)).trans ?_) hw
  show some (Instr.andS (.ofBits _) (.ofBits _)) = _
  rw [Head.ofBits_bits, W1.ofBits_bits]
theorem orS (h : Head) (w : W1) : Statement (.orS h w) := by
  intro pf e hw he
  obtain he | he : none = some Engine.s ∨ some Engine.s = some e := he.imp (fun h => nomatch h) id
  · exact nomatch he
  cases he
  refine decode_of_parse ((parse_low (Head.op_bits 10 h w.bits) (by decide)).trans ?_) hw
  show some (Instr.orS (.ofBits _) (.ofBits _)) = _
  rw [Head.ofBits_bits, W1.ofBits_bits]
theorem xorS (h : Head) (w : W1) : Statement (.xorS h w) := by
  intro pf e hw he
  obtain he | he : none = some Engine.s ∨ some Engine.s = some e := he.imp (fun h => nomatch h) id
  · exact nomatch he
  cases he
  refine decode_of_parse ((parse_low (Head.op_bits 11 h w.bits) (by decide)).trans ?_) hw
  show some (Instr.xorS (.ofBits _) (.ofBits _)) = _
  rw [Head.ofBits_bits, W1.ofBits_bits]
theorem andn (h : Head) (w : W1) : Statement (.andn h w) := by
  intro pf e hw he
  obtain he | he : none = some Engine.s ∨ some Engine.s = some e := he.imp (fun h => nomatch h) id
  · exact nomatch he
  cases he
  refine decode_of_parse ((parse_low (Head.op_bits 12 h w.bits) (by decide)).trans ?_) hw
  show some (Instr.andn (.ofBits _) (.ofBits _)) = _
  rw [Head.ofBits_bits, W1.ofBits_bits]
theorem shl (h : Head) (w : W1) : Statement (.shl h w) := by
  intro pf e hw he
  obtain he | he : none = some Engine.s ∨ some Engine.s = some e := he.imp (fun h => nomatch h) id
  · exact nomatch he
  cases he
  refine decode_of_parse ((parse_low (Head.op_bits 13 h w.bits) (by decide)).trans ?_) hw
  show some (Instr.shl (.ofBits _) (.ofBits _)) = _
  rw [Head.ofBits_bits, W1.ofBits_bits]
theorem shr (h : Head) (w : W1) : Statement (.shr h w) := by
  intro pf e hw he
  obtain he | he : none = some Engine.s ∨ some Engine.s = some e := he.imp (fun h => nomatch h) id
  · exact nomatch he
  cases he
  refine decode_of_parse ((parse_low (Head.op_bits 14 h w.bits) (by decide)).trans ?_) hw
  show some (Instr.shr (.ofBits _) (.ofBits _)) = _
  rw [Head.ofBits_bits, W1.ofBits_bits]
theorem sar (h : Head) (w : W1) : Statement (.sar h w) := by
  intro pf e hw he
  obtain he | he : none = some Engine.s ∨ some Engine.s = some e := he.imp (fun h => nomatch h) id
  · exact nomatch he
  cases he
  refine decode_of_parse ((parse_low (Head.op_bits 15 h w.bits) (by decide)).trans ?_) hw
  show some (Instr.sar (.ofBits _) (.ofBits _)) = _
  rw [Head.ofBits_bits, W1.ofBits_bits]
theorem rot (h : Head) (w : W1) : Statement (.rot h w) := by
  intro pf e hw he
  obtain he | he : none = some Engine.s ∨ some Engine.s = some e := he.imp (fun h => nomatch h) id
  · exact nomatch he
  cases he
  refine decode_of_parse ((parse_low (Head.op_bits 16 h w.bits) (by decide)).trans ?_) hw
  show some (Instr.rot (.ofBits _) (.ofBits _)) = _
  rw [Head.ofBits_bits, W1.ofBits_bits]
theorem minS (h : Head) (w : W1) : Statement (.minS h w) := by
  intro pf e hw he
  obtain he | he : none = some Engine.s ∨ some Engine.s = some e := he.imp (fun h => nomatch h) id
  · exact nomatch he
  cases he
  refine decode_of_parse ((parse_low (Head.op_bits 17 h w.bits) (by decide)).trans ?_) hw
  show some (Instr.minS (.ofBits _) (.ofBits _)) = _
  rw [Head.ofBits_bits, W1.ofBits_bits]
theorem maxS (h : Head) (w : W1) : Statement (.maxS h w) := by
  intro pf e hw he
  obtain he | he : none = some Engine.s ∨ some Engine.s = some e := he.imp (fun h => nomatch h) id
  · exact nomatch he
  cases he
  refine decode_of_parse ((parse_low (Head.op_bits 18 h w.bits) (by decide)).trans ?_) hw
  show some (Instr.maxS (.ofBits _) (.ofBits _)) = _
  rw [Head.ofBits_bits, W1.ofBits_bits]
theorem minn (h : Head) (w : W1) : Statement (.minn h w) := by
  intro pf e hw he
  obtain he | he : none = some Engine.s ∨ some Engine.s = some e := he.imp (fun h => nomatch h) id
  · exact nomatch he
  cases he
  refine decode_of_parse ((parse_low (Head.op_bits 19 h w.bits) (by decide)).trans ?_) hw
  show some (Instr.minn (.ofBits _) (.ofBits _)) = _
  rw [Head.ofBits_bits, W1.ofBits_bits]
theorem maxn (h : Head) (w : W1) : Statement (.maxn h w) := by
  intro pf e hw he
  obtain he | he : none = some Engine.s ∨ some Engine.s = some e := he.imp (fun h => nomatch h) id
  · exact nomatch he
  cases he
  refine decode_of_parse ((parse_low (Head.op_bits 20 h w.bits) (by decide)).trans ?_) hw
  show some (Instr.maxn (.ofBits _) (.ofBits _)) = _
  rw [Head.ofBits_bits, W1.ofBits_bits]
theorem clz (h : Head) (w : W1) : Statement (.clz h w) := by
  intro pf e hw he
  obtain he | he : none = some Engine.s ∨ some Engine.s = some e := he.imp (fun h => nomatch h) id
  · exact nomatch he
  cases he
  refine decode_of_parse ((parse_low (Head.op_bits 21 h w.bits) (by decide)).trans ?_) hw
  show some (Instr.clz (.ofBits _) (.ofBits _)) = _
  rw [Head.ofBits_bits, W1.ofBits_bits]
theorem ctz (h : Head) (w : W1) : Statement (.ctz h w) := by
  intro pf e hw he
  obtain he | he : none = some Engine.s ∨ some Engine.s = some e := he.imp (fun h => nomatch h) id
  · exact nomatch he
  cases he
  refine decode_of_parse ((parse_low (Head.op_bits 22 h w.bits) (by decide)).trans ?_) hw
  show some (Instr.ctz (.ofBits _) (.ofBits _)) = _
  rw [Head.ofBits_bits, W1.ofBits_bits]
theorem popc (h : Head) (w : W1) : Statement (.popc h w) := by
  intro pf e hw he
  obtain he | he : none = some Engine.s ∨ some Engine.s = some e := he.imp (fun h => nomatch h) id
  · exact nomatch he
  cases he
  refine decode_of_parse ((parse_low (Head.op_bits 23 h w.bits) (by decide)).trans ?_) hw
  show some (Instr.popc (.ofBits _) (.ofBits _)) = _
  rw [Head.ofBits_bits, W1.ofBits_bits]
theorem bfx (h : Head) (w : W1) : Statement (.bfx h w) := by
  intro pf e hw he
  obtain he | he : none = some Engine.s ∨ some Engine.s = some e := he.imp (fun h => nomatch h) id
  · exact nomatch he
  cases he
  refine decode_of_parse ((parse_low (Head.op_bits 24 h w.bits) (by decide)).trans ?_) hw
  show some (Instr.bfx (.ofBits _) (.ofBits _)) = _
  rw [Head.ofBits_bits, W1.ofBits_bits]
theorem bfi (h : Head) (w : W1) : Statement (.bfi h w) := by
  intro pf e hw he
  obtain he | he : none = some Engine.s ∨ some Engine.s = some e := he.imp (fun h => nomatch h) id
  · exact nomatch he
  cases he
  refine decode_of_parse ((parse_low (Head.op_bits 25 h w.bits) (by decide)).trans ?_) hw
  show some (Instr.bfi (.ofBits _) (.ofBits _)) = _
  rw [Head.ofBits_bits, W1.ofBits_bits]
theorem sel (h : Head) (w : W1) : Statement (.sel h w) := by
  intro pf e hw he
  obtain he | he : none = some Engine.s ∨ some Engine.s = some e := he.imp (fun h => nomatch h) id
  · exact nomatch he
  cases he
  refine decode_of_parse ((parse_low (Head.op_bits 26 h w.bits) (by decide)).trans ?_) hw
  show some (Instr.sel (.ofBits _) (.ofBits _)) = _
  rw [Head.ofBits_bits, W1.ofBits_bits]
theorem li (h : Head) (w : W1) : Statement (.li h w) := by
  intro pf e hw he
  obtain he | he : none = some Engine.s ∨ some Engine.s = some e := he.imp (fun h => nomatch h) id
  · exact nomatch he
  cases he
  refine decode_of_parse ((parse_low (Head.op_bits 27 h w.bits) (by decide)).trans ?_) hw
  show some (Instr.li (.ofBits _) (.ofBits _)) = _
  rw [Head.ofBits_bits, W1.ofBits_bits]
theorem lih (h : Head) (w : W1) : Statement (.lih h w) := by
  intro pf e hw he
  obtain he | he : none = some Engine.s ∨ some Engine.s = some e := he.imp (fun h => nomatch h) id
  · exact nomatch he
  cases he
  refine decode_of_parse ((parse_low (Head.op_bits 28 h w.bits) (by decide)).trans ?_) hw
  show some (Instr.lih (.ofBits _) (.ofBits _)) = _
  rw [Head.ofBits_bits, W1.ofBits_bits]
theorem cmp (h : Head) (w : W1) : Statement (.cmp h w) := by
  intro pf e hw he
  obtain he | he : none = some Engine.s ∨ some Engine.s = some e := he.imp (fun h => nomatch h) id
  · exact nomatch he
  cases he
  refine decode_of_parse ((parse_low (Head.op_bits 29 h w.bits) (by decide)).trans ?_) hw
  show some (Instr.cmp (.ofBits _) (.ofBits _)) = _
  rw [Head.ofBits_bits, W1.ofBits_bits]
theorem jct (h : Head) (w : W3) : Statement (.jct h w) := by
  intro pf e hw he
  obtain he | he : none = some Engine.s ∨ some Engine.s = some e := he.imp (fun h => nomatch h) id
  · exact nomatch he
  cases he
  refine decode_of_parse ((parse_low (Head.op_bits 64 h w.bits) (by decide)).trans ?_) hw
  show some (Instr.jct (.ofBits _) (.ofBits _)) = _
  rw [Head.ofBits_bits, W3.ofBits_bits]
theorem jmp (h : Head) (w : W3) : Statement (.jmp h w) := by
  intro pf e hw he
  obtain he | he : none = some Engine.s ∨ some Engine.s = some e := he.imp (fun h => nomatch h) id
  · exact nomatch he
  cases he
  refine decode_of_parse ((parse_low (Head.op_bits 65 h w.bits) (by decide)).trans ?_) hw
  show some (Instr.jmp (.ofBits _) (.ofBits _)) = _
  rw [Head.ofBits_bits, W3.ofBits_bits]
theorem loop (h : Head) (w : W3) : Statement (.loop h w) := by
  intro pf e hw he
  obtain he | he : none = some Engine.s ∨ some Engine.s = some e := he.imp (fun h => nomatch h) id
  · exact nomatch he
  cases he
  refine decode_of_parse ((parse_low (Head.op_bits 66 h w.bits) (by decide)).trans ?_) hw
  show some (Instr.loop (.ofBits _) (.ofBits _)) = _
  rw [Head.ofBits_bits, W3.ofBits_bits]
theorem call (h : Head) (w : W3) : Statement (.call h w) := by
  intro pf e hw he
  obtain he | he : none = some Engine.s ∨ some Engine.s = some e := he.imp (fun h => nomatch h) id
  · exact nomatch he
  cases he
  refine decode_of_parse ((parse_low (Head.op_bits 67 h w.bits) (by decide)).trans ?_) hw
  show some (Instr.call (.ofBits _) (.ofBits _)) = _
  rw [Head.ofBits_bits, W3.ofBits_bits]
theorem ret (h : Head) (w : W3) : Statement (.ret h w) := by
  intro pf e hw he
  obtain he | he : none = some Engine.s ∨ some Engine.s = some e := he.imp (fun h => nomatch h) id
  · exact nomatch he
  cases he
  refine decode_of_parse ((parse_low (Head.op_bits 68 h w.bits) (by decide)).trans ?_) hw
  show some (Instr.ret (.ofBits _) (.ofBits _)) = _
  rw [Head.ofBits_bits, W3.ofBits_bits]
theorem endWord (h : Head) (w : W3) : Statement (.endWord h w) := by
  intro pf e hw he
  obtain he | he : none = some Engine.s ∨ some Engine.s = some e := he.imp (fun h => nomatch h) id
  · exact nomatch he
  cases he
  refine decode_of_parse ((parse_low (Head.op_bits 69 h w.bits) (by decide)).trans ?_) hw
  show some (Instr.endWord (.ofBits _) (.ofBits _)) = _
  rw [Head.ofBits_bits, W3.ofBits_bits]
theorem yieldWord (h : Head) (w : W6) : Statement (.yieldWord h w) := by
  intro pf e hw he
  obtain he | he : none = some Engine.s ∨ some Engine.s = some e := he.imp (fun h => nomatch h) id
  · exact nomatch he
  cases he
  refine decode_of_parse ((parse_low (Head.op_bits 70 h w.bits) (by decide)).trans ?_) hw
  show some (Instr.yieldWord (.ofBits _) (.ofBits _)) = _
  rw [Head.ofBits_bits, W6.ofBits_bits]
theorem trapWord (h : Head) (w : W6) : Statement (.trapWord h w) := by
  intro pf e hw he
  obtain he | he : none = some Engine.s ∨ some Engine.s = some e := he.imp (fun h => nomatch h) id
  · exact nomatch he
  cases he
  refine decode_of_parse ((parse_low (Head.op_bits 71 h w.bits) (by decide)).trans ?_) hw
  show some (Instr.trapWord (.ofBits _) (.ofBits _)) = _
  rw [Head.ofBits_bits, W6.ofBits_bits]
theorem nop (h : Head) (w : W1) : Statement (.nop h w) := by
  intro pf e hw he
  obtain he | he : none = some Engine.s ∨ some Engine.s = some e := he.imp (fun h => nomatch h) id
  · exact nomatch he
  cases he
  refine decode_of_parse ((parse_low (Head.op_bits 72 h w.bits) (by decide)).trans ?_) hw
  show some (Instr.nop (.ofBits _) (.ofBits _)) = _
  rw [Head.ofBits_bits, W1.ofBits_bits]
theorem prio (h : Head) (w : W6) : Statement (.prio h w) := by
  intro pf e hw he
  obtain he | he : none = some Engine.s ∨ some Engine.s = some e := he.imp (fun h => nomatch h) id
  · exact nomatch he
  cases he
  refine decode_of_parse ((parse_low (Head.op_bits 73 h w.bits) (by decide)).trans ?_) hw
  show some (Instr.prio (.ofBits _) (.ofBits _)) = _
  rw [Head.ofBits_bits, W6.ofBits_bits]
theorem sysrd (h : Head) (w : W6) : Statement (.sysrd h w) := by
  intro pf e hw he
  obtain he | he : none = some Engine.s ∨ some Engine.s = some e := he.imp (fun h => nomatch h) id
  · exact nomatch he
  cases he
  refine decode_of_parse ((parse_low (Head.op_bits 74 h w.bits) (by decide)).trans ?_) hw
  show some (Instr.sysrd (.ofBits _) (.ofBits _)) = _
  rw [Head.ofBits_bits, W6.ofBits_bits]
theorem syswr (h : Head) (w : W6) : Statement (.syswr h w) := by
  intro pf e hw he
  obtain he | he : none = some Engine.s ∨ some Engine.s = some e := he.imp (fun h => nomatch h) id
  · exact nomatch he
  cases he
  refine decode_of_parse ((parse_low (Head.op_bits 75 h w.bits) (by decide)).trans ?_) hw
  show some (Instr.syswr (.ofBits _) (.ofBits _)) = _
  rw [Head.ofBits_bits, W6.ofBits_bits]
theorem snaprd (h : Head) (w : W6) : Statement (.snaprd h w) := by
  intro pf e hw he
  obtain he | he : none = some Engine.s ∨ some Engine.s = some e := he.imp (fun h => nomatch h) id
  · exact nomatch he
  cases he
  refine decode_of_parse ((parse_low (Head.op_bits 80 h w.bits) (by decide)).trans ?_) hw
  show some (Instr.snaprd (.ofBits _) (.ofBits _)) = _
  rw [Head.ofBits_bits, W6.ofBits_bits]
theorem snapwr (h : Head) (w : W6) : Statement (.snapwr h w) := by
  intro pf e hw he
  obtain he | he : none = some Engine.s ∨ some Engine.s = some e := he.imp (fun h => nomatch h) id
  · exact nomatch he
  cases he
  refine decode_of_parse ((parse_low (Head.op_bits 81 h w.bits) (by decide)).trans ?_) hw
  show some (Instr.snapwr (.ofBits _) (.ofBits _)) = _
  rw [Head.ofBits_bits, W6.ofBits_bits]
theorem join (h : Head) (w : W6) : Statement (.join h w) := by
  intro pf e hw he
  obtain he | he : none = some Engine.s ∨ some Engine.s = some e := he.imp (fun h => nomatch h) id
  · exact nomatch he
  cases he
  refine decode_of_parse ((parse_low (Head.op_bits 88 h w.bits) (by decide)).trans ?_) hw
  show some (Instr.join (.ofBits _) (.ofBits _)) = _
  rw [Head.ofBits_bits, W6.ofBits_bits]
theorem leave (h : Head) (w : W6) : Statement (.leave h w) := by
  intro pf e hw he
  obtain he | he : none = some Engine.s ∨ some Engine.s = some e := he.imp (fun h => nomatch h) id
  · exact nomatch he
  cases he
  refine decode_of_parse ((parse_low (Head.op_bits 89 h w.bits) (by decide)).trans ?_) hw
  show some (Instr.leave (.ofBits _) (.ofBits _)) = _
  rw [Head.ofBits_bits, W6.ofBits_bits]
theorem gbar (h : Head) (w : W6) : Statement (.gbar h w) := by
  intro pf e hw he
  obtain he | he : none = some Engine.s ∨ some Engine.s = some e := he.imp (fun h => nomatch h) id
  · exact nomatch he
  cases he
  refine decode_of_parse ((parse_low (Head.op_bits 90 h w.bits) (by decide)).trans ?_) hw
  show some (Instr.gbar (.ofBits _) (.ofBits _)) = _
  rw [Head.ofBits_bits, W6.ofBits_bits]
theorem barw (h : Head) (w : W6) : Statement (.barw h w) := by
  intro pf e hw he
  obtain he | he : none = some Engine.s ∨ some Engine.s = some e := he.imp (fun h => nomatch h) id
  · exact nomatch he
  cases he
  refine decode_of_parse ((parse_low (Head.op_bits 91 h w.bits) (by decide)).trans ?_) hw
  show some (Instr.barw (.ofBits _) (.ofBits _)) = _
  rw [Head.ofBits_bits, W6.ofBits_bits]
theorem launch (h : Head) (w : W6) : Statement (.launch h w) := by
  intro pf e hw he
  obtain he | he : none = some Engine.s ∨ some Engine.s = some e := he.imp (fun h => nomatch h) id
  · exact nomatch he
  cases he
  refine decode_of_parse ((parse_low (Head.op_bits 92 h w.bits) (by decide)).trans ?_) hw
  show some (Instr.launch (.ofBits _) (.ofBits _)) = _
  rw [Head.ofBits_bits, W6.ofBits_bits]
theorem task (h : Head) (w : W6) : Statement (.task h w) := by
  intro pf e hw he
  obtain he | he : none = some Engine.s ∨ some Engine.s = some e := he.imp (fun h => nomatch h) id
  · exact nomatch he
  cases he
  refine decode_of_parse ((parse_low (Head.op_bits 93 h w.bits) (by decide)).trans ?_) hw
  show some (Instr.task (.ofBits _) (.ofBits _)) = _
  rw [Head.ofBits_bits, W6.ofBits_bits]
theorem phaseG (h : Head) (w : W6) : Statement (.phaseG h w) := by
  intro pf e hw he
  obtain he | he : none = some Engine.s ∨ some Engine.s = some e := he.imp (fun h => nomatch h) id
  · exact nomatch he
  cases he
  refine decode_of_parse ((parse_low (Head.op_bits 94 h w.bits) (by decide)).trans ?_) hw
  have hf : w.fn.extractLsb' 0 2 = 0 := by
    have hk := fieldsOk_of_wellFormed hw
    simp [Instr.fieldsOk, Legal.fi] at hk
    have hz : w.fn = 0 := BitVec.eq_of_toNat_eq (by simp; omega)
    rw [hz]; rfl
  show some (if (h.bits 0x5e ++ w.bits : BitVec 96).extractLsb' 48 2 = 0 then Instr.phaseG (.ofBits _) (.ofBits _) else Instr.phaseSolo (.ofBits _) (.ofBits _)) = _
  rw [fnBits, if_pos hf, Head.ofBits_bits, W6.ofBits_bits]
theorem phaseSolo (h : Head) (w : W6) : Statement (.phaseSolo h w) := by
  intro pf e hw he
  obtain he | he : none = some Engine.s ∨ some Engine.s = some e := he.imp (fun h => nomatch h) id
  · exact nomatch he
  cases he
  refine decode_of_parse ((parse_low (Head.op_bits 94 h w.bits) (by decide)).trans ?_) hw
  have hf : ¬ w.fn.extractLsb' 0 2 = 0 := by
    have hk := fieldsOk_of_wellFormed hw
    simp [Instr.fieldsOk, Legal.fi] at hk
    intro hz
    have h1 := congrArg BitVec.toNat hz
    simp [BitVec.extractLsb'_toNat] at h1
    exact hk.2 (BitVec.eq_of_toNat_eq (by simp; omega))
  show some (if (h.bits 0x5e ++ w.bits : BitVec 96).extractLsb' 48 2 = 0 then Instr.phaseG (.ofBits _) (.ofBits _) else Instr.phaseSolo (.ofBits _) (.ofBits _)) = _
  rw [fnBits, if_neg hf, Head.ofBits_bits, W6.ofBits_bits]
theorem cgateOff (h : Head) (w : W6) : Statement (.cgateOff h w) := by
  intro pf e hw he
  obtain he | he : none = some Engine.s ∨ some Engine.s = some e := he.imp (fun h => nomatch h) id
  · exact nomatch he
  cases he
  refine decode_of_parse ((parse_low (Head.op_bits 96 h w.bits) (by decide)).trans ?_) hw
  have hf : w.fn.getLsbD 0 = false := by
    have hk := fieldsOk_of_wellFormed hw
    simp [Instr.fieldsOk, Legal.fi] at hk
    have hz : w.fn = 0 := BitVec.eq_of_toNat_eq (by simp; omega)
    rw [hz]; rfl
  show some (if (h.bits 0x60 ++ w.bits : BitVec 96).getLsbD 48 then Instr.cgateOn (.ofBits _) (.ofBits _) else Instr.cgateOff (.ofBits _) (.ofBits _)) = _
  rw [fnBit, hf, Head.ofBits_bits, W6.ofBits_bits]
  rfl
theorem cgateOn (h : Head) (w : W6) : Statement (.cgateOn h w) := by
  intro pf e hw he
  obtain he | he : none = some Engine.s ∨ some Engine.s = some e := he.imp (fun h => nomatch h) id
  · exact nomatch he
  cases he
  refine decode_of_parse ((parse_low (Head.op_bits 96 h w.bits) (by decide)).trans ?_) hw
  have hf : w.fn.getLsbD 0 = true := by
    have hk := fieldsOk_of_wellFormed hw
    simp [Instr.fieldsOk, Legal.f0] at hk
    simp [hk]
  show some (if (h.bits 0x60 ++ w.bits : BitVec 96).getLsbD 48 then Instr.cgateOn (.ofBits _) (.ofBits _) else Instr.cgateOff (.ofBits _) (.ofBits _)) = _
  rw [fnBit, hf, Head.ofBits_bits, W6.ofBits_bits]
  rfl
theorem pwracq (h : Head) (w : W6) : Statement (.pwracq h w) := by
  intro pf e hw he
  obtain he | he : none = some Engine.s ∨ some Engine.s = some e := he.imp (fun h => nomatch h) id
  · exact nomatch he
  cases he
  refine decode_of_parse ((parse_low (Head.op_bits 97 h w.bits) (by decide)).trans ?_) hw
  show some (Instr.pwracq (.ofBits _) (.ofBits _)) = _
  rw [Head.ofBits_bits, W6.ofBits_bits]
theorem pwrrel (h : Head) (w : W6) : Statement (.pwrrel h w) := by
  intro pf e hw he
  obtain he | he : none = some Engine.s ∨ some Engine.s = some e := he.imp (fun h => nomatch h) id
  · exact nomatch he
  cases he
  refine decode_of_parse ((parse_low (Head.op_bits 98 h w.bits) (by decide)).trans ?_) hw
  show some (Instr.pwrrel (.ofBits _) (.ofBits _)) = _
  rw [Head.ofBits_bits, W6.ofBits_bits]
theorem tlbinv (h : Head) (w : W6) : Statement (.tlbinv h w) := by
  intro pf e hw he
  obtain he | he : none = some Engine.s ∨ some Engine.s = some e := he.imp (fun h => nomatch h) id
  · exact nomatch he
  cases he
  refine decode_of_parse ((parse_low (Head.op_bits 104 h w.bits) (by decide)).trans ?_) hw
  show some (Instr.tlbinv (.ofBits _) (.ofBits _)) = _
  rw [Head.ofBits_bits, W6.ofBits_bits]
theorem l2mode (h : Head) (w : W6) : Statement (.l2mode h w) := by
  intro pf e hw he
  obtain he | he : none = some Engine.s ∨ some Engine.s = some e := he.imp (fun h => nomatch h) id
  · exact nomatch he
  cases he
  refine decode_of_parse ((parse_low (Head.op_bits 105 h w.bits) (by decide)).trans ?_) hw
  show some (Instr.l2mode (.ofBits _) (.ofBits _)) = _
  rw [Head.ofBits_bits, W6.ofBits_bits]
theorem mpage (h : Head) (w : W6) : Statement (.mpage h w) := by
  intro pf e hw he
  obtain he | he : none = some Engine.s ∨ some Engine.s = some e := he.imp (fun h => nomatch h) id
  · exact nomatch he
  cases he
  refine decode_of_parse ((parse_low (Head.op_bits 106 h w.bits) (by decide)).trans ?_) hw
  show some (Instr.mpage (.ofBits _) (.ofBits _)) = _
  rw [Head.ofBits_bits, W6.ofBits_bits]
theorem kvrootAdd (h : Head) (w : W6) : Statement (.kvrootAdd h w) := by
  intro pf e hw he
  obtain he | he : none = some Engine.s ∨ some Engine.s = some e := he.imp (fun h => nomatch h) id
  · exact nomatch he
  cases he
  refine decode_of_parse ((parse_low (Head.op_bits 107 h w.bits) (by decide)).trans ?_) hw
  have hf : w.fn.getLsbD 0 = false := by
    have hk := fieldsOk_of_wellFormed hw
    simp [Instr.fieldsOk, Legal.fi] at hk
    have hz : w.fn = 0 := BitVec.eq_of_toNat_eq (by simp; omega)
    rw [hz]; rfl
  show some (if (h.bits 0x6b ++ w.bits : BitVec 96).getLsbD 48 then Instr.kvrootDel (.ofBits _) (.ofBits _) else Instr.kvrootAdd (.ofBits _) (.ofBits _)) = _
  rw [fnBit, hf, Head.ofBits_bits, W6.ofBits_bits]
  rfl
theorem kvrootDel (h : Head) (w : W6) : Statement (.kvrootDel h w) := by
  intro pf e hw he
  obtain he | he : none = some Engine.s ∨ some Engine.s = some e := he.imp (fun h => nomatch h) id
  · exact nomatch he
  cases he
  refine decode_of_parse ((parse_low (Head.op_bits 107 h w.bits) (by decide)).trans ?_) hw
  have hf : w.fn.getLsbD 0 = true := by
    have hk := fieldsOk_of_wellFormed hw
    simp [Instr.fieldsOk, Legal.f0] at hk
    simp [hk]
  show some (if (h.bits 0x6b ++ w.bits : BitVec 96).getLsbD 48 then Instr.kvrootDel (.ofBits _) (.ofBits _) else Instr.kvrootAdd (.ofBits _) (.ofBits _)) = _
  rw [fnBit, hf, Head.ofBits_bits, W6.ofBits_bits]
  rfl
theorem kvfind (h : Head) (w : W6) : Statement (.kvfind h w) := by
  intro pf e hw he
  obtain he | he : none = some Engine.s ∨ some Engine.s = some e := he.imp (fun h => nomatch h) id
  · exact nomatch he
  cases he
  refine decode_of_parse ((parse_low (Head.op_bits 108 h w.bits) (by decide)).trans ?_) hw
  show some (Instr.kvfind (.ofBits _) (.ofBits _)) = _
  rw [Head.ofBits_bits, W6.ofBits_bits]
theorem rqhand (h : Head) (w : W6) : Statement (.rqhand h w) := by
  intro pf e hw he
  obtain he | he : none = some Engine.s ∨ some Engine.s = some e := he.imp (fun h => nomatch h) id
  · exact nomatch he
  cases he
  refine decode_of_parse ((parse_low (Head.op_bits 112 h w.bits) (by decide)).trans ?_) hw
  show some (Instr.rqhand (.ofBits _) (.ofBits _)) = _
  rw [Head.ofBits_bits, W6.ofBits_bits]
theorem rqcan (h : Head) (w : W6) : Statement (.rqcan h w) := by
  intro pf e hw he
  obtain he | he : none = some Engine.s ∨ some Engine.s = some e := he.imp (fun h => nomatch h) id
  · exact nomatch he
  cases he
  refine decode_of_parse ((parse_low (Head.op_bits 113 h w.bits) (by decide)).trans ?_) hw
  show some (Instr.rqcan (.ofBits _) (.ofBits _)) = _
  rw [Head.ofBits_bits, W6.ofBits_bits]
theorem rqstat (h : Head) (w : W6) : Statement (.rqstat h w) := by
  intro pf e hw he
  obtain he | he : none = some Engine.s ∨ some Engine.s = some e := he.imp (fun h => nomatch h) id
  · exact nomatch he
  cases he
  refine decode_of_parse ((parse_low (Head.op_bits 114 h w.bits) (by decide)).trans ?_) hw
  show some (Instr.rqstat (.ofBits _) (.ofBits _)) = _
  rw [Head.ofBits_bits, W6.ofBits_bits]
theorem rqdone (h : Head) (w : W6) : Statement (.rqdone h w) := by
  intro pf e hw he
  obtain he | he : none = some Engine.s ∨ some Engine.s = some e := he.imp (fun h => nomatch h) id
  · exact nomatch he
  cases he
  refine decode_of_parse ((parse_low (Head.op_bits 115 h w.bits) (by decide)).trans ?_) hw
  show some (Instr.rqdone (.ofBits _) (.ofBits _)) = _
  rw [Head.ofBits_bits, W6.ofBits_bits]
theorem publish (h : Head) (w : W6) : Statement (.publish h w) := by
  intro pf e hw he
  obtain he | he : none = some Engine.s ∨ some Engine.s = some e := he.imp (fun h => nomatch h) id
  · exact nomatch he
  cases he
  refine decode_of_parse ((parse_low (Head.op_bits 116 h w.bits) (by decide)).trans ?_) hw
  show some (Instr.publish (.ofBits _) (.ofBits _)) = _
  rw [Head.ofBits_bits, W6.ofBits_bits]
theorem tbind (h : Head) (w : W6) : Statement (.tbind h w) := by
  intro pf e hw he
  obtain he | he : none = some Engine.s ∨ some Engine.s = some e := he.imp (fun h => nomatch h) id
  · exact nomatch he
  cases he
  refine decode_of_parse ((parse_low (Head.op_bits 120 h w.bits) (by decide)).trans ?_) hw
  show some (Instr.tbind (.ofBits _) (.ofBits _)) = _
  rw [Head.ofBits_bits, W6.ofBits_bits]
theorem recirc (h : Head) (w : W6) : Statement (.recirc h w) := by
  intro pf e hw he
  obtain he | he : none = some Engine.s ∨ some Engine.s = some e := he.imp (fun h => nomatch h) id
  · exact nomatch he
  cases he
  refine decode_of_parse ((parse_low (Head.op_bits 121 h w.bits) (by decide)).trans ?_) hw
  show some (Instr.recirc (.ofBits _) (.ofBits _)) = _
  rw [Head.ofBits_bits, W6.ofBits_bits]
theorem aadd (h : Head) (w : W1) : Statement (.aadd h w) := by
  intro pf e hw he
  obtain he | he : none = some Engine.s ∨ some Engine.a = some e := he.imp (fun h => nomatch h) id
  · exact nomatch he
  cases he
  refine decode_of_parse ((parse_low (Head.op_bits 1 h w.bits) (by decide)).trans ?_) hw
  show some (Instr.aadd (.ofBits _) (.ofBits _)) = _
  rw [Head.ofBits_bits, W1.ofBits_bits]
theorem asub (h : Head) (w : W1) : Statement (.asub h w) := by
  intro pf e hw he
  obtain he | he : none = some Engine.s ∨ some Engine.a = some e := he.imp (fun h => nomatch h) id
  · exact nomatch he
  cases he
  refine decode_of_parse ((parse_low (Head.op_bits 2 h w.bits) (by decide)).trans ?_) hw
  show some (Instr.asub (.ofBits _) (.ofBits _)) = _
  rw [Head.ofBits_bits, W1.ofBits_bits]
theorem amul (h : Head) (w : W1) : Statement (.amul h w) := by
  intro pf e hw he
  obtain he | he : none = some Engine.s ∨ some Engine.a = some e := he.imp (fun h => nomatch h) id
  · exact nomatch he
  cases he
  refine decode_of_parse ((parse_low (Head.op_bits 3 h w.bits) (by decide)).trans ?_) hw
  show some (Instr.amul (.ofBits _) (.ofBits _)) = _
  rw [Head.ofBits_bits, W1.ofBits_bits]
theorem ashl (h : Head) (w : W1) : Statement (.ashl h w) := by
  intro pf e hw he
  obtain he | he : none = some Engine.s ∨ some Engine.a = some e := he.imp (fun h => nomatch h) id
  · exact nomatch he
  cases he
  refine decode_of_parse ((parse_low (Head.op_bits 4 h w.bits) (by decide)).trans ?_) hw
  show some (Instr.ashl (.ofBits _) (.ofBits _)) = _
  rw [Head.ofBits_bits, W1.ofBits_bits]
theorem ashr (h : Head) (w : W1) : Statement (.ashr h w) := by
  intro pf e hw he
  obtain he | he : none = some Engine.s ∨ some Engine.a = some e := he.imp (fun h => nomatch h) id
  · exact nomatch he
  cases he
  refine decode_of_parse ((parse_low (Head.op_bits 5 h w.bits) (by decide)).trans ?_) hw
  show some (Instr.ashr (.ofBits _) (.ofBits _)) = _
  rw [Head.ofBits_bits, W1.ofBits_bits]
theorem aand (h : Head) (w : W1) : Statement (.aand h w) := by
  intro pf e hw he
  obtain he | he : none = some Engine.s ∨ some Engine.a = some e := he.imp (fun h => nomatch h) id
  · exact nomatch he
  cases he
  refine decode_of_parse ((parse_low (Head.op_bits 6 h w.bits) (by decide)).trans ?_) hw
  show some (Instr.aand (.ofBits _) (.ofBits _)) = _
  rw [Head.ofBits_bits, W1.ofBits_bits]
theorem aor (h : Head) (w : W1) : Statement (.aor h w) := by
  intro pf e hw he
  obtain he | he : none = some Engine.s ∨ some Engine.a = some e := he.imp (fun h => nomatch h) id
  · exact nomatch he
  cases he
  refine decode_of_parse ((parse_low (Head.op_bits 7 h w.bits) (by decide)).trans ?_) hw
  show some (Instr.aor (.ofBits _) (.ofBits _)) = _
  rw [Head.ofBits_bits, W1.ofBits_bits]
theorem ali (h : Head) (w : W1) : Statement (.ali h w) := by
  intro pf e hw he
  obtain he | he : none = some Engine.s ∨ some Engine.a = some e := he.imp (fun h => nomatch h) id
  · exact nomatch he
  cases he
  refine decode_of_parse ((parse_low (Head.op_bits 8 h w.bits) (by decide)).trans ?_) hw
  show some (Instr.ali (.ofBits _) (.ofBits _)) = _
  rw [Head.ofBits_bits, W1.ofBits_bits]
theorem ld (h : Head) (w : W2) : Statement (.ld h w) := by
  intro pf e hw he
  obtain he | he : none = some Engine.s ∨ some Engine.a = some e := he.imp (fun h => nomatch h) id
  · exact nomatch he
  cases he
  refine decode_of_parse ((parse_low (Head.op_bits 16 h w.bits) (by decide)).trans ?_) hw
  show some (Instr.ld (.ofBits _) (.ofBits _)) = _
  rw [Head.ofBits_bits, W2.ofBits_bits]
theorem st (h : Head) (w : W2) : Statement (.st h w) := by
  intro pf e hw he
  obtain he | he : none = some Engine.s ∨ some Engine.a = some e := he.imp (fun h => nomatch h) id
  · exact nomatch he
  cases he
  refine decode_of_parse ((parse_low (Head.op_bits 17 h w.bits) (by decide)).trans ?_) hw
  show some (Instr.st (.ofBits _) (.ofBits _)) = _
  rw [Head.ofBits_bits, W2.ofBits_bits]
theorem qbind (h : Head) (w : W4) : Statement (.qbind h w) := by
  intro pf e hw he
  obtain he | he : none = some Engine.s ∨ some Engine.a = some e := he.imp (fun h => nomatch h) id
  · exact nomatch he
  cases he
  refine decode_of_parse ((parse_low (Head.op_bits 24 h w.bits) (by decide)).trans ?_) hw
  show some (Instr.qbind (.ofBits _) (.ofBits _)) = _
  rw [Head.ofBits_bits, W4.ofBits_bits]
theorem qfree (h : Head) (w : W4) : Statement (.qfree h w) := by
  intro pf e hw he
  obtain he | he : none = some Engine.s ∨ some Engine.a = some e := he.imp (fun h => nomatch h) id
  · exact nomatch he
  cases he
  refine decode_of_parse ((parse_low (Head.op_bits 25 h w.bits) (by decide)).trans ?_) hw
  show some (Instr.qfree (.ofBits _) (.ofBits _)) = _
  rw [Head.ofBits_bits, W4.ofBits_bits]
theorem probe (h : Head) (w : W2) : Statement (.probe h w) := by
  intro pf e hw he
  obtain he | he : none = some Engine.s ∨ some Engine.a = some e := he.imp (fun h => nomatch h) id
  · exact nomatch he
  cases he
  refine decode_of_parse ((parse_low (Head.op_bits 28 h w.bits) (by decide)).trans ?_) hw
  show some (Instr.probe (.ofBits _) (.ofBits _)) = _
  rw [Head.ofBits_bits, W2.ofBits_bits]
theorem aswap (h : Head) (w : W2) : Statement (.aswap h w) := by
  intro pf e hw he
  obtain he | he : none = some Engine.s ∨ some Engine.a = some e := he.imp (fun h => nomatch h) id
  · exact nomatch he
  cases he
  refine decode_of_parse ((parse_low (Head.op_bits 32 h w.bits) (by decide)).trans ?_) hw
  show some (Instr.aswap (.ofBits _) (.ofBits _)) = _
  rw [Head.ofBits_bits, W2.ofBits_bits]
theorem acas (h : Head) (w : W2) : Statement (.acas h w) := by
  intro pf e hw he
  obtain he | he : none = some Engine.s ∨ some Engine.a = some e := he.imp (fun h => nomatch h) id
  · exact nomatch he
  cases he
  refine decode_of_parse ((parse_low (Head.op_bits 33 h w.bits) (by decide)).trans ?_) hw
  show some (Instr.acas (.ofBits _) (.ofBits _)) = _
  rw [Head.ofBits_bits, W2.ofBits_bits]
theorem afadd (h : Head) (w : W2) : Statement (.afadd h w) := by
  intro pf e hw he
  obtain he | he : none = some Engine.s ∨ some Engine.a = some e := he.imp (fun h => nomatch h) id
  · exact nomatch he
  cases he
  refine decode_of_parse ((parse_low (Head.op_bits 34 h w.bits) (by decide)).trans ?_) hw
  show some (Instr.afadd (.ofBits _) (.ofBits _)) = _
  rw [Head.ofBits_bits, W2.ofBits_bits]
theorem aiadd (h : Head) (w : W2) : Statement (.aiadd h w) := by
  intro pf e hw he
  obtain he | he : none = some Engine.s ∨ some Engine.a = some e := he.imp (fun h => nomatch h) id
  · exact nomatch he
  cases he
  refine decode_of_parse ((parse_low (Head.op_bits 35 h w.bits) (by decide)).trans ?_) hw
  show some (Instr.aiadd (.ofBits _) (.ofBits _)) = _
  rw [Head.ofBits_bits, W2.ofBits_bits]
theorem amin (h : Head) (w : W2) : Statement (.amin h w) := by
  intro pf e hw he
  obtain he | he : none = some Engine.s ∨ some Engine.a = some e := he.imp (fun h => nomatch h) id
  · exact nomatch he
  cases he
  refine decode_of_parse ((parse_low (Head.op_bits 36 h w.bits) (by decide)).trans ?_) hw
  show some (Instr.amin (.ofBits _) (.ofBits _)) = _
  rw [Head.ofBits_bits, W2.ofBits_bits]
theorem amax (h : Head) (w : W2) : Statement (.amax h w) := by
  intro pf e hw he
  obtain he | he : none = some Engine.s ∨ some Engine.a = some e := he.imp (fun h => nomatch h) id
  · exact nomatch he
  cases he
  refine decode_of_parse ((parse_low (Head.op_bits 37 h w.bits) (by decide)).trans ?_) hw
  show some (Instr.amax (.ofBits _) (.ofBits _)) = _
  rw [Head.ofBits_bits, W2.ofBits_bits]
theorem aandm (h : Head) (w : W2) : Statement (.aandm h w) := by
  intro pf e hw he
  obtain he | he : none = some Engine.s ∨ some Engine.a = some e := he.imp (fun h => nomatch h) id
  · exact nomatch he
  cases he
  refine decode_of_parse ((parse_low (Head.op_bits 38 h w.bits) (by decide)).trans ?_) hw
  show some (Instr.aandm (.ofBits _) (.ofBits _)) = _
  rw [Head.ofBits_bits, W2.ofBits_bits]
theorem aorm (h : Head) (w : W2) : Statement (.aorm h w) := by
  intro pf e hw he
  obtain he | he : none = some Engine.s ∨ some Engine.a = some e := he.imp (fun h => nomatch h) id
  · exact nomatch he
  cases he
  refine decode_of_parse ((parse_low (Head.op_bits 39 h w.bits) (by decide)).trans ?_) hw
  show some (Instr.aorm (.ofBits _) (.ofBits _)) = _
  rw [Head.ofBits_bits, W2.ofBits_bits]
theorem axorm (h : Head) (w : W2) : Statement (.axorm h w) := by
  intro pf e hw he
  obtain he | he : none = some Engine.s ∨ some Engine.a = some e := he.imp (fun h => nomatch h) id
  · exact nomatch he
  cases he
  refine decode_of_parse ((parse_low (Head.op_bits 40 h w.bits) (by decide)).trans ?_) hw
  show some (Instr.axorm (.ofBits _) (.ofBits _)) = _
  rw [Head.ofBits_bits, W2.ofBits_bits]
theorem aldacq (h : Head) (w : W2) : Statement (.aldacq h w) := by
  intro pf e hw he
  obtain he | he : none = some Engine.s ∨ some Engine.a = some e := he.imp (fun h => nomatch h) id
  · exact nomatch he
  cases he
  refine decode_of_parse ((parse_low (Head.op_bits 48 h w.bits) (by decide)).trans ?_) hw
  show some (Instr.aldacq (.ofBits _) (.ofBits _)) = _
  rw [Head.ofBits_bits, W2.ofBits_bits]
theorem astrel (h : Head) (w : W2) : Statement (.astrel h w) := by
  intro pf e hw he
  obtain he | he : none = some Engine.s ∨ some Engine.a = some e := he.imp (fun h => nomatch h) id
  · exact nomatch he
  cases he
  refine decode_of_parse ((parse_low (Head.op_bits 49 h w.bits) (by decide)).trans ?_) hw
  show some (Instr.astrel (.ofBits _) (.ofBits _)) = _
  rw [Head.ofBits_bits, W2.ofBits_bits]
theorem waita (h : Head) (w : W2) : Statement (.waita h w) := by
  intro pf e hw he
  obtain he | he : none = some Engine.s ∨ some Engine.a = some e := he.imp (fun h => nomatch h) id
  · exact nomatch he
  cases he
  refine decode_of_parse ((parse_low (Head.op_bits 50 h w.bits) (by decide)).trans ?_) hw
  show some (Instr.waita (.ofBits _) (.ofBits _)) = _
  rw [Head.ofBits_bits, W2.ofBits_bits]
theorem waitaWake (ck : Nat) : Statement (.waitaWake ck) :=
  fun _ _ hw _ => nomatch (show some Reject.unassigned = none from hw)
theorem waitaTimeout (ck : Nat) (spurious : Bool) : Statement (.waitaTimeout ck spurious) :=
  fun _ _ hw _ => nomatch (show some Reject.unassigned = none from hw)
theorem vadd (h : Head) (w : W1) : Statement (.vadd h w) := by
  intro pf e hw he
  obtain he | he : none = some Engine.s ∨ some Engine.v = some e := he.imp (fun h => nomatch h) id
  · exact nomatch he
  cases he
  refine decode_of_parse ((parse_low (Head.op_bits 1 h w.bits) (by decide)).trans ?_) hw
  show some (Instr.vadd (.ofBits _) (.ofBits _)) = _
  rw [Head.ofBits_bits, W1.ofBits_bits]
theorem vsub (h : Head) (w : W1) : Statement (.vsub h w) := by
  intro pf e hw he
  obtain he | he : none = some Engine.s ∨ some Engine.v = some e := he.imp (fun h => nomatch h) id
  · exact nomatch he
  cases he
  refine decode_of_parse ((parse_low (Head.op_bits 2 h w.bits) (by decide)).trans ?_) hw
  show some (Instr.vsub (.ofBits _) (.ofBits _)) = _
  rw [Head.ofBits_bits, W1.ofBits_bits]
theorem vmul (h : Head) (w : W1) : Statement (.vmul h w) := by
  intro pf e hw he
  obtain he | he : none = some Engine.s ∨ some Engine.v = some e := he.imp (fun h => nomatch h) id
  · exact nomatch he
  cases he
  refine decode_of_parse ((parse_low (Head.op_bits 3 h w.bits) (by decide)).trans ?_) hw
  show some (Instr.vmul (.ofBits _) (.ofBits _)) = _
  rw [Head.ofBits_bits, W1.ofBits_bits]
theorem vfma (h : Head) (w : W1) : Statement (.vfma h w) := by
  intro pf e hw he
  obtain he | he : none = some Engine.s ∨ some Engine.v = some e := he.imp (fun h => nomatch h) id
  · exact nomatch he
  cases he
  refine decode_of_parse ((parse_low (Head.op_bits 4 h w.bits) (by decide)).trans ?_) hw
  show some (Instr.vfma (.ofBits _) (.ofBits _)) = _
  rw [Head.ofBits_bits, W1.ofBits_bits]
theorem vmin (h : Head) (w : W1) : Statement (.vmin h w) := by
  intro pf e hw he
  obtain he | he : none = some Engine.s ∨ some Engine.v = some e := he.imp (fun h => nomatch h) id
  · exact nomatch he
  cases he
  refine decode_of_parse ((parse_low (Head.op_bits 5 h w.bits) (by decide)).trans ?_) hw
  show some (Instr.vmin (.ofBits _) (.ofBits _)) = _
  rw [Head.ofBits_bits, W1.ofBits_bits]
theorem vmax (h : Head) (w : W1) : Statement (.vmax h w) := by
  intro pf e hw he
  obtain he | he : none = some Engine.s ∨ some Engine.v = some e := he.imp (fun h => nomatch h) id
  · exact nomatch he
  cases he
  refine decode_of_parse ((parse_low (Head.op_bits 6 h w.bits) (by decide)).trans ?_) hw
  show some (Instr.vmax (.ofBits _) (.ofBits _)) = _
  rw [Head.ofBits_bits, W1.ofBits_bits]
theorem vabs (h : Head) (w : W1) : Statement (.vabs h w) := by
  intro pf e hw he
  obtain he | he : none = some Engine.s ∨ some Engine.v = some e := he.imp (fun h => nomatch h) id
  · exact nomatch he
  cases he
  refine decode_of_parse ((parse_low (Head.op_bits 7 h w.bits) (by decide)).trans ?_) hw
  show some (Instr.vabs (.ofBits _) (.ofBits _)) = _
  rw [Head.ofBits_bits, W1.ofBits_bits]
theorem vneg (h : Head) (w : W1) : Statement (.vneg h w) := by
  intro pf e hw he
  obtain he | he : none = some Engine.s ∨ some Engine.v = some e := he.imp (fun h => nomatch h) id
  · exact nomatch he
  cases he
  refine decode_of_parse ((parse_low (Head.op_bits 8 h w.bits) (by decide)).trans ?_) hw
  show some (Instr.vneg (.ofBits _) (.ofBits _)) = _
  rw [Head.ofBits_bits, W1.ofBits_bits]
theorem vclamp (h : Head) (w : W1) : Statement (.vclamp h w) := by
  intro pf e hw he
  obtain he | he : none = some Engine.s ∨ some Engine.v = some e := he.imp (fun h => nomatch h) id
  · exact nomatch he
  cases he
  refine decode_of_parse ((parse_low (Head.op_bits 9 h w.bits) (by decide)).trans ?_) hw
  show some (Instr.vclamp (.ofBits _) (.ofBits _)) = _
  rw [Head.ofBits_bits, W1.ofBits_bits]
theorem vcmp (h : Head) (w : W1) : Statement (.vcmp h w) := by
  intro pf e hw he
  obtain he | he : none = some Engine.s ∨ some Engine.v = some e := he.imp (fun h => nomatch h) id
  · exact nomatch he
  cases he
  refine decode_of_parse ((parse_low (Head.op_bits 10 h w.bits) (by decide)).trans ?_) hw
  show some (Instr.vcmp (.ofBits _) (.ofBits _)) = _
  rw [Head.ofBits_bits, W1.ofBits_bits]
theorem vsel (h : Head) (w : W1) : Statement (.vsel h w) := by
  intro pf e hw he
  obtain he | he : none = some Engine.s ∨ some Engine.v = some e := he.imp (fun h => nomatch h) id
  · exact nomatch he
  cases he
  refine decode_of_parse ((parse_low (Head.op_bits 11 h w.bits) (by decide)).trans ?_) hw
  show some (Instr.vsel (.ofBits _) (.ofBits _)) = _
  rw [Head.ofBits_bits, W1.ofBits_bits]
theorem vand (h : Head) (w : W1) : Statement (.vand h w) := by
  intro pf e hw he
  obtain he | he : none = some Engine.s ∨ some Engine.v = some e := he.imp (fun h => nomatch h) id
  · exact nomatch he
  cases he
  refine decode_of_parse ((parse_low (Head.op_bits 16 h w.bits) (by decide)).trans ?_) hw
  show some (Instr.vand (.ofBits _) (.ofBits _)) = _
  rw [Head.ofBits_bits, W1.ofBits_bits]
theorem vor (h : Head) (w : W1) : Statement (.vor h w) := by
  intro pf e hw he
  obtain he | he : none = some Engine.s ∨ some Engine.v = some e := he.imp (fun h => nomatch h) id
  · exact nomatch he
  cases he
  refine decode_of_parse ((parse_low (Head.op_bits 17 h w.bits) (by decide)).trans ?_) hw
  show some (Instr.vor (.ofBits _) (.ofBits _)) = _
  rw [Head.ofBits_bits, W1.ofBits_bits]
theorem vxor (h : Head) (w : W1) : Statement (.vxor h w) := by
  intro pf e hw he
  obtain he | he : none = some Engine.s ∨ some Engine.v = some e := he.imp (fun h => nomatch h) id
  · exact nomatch he
  cases he
  refine decode_of_parse ((parse_low (Head.op_bits 18 h w.bits) (by decide)).trans ?_) hw
  show some (Instr.vxor (.ofBits _) (.ofBits _)) = _
  rw [Head.ofBits_bits, W1.ofBits_bits]
theorem vnot (h : Head) (w : W1) : Statement (.vnot h w) := by
  intro pf e hw he
  obtain he | he : none = some Engine.s ∨ some Engine.v = some e := he.imp (fun h => nomatch h) id
  · exact nomatch he
  cases he
  refine decode_of_parse ((parse_low (Head.op_bits 19 h w.bits) (by decide)).trans ?_) hw
  show some (Instr.vnot (.ofBits _) (.ofBits _)) = _
  rw [Head.ofBits_bits, W1.ofBits_bits]
theorem vshl (h : Head) (w : W1) : Statement (.vshl h w) := by
  intro pf e hw he
  obtain he | he : none = some Engine.s ∨ some Engine.v = some e := he.imp (fun h => nomatch h) id
  · exact nomatch he
  cases he
  refine decode_of_parse ((parse_low (Head.op_bits 20 h w.bits) (by decide)).trans ?_) hw
  show some (Instr.vshl (.ofBits _) (.ofBits _)) = _
  rw [Head.ofBits_bits, W1.ofBits_bits]
theorem vshr (h : Head) (w : W1) : Statement (.vshr h w) := by
  intro pf e hw he
  obtain he | he : none = some Engine.s ∨ some Engine.v = some e := he.imp (fun h => nomatch h) id
  · exact nomatch he
  cases he
  refine decode_of_parse ((parse_low (Head.op_bits 21 h w.bits) (by decide)).trans ?_) hw
  show some (Instr.vshr (.ofBits _) (.ofBits _)) = _
  rw [Head.ofBits_bits, W1.ofBits_bits]
theorem vsar (h : Head) (w : W1) : Statement (.vsar h w) := by
  intro pf e hw he
  obtain he | he : none = some Engine.s ∨ some Engine.v = some e := he.imp (fun h => nomatch h) id
  · exact nomatch he
  cases he
  refine decode_of_parse ((parse_low (Head.op_bits 22 h w.bits) (by decide)).trans ?_) hw
  show some (Instr.vsar (.ofBits _) (.ofBits _)) = _
  rw [Head.ofBits_bits, W1.ofBits_bits]
theorem vredsum (h : Head) (w : W1) : Statement (.vredsum h w) := by
  intro pf e hw he
  obtain he | he : none = some Engine.s ∨ some Engine.v = some e := he.imp (fun h => nomatch h) id
  · exact nomatch he
  cases he
  refine decode_of_parse ((parse_low (Head.op_bits 32 h w.bits) (by decide)).trans ?_) hw
  show some (Instr.vredsum (.ofBits _) (.ofBits _)) = _
  rw [Head.ofBits_bits, W1.ofBits_bits]
theorem vredmax (h : Head) (w : W1) : Statement (.vredmax h w) := by
  intro pf e hw he
  obtain he | he : none = some Engine.s ∨ some Engine.v = some e := he.imp (fun h => nomatch h) id
  · exact nomatch he
  cases he
  refine decode_of_parse ((parse_low (Head.op_bits 33 h w.bits) (by decide)).trans ?_) hw
  show some (Instr.vredmax (.ofBits _) (.ofBits _)) = _
  rw [Head.ofBits_bits, W1.ofBits_bits]
theorem vredmin (h : Head) (w : W1) : Statement (.vredmin h w) := by
  intro pf e hw he
  obtain he | he : none = some Engine.s ∨ some Engine.v = some e := he.imp (fun h => nomatch h) id
  · exact nomatch he
  cases he
  refine decode_of_parse ((parse_low (Head.op_bits 34 h w.bits) (by decide)).trans ?_) hw
  show some (Instr.vredmin (.ofBits _) (.ofBits _)) = _
  rw [Head.ofBits_bits, W1.ofBits_bits]
theorem vamax (h : Head) (w : W1) : Statement (.vamax h w) := by
  intro pf e hw he
  obtain he | he : none = some Engine.s ∨ some Engine.v = some e := he.imp (fun h => nomatch h) id
  · exact nomatch he
  cases he
  refine decode_of_parse ((parse_low (Head.op_bits 35 h w.bits) (by decide)).trans ?_) hw
  show some (Instr.vamax (.ofBits _) (.ofBits _)) = _
  rw [Head.ofBits_bits, W1.ofBits_bits]
theorem vexp2 (h : Head) (w : W1) : Statement (.vexp2 h w) := by
  intro pf e hw he
  obtain he | he : none = some Engine.s ∨ some Engine.v = some e := he.imp (fun h => nomatch h) id
  · exact nomatch he
  cases he
  refine decode_of_parse ((parse_low (Head.op_bits 40 h w.bits) (by decide)).trans ?_) hw
  show some (Instr.vexp2 (.ofBits _) (.ofBits _)) = _
  rw [Head.ofBits_bits, W1.ofBits_bits]
theorem vlog2 (h : Head) (w : W1) : Statement (.vlog2 h w) := by
  intro pf e hw he
  obtain he | he : none = some Engine.s ∨ some Engine.v = some e := he.imp (fun h => nomatch h) id
  · exact nomatch he
  cases he
  refine decode_of_parse ((parse_low (Head.op_bits 41 h w.bits) (by decide)).trans ?_) hw
  show some (Instr.vlog2 (.ofBits _) (.ofBits _)) = _
  rw [Head.ofBits_bits, W1.ofBits_bits]
theorem vrcp (h : Head) (w : W1) : Statement (.vrcp h w) := by
  intro pf e hw he
  obtain he | he : none = some Engine.s ∨ some Engine.v = some e := he.imp (fun h => nomatch h) id
  · exact nomatch he
  cases he
  refine decode_of_parse ((parse_low (Head.op_bits 42 h w.bits) (by decide)).trans ?_) hw
  show some (Instr.vrcp (.ofBits _) (.ofBits _)) = _
  rw [Head.ofBits_bits, W1.ofBits_bits]
theorem vrsq (h : Head) (w : W1) : Statement (.vrsq h w) := by
  intro pf e hw he
  obtain he | he : none = some Engine.s ∨ some Engine.v = some e := he.imp (fun h => nomatch h) id
  · exact nomatch he
  cases he
  refine decode_of_parse ((parse_low (Head.op_bits 43 h w.bits) (by decide)).trans ?_) hw
  show some (Instr.vrsq (.ofBits _) (.ofBits _)) = _
  rw [Head.ofBits_bits, W1.ofBits_bits]
theorem vtanh (h : Head) (w : W1) : Statement (.vtanh h w) := by
  intro pf e hw he
  obtain he | he : none = some Engine.s ∨ some Engine.v = some e := he.imp (fun h => nomatch h) id
  · exact nomatch he
  cases he
  refine decode_of_parse ((parse_low (Head.op_bits 44 h w.bits) (by decide)).trans ?_) hw
  show some (Instr.vtanh (.ofBits _) (.ofBits _)) = _
  rw [Head.ofBits_bits, W1.ofBits_bits]
theorem vcvt (h : Head) (w : W1) : Statement (.vcvt h w) := by
  intro pf e hw he
  obtain he | he : none = some Engine.s ∨ some Engine.v = some e := he.imp (fun h => nomatch h) id
  · exact nomatch he
  cases he
  refine decode_of_parse ((parse_low (Head.op_bits 48 h w.bits) (by decide)).trans ?_) hw
  show some (Instr.vcvt (.ofBits _) (.ofBits _)) = _
  rw [Head.ofBits_bits, W1.ofBits_bits]
theorem vqnt (h : Head) (w : W1) : Statement (.vqnt h w) := by
  intro pf e hw he
  obtain he | he : none = some Engine.s ∨ some Engine.v = some e := he.imp (fun h => nomatch h) id
  · exact nomatch he
  cases he
  refine decode_of_parse ((parse_low (Head.op_bits 49 h w.bits) (by decide)).trans ?_) hw
  show some (Instr.vqnt (.ofBits _) (.ofBits _)) = _
  rw [Head.ofBits_bits, W1.ofBits_bits]
theorem vdq (h : Head) (w : W1) : Statement (.vdq h w) := by
  intro pf e hw he
  obtain he | he : none = some Engine.s ∨ some Engine.v = some e := he.imp (fun h => nomatch h) id
  · exact nomatch he
  cases he
  refine decode_of_parse ((parse_low (Head.op_bits 50 h w.bits) (by decide)).trans ?_) hw
  show some (Instr.vdq (.ofBits _) (.ofBits _)) = _
  rw [Head.ofBits_bits, W1.ofBits_bits]
theorem vscexp (h : Head) (w : W1) : Statement (.vscexp h w) := by
  intro pf e hw he
  obtain he | he : none = some Engine.s ∨ some Engine.v = some e := he.imp (fun h => nomatch h) id
  · exact nomatch he
  cases he
  refine decode_of_parse ((parse_low (Head.op_bits 51 h w.bits) (by decide)).trans ?_) hw
  show some (Instr.vscexp (.ofBits _) (.ofBits _)) = _
  rw [Head.ofBits_bits, W1.ofBits_bits]
theorem vscacc (h : Head) (w : W1) : Statement (.vscacc h w) := by
  intro pf e hw he
  obtain he | he : none = some Engine.s ∨ some Engine.v = some e := he.imp (fun h => nomatch h) id
  · exact nomatch he
  cases he
  refine decode_of_parse ((parse_low (Head.op_bits 52 h w.bits) (by decide)).trans ?_) hw
  show some (Instr.vscacc (.ofBits _) (.ofBits _)) = _
  rw [Head.ofBits_bits, W1.ofBits_bits]
theorem vmov (h : Head) (w : W1) : Statement (.vmov h w) := by
  intro pf e hw he
  obtain he | he : none = some Engine.s ∨ some Engine.v = some e := he.imp (fun h => nomatch h) id
  · exact nomatch he
  cases he
  refine decode_of_parse ((parse_low (Head.op_bits 64 h w.bits) (by decide)).trans ?_) hw
  show some (Instr.vmov (.ofBits _) (.ofBits _)) = _
  rw [Head.ofBits_bits, W1.ofBits_bits]
theorem vbcast (h : Head) (w : W1) : Statement (.vbcast h w) := by
  intro pf e hw he
  obtain he | he : none = some Engine.s ∨ some Engine.v = some e := he.imp (fun h => nomatch h) id
  · exact nomatch he
  cases he
  refine decode_of_parse ((parse_low (Head.op_bits 65 h w.bits) (by decide)).trans ?_) hw
  show some (Instr.vbcast (.ofBits _) (.ofBits _)) = _
  rw [Head.ofBits_bits, W1.ofBits_bits]
theorem vperm (h : Head) (w : W1) : Statement (.vperm h w) := by
  intro pf e hw he
  obtain he | he : none = some Engine.s ∨ some Engine.v = some e := he.imp (fun h => nomatch h) id
  · exact nomatch he
  cases he
  refine decode_of_parse ((parse_low (Head.op_bits 66 h w.bits) (by decide)).trans ?_) hw
  show some (Instr.vperm (.ofBits _) (.ofBits _)) = _
  rw [Head.ofBits_bits, W1.ofBits_bits]
theorem vtrans (h : Head) (w : W1) : Statement (.vtrans h w) := by
  intro pf e hw he
  obtain he | he : none = some Engine.s ∨ some Engine.v = some e := he.imp (fun h => nomatch h) id
  · exact nomatch he
  cases he
  refine decode_of_parse ((parse_low (Head.op_bits 67 h w.bits) (by decide)).trans ?_) hw
  show some (Instr.vtrans (.ofBits _) (.ofBits _)) = _
  rw [Head.ofBits_bits, W1.ofBits_bits]
theorem vrow (h : Head) (w : W1) : Statement (.vrow h w) := by
  intro pf e hw he
  obtain he | he : none = some Engine.s ∨ some Engine.v = some e := he.imp (fun h => nomatch h) id
  · exact nomatch he
  cases he
  refine decode_of_parse ((parse_low (Head.op_bits 68 h w.bits) (by decide)).trans ?_) hw
  show some (Instr.vrow (.ofBits _) (.ofBits _)) = _
  rw [Head.ofBits_bits, W1.ofBits_bits]
theorem vcol (h : Head) (w : W1) : Statement (.vcol h w) := by
  intro pf e hw he
  obtain he | he : none = some Engine.s ∨ some Engine.v = some e := he.imp (fun h => nomatch h) id
  · exact nomatch he
  cases he
  refine decode_of_parse ((parse_low (Head.op_bits 69 h w.bits) (by decide)).trans ?_) hw
  show some (Instr.vcol (.ofBits _) (.ofBits _)) = _
  rw [Head.ofBits_bits, W1.ofBits_bits]
theorem vrowput (h : Head) (w : W1) : Statement (.vrowput h w) := by
  intro pf e hw he
  obtain he | he : none = some Engine.s ∨ some Engine.v = some e := he.imp (fun h => nomatch h) id
  · exact nomatch he
  cases he
  refine decode_of_parse ((parse_low (Head.op_bits 70 h w.bits) (by decide)).trans ?_) hw
  show some (Instr.vrowput (.ofBits _) (.ofBits _)) = _
  rw [Head.ofBits_bits, W1.ofBits_bits]
theorem vcolput (h : Head) (w : W1) : Statement (.vcolput h w) := by
  intro pf e hw he
  obtain he | he : none = some Engine.s ∨ some Engine.v = some e := he.imp (fun h => nomatch h) id
  · exact nomatch he
  cases he
  refine decode_of_parse ((parse_low (Head.op_bits 71 h w.bits) (by decide)).trans ?_) hw
  show some (Instr.vcolput (.ofBits _) (.ofBits _)) = _
  rw [Head.ofBits_bits, W1.ofBits_bits]
theorem vld (h : Head) (w : W2) : Statement (.vld h w) := by
  intro pf e hw he
  obtain he | he : none = some Engine.s ∨ some Engine.v = some e := he.imp (fun h => nomatch h) id
  · exact nomatch he
  cases he
  refine decode_of_parse ((parse_low (Head.op_bits 72 h w.bits) (by decide)).trans ?_) hw
  show some (Instr.vld (.ofBits _) (.ofBits _)) = _
  rw [Head.ofBits_bits, W2.ofBits_bits]
theorem vldAsyncComplete (op : Nat) : Statement (.vldAsyncComplete op) :=
  fun _ _ hw _ => nomatch (show some Reject.unassigned = none from hw)
theorem vst (h : Head) (w : W2) : Statement (.vst h w) := by
  intro pf e hw he
  obtain he | he : none = some Engine.s ∨ some Engine.v = some e := he.imp (fun h => nomatch h) id
  · exact nomatch he
  cases he
  refine decode_of_parse ((parse_low (Head.op_bits 73 h w.bits) (by decide)).trans ?_) hw
  show some (Instr.vst (.ofBits _) (.ofBits _)) = _
  rw [Head.ofBits_bits, W2.ofBits_bits]
theorem vcpush (h : Head) (w : W1) : Statement (.vcpush h w) := by
  intro pf e hw he
  obtain he | he : none = some Engine.s ∨ some Engine.v = some e := he.imp (fun h => nomatch h) id
  · exact nomatch he
  cases he
  refine decode_of_parse ((parse_low (Head.op_bits 80 h w.bits) (by decide)).trans ?_) hw
  show some (Instr.vcpush (.ofBits _) (.ofBits _)) = _
  rw [Head.ofBits_bits, W1.ofBits_bits]
theorem vcpop (h : Head) (w : W1) : Statement (.vcpop h w) := by
  intro pf e hw he
  obtain he | he : none = some Engine.s ∨ some Engine.v = some e := he.imp (fun h => nomatch h) id
  · exact nomatch he
  cases he
  refine decode_of_parse ((parse_low (Head.op_bits 81 h w.bits) (by decide)).trans ?_) hw
  show some (Instr.vcpop (.ofBits _) (.ofBits _)) = _
  rw [Head.ofBits_bits, W1.ofBits_bits]
theorem vcbal (h : Head) (w : W1) : Statement (.vcbal h w) := by
  intro pf e hw he
  obtain he | he : none = some Engine.s ∨ some Engine.v = some e := he.imp (fun h => nomatch h) id
  · exact nomatch he
  cases he
  refine decode_of_parse ((parse_low (Head.op_bits 82 h w.bits) (by decide)).trans ?_) hw
  show some (Instr.vcbal (.ofBits _) (.ofBits _)) = _
  rw [Head.ofBits_bits, W1.ofBits_bits]
theorem vacomb (h : Head) (w : W1) : Statement (.vacomb h w) := by
  intro pf e hw he
  obtain he | he : none = some Engine.s ∨ some Engine.v = some e := he.imp (fun h => nomatch h) id
  · exact nomatch he
  cases he
  refine decode_of_parse ((parse_low (Head.op_bits 88 h w.bits) (by decide)).trans ?_) hw
  show some (Instr.vacomb (.ofBits _) (.ofBits _)) = _
  rw [Head.ofBits_bits, W1.ofBits_bits]
theorem vfput (h : Head) (w : W1) : Statement (.vfput h w) := by
  intro pf e hw he
  obtain he | he : none = some Engine.s ∨ some Engine.v = some e := he.imp (fun h => nomatch h) id
  · exact nomatch he
  cases he
  refine decode_of_parse ((parse_low (Head.op_bits 96 h w.bits) (by decide)).trans ?_) hw
  show some (Instr.vfput (.ofBits _) (.ofBits _)) = _
  rw [Head.ofBits_bits, W1.ofBits_bits]
theorem vfget (h : Head) (w : W1) : Statement (.vfget h w) := by
  intro pf e hw he
  obtain he | he : none = some Engine.s ∨ some Engine.v = some e := he.imp (fun h => nomatch h) id
  · exact nomatch he
  cases he
  refine decode_of_parse ((parse_low (Head.op_bits 97 h w.bits) (by decide)).trans ?_) hw
  show some (Instr.vfget (.ofBits _) (.ofBits _)) = _
  rw [Head.ofBits_bits, W1.ofBits_bits]
theorem vshape (h : Head) (w : W6) : Statement (.vshape h w) := by
  intro pf e hw he
  obtain he | he : none = some Engine.s ∨ some Engine.v = some e := he.imp (fun h => nomatch h) id
  · exact nomatch he
  cases he
  refine decode_of_parse ((parse_low (Head.op_bits 112 h w.bits) (by decide)).trans ?_) hw
  show some (Instr.vshape (.ofBits _) (.ofBits _)) = _
  rw [Head.ofBits_bits, W6.ofBits_bits]
theorem mshape (h : Head) (w : W6) : Statement (.mshape h w) := by
  intro pf e hw he
  obtain he | he : none = some Engine.s ∨ some Engine.m = some e := he.imp (fun h => nomatch h) id
  · exact nomatch he
  cases he
  refine decode_of_parse ((parse_low (Head.op_bits 1 h w.bits) (by decide)).trans ?_) hw
  show some (Instr.mshape (.ofBits _) (.ofBits _)) = _
  rw [Head.ofBits_bits, W6.ofBits_bits]
theorem mzero (h : Head) (w : W5) : Statement (.mzero h w) := by
  intro pf e hw he
  obtain he | he : none = some Engine.s ∨ some Engine.m = some e := he.imp (fun h => nomatch h) id
  · exact nomatch he
  cases he
  refine decode_of_parse ((parse_low (Head.op_bits 2 h w.bits) (by decide)).trans ?_) hw
  show some (Instr.mzero (.ofBits _) (.ofBits _)) = _
  rw [Head.ofBits_bits, W5.ofBits_bits]
theorem mma (h : Head) (w : W5) : Statement (.mma h w) := by
  intro pf e hw he
  obtain he | he : none = some Engine.s ∨ some Engine.m = some e := he.imp (fun h => nomatch h) id
  · exact nomatch he
  cases he
  refine decode_of_parse ((parse_low (Head.op_bits 16 h w.bits) (by decide)).trans ?_) hw
  show some (Instr.mma (.ofBits _) (.ofBits _)) = _
  rw [Head.ofBits_bits, W5.ofBits_bits]
theorem mmaz (h : Head) (w : W5) : Statement (.mmaz h w) := by
  intro pf e hw he
  obtain he | he : none = some Engine.s ∨ some Engine.m = some e := he.imp (fun h => nomatch h) id
  · exact nomatch he
  cases he
  refine decode_of_parse ((parse_low (Head.op_bits 17 h w.bits) (by decide)).trans ?_) hw
  show some (Instr.mmaz (.ofBits _) (.ofBits _)) = _
  rw [Head.ofBits_bits, W5.ofBits_bits]
theorem msp (h : Head) (w : W5) : Statement (.msp h w) := by
  intro pf e hw he
  obtain he | he : none = some Engine.s ∨ some Engine.m = some e := he.imp (fun h => nomatch h) id
  · exact nomatch he
  cases he
  refine decode_of_parse ((parse_low (Head.op_bits 18 h w.bits) (by decide)).trans ?_) hw
  show some (Instr.msp (.ofBits _) (.ofBits _)) = _
  rw [Head.ofBits_bits, W5.ofBits_bits]
theorem mscacc (h : Head) (w : W5) : Statement (.mscacc h w) := by
  intro pf e hw he
  obtain he | he : none = some Engine.s ∨ some Engine.m = some e := he.imp (fun h => nomatch h) id
  · exact nomatch he
  cases he
  refine decode_of_parse ((parse_low (Head.op_bits 19 h w.bits) (by decide)).trans ?_) hw
  show some (Instr.mscacc (.ofBits _) (.ofBits _)) = _
  rw [Head.ofBits_bits, W5.ofBits_bits]
theorem mdrain (h : Head) (w : W5) : Statement (.mdrain h w) := by
  intro pf e hw he
  obtain he | he : none = some Engine.s ∨ some Engine.m = some e := he.imp (fun h => nomatch h) id
  · exact nomatch he
  cases he
  refine decode_of_parse ((parse_low (Head.op_bits 20 h w.bits) (by decide)).trans ?_) hw
  show some (Instr.mdrain (.ofBits _) (.ofBits _)) = _
  rw [Head.ofBits_bits, W5.ofBits_bits]
theorem mload (h : Head) (w : W5) : Statement (.mload h w) := by
  intro pf e hw he
  obtain he | he : none = some Engine.s ∨ some Engine.m = some e := he.imp (fun h => nomatch h) id
  · exact nomatch he
  cases he
  refine decode_of_parse ((parse_low (Head.op_bits 21 h w.bits) (by decide)).trans ?_) hw
  show some (Instr.mload (.ofBits _) (.ofBits _)) = _
  rw [Head.ofBits_bits, W5.ofBits_bits]
theorem mstat (h : Head) (w : W6) : Statement (.mstat h w) := by
  intro pf e hw he
  obtain he | he : none = some Engine.s ∨ some Engine.m = some e := he.imp (fun h => nomatch h) id
  · exact nomatch he
  cases he
  refine decode_of_parse ((parse_low (Head.op_bits 22 h w.bits) (by decide)).trans ?_) hw
  show some (Instr.mstat (.ofBits _) (.ofBits _)) = _
  rw [Head.ofBits_bits, W6.ofBits_bits]
theorem mmv (h : Head) (w : W5) : Statement (.mmv h w) := by
  intro pf e hw he
  obtain he | he : none = some Engine.s ∨ some Engine.m = some e := he.imp (fun h => nomatch h) id
  · exact nomatch he
  cases he
  refine decode_of_parse ((parse_low (Head.op_bits 23 h w.bits) (by decide)).trans ?_) hw
  show some (Instr.mmv (.ofBits _) (.ofBits _)) = _
  rw [Head.ofBits_bits, W5.ofBits_bits]
theorem matrixOpComplete (op : Nat) : Statement (.matrixOpComplete op) :=
  fun _ _ hw _ => nomatch (show some Reject.unassigned = none from hw)
theorem cpy (h : Head) (w : W6) : Statement (.cpy h w) := by
  intro pf e hw he
  obtain he | he : none = some Engine.s ∨ some Engine.c = some e := he.imp (fun h => nomatch h) id
  · exact nomatch he
  cases he
  refine decode_of_parse ((parse_low (Head.op_bits 1 h w.bits) (by decide)).trans ?_) hw
  show some (Instr.cpy (.ofBits _) (.ofBits _)) = _
  rw [Head.ofBits_bits, W6.ofBits_bits]
theorem cgath (h : Head) (w : W6) : Statement (.cgath h w) := by
  intro pf e hw he
  obtain he | he : none = some Engine.s ∨ some Engine.c = some e := he.imp (fun h => nomatch h) id
  · exact nomatch he
  cases he
  refine decode_of_parse ((parse_low (Head.op_bits 2 h w.bits) (by decide)).trans ?_) hw
  show some (Instr.cgath (.ofBits _) (.ofBits _)) = _
  rw [Head.ofBits_bits, W6.ofBits_bits]
theorem cscat (h : Head) (w : W6) : Statement (.cscat h w) := by
  intro pf e hw he
  obtain he | he : none = some Engine.s ∨ some Engine.c = some e := he.imp (fun h => nomatch h) id
  · exact nomatch he
  cases he
  refine decode_of_parse ((parse_low (Head.op_bits 3 h w.bits) (by decide)).trans ?_) hw
  show some (Instr.cscat (.ofBits _) (.ofBits _)) = _
  rw [Head.ofBits_bits, W6.ofBits_bits]
theorem clist (h : Head) (w : W6) : Statement (.clist h w) := by
  intro pf e hw he
  obtain he | he : none = some Engine.s ∨ some Engine.c = some e := he.imp (fun h => nomatch h) id
  · exact nomatch he
  cases he
  refine decode_of_parse ((parse_low (Head.op_bits 4 h w.bits) (by decide)).trans ?_) hw
  show some (Instr.clist (.ofBits _) (.ofBits _)) = _
  rw [Head.ofBits_bits, W6.ofBits_bits]
theorem cfill (h : Head) (w : W6) : Statement (.cfill h w) := by
  intro pf e hw he
  obtain he | he : none = some Engine.s ∨ some Engine.c = some e := he.imp (fun h => nomatch h) id
  · exact nomatch he
  cases he
  refine decode_of_parse ((parse_low (Head.op_bits 5 h w.bits) (by decide)).trans ?_) hw
  show some (Instr.cfill (.ofBits _) (.ofBits _)) = _
  rw [Head.ofBits_bits, W6.ofBits_bits]
theorem copyComplete (op : Nat) : Statement (.copyComplete op) :=
  fun _ _ hw _ => nomatch (show some Reject.unassigned = none from hw)
theorem cwait (h : Head) (w : W6) : Statement (.cwait h w) := by
  intro pf e hw he
  obtain he | he : none = some Engine.s ∨ some Engine.c = some e := he.imp (fun h => nomatch h) id
  · exact nomatch he
  cases he
  refine decode_of_parse ((parse_low (Head.op_bits 6 h w.bits) (by decide)).trans ?_) hw
  show some (Instr.cwait (.ofBits _) (.ofBits _)) = _
  rw [Head.ofBits_bits, W6.ofBits_bits]
theorem tset (h : Head) (w : W6) : Statement (.tset h w) := by
  intro pf e hw he
  obtain he | he : none = some Engine.s ∨ some Engine.c = some e := he.imp (fun h => nomatch h) id
  · exact nomatch he
  cases he
  refine decode_of_parse ((parse_low (Head.op_bits 7 h w.bits) (by decide)).trans ?_) hw
  show some (Instr.tset (.ofBits _) (.ofBits _)) = _
  rw [Head.ofBits_bits, W6.ofBits_bits]
theorem xsend (h : Head) (w : W6) : Statement (.xsend h w) := by
  intro pf e hw he
  obtain he | he : none = some Engine.s ∨ some Engine.c = some e := he.imp (fun h => nomatch h) id
  · exact nomatch he
  cases he
  refine decode_of_parse ((parse_low (Head.op_bits 16 h w.bits) (by decide)).trans ?_) hw
  show some (Instr.xsend (.ofBits _) (.ofBits _)) = _
  rw [Head.ofBits_bits, W6.ofBits_bits]
theorem bqry (h : Head) (w : W6) : Statement (.bqry h w) := by
  intro pf e hw he
  obtain he | he : none = some Engine.s ∨ some Engine.b = some e := he.imp (fun h => nomatch h) id
  · exact nomatch he
  cases he
  refine decode_of_parse ((parse_low (Head.op_bits 1 h w.bits) (by decide)).trans ?_) hw
  show some (Instr.bqry (.ofBits _) (.ofBits _)) = _
  rw [Head.ofBits_bits, W6.ofBits_bits]
theorem bapp (h : Head) (w : W6) : Statement (.bapp h w) := by
  intro pf e hw he
  obtain he | he : none = some Engine.s ∨ some Engine.b = some e := he.imp (fun h => nomatch h) id
  · exact nomatch he
  cases he
  refine decode_of_parse ((parse_low (Head.op_bits 2 h w.bits) (by decide)).trans ?_) hw
  show some (Instr.bapp (.ofBits _) (.ofBits _)) = _
  rw [Head.ofBits_bits, W6.ofBits_bits]
theorem bmv (h : Head) (w : W6) : Statement (.bmv h w) := by
  intro pf e hw he
  obtain he | he : none = some Engine.s ∨ some Engine.b = some e := he.imp (fun h => nomatch h) id
  · exact nomatch he
  cases he
  refine decode_of_parse ((parse_low (Head.op_bits 3 h w.bits) (by decide)).trans ?_) hw
  show some (Instr.bmv (.ofBits _) (.ofBits _)) = _
  rw [Head.ofBits_bits, W6.ofBits_bits]
theorem bwait (h : Head) (w : W6) : Statement (.bwait h w) := by
  intro pf e hw he
  obtain he | he : none = some Engine.s ∨ some Engine.b = some e := he.imp (fun h => nomatch h) id
  · exact nomatch he
  cases he
  refine decode_of_parse ((parse_low (Head.op_bits 4 h w.bits) (by decide)).trans ?_) hw
  show some (Instr.bwait (.ofBits _) (.ofBits _)) = _
  rw [Head.ofBits_bits, W6.ofBits_bits]
theorem bflt (h : Head) (w : W6) : Statement (.bflt h w) := by
  intro pf e hw he
  obtain he | he : none = some Engine.s ∨ some Engine.b = some e := he.imp (fun h => nomatch h) id
  · exact nomatch he
  cases he
  refine decode_of_parse ((parse_low (Head.op_bits 5 h w.bits) (by decide)).trans ?_) hw
  show some (Instr.bflt (.ofBits _) (.ofBits _)) = _
  rw [Head.ofBits_bits, W6.ofBits_bits]
theorem bsk (h : Head) (w : W6) : Statement (.bsk h w) := by
  intro pf e hw he
  obtain he | he : none = some Engine.s ∨ some Engine.b = some e := he.imp (fun h => nomatch h) id
  · exact nomatch he
  cases he
  refine decode_of_parse ((parse_low (Head.op_bits 6 h w.bits) (by decide)).trans ?_) hw
  show some (Instr.bsk (.ofBits _) (.ofBits _)) = _
  rw [Head.ofBits_bits, W6.ofBits_bits]
theorem bmap (h : Head) (w : W6) : Statement (.bmap h w) := by
  intro pf e hw he
  obtain he | he : none = some Engine.s ∨ some Engine.b = some e := he.imp (fun h => nomatch h) id
  · exact nomatch he
  cases he
  refine decode_of_parse ((parse_low (Head.op_bits 7 h w.bits) (by decide)).trans ?_) hw
  show some (Instr.bmap (.ofBits _) (.ofBits _)) = _
  rw [Head.ofBits_bits, W6.ofBits_bits]
theorem berr (h : Head) (w : W6) : Statement (.berr h w) := by
  intro pf e hw he
  obtain he | he : none = some Engine.s ∨ some Engine.b = some e := he.imp (fun h => nomatch h) id
  · exact nomatch he
  cases he
  refine decode_of_parse ((parse_low (Head.op_bits 8 h w.bits) (by decide)).trans ?_) hw
  show some (Instr.berr (.ofBits _) (.ofBits _)) = _
  rw [Head.ofBits_bits, W6.ofBits_bits]
theorem bankCmdComplete (op : Nat) : Statement (.bankCmdComplete op) :=
  fun _ _ hw _ => nomatch (show some Reject.unassigned = none from hw)
theorem semi (h : Head) (w : W6) : Statement (.semi h w) := by
  intro pf e hw he
  refine decode_of_parse ((parse_high (Head.op_bits 240 h w.bits) (by decide) (by decide)).trans ?_) hw
  show some (Instr.semi (.ofBits _) (.ofBits _)) = _
  rw [Head.ofBits_bits, W6.ofBits_bits]
theorem semw (h : Head) (w : W6) : Statement (.semw h w) := by
  intro pf e hw he
  refine decode_of_parse ((parse_high (Head.op_bits 241 h w.bits) (by decide) (by decide)).trans ?_) hw
  show some (Instr.semw (.ofBits _) (.ofBits _)) = _
  rw [Head.ofBits_bits, W6.ofBits_bits]
theorem semp (h : Head) (w : W6) : Statement (.semp h w) := by
  intro pf e hw he
  refine decode_of_parse ((parse_high (Head.op_bits 242 h w.bits) (by decide) (by decide)).trans ?_) hw
  show some (Instr.semp (.ofBits _) (.ofBits _)) = _
  rw [Head.ofBits_bits, W6.ofBits_bits]
theorem fencex (h : Head) (w : W6) : Statement (.fencex h w) := by
  intro pf e hw he
  refine decode_of_parse ((parse_high (Head.op_bits 243 h w.bits) (by decide) (by decide)).trans ?_) hw
  show some (Instr.fencex (.ofBits _) (.ofBits _)) = _
  rw [Head.ofBits_bits, W6.ofBits_bits]
theorem headerWalk (ck : Nat) (e : Engine) : Statement (.headerWalk ck e) :=
  fun _ _ hw _ => nomatch (show some Reject.unassigned = none from hw)
theorem takeDecision (ck : Nat) (e : Engine) : Statement (.takeDecision ck e) :=
  fun _ _ hw _ => nomatch (show some Reject.unassigned = none from hw)
theorem resultLands (ck : Nat) (e : Engine) (i : Nat) : Statement (.resultLands ck e i) :=
  fun _ _ hw _ => nomatch (show some Reject.unassigned = none from hw)
theorem heldPostApplied (ck : Nat) (h : Nat) : Statement (.heldPostApplied ck h) :=
  fun _ _ hw _ => nomatch (show some Reject.unassigned = none from hw)
theorem streamFetch (ck : Nat) (q : Nat) : Statement (.streamFetch ck q) :=
  fun _ _ hw _ => nomatch (show some Reject.unassigned = none from hw)
theorem streamStore (ck : Nat) (q : Nat) : Statement (.streamStore ck q) :=
  fun _ _ hw _ => nomatch (show some Reject.unassigned = none from hw)
theorem homeRequest (op : Nat) : Statement (.homeRequest op) :=
  fun _ _ hw _ => nomatch (show some Reject.unassigned = none from hw)
theorem barrierWake (ck : Nat) : Statement (.barrierWake ck) :=
  fun _ _ hw _ => nomatch (show some Reject.unassigned = none from hw)
theorem strandEnd (ck : Nat) : Statement (.strandEnd ck) :=
  fun _ _ hw _ => nomatch (show some Reject.unassigned = none from hw)
theorem trapDelivery (ck : Nat) : Statement (.trapDelivery ck) :=
  fun _ _ hw _ => nomatch (show some Reject.unassigned = none from hw)
theorem preemptYield (ck : Nat) : Statement (.preemptYield ck) :=
  fun _ _ hw _ => nomatch (show some Reject.unassigned = none from hw)
theorem preemptDeadline (ck : Nat) : Statement (.preemptDeadline ck) :=
  fun _ _ hw _ => nomatch (show some Reject.unassigned = none from hw)
theorem fullSave (ck : Nat) : Statement (.fullSave ck) :=
  fun _ _ hw _ => nomatch (show some Reject.unassigned = none from hw)
theorem cstopReq (ck : Nat) (dline : BitVec 24) : Statement (.cstopReq ck dline) :=
  fun _ _ hw _ => nomatch (show some Reject.unassigned = none from hw)
theorem cstopWithdraw (ck : Nat) : Statement (.cstopWithdraw ck) :=
  fun _ _ hw _ => nomatch (show some Reject.unassigned = none from hw)
theorem cstopKill (ck : Nat) : Statement (.cstopKill ck) :=
  fun _ _ hw _ => nomatch (show some Reject.unassigned = none from hw)
theorem ctxBindResume (ck : Nat) (v : Word) : Statement (.ctxBindResume ck v) :=
  fun _ _ hw _ => nomatch (show some Reject.unassigned = none from hw)
theorem ctxRelease (ck : Nat) : Statement (.ctxRelease ck) :=
  fun _ _ hw _ => nomatch (show some Reject.unassigned = none from hw)
theorem machineCheck (ck : Nat) : Statement (.machineCheck ck) :=
  fun _ _ hw _ => nomatch (show some Reject.unassigned = none from hw)
theorem launchBind (ck : Nat) : Statement (.launchBind ck) :=
  fun _ _ hw _ => nomatch (show some Reject.unassigned = none from hw)
theorem taskIssue (die core : Nat) : Statement (.taskIssue die core) :=
  fun _ _ hw _ => nomatch (show some Reject.unassigned = none from hw)
theorem taskSteal (die core : Nat) : Statement (.taskSteal die core) :=
  fun _ _ hw _ => nomatch (show some Reject.unassigned = none from hw)
theorem taskComplete (die core : Nat) : Statement (.taskComplete die core) :=
  fun _ _ hw _ => nomatch (show some Reject.unassigned = none from hw)
theorem gateQuiet (die core : Nat) : Statement (.gateQuiet die core) :=
  fun _ _ hw _ => nomatch (show some Reject.unassigned = none from hw)
theorem gatePowerGood (die core : Nat) : Statement (.gatePowerGood die core) :=
  fun _ _ hw _ => nomatch (show some Reject.unassigned = none from hw)
theorem powerGrant (die : Nat) : Statement (.powerGrant die) :=
  fun _ _ hw _ => nomatch (show some Reject.unassigned = none from hw)
theorem bandOff (die core band : Nat) : Statement (.bandOff die core band) :=
  fun _ _ hw _ => nomatch (show some Reject.unassigned = none from hw)
theorem bandWake (die core band : Nat) : Statement (.bandWake die core band) :=
  fun _ _ hw _ => nomatch (show some Reject.unassigned = none from hw)
theorem vfctlWrite (die core : Nat) (v : Word) : Statement (.vfctlWrite die core v) :=
  fun _ _ hw _ => nomatch (show some Reject.unassigned = none from hw)
theorem bankQueryItem (op item : Nat) (rd : BankRead) : Statement (.bankQueryItem op item rd) :=
  fun _ _ hw _ => nomatch (show some Reject.unassigned = none from hw)
theorem bankAppendItem (op item : Nat) : Statement (.bankAppendItem op item) :=
  fun _ _ hw _ => nomatch (show some Reject.unassigned = none from hw)
theorem bankMvItem (op item : Nat) (rd : BankRead) : Statement (.bankMvItem op item rd) :=
  fun _ _ hw _ => nomatch (show some Reject.unassigned = none from hw)
theorem bankRefresh (die bank : Nat) : Statement (.bankRefresh die bank) :=
  fun _ _ hw _ => nomatch (show some Reject.unassigned = none from hw)
theorem uncorrectableError (addr : Nat) : Statement (.uncorrectableError addr) :=
  fun _ _ hw _ => nomatch (show some Reject.unassigned = none from hw)
theorem referrerScan (die : Nat) : Statement (.referrerScan die) :=
  fun _ _ hw _ => nomatch (show some Reject.unassigned = none from hw)
theorem bankRetiring (die bank : Nat) : Statement (.bankRetiring die bank) :=
  fun _ _ hw _ => nomatch (show some Reject.unassigned = none from hw)
theorem forcedRetirement (die bank : Nat) : Statement (.forcedRetirement die bank) :=
  fun _ _ hw _ => nomatch (show some Reject.unassigned = none from hw)
theorem bcmdRetire (die bank : Nat) : Statement (.bcmdRetire die bank) :=
  fun _ _ hw _ => nomatch (show some Reject.unassigned = none from hw)
theorem bcmdRemap (die : Nat) : Statement (.bcmdRemap die) :=
  fun _ _ hw _ => nomatch (show some Reject.unassigned = none from hw)
theorem remapComplete (die : Nat) : Statement (.remapComplete die) :=
  fun _ _ hw _ => nomatch (show some Reject.unassigned = none from hw)
theorem bmctlGo (die : Nat) (v : Word) : Statement (.bmctlGo die v) :=
  fun _ _ hw _ => nomatch (show some Reject.unassigned = none from hw)
theorem blockMoveDone (die : Nat) : Statement (.blockMoveDone die) :=
  fun _ _ hw _ => nomatch (show some Reject.unassigned = none from hw)
theorem kvboundWrite (die : Nat) (v : Word) : Statement (.kvboundWrite die v) :=
  fun _ _ hw _ => nomatch (show some Reject.unassigned = none from hw)
theorem flpopRead (die col : Nat) : Statement (.flpopRead die col) :=
  fun _ _ hw _ => nomatch (show some Reject.unassigned = none from hw)
theorem rcctlGo (die : Nat) (v : Word) : Statement (.rcctlGo die v) :=
  fun _ _ hw _ => nomatch (show some Reject.unassigned = none from hw)
theorem reclaimPeriod (die : Nat) : Statement (.reclaimPeriod die) :=
  fun _ _ hw _ => nomatch (show some Reject.unassigned = none from hw)
theorem reclaimCycleEnd (die : Nat) : Statement (.reclaimCycleEnd die) :=
  fun _ _ hw _ => nomatch (show some Reject.unassigned = none from hw)
theorem grayOverflow (die : Nat) : Statement (.grayOverflow die) :=
  fun _ _ hw _ => nomatch (show some Reject.unassigned = none from hw)
theorem heldNotificationPost (die : Nat) : Statement (.heldNotificationPost die) :=
  fun _ _ hw _ => nomatch (show some Reject.unassigned = none from hw)
theorem tlbinvComplete (op : Nat) : Statement (.tlbinvComplete op) :=
  fun _ _ hw _ => nomatch (show some Reject.unassigned = none from hw)
theorem mpageComplete (op : Nat) : Statement (.mpageComplete op) :=
  fun _ _ hw _ => nomatch (show some Reject.unassigned = none from hw)
theorem kvfindComplete (op : Nat) : Statement (.kvfindComplete op) :=
  fun _ _ hw _ => nomatch (show some Reject.unassigned = none from hw)
theorem submissionSubmit (part : Nat) : Statement (.submissionSubmit part) :=
  fun _ _ hw _ => nomatch (show some Reject.unassigned = none from hw)
theorem submissionCancel (part : Nat) : Statement (.submissionCancel part) :=
  fun _ _ hw _ => nomatch (show some Reject.unassigned = none from hw)
theorem completionEntryWrite (part : Nat) : Statement (.completionEntryWrite part) :=
  fun _ _ hw _ => nomatch (show some Reject.unassigned = none from hw)
theorem prefillBound (rq die : Nat) : Statement (.prefillBound rq die) :=
  fun _ _ hw _ => nomatch (show some Reject.unassigned = none from hw)
theorem killReport (rq lnum : Nat) (power : Bool) : Statement (.killReport rq lnum power) :=
  fun _ _ hw _ => nomatch (show some Reject.unassigned = none from hw)
theorem handoffEvent (op : Nat) : Statement (.handoffEvent op) :=
  fun _ _ hw _ => nomatch (show some Reject.unassigned = none from hw)
theorem cancelEvent (op : Nat) : Statement (.cancelEvent op) :=
  fun _ _ hw _ => nomatch (show some Reject.unassigned = none from hw)
theorem rqdoneEvent (op : Nat) : Statement (.rqdoneEvent op) :=
  fun _ _ hw _ => nomatch (show some Reject.unassigned = none from hw)
theorem handoffStart (rq : Nat) : Statement (.handoffStart rq) :=
  fun _ _ hw _ => nomatch (show some Reject.unassigned = none from hw)
theorem handoffBlock (rq : Nat) : Statement (.handoffBlock rq) :=
  fun _ _ hw _ => nomatch (show some Reject.unassigned = none from hw)
theorem handoffCancelStop (rq : Nat) : Statement (.handoffCancelStop rq) :=
  fun _ _ hw _ => nomatch (show some Reject.unassigned = none from hw)
theorem commit (rq : Nat) : Statement (.commit rq) :=
  fun _ _ hw _ => nomatch (show some Reject.unassigned = none from hw)
theorem moduleDown (die m : Nat) : Statement (.moduleDown die m) :=
  fun _ _ hw _ => nomatch (show some Reject.unassigned = none from hw)
theorem partctlEnable (part : Nat) (v : Word) : Statement (.partctlEnable part v) :=
  fun _ _ hw _ => nomatch (show some Reject.unassigned = none from hw)
theorem partctlRekey (part : Nat) (v : Word) : Statement (.partctlRekey part v) :=
  fun _ _ hw _ => nomatch (show some Reject.unassigned = none from hw)
theorem hwinWrite (w : Nat) (v : BitVec 256) : Statement (.hwinWrite w v) :=
  fun _ _ hw _ => nomatch (show some Reject.unassigned = none from hw)
theorem publishComplete (op : Nat) : Statement (.publishComplete op) :=
  fun _ _ hw _ => nomatch (show some Reject.unassigned = none from hw)
theorem supplyEmergency : Statement (.supplyEmergency) :=
  fun _ _ hw _ => nomatch (show some Reject.unassigned = none from hw)
theorem victimKill : Statement (.victimKill) :=
  fun _ _ hw _ => nomatch (show some Reject.unassigned = none from hw)
theorem emergencyClear : Statement (.emergencyClear) :=
  fun _ _ hw _ => nomatch (show some Reject.unassigned = none from hw)
theorem monitorEnable (die u : Nat) (v : Word) : Statement (.monitorEnable die u v) :=
  fun _ _ hw _ => nomatch (show some Reject.unassigned = none from hw)
theorem monitorValue (die u : Nat) (v : BitVec 32) : Statement (.monitorValue die u v) :=
  fun _ _ hw _ => nomatch (show some Reject.unassigned = none from hw)
theorem packageReset (img : FirmwareImage) : Statement (.packageReset img) :=
  fun _ _ hw _ => nomatch (show some Reject.unassigned = none from hw)
theorem firmwareReload (img : FirmwareImage) : Statement (.firmwareReload img) :=
  fun _ _ hw _ => nomatch (show some Reject.unassigned = none from hw)
theorem attestationReport (nonce : Word) : Statement (.attestationReport nonce) :=
  fun _ _ hw _ => nomatch (show some Reject.unassigned = none from hw)
theorem fidWrite (v : Word) : Statement (.fidWrite v) :=
  fun _ _ hw _ => nomatch (show some Reject.unassigned = none from hw)
theorem linkDown (port : Bool) (i : Nat) : Statement (.linkDown port i) :=
  fun _ _ hw _ => nomatch (show some Reject.unassigned = none from hw)
theorem timingFlit (slew : Int) : Statement (.timingFlit slew) :=
  fun _ _ hw _ => nomatch (show some Reject.unassigned = none from hw)
theorem sendDepart (op : Nat) : Statement (.sendDepart op) :=
  fun _ _ hw _ => nomatch (show some Reject.unassigned = none from hw)
theorem sendArrive (op : Nat) : Statement (.sendArrive op) :=
  fun _ _ hw _ => nomatch (show some Reject.unassigned = none from hw)
theorem sendComplete (op : Nat) : Statement (.sendComplete op) :=
  fun _ _ hw _ => nomatch (show some Reject.unassigned = none from hw)
theorem sendDtTimeout (op : Nat) : Statement (.sendDtTimeout op) :=
  fun _ _ hw _ => nomatch (show some Reject.unassigned = none from hw)
theorem planTaken (op : Nat) : Statement (.planTaken op) :=
  fun _ _ hw _ => nomatch (show some Reject.unassigned = none from hw)
theorem freezeDrainTimeout (op : Nat) : Statement (.freezeDrainTimeout op) :=
  fun _ _ hw _ => nomatch (show some Reject.unassigned = none from hw)
theorem circuitsTrained (op : Nat) (down : List Nat) (settle : BitVec 16) : Statement (.circuitsTrained op down settle) :=
  fun _ _ hw _ => nomatch (show some Reject.unassigned = none from hw)
theorem registerWrite (addr : Nat) (four : Bool) (v : Word) : Statement (.registerWrite addr four v) :=
  fun _ _ hw _ => nomatch (show some Reject.unassigned = none from hw)
theorem unassignedOpcode (e : Engine) (raw : BitVec 96) : Statement (.unassignedOpcode e raw) :=
  fun _ _ hw _ => nomatch (show some Reject.unassigned = none from hw)
theorem hubUncontainedError : Statement (.hubUncontainedError) :=
  fun _ _ hw _ => nomatch (show some Reject.unassigned = none from hw)
theorem firmwareReplaceRequest : Statement (.firmwareReplaceRequest) :=
  fun _ _ hw _ => nomatch (show some Reject.unassigned = none from hw)

end Sys2Proof.Laws.RoundTrip
end

