-- ==== Sys2Proof/Laws/Words.lean ====
section
/-! SUPPORT. The frame of every word: when it comes to its effect, and what entering a section, passing a word and putting a result on its way
change. -/

namespace Sys2Proof.Machine

theorem reaches_iff (s : State) (i : Instr) (h : Head) :
    s.reaches i h = true ↔ s.skipped = false ∧ s.decodeTrap i = none ∧ s.predTrue h = true := by
  simp [State.reaches, and_assoc]

/-- A word that is neither skipped nor refused nor predicated false is its plan and its effect. -/
theorem wordRaw_eq {α : Type} {i : Instr} {h : Head} {s : State} {plan : State → Except Stop α} {eff : α → State → State}
    (hr : s.reaches i h = true) :
    wordRaw i h s plan eff = match plan s with | .error e => stopped s e | .ok x => .next (eff x s.enter) := by
  obtain ⟨h1, h2, h3⟩ := (reaches_iff s i h).mp hr
  simp only [wordRaw, h1, h2, h3, if_true, Bool.false_eq_true, if_false]
  try rfl

theorem wordRaw_next {α : Type} {i : Instr} {h : Head} {s : State} {plan : State → Except Stop α} {eff : α → State → State} {x : α}
    (hr : s.reaches i h = true) (hp : plan s = .ok x) : wordRaw i h s plan eff = .next (eff x s.enter) := by
  rw [wordRaw_eq hr, hp]

theorem wordThen_next {α : Type} {i : Instr} {h : Head} {s : State} {plan : State → Except Stop α} {eff fin : α → State → State} {x : α}
    (hr : s.reaches i h = true) (hp : plan s = .ok x) : wordThen i h s plan eff fin = .next (fin x (eff x s.enter).advance) :=
  wordRaw_next hr hp

theorem word_next {α : Type} {i : Instr} {h : Head} {s : State} {plan : State → Except Stop α} {eff : α → State → State} {x : α}
    (hr : s.reaches i h = true) (hp : plan s = .ok x) : word i h s plan eff = .next (eff x s.enter).advance :=
  wordThen_next (fin := fun _ s => s) hr hp

theorem word_stop {α : Type} {i : Instr} {h : Head} {s : State} {plan : State → Except Stop α} {eff : α → State → State} {e : Stop}
    (hr : s.reaches i h = true) (hp : plan s = .error e) : word i h s plan eff = stopped s e := by
  unfold word wordThen
  rw [wordRaw_eq hr, hp]

/-- Reading back an engine stream. -/
theorem Strand.eng_setEng_same (st : Strand) (e : Engine) (x : EStream) : (st.setEng e x).eng e = x := by
  simp [Strand.eng, Strand.setEng, Map.get_put_same]
theorem Engine.num_inj {e f : Engine} (h : e.num = f.num) : e = f := by cases e <;> cases f <;> first | rfl | (exact absurd h (by decide))
theorem Strand.eng_setEng_ne (st : Strand) (e f : Engine) (x : EStream) (h : f ≠ e) : (st.setEng e x).eng f = st.eng f := by
  unfold Strand.eng Strand.setEng
  exact Map.get_put_of_ne _ _ _ (fun hh => h (Engine.num_inj hh))

/-- Reading back a strand. -/
theorem State.strand_setStrand_same (s : State) (ck : Nat) (st : Strand) : (s.setStrand ck st).strand ck = st := by
  simp [State.strand, State.setStrand, Map.get_put_same]
theorem State.strand_setStrand_ne (s : State) (ck c : Nat) (st : Strand) (h : c ≠ ck) : (s.setStrand ck st).strand c = s.strand c := by
  unfold State.strand State.setStrand
  exact Map.get_put_of_ne _ _ _ h

theorem State.OnlyStrandOf.refl (s : State) (ck : Nat) : s.OnlyStrandOf s ck := ⟨rfl, fun _ _ => rfl⟩
theorem State.OnlyStrandOf.trans {s t u : State} {ck : Nat} (h : s.OnlyStrandOf t ck) (k : t.OnlyStrandOf u ck) : s.OnlyStrandOf u ck :=
  ⟨by rw [k.1, h.1], fun c hc => (k.2 c hc).trans (h.2 c hc)⟩
theorem State.onlyStrand_modStrand (s : State) (ck : Nat) (f : Strand → Strand) : s.OnlyStrandOf (s.modStrand ck f) ck :=
  ⟨rfl, fun _ hc => State.strand_setStrand_ne s ck _ _ hc⟩

/-- `u` is `s` within its word: the section entered, the strand `st` but for its streams, the results on their way `fs`. -/
structure State.Entered (s u : State) (st : Strand) (fs : List Flight) : Prop where
  only  : s.OnlyStrandOf u s.cur.ck
  me    : u.me = { st with es := u.me.es }
  other : ∀ e, e ≠ s.cur.eng → u.me.eng e = s.me.eng e
  eng   : u.myEng = { s.myEng with sec := { s.myEng.sec with begun := u.myEng.sec.begun, shape := u.myEng.sec.shape },
                                   flight := fs, bypass := u.myEng.bypass, wrote := u.myEng.wrote, known := u.myEng.known }

theorem State.Entered.cur {s u : State} {st : Strand} {fs : List Flight} (h : s.Entered u st fs) : u.cur = s.cur := by rw [h.only.1]
theorem State.Entered.time {s u : State} {st : Strand} {fs : List Flight} (h : s.Entered u st fs) : u.time = s.time := by rw [h.only.1]

/-- A change of the executing stream alone. -/
theorem State.Entered.modMyEng {s u : State} {st : Strand} {fs gs : List Flight} (h : s.Entered u st fs) (f : EStream → EStream)
    (hf : ∀ x : EStream, ∃ b sh y z w, f x = { x with sec := { x.sec with begun := b, shape := sh }, flight := (f x).flight, bypass := y, wrote := z, known := w })
    (hg : (f u.myEng).flight = gs) : s.Entered (u.modMyEng f) st gs := by
  have hc := h.cur
  have key : (u.modMyEng f).me = u.me.modEng u.cur.eng f := by
    show (u.setStrand u.cur.ck _).strand u.cur.ck = _
    rw [State.strand_setStrand_same]; rfl
  refine ⟨?_, ?_, ?_, ?_⟩
  · refine h.only.trans ?_
    rw [← hc]; exact State.onlyStrand_modStrand u u.cur.ck (fun st => st.modEng u.cur.eng _)
  · rw [key]
    conv_lhs => rw [Strand.modEng, Strand.setEng, h.me]
    rfl
  · intro e he
    rw [key]
    show (u.me.setEng u.cur.eng _).eng e = _
    rw [Strand.eng_setEng_ne _ _ _ _ (by rw [hc]; exact he)]
    exact h.other e he
  · have k2 : (u.modMyEng f).myEng = f u.myEng := by
      show (u.modMyEng f).me.eng u.cur.eng = _
      rw [key]; exact Strand.eng_setEng_same _ _ _
    rw [k2]
    obtain ⟨b, sh, y, z, w, e⟩ := hf u.myEng
    rw [e, hg]
    conv_lhs => rw [h.eng]

/-- A change of the executing strand that leaves its streams alone. -/
theorem State.Entered.modMe {s u : State} {st : Strand} {fs : List Flight} (h : s.Entered u st fs) (f : Strand → Strand)
    (hf : ∀ (x : Strand) (y : Map EStream), f { x with es := y } = { f x with es := y }) : s.Entered (u.modMe f) (f st) fs := by
  have hc := h.cur
  have key : (u.modMe f).me = f u.me := by
    show (u.setStrand u.cur.ck _).strand u.cur.ck = _
    rw [State.strand_setStrand_same]; rfl
  have he : (f u.me).es = u.me.es := by rw [h.me, hf]
  have heng : ∀ e, (f u.me).eng e = u.me.eng e := by intro e; unfold Strand.eng; rw [he]
  refine ⟨?_, ?_, ?_, ?_⟩
  · refine h.only.trans ?_
    rw [← hc]; exact State.onlyStrand_modStrand _ _ _
  · rw [key]
    conv_rhs => rw [he, ← hf]
    rw [← h.me]
  · intro e hne; rw [key, heng]; exact h.other e hne
  · have : (u.modMe f).myEng = u.myEng := by
      show (u.modMe f).me.eng u.cur.eng = _
      rw [key, heng]; rfl
    rw [this]; exact h.eng

/-- The section is entered (01 R37). -/
theorem State.entered_enter (s : State) : s.Entered s.enter s.me s.myEng.flight := by
  have h0 : s.Entered s s.me s.myEng.flight := ⟨.refl _ _, rfl, fun _ _ => rfl, rfl⟩
  refine h0.modMyEng _ (fun x => ?_) ?_
  · unfold EStream.enter
    split
    · exact ⟨_, _, _, _, _, rfl⟩
    · exact ⟨_, _, _, _, _, rfl⟩
  · unfold EStream.enter; split <;> rfl

/-- A result is put on its way. -/
theorem State.Entered.put {s u : State} {st : Strand} {fs : List Flight} (h : s.Entered u st fs) (hd : Head) (d : Dest) (v : Val) (fl : BitVec 7) :
    s.Entered (u.put hd d v fl) st (fs.map (Flight.superseded d) ++ [s.newFlight hd d v fl]) := by
  refine h.modMyEng _ (fun x => ⟨x.sec.begun, x.sec.shape, x.bypass, _, x.known, rfl⟩) ?_
  have ht := h.time
  have he := h.eng
  show (List.map _ u.myEng.flight) ++ [_] = _
  rw [ht, he]; rfl

/-- The result of a word of this aclk holds a slot (07 R170). -/
theorem State.Entered.holdSlot {s u : State} {st : Strand} {fs : List Flight} (h : s.Entered u st fs) :
    s.Entered u.holdSlot st (fs.map (Flight.holding s.time)) := by
  refine h.modMyEng _ (fun x => ⟨x.sec.begun, x.sec.shape, x.bypass, x.wrote, x.known, rfl⟩) ?_
  rw [h.eng, h.time]; rfl

/-- The word passes (01 R19). -/
theorem State.Entered.advance {s u : State} {st : Strand} {fs : List Flight} (h : s.Entered u st fs) : s.Issues u.advance st fs := by
  have hc := h.cur
  have key : u.advance.me = u.me.modEng u.cur.eng (fun e => e.advance u.time) := by
    show (u.setStrand u.cur.ck _).strand u.cur.ck = _
    rw [State.strand_setStrand_same]; rfl
  have k2 : u.advance.myEng = u.myEng.advance u.time := by
    show u.advance.me.eng u.cur.eng = _
    rw [key]; exact Strand.eng_setEng_same _ _ _
  refine ⟨?_, ?_, ?_, ?_, ?_⟩
  · refine h.only.trans ?_
    rw [← hc]; exact State.onlyStrand_modStrand u u.cur.ck (fun st => st.modEng u.cur.eng _)
  · rw [key]
    conv_lhs => rw [Strand.modEng, Strand.setEng, h.me]
    rfl
  · intro e he
    rw [key]
    show (u.me.setEng u.cur.eng _).eng e = _
    rw [Strand.eng_setEng_ne _ _ _ _ (by rw [hc]; exact he)]
    exact h.other e he
  · rw [k2, h.time]
    have he := h.eng
    refine ⟨?_, ?_, ?_⟩
    · unfold EStream.advance; rw [he]
    · unfold EStream.advance; rw [he]
    · unfold EStream.advance; rw [he]
      by_cases hl : s.myEng.widx + 1 < hdrLen s.myEng.sec.hdr
      · rw [if_pos hl]; exact ⟨if_pos hl, if_pos hl⟩
      · rw [if_neg hl]; exact ⟨if_neg hl, if_neg hl⟩
  · rw [k2]
    unfold EStream.advance; rw [h.eng]

/-- A scalar result is all that a word gives. -/
theorem State.gives_result (s : State) (h : Head) (spec : BitVec 7) (v : Word) (m : Bool) :
    s.Gives (s.enter.result h spec v m).advance h (destOf spec) (.word v m) 0 := by
  unfold State.Gives State.result
  by_cases hd : destOf spec = .none
  · rw [if_pos hd, if_pos hd]; exact s.entered_enter.advance
  · rw [if_neg hd, if_neg hd]; exact (s.entered_enter.put h _ _ _).advance
/-- A predicate result likewise. -/
theorem State.gives_resultP (s : State) (h : Head) (spec : BitVec 7) (b : Bool) :
    s.Gives (s.enter.resultP h spec b).advance h (destOf spec) (.pred b) 0 := by
  unfold State.Gives State.resultP
  by_cases hd : destOf spec = .none
  · rw [if_pos hd, if_pos hd]; exact s.entered_enter.advance
  · rw [if_neg hd, if_neg hd]; exact (s.entered_enter.put h _ _ _).advance
/-- The result of a request is all that a word gives. -/
theorem State.asks_put (s : State) (h : Head) (spec : BitVec 7) (v : Val) :
    s.Asks (if destOf spec = .none then s.enter else (s.enter.put h (destOf spec) v 0).holdSlot).advance h (destOf spec) v := by
  unfold State.Asks
  by_cases hd : destOf spec = .none
  · rw [if_pos hd, if_pos hd]; exact s.entered_enter.advance
  · rw [if_neg hd, if_neg hd]; exact ((s.entered_enter.put h _ _ _).holdSlot).advance
/-- A word with no effect of its own. -/
theorem State.sets_enter (s : State) : s.Sets s.enter.advance s.me := s.entered_enter.advance
/-- A word that changes its strand and gives no result. -/
theorem State.sets_modMe (s : State) (f : Strand → Strand) (hf : ∀ (x : Strand) (y : Map EStream), f { x with es := y } = { f x with es := y }) :
    s.Sets (s.enter.modMe f).advance (f s.me) := (s.entered_enter.modMe f hf).advance
/-- A word that leaves a change of its strand to the end of the aclk. -/
theorem State.defers_modMe (s : State) (h : Head) (f : Strand → Strand) (hf : ∀ (x : Strand) (y : Map EStream), f { x with es := y } = { f x with es := y }) :
    s.Defers ((s.enter.deferred h).modMe f).advance h (f s.me) := ((s.entered_enter.put h _ _ _).modMe f hf).advance


/-- A fold of minima is at most its start and every value it has met. -/
theorem foldl_min_le {α : Type} (f : α → Nat) (l : List α) (n : Nat) : l.foldl (fun n e => min n (f e)) n ≤ n ∧ ∀ e ∈ l, l.foldl (fun n e => min n (f e)) n ≤ f e := by
  induction l generalizing n with
  | nil => simp
  | cons a r ih =>
    obtain ⟨h1, h2⟩ := ih (min n (f a))
    simp only [List.foldl_cons, List.mem_cons, forall_eq_or_imp]
    refine ⟨by omega, by omega, h2⟩

theorem State.me_modMe (s : State) (f : Strand → Strand) : (s.modMe f).me = f s.me := by
  show (s.setStrand s.cur.ck _).strand s.cur.ck = _
  rw [State.strand_setStrand_same]; rfl

/-- A decision appended after a word has issued: the frame of a junction (01 R24 to R26). -/
theorem State.Issues.resolve {s t : State} {st : Strand} {fs : List Flight} {d : Decision} (h : s.Issues t st fs) (hs : s.cur.eng = .s) :
    s.Decides (t.resolve d) st d fs := by
  obtain ⟨h1, h2, h3, h4, h5⟩ := h
  have hc : t.cur = s.cur := by rw [h1.1]
  have hp : t.myProfile = s.myProfile := by unfold State.myProfile; rw [hc]
  have key : (t.resolve d).me = (({ t.me with dq := t.me.dq ++ [d] } : Strand).modEng .s (fun e => e.takes d)).trimQueue s.myProfile := by
    unfold State.resolve; rw [State.me_modMe, hp]
  have heng : ∀ e, (t.resolve d).me.eng e = (t.me.modEng .s (fun e => e.takes d)).eng e := by intro e; rw [key]; rfl
  have hS : (t.resolve d).me.eng .s = (t.me.eng .s).takes d := by rw [heng]; exact Strand.eng_setEng_same _ _ _
  refine ⟨?_, ?_, ?_, ?_, ?_⟩
  · refine h1.trans ?_
    rw [← hc]; unfold State.resolve State.modMe; exact State.onlyStrand_modStrand t t.cur.ck _
  · rw [key]
    have g : ∀ X : Strand, (({ X with dq := X.dq ++ [d] } : Strand).modEng .s (fun e => e.takes d)).trimQueue s.myProfile =
      { X with es := ((({ X with dq := X.dq ++ [d] } : Strand).modEng .s (fun e => e.takes d)).trimQueue s.myProfile).es,
               dq := ((({ X with dq := X.dq ++ [d] } : Strand).modEng .s (fun e => e.takes d)).trimQueue s.myProfile).dq,
               dqbase := ((({ X with dq := X.dq ++ [d] } : Strand).modEng .s (fun e => e.takes d)).trimQueue s.myProfile).dqbase } := fun _ => rfl
    conv_lhs => rw [g]
    generalize ((({ t.me with dq := t.me.dq ++ [d] } : Strand).modEng .s (fun e => e.takes d)).trimQueue s.myProfile) = Y
    rw [h2]
  · intro e he
    rw [heng]
    show (t.me.setEng .s _).eng e = _
    rw [Strand.eng_setEng_ne _ _ _ _ he]
    exact h3 e (by rw [hs]; exact he)
  · have hdq : t.me.dq = st.dq := by rw [h2]
    have hdb : t.me.dqbase = st.dqbase := by rw [h2]
    obtain ⟨m, hm⟩ : ∃ m, m = (enginesOf s.myProfile).foldl (fun n e => min n ((({ t.me with dq := t.me.dq ++ [d] } : Strand).modEng .s (fun e => e.takes d)).eng e).needs) (((({ t.me with dq := t.me.dq ++ [d] } : Strand).modEng .s (fun e => e.takes d)).eng .s).needs) := ⟨_, rfl⟩
    refine ⟨m - st.dqbase, ?_, ?_, ?_⟩
    · rw [key]; unfold Strand.trimQueue; simp only [← hm]
      show List.drop (m - t.me.dqbase) (t.me.dq ++ [d]) = _
      rw [hdq, hdb]
    · rw [key]; unfold Strand.trimQueue; simp only [← hm]
      show max m t.me.dqbase = _
      rw [hdb]; omega
    · intro e he
      by_cases hk : m - st.dqbase = 0
      · exact .inl hk
      · right
        have : (t.resolve d).me.dqbase = max m t.me.dqbase := by
          rw [key]; unfold Strand.trimQueue; simp only [← hm]; rfl
        rw [this, heng, hdb]
        have h6 := (foldl_min_le (fun e => ((({ t.me with dq := t.me.dq ++ [d] } : Strand).modEng .s (fun e => e.takes d)).eng e).needs) (enginesOf s.myProfile) (((({ t.me with dq := t.me.dq ++ [d] } : Strand).modEng .s (fun e => e.takes d)).eng .s).needs)).2 e he
        have h7 : ((({ t.me with dq := t.me.dq ++ [d] } : Strand).modEng .s (fun e => e.takes d)).eng e) = (t.me.modEng .s (fun e => e.takes d)).eng e := rfl
        have h8 : ∀ x : EStream, x.needs ≤ x.dqpos := fun x => by unfold EStream.needs; split <;> omega
        rw [← hm] at h6
        simp only [h7] at h6
        have := h8 ((t.me.modEng .s (fun e => e.takes d)).eng e)
        omega
  · have ht : t.me.eng .s = t.myEng := by unfold State.myEng; rw [hc, hs]
    have hs' : s.me.eng .s = s.myEng := by unfold State.myEng; rw [hs]
    dsimp only
    rw [hS, ht, hs']
    have hdp : t.myEng.dqpos = s.myEng.dqpos := by rw [h4.1]
    have hpr : t.myEng.preds = s.myEng.preds := by rw [h4.1]
    unfold EStream.takes
    refine ⟨rfl, ?_, rfl, ?_, ?_⟩
    · cases d.newp <;> simp [hdp]
    · cases d.newp <;> simp [hpr]
    · subst h5; cases d.newp <;> rfl

/-- A trap raised at the executing word (10 R249). -/
theorem State.raise_traps {s : State} {x : TrapInfo} : s.Traps (s.raise s.cur.ck s.cur.eng x) x := by
  have key : (s.raise s.cur.ck s.cur.eng x).me = (match s.me.pend with
     | none => { s.me with pend := some (s.myEng.trapAt s.cur.eng, x), pendW := s.trapNow s.cur.ck }
     | some (p, y) => if p.dsec < (s.myEng.trapAt s.cur.eng).dsec ∨ (p.dsec = (s.myEng.trapAt s.cur.eng).dsec ∧ p.eng ≤ (s.myEng.trapAt s.cur.eng).eng) then s.me
       else { s.me with pend := some (s.myEng.trapAt s.cur.eng, x), pendW := s.trapNow s.cur.ck }) := by
    unfold State.raise State.raiseAt
    have := State.me_modMe s
    unfold State.modMe at this
    dsimp only
    rw [this]
    show _ = _
    have e : (s.strand s.cur.ck).eng s.cur.eng = s.myEng := rfl
    rw [e]
    cases s.me.pend with
    | none => rfl
    | some p => obtain ⟨p, y⟩ := p; rfl
  refine ⟨by unfold State.raise State.raiseAt; exact State.onlyStrand_modStrand _ _ _, ?_, ?_⟩
  · rw [key]; split
    · rfl
    · split <;> rfl
  · dsimp only
    rw [key]
    rcases hp : s.me.pend with _ | ⟨p, y⟩
    · rfl
    · dsimp only; split
      · rw [hp]
      · rfl

/-- A junction that comes to its effect. -/
theorem junction_next {i h s plan eff d} (hr : s.reaches i h = true) (hp : plan s = .ok d) :
    junction i h s plan eff = .next ((eff s.enter).advance.resolve d) := wordThen_next hr hp
theorem junction_stop {i h s plan eff x} (hr : s.reaches i h = true) (hp : plan s = .error (.trap x)) :
    junction i h s plan eff = .next (s.raise s.cur.ck s.cur.eng x) := by
  unfold junction wordThen; rw [wordRaw_eq hr, hp]; rfl

/-- A two-operand word that comes to its effect. -/
theorem alu_next {i h w s f a b} (hr : s.reaches i h = true) (ha : s.rd w.a 0 = .ok a) (hb : s.rdB w = .ok b) :
    ∃ t, alu i h w s f = .next t ∧ s.Gives t h (destOf w.d) (.word (f a b) false) 0 := by
  refine ⟨_, word_next hr (x := (a, b)) ?_, s.gives_result h _ _ _⟩
  simp [ha, hb, bind, Except.bind]
theorem alu1_next {i h w s f a} (hr : s.reaches i h = true) (ha : s.rd w.a 0 = .ok a) :
    ∃ t, alu1 i h w s f = .next t ∧ s.Gives t h (destOf w.d) (.word (f a) false) 0 :=
  ⟨_, word_next hr ha, s.gives_result h _ _ _⟩

end Sys2Proof.Machine
end

