-- ==== Sys2Proof/Tests/Slice0.lean ====
section
/-! SUPPORT. Tests of the model: ill-formed words are refused, words written out from the tables of 02 decode to the instruction that they
stand for, and for every statement of Certificates/Slice0 with hypotheses a state and operands that meet them all. -/

namespace Sys2Proof.Tests
open Sys2Proof.Machine
set_option Elab.async false

/-- Latency code `lb`, predicate p0. -/
abbrev hd (lb : BitVec 3) : Head := ⟨0, false, lb⟩
abbrev rr (d a b : BitVec 7) : W1 := { d, a, b, c := 0, fn := 0, imm := 0 }
abbrev cw (a b c : BitVec 7) (fn : BitVec 11) (imm : BitVec 48) : W6 := { a, b, c, fn, imm }
abbrev ct (a b : BitVec 7) (k : Bool) (cond : BitVec 5) (fn : BitVec 12) (tgt : BitVec 48) : W3 := { a, b, k, cond, fn, tgt }
abbrev mw (d base idx : BitVec 7) (sz : BitVec 3) (off : BitVec 48) : W2 :=
  { d, base, idx, sz, ord := 0, scope := 0, x := false, pi := false, sc := false, rsv := false, off }

/-- The translation of the test states: 64 KiB at virtual 0, writable, to frame 0. -/
def tlb0 : List TlbEntry := [{ asid := 0, part := 0, page := 0, size := 0x10000, frame := 0, w := true }]
/-- Context 0 of core `c` of die `d` runs, privileged, with a vault window of 1 MiB; its strand is `f` of a fresh one whose stream `e` stands
at the first word of a section with header `hdr`; `g` sets the rest of the state. -/
def stand (d c : Nat) (e : Engine) (hdr : Word) (f : Strand → Strand) (g : State → State) : State :=
  let ck := ckOf d c 0
  let x : EStream := { EStream.init 8 with secn := 1, secn0 := 1, owned := 1, pos := .words, sec := { Section.init with hdr } }
  let s : State := { State.reset with
    strands := [(ck, f (Strand.init.setEng e x))], cur := ⟨ck, e⟩, time := 100, ftime := 1000,
    dies := [(d, { Die.init with tlb := tlb0 })] ++ (if d = 8 then [] else [(8, { Die.init with tlb := tlb0 })]) }
  g ((s.setCtx ck 0x11).dput d (winOff c 0) (w64 (16 * 256 + 64 * 2 ^ 24)))
/-- `stand` at instruction `i` of a section of one word. -/
def standAt (d c : Nat) (e : Engine) (i : Instr) (f : Strand → Strand) (g : State → State) : State := stand d c e (headerFor e (some i)) f g
/-- A read that answers `a`. -/
def okIs {α : Type} [DecidableEq α] (x : Except Stop α) (a : α) : Bool := match x with | .ok b => decide (b = a) | .error _ => false
theorem ok_of_okIs {α : Type} [DecidableEq α] {x : Except Stop α} {a : α} (h : okIs x a = true) : x = .ok a := by
  unfold okIs at h
  split at h
  · rw [of_decide_eq_true h]
  · exact nomatch h


theorem test_refused_unassigned : decode .p .s 0x1E0000000000000000000000 = .error .unassigned := rfl
theorem test_refused_unassigned_neutral : (match decode .p .v 0xF40000000000000000000000 with | .error .unassigned => true | _ => false) = true := by decide +kernel
theorem test_refused_profile : Instr.reject? .mc (.cgateOff (hd 7) (cw 0 0 0 0 0)) = some .notInProfile := by decide +kernel
theorem test_refused_latency_below : Instr.reject? .p (.mul (hd 0) (rr 1 2 3)) = some .latency := by decide +kernel
theorem test_refused_latency_seven : Instr.reject? .p (.add (hd 7) (rr 1 2 3)) = some .latency := by decide +kernel
theorem test_refused_reserved : Instr.reject? .p (.add (hd 0) { rr 1 2 3 with c := 1 }) = some .field := by decide +kernel
theorem test_refused_specifier : Instr.reject? .p (.ld (hd 3) (mw 5 0x42 0 3 0)) = some .field := by decide +kernel
theorem test_refused_type : Instr.reject? .p (.mma (hd 6) { zd := 0, zs := 0, qa := 2, bv := 6, ms := 0, ks := 0, ty := 1, acc := false, gz := 0, voff := 0, rsv := 0 }) = some .field := by
  decide +kernel
theorem test_refused_engine : Instr.reject? .d (.fencex (hd 0) (cw 0 0 0 0 3)) = none ∧ Instr.reject? .p (.fencex (hd 0) (cw 0 0 0 0 0x11)) = some .engineAbsent := by
  decide +kernel
theorem test_refused_absent_file : Instr.reject? .mc (.clz (hd 0) (rr 9 0x40 0)) = some .field ∧ Instr.reject? .mc (.clz (hd 0) (rr 9 5 0)) = none := by decide +kernel
theorem test_refused_event : Instr.reject? .p (.headerWalk 0 .s) = some .unassigned := by decide +kernel
theorem test_refused_truncated : (match decodeBytes .p .s [0, 0, 0] with | .error .truncated => true | _ => false) = true := by decide +kernel

theorem test_words_scalar1 : ∀ p ∈ ([
  (.d, .s, 0x0118020A0800000000000000, .add ⟨1, true, 0⟩ { d := 1, a := 2, b := 0x41, c := 0, fn := 0, imm := 0 }),
  (.p, .s, 0x02110904000800FFFFFFFF01, .sub ⟨1, false, 1⟩ { d := 4, a := 0x41, b := 0, c := 0, fn := 0x800, imm := 0xffffffff01 }),
  (.d, .s, 0x031906121800000000000000, .mul ⟨1, true, 1⟩ { d := 3, a := 4, b := 0x43, c := 0, fn := 0, imm := 0 }),
  (.p, .s, 0x04320D0C000800FFFFFFFF03, .mulh ⟨3, false, 2⟩ { d := 6, a := 0x43, b := 0, c := 0, fn := 0x800, imm := 0xffffffff03 }),
  (.d, .s, 0x051A0A1A2800000000000000, .mulhn ⟨1, true, 2⟩ { d := 5, a := 6, b := 0x45, c := 0, fn := 0, imm := 0 }),
  (.p, .s, 0x06551114000800FFFFFFFF05, .div ⟨5, false, 5⟩ { d := 8, a := 0x45, b := 0, c := 0, fn := 0x800, imm := 0xffffffff05 }),
  (.d, .s, 0x071D0E223800000000000000, .divn ⟨1, true, 5⟩ { d := 7, a := 8, b := 0x47, c := 0, fn := 0, imm := 0 }),
  (.p, .s, 0x0876151C000800FFFFFFFF07, .rem ⟨7, false, 6⟩ { d := 0xa, a := 0x47, b := 0, c := 0, fn := 0x800, imm := 0xffffffff07 }),
  (.d, .s, 0x091A122A4800000000000000, .andS ⟨1, true, 2⟩ { d := 9, a := 0xa, b := 0x49, c := 0, fn := 0, imm := 0 }),
  (.p, .s, 0x0A901924000800FFFFFFFF09, .orS ⟨9, false, 0⟩ { d := 0xc, a := 0x49, b := 0, c := 0, fn := 0x800, imm := 0xffffffff09 }),
  (.d, .s, 0x0B1916325800000000000000, .xorS ⟨1, true, 1⟩ { d := 0xb, a := 0xc, b := 0x4b, c := 0, fn := 0, imm := 0 }),
  (.p, .s, 0x0CB21D2C000800FFFFFFFF0B, .andn ⟨11, false, 2⟩ { d := 0xe, a := 0x4b, b := 0, c := 0, fn := 0x800, imm := 0xffffffff0b }),
  (.d, .s, 0x0D181A3A6800000000000000, .shl ⟨1, true, 0⟩ { d := 0xd, a := 0xe, b := 0x4d, c := 0, fn := 0, imm := 0 }),
  (.p, .s, 0x0ED12134000800FFFFFFFF0D, .shr ⟨13, false, 1⟩ { d := 0x10, a := 0x4d, b := 0, c := 0, fn := 0x800, imm := 0xffffffff0d }),
  (.d, .s, 0x0F1A1E427800000000000000, .sar ⟨1, true, 2⟩ { d := 0xf, a := 0x10, b := 0x4f, c := 0, fn := 0, imm := 0 }),
  (.p, .s, 0x10F0253C000800FFFFFFFF0F, .rot ⟨15, false, 0⟩ { d := 0x12, a := 0x4f, b := 0, c := 0, fn := 0x800, imm := 0xffffffff0f }),
  (.d, .s, 0x1119224A8800000000000000, .minS ⟨1, true, 1⟩ { d := 0x11, a := 0x12, b := 0x51, c := 0, fn := 0, imm := 0 }),
  (.p, .s, 0x12122944000800FFFFFFFF11, .maxS ⟨1, false, 2⟩ { d := 0x14, a := 0x51, b := 0, c := 0, fn := 0x800, imm := 0xffffffff11 }),
  (.d, .s, 0x131826529800000000000000, .minn ⟨1, true, 0⟩ { d := 0x13, a := 0x14, b := 0x53, c := 0, fn := 0, imm := 0 }),
  (.p, .s, 0x14312D4C000800FFFFFFFF13, .maxn ⟨3, false, 1⟩ { d := 0x16, a := 0x53, b := 0, c := 0, fn := 0x800, imm := 0xffffffff13 }),
  (.p, .s, 0x150013000000000000000000, .clz ⟨0, false, 0⟩ { d := 9, a := 0x40, b := 0, c := 0, fn := 0, imm := 0 }),
  (.crown, .s, 0x160115040000000000000000, .ctz ⟨0, false, 1⟩ { d := 0xa, a := 0x41, b := 0, c := 0, fn := 0, imm := 0 }),
  (.d, .s, 0x170217080000000000000000, .popc ⟨0, false, 2⟩ { d := 0xb, a := 0x42, b := 0, c := 0, fn := 0, imm := 0 }),
  (.p, .s, 0x1800020800000000000011CC, .bfx ⟨0, false, 0⟩ { d := 1, a := 2, b := 0, c := 0, fn := 0, imm := 0x11cc })] : List (Profile × Engine × TextWord × Instr)),
  (decode p.1 p.2.1 p.2.2.1).toOption = some p.2.2.2 := by decide +kernel
theorem test_words_scalar2 : ∀ p ∈ ([
  (.p, .s, 0x190002081800000000000E85, .bfi ⟨0, false, 0⟩ { d := 1, a := 2, b := 3, c := 0, fn := 0, imm := 0xe85 }),
  (.p, .s, 0x1A0008143690000000000000, .sel ⟨0, false, 0⟩ { d := 4, a := 5, b := 6, c := 0x69, fn := 0, imm := 0 }),
  (.p, .s, 0x1B000A00000000789ABCDEF0, .li ⟨0, false, 0⟩ { d := 5, a := 0, b := 0, c := 0, fn := 0, imm := 0x789abcdef0 }),
  (.p, .s, 0x1C000A140000000000123456, .lih ⟨0, false, 0⟩ { d := 5, a := 5, b := 0, c := 0, fn := 0, imm := 0x123456 }),
  (.crown, .s, 0x1D00C6102802C00000000000, .cmp ⟨0, false, 0⟩ { d := 0x63, a := 4, b := 5, c := 0, fn := 0x2c0, imm := 0 })] : List (Profile × Engine × TextWord × Instr)),
  (decode p.1 p.2.1 p.2.2.1).toOption = some p.2.2.2 := by decide +kernel
theorem test_words_control : ∀ p ∈ ([
  (.p, .s, 0x400007089000000000000010, .jct ⟨0, false, 0⟩ { a := 3, b := 0x42, k := false, cond := 9, fn := 0, tgt := 0x10 }),
  (.p, .s, 0x412000000800FFFFFFFFFFF0, .jmp ⟨2, false, 0⟩ { a := 0, b := 0, k := false, cond := 0, fn := 0x800, tgt := 0xfffffffffff0 }),
  (.p, .s, 0x42000E0001D0FFFFFFFFFFDE, .loop ⟨0, false, 0⟩ { a := 7, b := 0, k := false, cond := 0, fn := 0x1d0, tgt := 0xffffffffffde }),
  (.d, .s, 0x4300000000007FFFFFFFFFFF, .call ⟨0, false, 0⟩ { a := 0, b := 0, k := false, cond := 0, fn := 0, tgt := 0x7fffffffffff }),
  (.d, .s, 0x443800000000000000000000, .ret ⟨3, true, 0⟩ { a := 0, b := 0, k := false, cond := 0, fn := 0, tgt := 0 }),
  (.mc, .s, 0x450000000000000000000000, .endWord ⟨0, false, 0⟩ { a := 0, b := 0, k := false, cond := 0, fn := 0, tgt := 0 }),
  (.p, .s, 0x46000304000002AB00000003, .yieldWord ⟨0, false, 0⟩ { a := 1, b := 0x41, c := 0, fn := 0, imm := 0x2ab00000003 }),
  (.p, .s, 0x47000000000000000000FFFE, .trapWord ⟨0, false, 0⟩ { a := 0, b := 0, c := 0, fn := 0, imm := 0xfffe }),
  (.p, .s, 0x480000000000000000000000, .nop ⟨0, false, 0⟩ { d := 0, a := 0, b := 0, c := 0, fn := 0, imm := 0 }),
  (.p, .s, 0x490000000000000000000003, .prio ⟨0, false, 0⟩ { a := 0, b := 0, c := 0, fn := 0, imm := 3 })] : List (Profile × Engine × TextWord × Instr)),
  (decode p.1 p.2.1 p.2.2.1).toOption = some p.2.2.2 := by decide +kernel
theorem test_words_system : ∀ p ∈ ([
  (.p, .s, 0x4A0212000000000000000012, .sysrd ⟨0, false, 2⟩ { a := 9, b := 0, c := 0, fn := 0, imm := 0x12 }),
  (.p, .s, 0x4B0012000000000000000011, .syswr ⟨0, false, 0⟩ { a := 9, b := 0, c := 0, fn := 0, imm := 0x11 }),
  (.p, .s, 0x500318100000000000000000, .snaprd ⟨0, false, 3⟩ { a := 0xc, b := 4, c := 0, fn := 0, imm := 0 }),
  (.p, .s, 0x5100C20818000000000000FF, .snapwr ⟨0, false, 0⟩ { a := 0x61, b := 2, c := 3, fn := 0, imm := 0xff })] : List (Profile × Engine × TextWord × Instr)),
  (decode p.1 p.2.1 p.2.2.1).toOption = some p.2.2.2 := by decide +kernel
theorem test_words_groups : ∀ p ∈ ([
  (.p, .s, 0x5803C4200000000000000000, .join ⟨0, false, 3⟩ { a := 0x62, b := 8, c := 0, fn := 0, imm := 0 }),
  (.p, .s, 0x590000200000000000000000, .leave ⟨0, false, 0⟩ { a := 0, b := 8, c := 0, fn := 0, imm := 0 }),
  (.d, .s, 0x5A0001200000000000000000, .gbar ⟨0, false, 0⟩ { a := 0, b := 0x48, c := 0, fn := 0, imm := 0 }),
  (.p, .s, 0x5B0000285800000000000000, .barw ⟨0, false, 0⟩ { a := 0, b := 0xa, c := 0xb, fn := 0, imm := 0 }),
  (.p, .s, 0x5C02C2500000000000000000, .launch ⟨0, false, 2⟩ { a := 0x61, b := 0x14, c := 0, fn := 0, imm := 0 }),
  (.p, .s, 0x5D00C850A801000000000000, .task ⟨0, false, 0⟩ { a := 0x64, b := 0x14, c := 0x15, fn := 1, imm := 0 }),
  (.p, .s, 0x5E0000200000000000000000, .phaseG ⟨0, false, 0⟩ { a := 0, b := 8, c := 0, fn := 0, imm := 0 }),
  (.p, .s, 0x5E0000000002000000000000, .phaseSolo ⟨0, false, 0⟩ { a := 0, b := 0, c := 0, fn := 2, imm := 0 })] : List (Profile × Engine × TextWord × Instr)),
  (decode p.1 p.2.1 p.2.2.1).toOption = some p.2.2.2 := by decide +kernel
theorem test_words_power : ∀ p ∈ ([
  (.p, .s, 0x600700000000000000000013, .cgateOff ⟨0, false, 7⟩ { a := 0, b := 0, c := 0, fn := 0, imm := 0x13 }),
  (.p, .s, 0x60070000000100000000001F, .cgateOn ⟨0, false, 7⟩ { a := 0, b := 0, c := 0, fn := 1, imm := 0x1f }),
  (.p, .s, 0x610000000000000000000064, .pwracq ⟨0, false, 0⟩ { a := 0, b := 0, c := 0, fn := 0, imm := 0x64 }),
  (.p, .s, 0x620000000000000000000000, .pwrrel ⟨0, false, 0⟩ { a := 0, b := 0, c := 0, fn := 0, imm := 0 })] : List (Profile × Engine × TextWord × Instr)),
  (decode p.1 p.2.1 p.2.2.1).toOption = some p.2.2.2 := by decide +kernel
theorem test_words_hub : ∀ p ∈ ([
  (.d, .s, 0x680706100001000000000001, .tlbinv ⟨0, false, 7⟩ { a := 3, b := 4, c := 0, fn := 1, imm := 1 }),
  (.p, .s, 0x6900C4180000000000000003, .l2mode ⟨0, false, 0⟩ { a := 0x62, b := 6, c := 0, fn := 0, imm := 3 }),
  (.p, .s, 0x6A0706102801000000000422, .mpage ⟨0, false, 7⟩ { a := 3, b := 4, c := 5, fn := 1, imm := 0x422 }),
  (.d, .s, 0x6B00C6104800000000000000, .kvrootAdd ⟨0, false, 0⟩ { a := 0x63, b := 4, c := 9, fn := 0, imm := 0 }),
  (.d, .s, 0x6B00C6100001000000000000, .kvrootDel ⟨0, false, 0⟩ { a := 0x63, b := 4, c := 0, fn := 1, imm := 0 }),
  (.d, .s, 0x6C0706102801000000000001, .kvfind ⟨0, false, 7⟩ { a := 3, b := 4, c := 5, fn := 1, imm := 1 }),
  (.d, .s, 0x700706102805000000000007, .rqhand ⟨0, false, 7⟩ { a := 3, b := 4, c := 5, fn := 5, imm := 7 }),
  (.d, .s, 0x710706002800000000000000, .rqcan ⟨0, false, 7⟩ { a := 3, b := 0, c := 5, fn := 0, imm := 0 }),
  (.d, .s, 0x7203120C0000000000000000, .rqstat ⟨0, false, 3⟩ { a := 9, b := 3, c := 0, fn := 0, imm := 0 }),
  (.d, .s, 0x7300C20C2800000000000000, .rqdone ⟨0, false, 0⟩ { a := 0x61, b := 3, c := 5, fn := 0, imm := 0 }),
  (.d, .s, 0x740706002801000000000004, .publish ⟨0, false, 7⟩ { a := 3, b := 0, c := 5, fn := 1, imm := 4 }),
  (.d, .s, 0x7800010C0001000000000000, .tbind ⟨0, false, 0⟩ { a := 0, b := 0x43, c := 0, fn := 1, imm := 0 }),
  (.d, .s, 0x7900CA183800000000000000, .recirc ⟨0, false, 0⟩ { a := 0x65, b := 6, c := 7, fn := 0, imm := 0 })] : List (Profile × Engine × TextWord × Instr)),
  (decode p.1 p.2.1 p.2.2.1).toOption = some p.2.2.2 := by decide +kernel
theorem test_words_access1 : ∀ p ∈ ([
  (.d, .a, 0x010280000008000000000001, .aadd ⟨0, false, 2⟩ { d := 0x40, a := 0, b := 0, c := 0, fn := 0x800, imm := 1 }),
  (.p, .a, 0x02118D041000000000000000, .asub ⟨1, false, 1⟩ { d := 0x46, a := 0x41, b := 2, c := 0, fn := 0, imm := 0 }),
  (.d, .a, 0x030284080008000000000003, .amul ⟨0, false, 2⟩ { d := 0x42, a := 2, b := 0, c := 0, fn := 0x800, imm := 3 }),
  (.p, .a, 0x0433910C2000000000000000, .ashl ⟨3, false, 3⟩ { d := 0x48, a := 0x43, b := 4, c := 0, fn := 0, imm := 0 }),
  (.d, .a, 0x050288100008000000000005, .ashr ⟨0, false, 2⟩ { d := 0x44, a := 4, b := 0, c := 0, fn := 0x800, imm := 5 }),
  (.p, .a, 0x065195143000000000000000, .aand ⟨5, false, 1⟩ { d := 0x4a, a := 0x45, b := 6, c := 0, fn := 0, imm := 0 }),
  (.d, .a, 0x07028C180008000000000007, .aor ⟨0, false, 2⟩ { d := 0x46, a := 6, b := 0, c := 0, fn := 0x800, imm := 7 }),
  (.p, .a, 0x0800BE000000008000000001, .ali ⟨0, false, 0⟩ { d := 0x5f, a := 0, b := 0, c := 0, fn := 0, imm := 0x8000000001 }),
  (.p, .a, 0x10038B080300000000000040, .ld ⟨0, false, 3⟩ { d := 0x45, base := 0x42, idx := 0, sz := 3, ord := 0, scope := 0, x := false, pi := false, sc := false, rsv := false, off := 0x40 }),
  (.p, .a, 0x11000F0A1A06FFFFFFFFFFF8, .st ⟨0, false, 0⟩ { d := 7, base := 0x42, idx := 0x43, sz := 2, ord := 0, scope := 0, x := false, pi := true, sc := true, rsv := false, off := 0xfffffffffff8 }),
  (.p, .a, 0x1800B5E0C280000000012345, .qbind ⟨0, false, 0⟩ { q := 0xb, dir := 1, ety := 7, base := 0x41, pat := 0x42, scope := 2, rsv := 0, imm := 0x12345 }),
  (.p, .a, 0x190050000000000000000000, .qfree ⟨0, false, 0⟩ { q := 5, dir := 0, ety := 0, base := 0, pat := 0, scope := 0, rsv := 0, imm := 0 }),
  (.p, .a, 0x1C03C50E2300000000000008, .probe ⟨0, false, 3⟩ { d := 0x62, base := 0x43, idx := 0x44, sz := 3, ord := 0, scope := 0, x := false, pi := false, sc := false, rsv := false, off := 8 }),
  (.p, .a, 0x2005830A1A10000000000000, .aswap ⟨0, false, 5⟩ { d := 0x41, base := 0x42, idx := 0x43, sz := 2, ord := 0, scope := 1, x := false, pi := false, sc := false, rsv := false, off := 0 }),
  (.p, .a, 0x2105850E2360000000000008, .acas ⟨0, false, 5⟩ { d := 0x42, base := 0x43, idx := 0x44, sz := 3, ord := 1, scope := 2, x := false, pi := false, sc := false, rsv := false, off := 8 }),
  (.p, .a, 0x220587122AB0000000000010, .afadd ⟨0, false, 5⟩ { d := 0x43, base := 0x44, idx := 0x45, sz := 2, ord := 2, scope := 3, x := false, pi := false, sc := false, rsv := false, off := 0x10 }),
  (.p, .a, 0x2305891633C0000000000018, .aiadd ⟨0, false, 5⟩ { d := 0x44, base := 0x45, idx := 0x46, sz := 3, ord := 3, scope := 0, x := false, pi := false, sc := false, rsv := false, off := 0x18 }),
  (.p, .a, 0x24058B1A3A18000000000020, .amin ⟨0, false, 5⟩ { d := 0x45, base := 0x46, idx := 0x47, sz := 2, ord := 0, scope := 1, x := true, pi := false, sc := false, rsv := false, off := 0x20 }),
  (.p, .a, 0x25058D1E4360000000000028, .amax ⟨0, false, 5⟩ { d := 0x46, base := 0x47, idx := 0x48, sz := 3, ord := 1, scope := 2, x := false, pi := false, sc := false, rsv := false, off := 0x28 }),
  (.p, .a, 0x26058F224AB0000000000030, .aandm ⟨0, false, 5⟩ { d := 0x47, base := 0x48, idx := 0x49, sz := 2, ord := 2, scope := 3, x := false, pi := false, sc := false, rsv := false, off := 0x30 }),
  (.p, .a, 0x2705912653C0000000000038, .aorm ⟨0, false, 5⟩ { d := 0x48, base := 0x49, idx := 0x4a, sz := 3, ord := 3, scope := 0, x := false, pi := false, sc := false, rsv := false, off := 0x38 }),
  (.p, .a, 0x2805932A5A10000000000040, .axorm ⟨0, false, 5⟩ { d := 0x49, base := 0x4a, idx := 0x4b, sz := 2, ord := 0, scope := 1, x := false, pi := false, sc := false, rsv := false, off := 0x40 }),
  (.p, .a, 0x300383080210000000000008, .aldacq ⟨0, false, 3⟩ { d := 0x41, base := 0x42, idx := 0, sz := 2, ord := 0, scope := 1, x := false, pi := false, sc := false, rsv := false, off := 8 }),
  (.p, .a, 0x31008D040310000000000008, .astrel ⟨0, false, 0⟩ { d := 0x46, base := 0x41, idx := 0, sz := 3, ord := 0, scope := 1, x := false, pi := false, sc := false, rsv := false, off := 8 })] : List (Profile × Engine × TextWord × Instr)),
  (decode p.1 p.2.1 p.2.2.1).toOption = some p.2.2.2 := by decide +kernel
theorem test_words_access2 : ∀ p ∈ ([
  (.p, .a, 0x3200C3064B00000000000008, .waita ⟨0, false, 0⟩ { d := 0x61, base := 0x41, idx := 0x49, sz := 3, ord := 0, scope := 0, x := false, pi := false, sc := false, rsv := false, off := 8 })] : List (Profile × Engine × TextWord × Instr)),
  (decode p.1 p.2.1 p.2.2.1).toOption = some p.2.2.2 := by decide +kernel
theorem test_words_vector1 : ∀ p ∈ ([
  (.p, .v, 0x01010A183D11040000000000, .vadd ⟨0, false, 1⟩ { d := 5, a := 6, b := 7, c := 0x51, fn := 0x104, imm := 0 }),
  (.crown, .v, 0x0202870460052A0000000000, .vsub ⟨0, false, 2⟩ { d := 0x43, a := 0x41, b := 0xc, c := 0, fn := 0x52a, imm := 0 }),
  (.p, .v, 0x03010362C801880000000000, .vmul ⟨0, false, 1⟩ { d := 1, a := 0x58, b := 0x59, c := 0, fn := 0x188, imm := 0 }),
  (.p, .v, 0x0402020818408C0000000000, .vfma ⟨0, false, 2⟩ { d := 1, a := 2, b := 3, c := 4, fn := 0x8c, imm := 0 }),
  (.p, .v, 0x050112203806B40000000000, .vmin ⟨0, false, 1⟩ { d := 9, a := 8, b := 7, c := 0, fn := 0x6b4, imm := 0 }),
  (.p, .v, 0x060112203D71080000000000, .vmax ⟨0, false, 1⟩ { d := 9, a := 8, b := 7, c := 0x57, fn := 0x108, imm := 0 }),
  (.p, .v, 0x070112200004A40000000000, .vabs ⟨0, false, 1⟩ { d := 9, a := 8, b := 0, c := 0, fn := 0x4a4, imm := 0 }),
  (.p, .v, 0x080112200000880000000000, .vneg ⟨0, false, 1⟩ { d := 9, a := 8, b := 0, c := 0, fn := 0x88, imm := 0 }),
  (.p, .v, 0x090106080005AC00005FFFFE, .vclamp ⟨0, false, 1⟩ { d := 3, a := 2, b := 0, c := 0, fn := 0x5ac, imm := 0x5ffffe }),
  (.p, .v, 0x0A01A40C2510040000000006, .vcmp ⟨0, false, 1⟩ { d := 0x52, a := 3, b := 4, c := 0x51, fn := 4, imm := 6 }),
  (.p, .v, 0x0B0106102D66300000000000, .vsel ⟨0, false, 1⟩ { d := 3, a := 4, b := 5, c := 0x56, fn := 0x630, imm := 0 }),
  (.p, .v, 0x1000A34A9800000000000000, .vand ⟨0, false, 0⟩ { d := 0x51, a := 0x52, b := 0x53, c := 0, fn := 0, imm := 0 }),
  (.p, .v, 0x110002081D14200000000000, .vor ⟨0, false, 0⟩ { d := 1, a := 2, b := 3, c := 0x51, fn := 0x420, imm := 0 }),
  (.p, .v, 0x120102081800000000000000, .vxor ⟨0, false, 1⟩ { d := 1, a := 2, b := 3, c := 0, fn := 0, imm := 0 }),
  (.p, .v, 0x130178F40000000000000000, .vnot ⟨0, false, 1⟩ { d := 0x3c, a := 0x3d, b := 0, c := 0, fn := 0, imm := 0 }),
  (.p, .v, 0x140002081807380000000000, .vshl ⟨0, false, 0⟩ { d := 1, a := 2, b := 3, c := 0, fn := 0x738, imm := 0 }),
  (.p, .v, 0x150002080007BC0000000045, .vshr ⟨0, false, 0⟩ { d := 1, a := 2, b := 0, c := 0, fn := 0x7bc, imm := 0x45 }),
  (.p, .v, 0x160002080524A40000000043, .vsar ⟨0, false, 0⟩ { d := 1, a := 2, b := 0, c := 0x52, fn := 0x4a4, imm := 0x43 }),
  (.p, .v, 0x200302080535A50000000000, .vredsum ⟨0, false, 3⟩ { d := 1, a := 2, b := 0, c := 0x53, fn := 0x5a5, imm := 0 }),
  (.p, .v, 0x210402080001080000000000, .vredmax ⟨0, false, 4⟩ { d := 1, a := 2, b := 0, c := 0, fn := 0x108, imm := 0 }),
  (.p, .v, 0x220302080006B40000000000, .vredmin ⟨0, false, 3⟩ { d := 1, a := 2, b := 0, c := 0, fn := 0x6b4, imm := 0 }),
  (.p, .v, 0x230302080000850000000000, .vamax ⟨0, false, 3⟩ { d := 1, a := 2, b := 0, c := 0, fn := 0x85, imm := 0 }),
  (.p, .v, 0x280303000500880000000000, .vexp2 ⟨0, false, 3⟩ { d := 1, a := 0x40, b := 0, c := 0x50, fn := 0x88, imm := 0 }),
  (.p, .v, 0x2904050405110C0000000000, .vlog2 ⟨0, false, 4⟩ { d := 2, a := 0x41, b := 0, c := 0x51, fn := 0x10c, imm := 0 })] : List (Profile × Engine × TextWord × Instr)),
  (decode p.1 p.2.1 p.2.2.1).toOption = some p.2.2.2 := by decide +kernel
theorem test_words_vector2 : ∀ p ∈ ([
  (.p, .v, 0x2A0307080521840000000000, .vrcp ⟨0, false, 3⟩ { d := 3, a := 0x42, b := 0, c := 0x52, fn := 0x184, imm := 0 }),
  (.p, .v, 0x2B04090C0530880000000000, .vrsq ⟨0, false, 4⟩ { d := 4, a := 0x43, b := 0, c := 0x53, fn := 0x88, imm := 0 }),
  (.p, .v, 0x2C030B1005410C0000000000, .vtanh ⟨0, false, 3⟩ { d := 5, a := 0x44, b := 0, c := 0x54, fn := 0x10c, imm := 0 }),
  (.p, .v, 0x300202080004840000000000, .vcvt ⟨0, false, 2⟩ { d := 1, a := 2, b := 0, c := 0, fn := 0x484, imm := 0 }),
  (.p, .v, 0x31020C02C002040000000000, .vqnt ⟨0, false, 2⟩ { d := 6, a := 0, b := 0x58, c := 0, fn := 0x204, imm := 0 }),
  (.p, .v, 0x320202081840C80000000000, .vdq ⟨0, false, 2⟩ { d := 1, a := 2, b := 3, c := 4, fn := 0xc8, imm := 0 }),
  (.p, .v, 0x330302080003040000000000, .vscexp ⟨0, false, 3⟩ { d := 1, a := 2, b := 0, c := 0, fn := 0x304, imm := 0 }),
  (.p, .v, 0x340202081840AC0000000000, .vscacc ⟨0, false, 2⟩ { d := 1, a := 2, b := 3, c := 4, fn := 0xac, imm := 0 }),
  (.p, .v, 0x400002007D373A0000000000, .vmov ⟨0, false, 0⟩ { d := 1, a := 0, b := 0xf, c := 0x53, fn := 0x73a, imm := 0 }),
  (.p, .v, 0x410102080004200000000000, .vbcast ⟨0, false, 1⟩ { d := 1, a := 2, b := 0, c := 0, fn := 0x420, imm := 0 }),
  (.p, .v, 0x420302080000840000008101, .vperm ⟨0, false, 3⟩ { d := 1, a := 2, b := 0, c := 0, fn := 0x84, imm := 0x8101 }),
  (.p, .v, 0x4304020800039C0000000000, .vtrans ⟨0, false, 4⟩ { d := 1, a := 2, b := 0, c := 0, fn := 0x39c, imm := 0 }),
  (.p, .v, 0x440103744800860000000000, .vrow ⟨0, false, 1⟩ { d := 1, a := 0x5d, b := 9, c := 0, fn := 0x86, imm := 0 }),
  (.p, .v, 0x450202084804A70000000000, .vcol ⟨0, false, 2⟩ { d := 1, a := 2, b := 9, c := 0, fn := 0x4a7, imm := 0 }),
  (.p, .v, 0x4601B8084805AE0000000000, .vrowput ⟨0, false, 1⟩ { d := 0x5c, a := 2, b := 9, c := 0, fn := 0x5ae, imm := 0 }),
  (.p, .v, 0x4702020848010B0000000000, .vcolput ⟨0, false, 2⟩ { d := 1, a := 2, b := 9, c := 0, fn := 0x10b, imm := 0 }),
  (.p, .v, 0x480710122D02000000000100, .vld ⟨0, false, 7⟩ { d := 8, base := 4, idx := 0x45, sz := 5, ord := 0, scope := 0, x := false, pi := false, sc := true, rsv := false, off := 0x100 }),
  (.crown, .v, 0x490013100400FFFFFFFFFF00, .vst ⟨0, false, 0⟩ { d := 9, base := 0x44, idx := 0, sz := 4, ord := 0, scope := 0, x := false, pi := false, sc := false, rsv := false, off := 0xffffffffff00 }),
  (.p, .v, 0x500288080534A40000000000, .vcpush ⟨0, false, 2⟩ { d := 0x44, a := 2, b := 0, c := 0x53, fn := 0x4a4, imm := 0 }),
  (.p, .v, 0x510209080530840000000000, .vcpop ⟨0, false, 2⟩ { d := 4, a := 0x42, b := 0, c := 0x53, fn := 0x84, imm := 0 }),
  (.p, .v, 0x5205A90800018C0000000000, .vcbal ⟨0, false, 5⟩ { d := 0x54, a := 0x42, b := 0, c := 0, fn := 0x18c, imm := 0 }),
  (.p, .v, 0x580303000000840000000000, .vacomb ⟨0, false, 3⟩ { d := 1, a := 0x40, b := 0, c := 0, fn := 0x84, imm := 0 }),
  (.p, .v, 0x6000001C0000000000000000, .vfput ⟨0, false, 0⟩ { d := 0, a := 7, b := 0, c := 0, fn := 0, imm := 0 }),
  (.p, .v, 0x610212000000000000000000, .vfget ⟨0, false, 2⟩ { d := 9, a := 0, b := 0, c := 0, fn := 0, imm := 0 })] : List (Profile × Engine × TextWord × Instr)),
  (decode p.1 p.2.1 p.2.2.1).toOption = some p.2.2.2 := by decide +kernel
theorem test_words_vector3 : ∀ p ∈ ([
  (.p, .v, 0x700012000001000000000000, .vshape ⟨0, false, 0⟩ { a := 9, b := 0, c := 0, fn := 1, imm := 0 })] : List (Profile × Engine × TextWord × Instr)),
  (decode p.1 p.2.1 p.2.2.1).toOption = some p.2.2.2 := by decide +kernel
theorem test_words_matrix : ∀ p ∈ ([
  (.p, .m, 0x0100000000000000000000FF, .mshape ⟨0, false, 0⟩ { a := 0, b := 0, c := 0, fn := 0, imm := 0xff }),
  (.p, .m, 0x020140000000000000000000, .mzero ⟨0, false, 1⟩ { zd := 1, zs := 0, qa := 0, bv := 0, ms := 0, ks := 0, ty := 0, acc := false, gz := 0, voff := 0, rsv := 0 }),
  (.p, .m, 0x1007020C000FC60000000000, .mma ⟨0, false, 7⟩ { zd := 0, zs := 0, qa := 2, bv := 6, ms := 0, ks := 0x3f, ty := 3, acc := false, gz := 0, voff := 0, rsv := 0 }),
  (.d, .m, 0x1106438D1FFFE5BFFFFF0000, .mmaz ⟨0, false, 6⟩ { zd := 1, zs := 0, qa := 3, bv := 0x46, ms := 0x47, ks := 0xfff, ty := 0x12, acc := true, gz := 2, voff := 0x3fffff, rsv := 0 }),
  (.p, .m, 0x1206490C2000530000800000, .msp ⟨0, false, 6⟩ { zd := 1, zs := 0, qa := 9, bv := 6, ms := 8, ks := 1, ty := 9, acc := true, gz := 0, voff := 0x80, rsv := 0 }),
  (.p, .m, 0x130550002400050000000000, .mscacc ⟨0, false, 5⟩ { zd := 1, zs := 1, qa := 0, bv := 0, ms := 9, ks := 0, ty := 2, acc := true, gz := 0, voff := 0, rsv := 0 }),
  (.p, .m, 0x140600000000020002040000, .mdrain ⟨0, false, 6⟩ { zd := 0, zs := 0, qa := 0, bv := 0, ms := 0, ks := 0, ty := 1, acc := false, gz := 0, voff := 0x204, rsv := 0 }),
  (.d, .m, 0x150640820000160000010000, .mload ⟨0, false, 6⟩ { zd := 1, zs := 0, qa := 0, bv := 0x41, ms := 0, ks := 0, ty := 0xb, acc := false, gz := 0, voff := 1, rsv := 0 }),
  (.p, .m, 0x16000A2C0000000000000000, .mstat ⟨0, false, 0⟩ { a := 5, b := 0xb, c := 0, fn := 0, imm := 0 }),
  (.d, .m, 0x170541060001C50000400000, .mmv ⟨0, false, 5⟩ { zd := 1, zs := 0, qa := 1, bv := 3, ms := 0, ks := 7, ty := 2, acc := true, gz := 0, voff := 0x40, rsv := 0 })] : List (Profile × Engine × TextWord × Instr)),
  (decode p.1 p.2.1 p.2.2.1).toOption = some p.2.2.2 := by decide +kernel
theorem test_words_copy : ∀ p ∈ ([
  (.p, .c, 0x010700204869000000000103, .cpy ⟨0, false, 7⟩ { a := 0, b := 8, c := 9, fn := 0x69, imm := 0x103 }),
  (.p, .c, 0x02070208180100000009B000, .cgath ⟨0, false, 7⟩ { a := 1, b := 2, c := 3, fn := 1, imm := 0x9b000 }),
  (.p, .c, 0x030702081826000000023700, .cscat ⟨0, false, 7⟩ { a := 1, b := 2, c := 3, fn := 0x26, imm := 0x23700 }),
  (.p, .c, 0x040708000000000000050000, .clist ⟨0, false, 7⟩ { a := 4, b := 0, c := 0, fn := 0, imm := 0x50000 }),
  (.p, .c, 0x05070014300800000000007F, .cfill ⟨0, false, 7⟩ { a := 0, b := 5, c := 6, fn := 8, imm := 0x7f }),
  (.p, .c, 0x0600CA00000000000000FFFF, .cwait ⟨0, false, 0⟩ { a := 0x65, b := 0, c := 0, fn := 0, imm := 0xffff }),
  (.p, .c, 0x070000000000000000000400, .tset ⟨0, false, 0⟩ { a := 0, b := 0, c := 0, fn := 0, imm := 0x400 }),
  (.p, .c, 0x10070208001000000000FFFF, .xsend ⟨0, false, 7⟩ { a := 1, b := 2, c := 0, fn := 0x10, imm := 0xffff })] : List (Profile × Engine × TextWord × Instr)),
  (decode p.1 p.2.1 p.2.2.1).toOption = some p.2.2.2 := by decide +kernel
theorem test_words_bank : ∀ p ∈ ([
  (.d, .b, 0x0107142C6000000000000010, .bqry ⟨0, false, 7⟩ { a := 0xa, b := 0xb, c := 0xc, fn := 0, imm := 0x10 }),
  (.d, .b, 0x0207285400030000000003FF, .bapp ⟨0, false, 7⟩ { a := 0x14, b := 0x15, c := 0, fn := 3, imm := 0x3ff }),
  (.d, .b, 0x03070208180100000000021F, .bmv ⟨0, false, 7⟩ { a := 1, b := 2, c := 3, fn := 1, imm := 0x21f }),
  (.d, .b, 0x040000000000000000000010, .bwait ⟨0, false, 0⟩ { a := 0, b := 0, c := 0, fn := 0, imm := 0x10 }),
  (.d, .b, 0x050714006000000000003FF0, .bflt ⟨0, false, 7⟩ { a := 0xa, b := 0, c := 0xc, fn := 0, imm := 0x3ff0 }),
  (.d, .b, 0x060702081801000000001472, .bsk ⟨0, false, 7⟩ { a := 1, b := 2, c := 3, fn := 1, imm := 0x1472 }),
  (.d, .b, 0x070710000001000000000009, .bmap ⟨0, false, 7⟩ { a := 8, b := 0, c := 0, fn := 1, imm := 9 }),
  (.d, .b, 0x080710000000000000000000, .berr ⟨0, false, 7⟩ { a := 8, b := 0, c := 0, fn := 0, imm := 0 })] : List (Profile × Engine × TextWord × Instr)),
  (decode p.1 p.2.1 p.2.2.1).toOption = some p.2.2.2 := by decide +kernel
theorem test_words_neutral : ∀ p ∈ ([
  (.p, .s, 0xF00000000000000002000200, .semi ⟨0, false, 0⟩ { a := 0, b := 0, c := 0, fn := 0, imm := 0x2000200 }),
  (.p, .v, 0xF11000000000000000000001, .semw ⟨1, false, 0⟩ { a := 0, b := 0, c := 0, fn := 0, imm := 1 }),
  (.d, .a, 0xF2000000000000000000000F, .semp ⟨0, false, 0⟩ { a := 0, b := 0, c := 0, fn := 0, imm := 0xf }),
  (.p, .c, 0xF3000000000000000000008C, .fencex ⟨0, false, 0⟩ { a := 0, b := 0, c := 0, fn := 0, imm := 0x8c })] : List (Profile × Engine × TextWord × Instr)),
  (decode p.1 p.2.1 p.2.2.1).toOption = some p.2.2.2 := by decide +kernel

/-- Stream S of a P-core, at a word with S registers 1 and 2 at `x` and `y`, A register 1 at 0x40. -/
def atS (i : Instr) (x y : Word) : State :=
  standAt 0 0 .s i (fun st => { st with s := [(1, x), (2, y), (3, 0x100), (4, 0xFFFFFFFFFFFFFFFF)], a := [(1, 0x40), (2, 0x1000)] }) id
/-- Operands at the corners: zero, the least negative and -1, and unequal signs. -/
def corners : List (Word × Word) :=
  [(0, 0), (5, 0), (0x8000000000000000, 0xFFFFFFFFFFFFFFFF), (0xFFFFFFFFFFFFFFFF, 1), (0x7FFFFFFFFFFFFFFF, 0x7FFFFFFFFFFFFFFF), (7, 64)]
/-- The two operands of the word read as `x` and `y`, and it comes to its effect. -/
def open2 (s : State) (i : Instr) (h : Head) (w : W1) (x y : Word) : Bool := okIs (s.rd w.a 0) x && okIs (s.rdB w) y && s.reaches i h
theorem witness_ScalarAluResult : (corners.all fun p => ([.add (hd 6) (rr 3 1 2), .sub (hd 6) (rr 3 1 2), .mul (hd 6) (rr 3 1 2), .mulh (hd 6) (rr 3 1 2),
    .mulhn (hd 6) (rr 3 1 2), .div (hd 6) (rr 3 1 2), .divn (hd 6) (rr 3 1 2), .rem (hd 6) (rr 3 1 2), .andS (hd 6) (rr 3 1 2), .orS (hd 6) (rr 3 1 2),
    .xorS (hd 6) (rr 3 1 2), .andn (hd 6) (rr 3 1 2), .shl (hd 6) (rr 3 1 2), .shr (hd 6) (rr 3 1 2), .sar (hd 6) (rr 3 1 2), .rot (hd 6) (rr 3 1 2),
    .minS (hd 6) (rr 3 1 2), .maxS (hd 6) (rr 3 1 2), .minn (hd 6) (rr 3 1 2), .maxn (hd 6) (rr 3 1 2)] : List Instr).all fun i =>
    open2 (atS i p.1 p.2) i (hd 6) (rr 3 1 2) p.1 p.2 && (i.reject? .p).isNone) = true := by decide +kernel
theorem witness_ScalarAluResult_immediate : (([.add (hd 0) { rr 0 1 0 with fn := 0x800, imm := 0xFFFFFFFFFF },
    .sub (hd 0) { rr 63 1 0 with fn := 0x800, imm := 0xFFFFFFFFFF }] : List Instr).all fun i =>
    open2 (atS i 5 7) i (hd 0) { rr 0 1 0 with fn := 0x800, imm := 0xFFFFFFFFFF } 5 0xFFFFFFFFFFFFFFFF) = true := by decide +kernel
theorem witness_AddressAndMoveResults : (([.aadd (hd 6) (rr 0x43 1 2), .asub (hd 6) (rr 0x43 1 2), .amul (hd 6) (rr 0x43 1 2), .ashl (hd 6) (rr 0x43 1 2),
    .ashr (hd 6) (rr 0x43 1 2), .aand (hd 6) (rr 0x43 1 2), .aor (hd 6) (rr 0x43 1 2)] : List Instr).all fun i =>
    open2 (standAt 0 0 .a i (fun st => { st with s := [(1, 5), (2, 0xFFFFFFFFFFFFFFFF)] }) id) i (hd 6) (rr 0x43 1 2) 5 0xFFFFFFFFFFFFFFFF) = true := by decide +kernel
theorem witness_AddressAndMoveResults_moves : (([.sel (hd 6) { rr 3 1 2 with c := 0x6F }, .li (hd 6) (rr 3 0 0), .lih (hd 6) (rr 3 1 0)] : List Instr).all (fun i =>
    open2 (atS i 5 7) i (hd 6) (rr 3 1 2) 5 7) &&
    (let i : Instr := .ali (hd 6) { rr 0x43 0 0 with imm := 0x8000000000 }
     (standAt 0 0 .a i id id).reaches i (hd 6))) = true := by decide +kernel
theorem witness_BitCountsAndFields_counts : (([.clz (hd 6) (rr 3 1 0), .ctz (hd 6) (rr 3 1 0), .popc (hd 6) (rr 3 1 0)] : List Instr).all fun i =>
    ([0, 1, 0xFFFFFFFFFFFFFFFF] : List Word).all fun x => okIs ((atS i x 0).rd 1 0) x && (atS i x 0).reaches i (hd 6)) = true := by decide +kernel
theorem witness_BitCountsAndFields_fields : (([0, 63 * 64, 63, 0x7E0] : List (BitVec 40)).all fun m =>
    ([.bfx (hd 6) { rr 3 1 0 with imm := m }, .bfi (hd 6) { rr 3 1 2 with imm := m }] : List Instr).all fun i =>
    open2 (atS i 5 6) i (hd 6) (rr 3 1 2) 5 6 && decide ((m.extractLsb' 0 6).toNat + ((m.extractLsb' 6 6).toNat + 1) ≤ 64)) = true := by decide +kernel
theorem witness_ComparesJunctionsAndLoops_compare : ((List.range 12).all fun c => corners.all fun p =>
    let w : W1 := { rr 0x6F 1 2 with fn := BitVec.ofNat 12 (64 * c) }
    open2 (atS (.cmp (hd 0) w) p.1 p.2) (.cmp (hd 0) w) (hd 0) w p.1 p.2 && Legal.fnCC w.fn == c) = true := by decide +kernel
theorem witness_ComparesJunctionsAndLoops : (([.jct (hd 0) (ct 1 2 false 2 0 0x10), .jct (hd 0) (ct 1 2 false 11 0 0x10), .jct (hd 0) (ct 0 0 true 0x1F 0 0xFFFFFFFFFFFC),
    .jmp (hd 0) (ct 0 0 false 0 0x800 0x10), .endWord (hd 0) (ct 0 0 false 0 0 0), .loop (hd 0) (ct 1 0 false 0 0xFF0 0x10)] : List Instr).all fun i =>
    ([0, 1, 0x8000000000000000] : List Word).all fun x =>
    (atS i x 7).cur.eng == .s && open2 (atS i x 7) i (hd 0) (rr 0 1 2) x 7) = true := by decide +kernel
theorem witness_CallAndReturnStack : (([.call (hd 0) (ct 0 0 false 0 0 0x20), .ret (hd 0) (ct 0 0 false 0 0 0)] : List Instr).all fun i =>
    [0, 1, 15, 16, 271, 272].all fun n =>
    let s := standAt 0 0 .s i (fun st => { st with rsdep := n, rstack := (List.range (min n 16)).map w64, rsbase := w64 (3 * 2 ^ 11) }) id
    s.cur.eng == .s && s.reaches i (hd 0) && s.me.rsdep == n && s.me.rstack.length == min n 16) = true := by decide +kernel
theorem witness_QuietSequencerWords : (([.yieldWord (hd 0) (cw 1 2 0 0 0x3FFFFFFFFFF), .nop (hd 0) (rr 0 0 0), .prio (hd 0) (cw 0 0 0 0 3),
    .prio (hd 0) (cw 1 0 0 1 0)] : List Instr).all fun i => open2 (atS i 5 7) i (hd 0) (rr 0 1 2) 5 7) = true := by decide +kernel
theorem witness_SystemRegisterWords_read : (([(0, 0), (0, 1), (0, 2), (0, 3), (0, 4), (0, 8), (0, 9), (0, 0xA), (0, 0xB), (0, 0xC), (0, 0x10), (0, 0x11),
    (0, 0x12), (0, 0x18), (2, 0x20)] : List (Nat × Nat)).all fun p =>
    let i : Instr := .sysrd (hd 2) (cw 9 0 0 0 (BitVec.ofNat 48 p.2))
    (standAt p.1 0 .s i id id).reaches i (hd 2)) = true := by decide +kernel
theorem witness_SystemRegisterWords_write : ([0, 1, 2, 0x11].all fun r =>
    let i : Instr := .syswr (hd 0) (cw 1 0 0 0 (BitVec.ofNat 48 r))
    let s := atS i 0xFFFFFFFFFFFFFFFF 0
    s.reaches i (hd 0) && okIs (s.rd 1 0) 0xFFFFFFFFFFFFFFFF && s.me.later == []) = true := by decide +kernel
theorem witness_TrapWordAndHandlerReturn : (([(0xFFFF, false), (0xFFFF, true), (0xFFFE, true), (0xFFFD, true)] : List (BitVec 48 × Bool)).all fun p =>
    let i : Instr := .trapWord (hd 0) (cw 0 0 0 0 p.1)
    let s := standAt 0 0 .s i (fun st => { st with hdl := p.2, s := [(3, 9)] }) id
    s.cur.eng == .s && s.reaches i (hd 0) && s.me.hdl == p.2 && s.me.later == [] && Engine.all.all (fun e => (s.me.eng e).flight == [])) = true := by decide +kernel
/-- In a handler with the trap record `rec0` at SNAPA - 0x40; the area has the records of the engines and, at 0x100 of the text, a control section of
two words of the sequencer, in which S stands at word 1. -/
def returning (imm : BitVec 48) (rec0 : Nat) : State :=
  standAt 0 0 .s (.trapWord (hd 0) (cw 0 0 0 0 imm)) (fun st => { st with hdl := true, s := [(3, 9)] }) (fun s =>
    let s := (s.dput 0 (snapaOff 0 0) 0x20000).modDie 0 (fun d => { d with tlb := { asid := 0, part := 0, page := 0, size := 0x10000, frame := 0, w := false } :: d.tlb })
    let w (s : State) (o v : Nat) : State := s.wrPhys 0 o v 8
    let s := w (w s 0x1FFC0 rec0) 0x1FFC8 7
    let s := w (w (w s 0x20100 0x114) 0x20108 4) 0x20110 1
    w (w s 0x20190 2) 0x100 0x0014000000000000)
/-- The record names engine `e` at word `tw`, with a lost V word or not. -/
def record (e tw : Nat) (lost : Bool) : Nat := e * 2 ^ 8 + b2n lost * 2 ^ 13 + tw * 2 ^ 32
theorem witness_TrapWordAndHandlerReturn_place : (([(0xFFFF, 2, 0, false), (0xFFFE, 2, 0, false), (0xFFFE, 0, 1, false), (0xFFFE, 2, 3, true), (0xFFFE, 2, 0x7FF, false)] :
    List (BitVec 48 × Nat × Nat × Bool)).all fun p =>
    let s := returning p.1 (record p.2.1 p.2.2.1 p.2.2.2)
    let rec0 := s.areaDword 0 0x40
    let lost := (rec0.testBit 13 && p.2.1 == Engine.num .v) || (rec0.testBit 14 && p.2.1 == Engine.num .m)
    s.cur.eng == .s && s.reaches (.trapWord (hd 0) (cw 0 0 0 0 p.1)) (hd 0) && s.me.hdl && s.me.later == [] && s.posted == [] && s.ops == [] &&
    Engine.all.all (fun e => (s.me.eng e).flight == []) && rec0 / 2 ^ 8 % 8 == p.2.1 && rec0 / 2 ^ 32 % 2 ^ 11 == p.2.2.1 && lost == p.2.2.2 &&
    (let x := (s.restoreStrand 0).eng .s
     (p.2.1 != 0 || (hdrJct x.sec.hdr && p.2.2.1 + 1 == hdrLen x.sec.hdr)))) = true := by decide +kernel
theorem witness_TrapWordAndHandlerReturn_software : (([(0xFFFF, false), (0x12, true)] : List (BitVec 48 × Bool)).all fun p =>
    let i : Instr := .trapWord (hd 0) (cw 0 0 0 0 p.1)
    (standAt 0 0 .s i (fun st => { st with hdl := p.2 }) id).reaches i (hd 0)) = true := by decide +kernel
theorem witness_FalsePredicateHasNoEffect : (([(.add { hd 0 with pr := 1 } (rr 3 1 2), { hd 0 with pr := 1 }),
    (.launch { hd 0 with pr := 15 } (cw 0x61 20 0 0 0), { hd 0 with pr := 15 }), (.jmp { hd 0 with pr := 15 } (ct 0 0 false 0 0 16), { hd 0 with pr := 15 })] : List (Instr × Head)).all fun p =>
    let s := atS p.1 0 0
    p.1.head? == some p.2 && s.cur.eng == .s && !s.skipped && (s.decodeTrap p.1).isNone && !s.predTrue p.2) = true := by decide +kernel
theorem witness_DecodeChecksTrap : (([.add { hd 0 with pr := 1 } { rr 3 1 2 with c := 9 }, .jmp (hd 0) (ct 1 0 false 0 0 16)] : List Instr).all (fun i =>
    i.head?.isSome && !(atS i 0 0).skipped && ((atS i 0 0).decodeTrap i).isSome) &&
    (let i : Instr := .l2mode { hd 0 with pr := 1 } (cw 0x61 1 0 0 3)
     let s := standAt 0 0 .s i id (fun s => s.setCtx 0 1)
     i.head?.isSome && !s.skipped && i.privileged && !s.myPriv && !s.me.hdl && (i.reject? s.myProfile).isNone &&
     placed s.myEng.sec.hdr s.myEng.widx i && s.myEng.bypassOk i)) = true := by decide +kernel
/-- A stream of the sequencer at a header `v`. -/
def atHeader (v : Word) : State :=
  stand 0 0 .s 0 (fun st => { st.modEng .s (fun x => { x with pos := .header }) with text := some (0, 0x10000) }) (fun s => { s with mem := Mem.writeLE [] 8 v.toNat 8 })
/-- That stream walks the header, whose dword is `v`. -/
def walksHeader (v : Word) : Bool :=
  let s := atHeader v
  s.canWalk 0 .s && (s.me.eng .s).pos == .header && okIs (s.fetch 0 (s.me.eng .s).walk.toNat 8) v.toNat && s.me.pend.isNone
theorem witness_HeadersAndDecisions_header : (([0x0008000000000000, 0x2010000000000000, 0x000C000000000000, 0xE000000000000000] : List Word).all (fun v =>
      walksHeader v && !hdrIllegal v && (atHeader v).me.inText ((atHeader v).me.textVA 8) (hdrBytes v) &&
      Engine.all.all (fun e => Engine.ofNum? (hdrEng v) != some e || (ckProfile 0).has e)) &&
    ([0x0008E00000000000, 0xC008000000000000] : List Word).all (fun v => walksHeader v && hdrIllegal v) &&
    walksHeader 0x0FF8000000000000 && !hdrIllegal 0x0FF8000000000000 &&
    (let s := (atHeader 0x0FF8000000000000).modMe (fun st => { st with text := some (0, 0x20) }); s.canWalk 0 .s && s.me.inText 8 8 && !s.me.inText 8 (hdrBytes 0x0FF8000000000000)) &&
    walksHeader 0xA000000000000000 && !hdrIllegal 0xA000000000000000 && Engine.ofNum? (hdrEng 0xA000000000000000) == some .b && !(ckProfile 0).has .b) = true := by
  decide +kernel
theorem witness_HeadersAndDecisions_empty : ((let s := stand 0 0 .s 0 id id
     s.canWalk 0 .s && (s.me.eng .s).pos == .words) &&
    (let s := stand 0 0 .s 0 (fun st => st.modEng .s (fun x => { x with sec := { x.sec with waits := [(.a, 0)] } })) id
     !s.canWalk 0 .s && (s.nextDecision 0 .s).isNone)) = true := by decide +kernel
theorem witness_HeadersAndDecisions_decision : (([⟨.loopBack, 0x40, 3, some 0x55⟩, ⟨.endWalk, 0, 0, none⟩] : List Decision).all fun d =>
    let s := stand 0 0 .v 0 (fun st => { st.modEng .v (fun x => { x with pos := .decision, dqpos := 4 }) with dq := [d], dqbase := 4 }) id
    s.mayRun 0 && (ckProfile 0).has .v && (s.me.eng .v).pos == .decision && decide (s.me.dqbase ≤ (s.me.eng .v).dqpos) &&
    s.me.dq[(s.me.eng .v).dqpos - s.me.dqbase]? == some d && !s.me.freshDecision s.time) = true := by decide +kernel
/-- A stream of the access engine with one result on its way. -/
def arriving (d : Dest) (v : Val) : State :=
  stand 0 0 .a 0 (fun st => { st.modEng .a (fun x => { x with flight := [⟨d, v, 90, 3, 0, 0, 0x11, false, false, false⟩] }) with h := [(5, ⟨0, 1, 3, 0, 0⟩)] }) id
theorem witness_ResultLandsOnItsDestination : (([(.s 63, .word 9 false), (.a 31, .word 9 true), (.v 511, .tile 5 false), (.m 3, .mask 7), (.p 15, .pred true),
    (.z 1, .acc [(5, 3)] (some .f)), (.q 3, .push [⟨5, true⟩]), (.s 5, .rqstat 9 7), (.none, .word 0 false)] : List (Dest × Val)).all (fun p =>
    (arriving p.1 p.2).canLand 0 .a 0 && (((arriving p.1 p.2).me.eng .a).flight[0]?).isSome && (arriving p.1 p.2).running? 0) &&
    !(arriving (.p 1) (.waita 0 8 5 0 0)).canLand 0 .a 0) = true := by decide +kernel
/-- A held post of semaphore 5; a stream of the strand may still issue in the aclk or none does, and a `semp` waits for the aclk's end or none. -/
def holding (may : Bool) (semp : Bool) : State :=
  standAt 0 0 .a (.nop (hd 0) (rr 0 0 0)) (fun st => { st with h := [(5, ⟨0, 1, 3, 0, 0⟩)], posts := if semp then [(.a, 5)] else [] }) (fun s => if may then s else { s with issued := [(0, 63)] })
theorem witness_ResultLandsOnItsDestination_posts : ((let s := holding false false
     s.running? 0 && s.me.posts == [] && Engine.all.all (fun e => s.chosen 0 e || !s.stands 0 e) &&
     decide (0 < (s.me.sem 5).held ∧ (s.me.sem 5).value + (s.me.sem 5).posted + (s.me.sem 5).applied < (s.me.sem 5).ceil)) &&
    (holding true false).stands 0 .a && !(holding true false).chosen 0 .a && (holding false true).me.posts != [] &&
    (let s := stand 0 0 .a 0 (fun st => { st with h := [(5, ⟨0, 3, 0, 0, 2⟩)] }) id
     (s.me.sem 5).posted == 0 && decide ((s.me.sem 5).applied ≤ (s.me.sem 5).ceil - (s.me.sem 5).value) && (s.me.sem 5).held == 0 && s.me.laterH == [])) = true := by
  decide +kernel

/-- The trap control block of context 0 of die 0 stands at physical 0x10000: descriptor `d0`, class mask `d1`. -/
def withArea (d0 d1 : Nat) (s : State) : State :=
  let s := s.dput 0 (snapaOff 0 0) 0x10000
  (s.wrPhys 0 0xFF80 d0 8).wrPhys 0 0xFF88 d1 8
/-- A strand of the sequencer with a trap of class `c` pending. -/
def trapped (c : TrapClass) (hdl : Bool) (d0 d1 : Nat) : State :=
  stand 0 0 .s 0 (fun st => { st with pend := some (⟨0, 0, 0, 8⟩, ⟨c, 3, 7⟩), hdl, s := [(4, 9)] }) (withArea d0 d1)
theorem witness_TrapDeliveryAndStops_handler : ([TrapClass.illegalInstruction, .contextError].all fun c =>
    let s := trapped c false 0x8000000000000400 0x200002
    s.posted == [] && s.running? 0 && s.me.pend == some (⟨0, 0, 0, 8⟩, ⟨c, 3, 7⟩) && decide (s.me.pendW.at_ < s.time) && s.me.failed.isNone && !s.me.hdl && (s.areaDword 0 0).testBit 63 && (s.areaDword 0 8).testBit c.code &&
    decide (c.code ≤ 0x15)) = true := by decide +kernel
theorem witness_TrapDeliveryAndStops_stop : (([(.illegalInstruction, true, 0x8000000000000400, 2), (.illegalInstruction, false, 0x400, 2),
    (.illegalInstruction, false, 0x8000000000000400, 4), (.probeFault, false, 0x8000000000000400, 0x1000000)] : List (TrapClass × Bool × Nat × Nat)).all fun p =>
    let s := trapped p.1 p.2.1 p.2.2.1 p.2.2.2
    s.posted == [] && s.running? 0 && s.me.pend.isSome && decide (s.me.pendW.at_ < s.time) && s.me.failed.isNone && s.me.pbuf == [] &&
    (s.me.hdl || !(s.areaDword 0 0).testBit 63 || !(s.areaDword 0 8).testBit p.1.code || decide (0x15 < p.1.code))) = true := by decide +kernel
/-- A strand at a header, with CSTOP requested at fabric time `at_` with deadline `dl`, `full` due or not; `y` puts it at its yield point. -/
def asked (dl at_ : Nat) (full y : Bool) : State :=
  stand 0 0 .s 0 (fun st => { st with
      es := (enginesOf .p).map (fun e => (e.num, { EStream.init 8 with secn := 1, secn0 := 1 })), full,
      yieldp := if y then some ⟨1, 0, 0, 0, 0, 0⟩ else none })
    (fun s => { withArea 0 0 s with cstopAt := [(0, at_)] }.setCstop 0 (w64 (1 + 256 * dl)))
/-- Context 0 of die 0 with CTX `v` and CSTOP `c`, a strand there if it runs. -/
def ctxIs (v c : Word) : State :=
  stand 0 0 .s 0 id (fun s => { (withArea 0 0 s).setCtx 0 v with strands := if bit v 0 && !bit v 1 then s.strands else [] }.setCstop 0 c)
theorem witness_TrapDeliveryAndStops_now : (let s := (trapped .illegalInstruction false 0 0).modMe (fun st => { st with pendW := { st.pendW with at_ := 100 } })
    s.running? 0 && decide (s.time ≤ s.me.pendW.at_)) = true := by decide +kernel
theorem witness_PreemptionSavesAndStops_none : (let s := asked 1 0 false false
    s.mayPreempt 0 && !s.deadlinePassed 0 && (s.standsAt 0).isNone && !(ctxIs 1 0).mayPreempt 0 &&
    (let t := (asked 1 0 false true).modMe (fun st => { st with closing := true })
     t.running? 0 && t.me.closing && !t.allEnded 0 && (t.standsAt 0).isSome && t.me.failed.isNone && t.me.pbuf == [] && t.posted == [])) = true := by decide +kernel
theorem witness_PreemptionSavesAndStops : ((let s := asked 1 0 false true; s.mayPreempt 0 && !s.deadlinePassed 0 && (s.standsAt 0).isSome && s.me.failed.isNone && s.me.pbuf == [] && s.posted == []) &&
    (let s := asked 0 0 false false; s.mayPreempt 0 && s.deadlinePassed 0 && !s.me.insideAny) &&
    (let s := asked 0 0 true false; s.running? 0 && s.me.full && decide (s.me.fullAt ≤ s.time) && s.me.pend.isNone && s.me.failed.isNone && s.me.pbuf == [] && s.posted == [])) = true := by decide +kernel
/-- A crown whose save area stands at 0x10000 of its die, with registers of every file; and the yield point of a compact save. -/
def saving : State :=
  let s := stand 0 16 .s 0 (fun st => { st with s := [(1, 5), (63, 7)], a := [(31, 9)], v := [(0, 3)], m := [(7, 1)], rstack := [0x40], rsdep := 1 }) id
  s.dput 0 (snapaOff 16 0) 0x10000
def yieldAt : YieldPoint := ⟨1, 1, 2, 0x80000000, 0x80, 0⟩
theorem witness_TrapRecordAndSaveArea_record : ((let s := withArea 0 0 (stand 0 0 .s 0 id id)
    s.memWf && realCtx 0 && s.homeKey 0 ((s.snapa 0 + 2 ^ 46 - 0x40) % 2 ^ 46) == some 0xFFC0 && !s.lostBank 0xFFC0) &&
    ((EStream.init 8).pos == .header)) = true := by decide +kernel
def ascending : List Nat → Bool
  | x :: y :: l => decide (x < y) && ascending (y :: l)
  | _ => true
theorem nodup_of_ascending : ∀ l : List Nat, ascending l = true → l.Nodup
  | [], _ => .nil
  | x :: l, h => by
    have low : ∀ (l : List Nat) (x : Nat), ascending (x :: l) = true → ∀ y ∈ l, x < y := by
      intro l
      induction l with
      | nil => simp
      | cons z l ih =>
        intro x h y hy
        simp only [ascending, Bool.and_eq_true, decide_eq_true_eq] at h
        rcases List.mem_cons.mp hy with rfl | hy
        · exact h.1
        · exact Nat.lt_trans h.1 (ih z h.2 y hy)
    refine List.nodup_cons.mpr ⟨fun hx => Nat.lt_irrefl x (low l x h x hx), nodup_of_ascending l ?_⟩
    cases l with
    | nil => rfl
    | cons z l => exact ((Bool.and_eq_true _ _).mp h).2
theorem saving_ascending : (realCtx 128 && saving.memWf && [none, some yieldAt].all fun y =>
    ascending ((saving.image 128 y []).map Prod.fst)) = true := by decide +kernel
theorem witness_TrapRecordAndSaveArea_image : realCtx 128 = true ∧ saving.memWf = true ∧ ((saving.image 128 none []).map Prod.fst).Nodup ∧
    ((saving.image 128 (some yieldAt) []).map Prod.fst).Nodup := by
  have h := saving_ascending
  simp only [List.all_cons, List.all_nil, Bool.and_eq_true, Bool.and_true] at h
  exact ⟨h.1.1, h.1.2, nodup_of_ascending _ h.2.1, nodup_of_ascending _ h.2.2⟩
theorem witness_TrapRecordAndSaveArea_homes (o : Nat) (h : o < areaBytes (ckProfile 128)) :
    saving.homeKey (ckDie 128) (saving.snapa 128 + o) = some (0x10000 + o) ∧ saving.lostBank (0x10000 + o) = false := by
  have e : areaBytes (ckProfile 128) = 0x36000 := by decide +kernel
  have d : ckDie 128 = 0 := by decide
  have a : saving.snapa 128 = 0x10000 := by decide +kernel
  rw [e] at h
  rw [a, d]
  constructor
  · unfold State.homeKey
    rw [if_neg (by omega), if_pos (by omega), if_pos (by omega)]
    simp
  · have k : keyDie (0x10000 + o) = 0 := by unfold keyDie; omega
    simp [State.lostBank, keyBank?, k]
theorem witness_StopControl : (realCtx 0 && ckDie 0 != 8 && realCtx (ckOf 8 0 0) && ckDie (ckOf 8 0 0) == 8 && ctxValid (((ctxIs 1 0).setCtx (ckOf 8 0 0) 1).ctx (ckOf 8 0 0)) &&
    (let s := ctxIs 1 0; !s.requested 0 && s.running? 0 && ctxValid (s.ctx 0) && s.posted == []) && (let s := ctxIs 3 0; !s.requested 0 && !s.running? 0 && ctxValid (s.ctx 0)) &&
    (let s := ctxIs 1 1; s.requested 0 && !(s.strand 0).full && ctxValid (s.ctx 0)) && (let s := ctxIs 0 0; !s.requested 0 && !s.running? 0 && !ctxValid (s.ctx 0))) = true := by
  decide +kernel
/-- A stopped context with a save area of version 1 of profile `pf` at 0x10000. -/
def savedAt (pf : Nat) : State := (ctxIs 3 0).wrPhys 0 0x10000 (1 + pf * 2 ^ 32) 8
theorem witness_ContextsBindReleaseAndEnd_bind : (realCtx 0 && ckProfile 0 == .p &&
    (let s := savedAt Profile.p.code
     let u := s.setCtx 0 (setBit (setBit 0x11 0 true) 1 false &&& 0x0FFFFF1F)
     !s.running? 0 && s.resumable 0 && u.areaRead 0 0x68 1 % 2 ^ 16 == 0 && !(u.areaRead 0 0 32).testBit 34 && (u.kept 0).loads == [] && ctxValid (s.ctx 0) && ctxStop (s.ctx 0)) &&
    (let s := savedAt 2; !s.running? 0 && !s.resumable 0) && (ctxIs 1 0).running? 0) = true := by decide +kernel
theorem witness_ContextsBindReleaseAndEnd_end : ([false, true].all fun hold =>
    let s := stand 0 0 .s 0 (fun st => { st with
        es := (enginesOf .p).map (fun e => (e.num, { EStream.init 8 with pos := .ended, flight := if hold && e == .a then [⟨.s 1, .word 1 false, 90, 3, 0, 0, 0, false, false, false⟩] else [] })) })
      (fun s => s.setCstop 0 1)
    s.running? 0 && s.allEnded 0 && s.me.pend.isNone && !s.me.full && !s.me.hdl && s.me.pbuf == [] && s.posted == [] && s.endWaits 0 == !hold && (s.modMe (fun st => { st with closing := true })).endWaits 0 == !hold && s.requested 0) = true := by decide +kernel
theorem witness_SnapshotWords : (([(1, 0x80, true), (1, 0x84, false), (0, 0x88, true), (0, 0xFFFFFFFFFFFFFFF8, true)] : List (BitVec 11 × Word × Bool)).all fun p =>
    let i : Instr := .snaprd (hd 3) (cw 9 1 0 p.1 0)
    let j : Instr := .snapwr (hd 0) (cw 0x61 1 2 0 0)
    let f : Strand → Strand := fun st => { st with s := [(1, p.2.1), (2, 1)] }
    let g : State → State := fun s => s.setCtx 1 3
    let s := standAt 0 0 .s i f g
    let t := standAt 0 0 .s j f g
    okIs (s.rd 1 1) p.2.1 && s.reaches i (hd 3) && okIs (t.rd 2 2) 1 && t.reaches j (hd 0) && realCtx 0 && (p.2.1.toNat % 8 == 0) == p.2.2) = true := by decide +kernel

/-- A strand with a group at virtual 0x100 (NMEM `n`, NARR `a`) of which it is a member or not. -/
def grouped (i : Instr) (mem : Bool) (n a : Nat) : State :=
  standAt 0 0 .s i (fun st => { st with s := [(8, 0x100), (9, 3)], groups := if mem then [{ addr := 0x100, asid := 0, part := 0, arrived := false }] else [] })
    (fun s => s.setGroup 0 0x100 { nmem := n, narr := a, maxc := 0, dis := false, gen := 3 })
theorem witness_GroupWords : (([(false, 1, 0), (false, 4096, 0), (true, 2, 0), (true, 2, 1), (true, 1, 0)] : List (Bool × Nat × Nat)).all fun p =>
    ([.join (hd 3) (cw 0x62 8 0 0 0), .leave (hd 0) (cw 0 8 0 0 0), .gbar (hd 0) (cw 0 8 0 0 0)] : List Instr).all fun i =>
    let s := grouped i p.1 p.2.1 p.2.2
    okIs (s.rd 8 0) 0x100 && okIs (s.objectCheck 0x100 true) (some 0x100) && s.reaches i (i.head?.getD (hd 0)) && (s.member 0x100).isSome == p.1 &&
    !bit (0x100 : Word) 63 && decide (s.me.groups.length < 4) && !(s.groupAt s.myPart 0x100).dis && s.posted == [] && (!p.1 || (s.member 0x100).bind s.memberHome == some 0x100) && (s.groupAt s.myPart 0x100).nmem == p.2.1) = true := by decide +kernel
theorem witness_GroupWords_traps : (([.join (hd 3) (cw 0x62 8 0 0 0), .leave (hd 0) (cw 0 8 0 0 0), .gbar (hd 0) (cw 0 8 0 0 0)] : List Instr).all fun i =>
    let s := grouped i true 3 2
    let odd := s.modMe (fun st => { st with s := [(8, 0x120)] })
    let bad := s.mark 0x100
    okIs (odd.rd 8 0) 0x120 && odd.reaches i (i.head?.getD (hd 0)) && (0x120 : Nat) % 64 != 0 &&
    okIs (bad.rd 8 0) 0x100 && bad.reaches i (i.head?.getD (hd 0)) && bad.posted == [] && (match bad.check 0x100 with | .ok _ => true | _ => false) &&
    (match bad.place bad.myAsid bad.myPart 0x100 true with | .ok (.mem _ _ k) => k == 0x100 && bad.poisoned k | _ => false)) = true := by decide +kernel
theorem witness_GroupWords_cases : (([(3, 2, false), (3, 1, false), (2, 1, true), (1, 0, false), (1, 1, true)] : List (Nat × Nat × Bool)).all fun p =>
    let i : Instr := .leave (hd 0) (cw 0 8 0 0 0)
    let s := (grouped i true p.1 p.2.1).modMe (fun st => { st with groups := st.groups.map (fun m => { m with arrived := p.2.2 }) })
    let n := s.groupAt s.myPart 0x100
    s.reaches i (hd 0) && okIs (s.objectCheck 0x100 true) (some 0x100) && (s.member 0x100).map (fun m => m.arrived) == some p.2.2 &&
    ((s.member 0x100).bind s.memberHome == some 0x100) && n.nmem == p.1 && n.narr == p.2.1 && s.posted == []) = true := by decide +kernel
theorem witness_GroupWords_refused : (let i : Instr := .join (hd 3) (cw 0x62 8 0 0 0)
    let s := grouped i false 0 0
    let full := s.modMe (fun st => { st with groups := (List.range 4).map (fun j => { addr := w64 (0x200 + 64 * j), asid := 0, part := 0, arrived := false }) })
    let dis := s.setGroup 0 0x100 { nmem := 1, narr := 0, maxc := 0, dis := true, gen := 3 }
    full.reaches i (hd 3) && okIs (full.objectCheck 0x100 true) (some 0x100) && decide (4 ≤ full.me.groups.length) &&
    dis.reaches i (hd 3) && okIs (dis.objectCheck 0x100 true) (some 0x100) && (dis.groupAt dis.myPart 0x100).dis) = true := by decide +kernel
/-- An answer of an access that may miss. -/
def hitIs (x : Except Miss Word) (a : Word) : Bool := match x with | .ok b => b == a | .error _ => false
theorem witness_BarriersLaunchesAndTasks_barrier : (([3, 4] : List Word).all fun g =>
    let i : Instr := .barw (hd 0) (cw 0 8 9 0 0)
    let s := { (grouped i false 2 0) with ops := [] }.modMe (fun st => { st with s := [(8, 0x100), (9, g)] })
    let t := (grouped i false 2 0).modMe (fun st => { st with park := some ⟨0x100, g, false⟩ })
    s.reaches i (hd 0) && okIs (s.rd 8 0) 0x100 && okIs (s.rd 9 1) g && okIs (s.objectCheck 0x100 false) (some 0x100) && hitIs (s.objectGen s.cur.ck 0x100) 3 &&
    t.running? 0 && (t.strand 0).park.isSome && hitIs (t.objectGen 0 0x100) 3) = true := by decide +kernel
/-- Kernel 0 valid with its image at virtual 0x2000 (profile P, entry stage of depth `depth`), record at 0x400 with the dwords `r`. -/
def withKernel (i : Instr) (valid : Bool) (depth : Nat) (r : Nat) : State :=
  standAt 0 0 .s i (fun st => { st with s := [(20, 0x400), (21, 1)] }) (fun s =>
    let s := (s.dput 8 (ktabOff 0) 0x2000).dput 8 (ktabOff 0 + 8) (if valid then 0x100000 else 0)
    { s with mem := Mem.writeLE (Mem.writeLE [] 0x400 r 16) 0x2044 depth 2 })
theorem witness_BarriersLaunchesAndTasks_launch : (([(true, 0), (true, 2), (false, 0)] : List (Bool × Nat)).all fun v =>
    let i : Instr := .launch (hd 0) (cw 0x61 20 0 0 0)
    let r : QRec := { data := 0, asid := 0, part := 0, rq := none, tag := 0 }
    let s : State := { withKernel i v.1 2 0 with queues := List.replicate v.2 r }
    let t : State := s.modMe (fun st => { st with recIn := some (0, 0) })
    r.asid == s.myAsid && r.part == s.myPart &&
    okIs (s.recordAt 20 (.ok 0)) { data := 0, cl := 0, from? := some 0x400 } && s.reaches i (hd 0) && s.launchOk s.myAsid r == v.1 &&
    okIs (t.recordAt 20 (.ok 0)) { data := 0, cl := 0, from? := none } && t.reaches i (hd 0) && decide (t.occ r.kid r.stage < t.stageDepth r.kid r.stage) == (v.2 == 0) &&
    (match ((s.enter.countRange s.cur.ck 0x400 64 false).sent 0x400).publish s.cur.ck with
     | .ok p => decide (p.occ r.kid r.stage < p.stageDepth r.kid r.stage) == (v.2 == 0) | .error _ => false)) = true := by decide +kernel
theorem witness_BarriersLaunchesAndTasks_task : (([(0, 0x11 * 2 ^ 48), (1, 0x11 * 2 ^ 48), (0, 1)] : List (BitVec 11 × Nat)).all fun p =>
    let i : Instr := .task (hd 0) (cw 0x64 20 (if p.1 = 1 then 21 else 0) p.1 0)
    let s := withKernel i true 2 p.2
    let cl := if p.1 = 1 then 1 else 0
    let t := s.modMe (fun st => { st with recIn := some (0, 1) })
    okIs (s.recordAt 20 (if p.1 = 1 then (s.rd 21 2).map (fun c => c.toNat % 8) else .ok 0)) { data := BitVec.ofNat 512 p.2, cl, from? := some 0x400 } &&
    s.reaches i (hd 0) && okIs (t.recordAt 20 (.ok 0)) { data := 0, cl := 1, from? := none } &&
    (match ((s.enter.countRange s.cur.ck 0x400 64 false).sent 0x400).publish s.cur.ck with
     | .ok q => decide ((q.poolOf 0 0).length < 256) && decide ((q.poolOf 0 1).length < 256) | .error _ => false) &&
    taskOk 0 0 0 (BitVec.ofNat 512 p.2) == (p.2 != 1)) = true := by decide +kernel
/-- A strand with one OUT entry to store or none, and the context-error bit `cerr`. -/
def atPhase (i : Instr) (out cerr : Bool) : State :=
  standAt 0 0 .s i (fun st => { st with
    s := [(8, 0x100)], cerr, groups := [{ addr := 0x100, asid := 0, part := 0, arrived := false }],
    q := if out then [(3, { Stream.init with state := .outS, buf := [{ bits := 5, mark := false }] })] else [] }) id
theorem witness_PhasesAndSemaphores_phase : (([.phaseSolo (hd 0) (cw 0 0 0 1 0), .phaseSolo (hd 0) (cw 0 0 0 3 0), .phaseG (hd 0) (cw 0 8 0 0 0)] : List Instr).all fun i =>
    ([(true, false), (false, false), (false, true)] : List (Bool × Bool)).all fun p =>
    let s := atPhase i p.1 p.2
    s.reaches i (hd 0) && s.me.outPending == p.1 && okIs (s.rd 8 0) 0x100 && okIs (s.objectCheck 0x100 true) (some 0x100) &&
    s.bypassDone s.cur.ck 3 && (p.1 ||
    (match s.solo (match i with | .phaseSolo _ w => fld w.fn 1 0 | _ => 0) with
     | .ok q => q.me.cerr == p.2 && q.cur == s.cur && ((q.enter.member 0x100).bind q.memberHome).isSome && (q.enter.member 0x200).isNone | .error _ => false))) = true := by
  decide +kernel
theorem witness_PhasesAndSemaphores_bypass : (let i : Instr := .phaseSolo (hd 0) (cw 0 0 0 3 0)
    let p : Posted := { id := 9, ck := 0, asid := 0, part := 0, die := 0, path := 0, line := 0x20, ea := 0x808, stage := 0, seq := 9, glob := false, gen := 1, tabs := 0, kind := .write 5 1 false }
    let s : State := { atPhase i false false with posted := [p] }
    s.reaches i (hd 0) && !s.me.outPending && !s.bypassDone s.cur.ck 3) = true := by decide +kernel
theorem witness_PhasesAndSemaphores_semaphore : (([.semi (hd 0) (cw 0 0 0 0 0x02000205), .semw (hd 0) (cw 0 0 0 0 5), .semp (hd 0) (cw 0 0 0 0 5)] : List Instr).all fun i =>
    [0, 1, 2].all fun v =>
    let s := standAt 0 0 .v i (fun st => { st with h := [(5, ⟨v, 2, 0, 0, 0⟩)] }) id
    s.reaches i (hd 0) && (s.me.sem 5).value == v && s.me.posts == [] && s.me.pend.isNone) = true := by decide +kernel
theorem witness_PhasesAndSemaphores_fence : (([(0x83, true), (0x83, false), (0x8C, false)] : List (BitVec 48 × Bool)).all fun p =>
    let i : Instr := .fencex (hd 0) (cw 0 0 0 0 p.1)
    let s := standAt 0 0 .s i id (fun s => if p.2 then { s with ops := [{ s.newOp false 0 (.vld 0 64 0 0 false none) with born := 5 }] } else s)
    s.reaches i (hd 0) && (match s.publishAt s.cur.ck (fld p.1 7 6) with | .ok _ => true | .error _ => false) && s.pathBusy s.cur.ck (fld p.1 5 0) (fld p.1 7 6) == p.2) = true := by decide +kernel
/-- A P-core context with the FIFO of its pair enabled or not, class BUDGET 50, and a grant region of level `l`. -/
def powered (i : Instr) (c : Nat) (en : Nat) (l : Option Nat) (q : List (Nat × Nat × Bool)) : State :=
  standAt 0 c .s i (fun st => { st with level := l }) (fun s => (((s.dput 0 (vfctlOff 0) (w64 en)).dput 0 0x320000000000 50)).modDie 0 (fun d => { d with waitPwr := q }))
theorem witness_CrownGateAndPowerWords_gate : (([.cgateOff (hd 7) (cw 0 0 0 0 0x13), .cgateOn (hd 7) (cw 0 0 0 1 0x1F)] : List Instr).all fun i =>
    ([(1, true), (0, false), (3, false)] : List (Nat × Bool)).all fun p =>
    let s := powered i 0 p.1 none []
    s.reaches i (hd 7) && (bit (s.dget s.myDie (vfctlOff s.pairCore)) 0 && ctxSlot (s.ctx s.cur.ck) == fld (s.dget s.myDie (vfctlOff s.pairCore)) 2 1) == p.2) = true := by decide +kernel
theorem witness_CrownGateAndPowerWords_power : (([(51, none, []), (10, some 20, []), (50, none, []), (50, some 20, []), (50, some 20, [(9, 40, true)])] :
    List (BitVec 48 × Option Nat × List (Nat × Nat × Bool))).all fun p =>
    let i : Instr := .pwracq (hd 0) (cw 0 0 0 0 p.1)
    let j : Instr := .pwrrel (hd 0) (cw 0 0 0 0 0)
    (powered i 0 0 p.2.1 p.2.2).reaches i (hd 0) && (powered j 0 0 p.2.1 p.2.2).reaches j (hd 0)) = true := by decide +kernel
theorem witness_CrownGateAndPowerWords_grant :
    (let i : Instr := .pwracq (hd 0) (cw 0 0 0 0 50)
     let s := powered i 0 0 (some 20) []
     let u := s.modDie 0 (fun d => { d with waitPwr := [] })
     let t := { u with strands := (9, { Strand.init with level := some 30 }) :: u.strands }.setCtx 9 1
     (s.die 0).waitPwr == [] && decide (s.enter.granted 0 + (50 - s.me.level.getD 0) ≤ 50) &&
     (t.die 0).waitPwr == [] && t.reaches i (hd 0) && decide (50 < t.enter.granted 0 + (50 - t.me.level.getD 0))) = true := by decide +kernel
theorem witness_CrownGateAndPowerWords_queue : (let i : Instr := .pwracq (hd 0) (cw 0 0 0 0 40)
    let low : Nat × Nat × Bool := (9, 40, true)
    let s := (powered i 0 0 (some 20) [low]).modMe (fun st => { st with prioc := 2 })
    let t := powered i 0 0 (some 20) [low]
    let u (s : State) : State := s.enter.modDie 0 (fun d => { d with waitPwr := [low] ++ [(0, 40, false)] })
    s.cur.eng == .s && s.reaches i (hd 0) && decide ((u s).eff 9 < (u s).eff 0) && decide ((u s).granted 0 + 20 ≤ 50) &&
    t.reaches i (hd 0) && decide ((u t).eff 0 ≤ (u t).eff 9)) = true := by decide +kernel
/-- Crown pair (0, 3) with gate `g`; a power request of context 0 for `l` waits; band 2 of core 3 off or not. -/
def pairAt (g l : Nat) (off : Bool) : State :=
  stand 0 0 .s 0 id (fun s => ((s.setGate 0 3 g).dput 0 0x320000000000 50).modDie 0 (fun d => { d with
    waitPwr := [(0, l, false)], bandOff := if off then [14] else [] }))
theorem witness_PrefillDieEvents_gates : (([0, 1, 2, 3] : List Nat).all fun g =>
    let o : Op := { id := 5, born := 50, ck := 0, sid := 0, core := coreKey 0 3, asid := 0, part := 0, saved := none, held := false, dead := false, sp := true, hn := 5, fin := false, kind := .cgate false }
    let s : State := { pairAt g 50 false with ops := [o] }
    s.gate 0 3 == g && o.core == coreKey 0 3 && o.live && s.ops.filter (fun o => o.core == coreKey 0 3 && !o.fin && (match o.kind with | .cgate x => x == false | _ => false)) == [o]) = true := by
  decide +kernel
theorem witness_PrefillDieEvents_not : ((let s := { pairAt 1 50 false with strands := ({ pairAt 1 50 false with strands := [] } : State).strands ++ [(ckOf 0 19 0, Strand.init)] }.setCtx (ckOf 0 19 0) 1
     s.gate 0 3 == 1 && !s.gateIsQuiet 0 3) &&
    ((stand 0 0 .s 0 id id).pwrHead 0).isNone && (pairAt 0 50 true |>.die 0).bandIsOff 3 2 &&
    (let s := pairAt 0 50 false
     decide (s.ftime < Map.get 0 (s.die 0).bandAt 14 + 11000 * fld (s.dget 0 0x320000000008) 15 0)) &&
    (let s := (pairAt 0 50 false).modDie 0 (fun d => { d with waitPwr := [(0, 20, false), (9, 30, true), (8, 10, true)] })
     s.pwrHead 0 == some (0, 20, false))) = true := by decide +kernel
theorem witness_PrefillDieEvents : ((pairAt 1 50 false).gate 0 3 == 1 && (pairAt 1 50 false).gateIsQuiet 0 3 && (pairAt 3 50 false).gate 0 3 == 3 &&
    (pairAt 3 50 false).ops == [] && (pairAt 0 50 false).gate 0 3 == 0 &&
    (pairAt 0 50 false).pwrHead 0 == some (0, 50, false) && (pairAt 0 50 false).pwrFits (0, 50, false) &&
    (pairAt 0 51 false).pwrHead 0 == some (0, 51, false) && !(pairAt 0 51 false).pwrFits (0, 51, false) && ckDie 0 == 0 &&
    (let s := { pairAt 0 50 false with ftime := 11000 * 50 }
     !s.bandNamed 0 3 2 && !(s.die 0).bandIsOff 3 2 && decide (Map.get 0 (s.die 0).bandAt 14 + 11000 * fld (s.dget 0 0x320000000008) 15 0 ≤ s.ftime)) &&
    (let s := (pairAt 0 50 true)
     let t := { s with strands := (24, { Strand.init with accp := true, ashape := 0x3FF }) :: s.strands }.setCtx 24 1
     t.bandNamed 0 3 2)) = true := by decide +kernel

/-- A word of an engine with S registers 1, 2 and 3 at `a`, `b` and `c`; g sets the rest. -/
def with3 (d : Nat) (e : Engine) (i : Instr) (a b c : Word) (g : State → State) : State :=
  standAt d 0 e i (fun st => { st with s := [(1, a), (2, b), (3, c)] }) g
/-- Operands A, B and C read as `a`, `b` and `c`, and the word comes to its effect. -/
def open3 (s : State) (i : Instr) (a b c : Word) : Bool :=
  okIs (s.rd 1 0) a && okIs (s.rd 2 1) b && okIs (s.rd 3 2) c && (match i.head? with | some h => s.reaches i h | none => false)
def published (s : State) : Bool := match s.publish s.cur.ck with | .ok _ => true | .error _ => false
def isOk (x : Except Stop Unit) : Bool := match x with | .ok _ => true | .error _ => false
def isOkS (x : Except Stop State) : Bool := match x with | .ok _ => true | .error _ => false
/-- The strand has every request slot that it can have. -/
def noSlot (s : State) : State :=
  s.modMe (fun st => st.modEng .a (fun x => { x with flight := List.replicate 800 ⟨.s 1, .word 1 false, 100, 6, 0, 0, 0, false, true, false⟩ }))
theorem witness_HubAndDieCommandsStart_tlbinv : (([(0x200000000FFF, true), (0x2000000000000, true), (0x2400000000000, false), (0x4000000000000, false)] : List (Word × Bool)).all fun p =>
    ([.tlbinv (hd 7) (cw 1 2 0 0 0), .tlbinv (hd 7) (cw 0 2 0 5 3)] : List Instr).all fun i =>
    open3 (with3 0 .s i 7 p.1 0 id) i 7 p.1 0 && (fld p.1 63 50 == 0 && decide (fld p.1 49 46 < 9)) == p.2) = true := by decide +kernel
theorem witness_HubAndDieCommandsStart_moves : (let i : Instr := .mpage (hd 7) (cw 1 2 3 1 0x422)
    let s := with3 0 .s i 0x1000000001000 0x2000 0x5008 id
    open3 s i 0x1000000001000 0x2000 0x5008 && isOk (s.check 0x5008) && decide ((s.movesOf 4).length + b2n (s.die 4).move.isSome ≤ 16)) = true := by decide +kernel
theorem witness_HubAndDieCommandsStart_find : (([2, 7] : List Nat).all fun d =>
    let i : Instr := .kvfind (hd 7) (cw 1 2 3 1 1)
    let a := w64 (d * 2 ^ 22 + 5)
    let s := with3 0 .s i a 0x5040 0xFFFFF id
    open3 s i a 0x5040 0xFFFFF && isOk (s.check 0x5040) && decide (s.scansBusy (fld a 25 22) < 64) && fld a 63 26 == 0 && fld a 25 22 == d) = true := by decide +kernel
theorem witness_HubAndDieCommandsStart_requests : (([.rqhand (hd 7) (cw 1 2 3 5 7), .rqcan (hd 7) (cw 1 0 3 0 0), .rqdone (hd 0) (cw 0x61 2 3 0 0)] : List Instr).all fun i =>
    let s := with3 0 .s i 9 0x440 0x5008 id
    open3 s i 9 0x440 0x5008 && isOk (s.check 0x440) && isOk (s.check 0x5008) && isOkS ((s.countRange s.cur.ck 0x440 64 false).publish s.cur.ck) && published s && s.ops == [] && !s.pathBusy s.cur.ck 0x3F 3 && isOkS (s.publishAt s.cur.ck 3) &&
    (match s.loadRange s.cur.ck 0x440 64 with | .ok v => v == (0, false) | .error _ => false)) = true := by decide +kernel
theorem witness_HubAndDieCommandsStart_publish : (([(1, true), (0, false), (3, false)] : List (Nat × Bool)).all fun p =>
    let i : Instr := .publish (hd 7) (cw 1 0 3 1 4)
    let s := with3 0 .s i 5 0 0x5008 (fun s => s.dput 8 (0x3A0000000000 + 0x20 * 5) (w64 p.1))
    let g := s.dget 8 (0x3A0000000000 + 0x20 * fld (5 : Word) 5 0)
    open3 s i 5 0 0x5008 && isOk (s.check 0x5008) && published s && (bit g 0 && fld g 4 1 == s.myPart.toNat) == p.2) = true := by decide +kernel
/-- A sequencer word `recirc`; REGMST names the core or not, and a phase.s has issued or not. -/
def planning (m : Nat) (phs : Bool) (c : Word) : State :=
  standAt 0 0 .s (.recirc (hd 0) (cw 0x65 2 3 0 0)) (fun st => { st with s := [(2, 0x1000), (3, c)], phs }) (fun s => s.dput 8 (fabOff 8) (w64 m))
theorem witness_HubAndDieCommandsStart_recirc : (([(1, true, 0), (1, false, 0x5008), (0, true, 0x5008), (3, true, 0)] : List (Nat × Bool × Word)).all fun p =>
    let s := planning p.1 p.2.1 p.2.2
    let u := ((s.enter.countRange s.cur.ck 0x1000 2048 false).sent 0x1000).sent p.2.2
    let m := u.dget 8 (fabOff 8)
    let master := bit m 0 && ckOf (fld m 4 1) (fld m 9 5) (fld m 12 10) == s.cur.ck
    okIs (s.rd 2 1) 0x1000 && okIs (s.rd 3 2) p.2.2 && s.reaches (.recirc (hd 0) (cw 0x65 2 3 0 0)) (hd 0) && !s.recirc? s.cur.ck && isOk (s.check 0x1000) &&
    (p.2.2 == 0 || isOk (s.check p.2.2)) && (s.rdRange s.agent 0x1000 2048 == (0, false, none)) && master == (p.1 == 1) && s.me.phs == p.2.1 &&
    (p.2.2 == 0 || (match u.storeHome s.cur.ck p.2.2 8 1 with | .ok _ => true | .error _ => false))) = true := by decide +kernel
/-- A copy-engine word with tile 3 in state `st`, BASE 0x400, LEN `len`. -/
def copying (i : Instr) (st len : Nat) (b c : Word) (n : Nat) : State :=
  standAt 0 0 .c i (fun x => { x with s := [(1, 0x8000), (2, b), (3, c)], n := [(2, n)] }) (fun s => s.dput 0 (ttabOff 0 3) (w64 (st + 0x10 * 2 ^ 8 + len * 2 ^ 25)))
theorem witness_CopyAndBankCommandsStart_copy :
    (([(.cpy (hd 7) (cw 1 2 3 2 0), .cpy, cw 1 2 3 2 0), (.cpy (hd 7) (cw 0 2 3 0xA 3), .cpy, cw 0 2 3 0xA 3), (.cgath (hd 7) (cw 1 2 3 2 0x20000), .cgath, cw 1 2 3 2 0x20000),
      (.cscat (hd 7) (cw 1 2 3 2 0x20000), .cscat, cw 1 2 3 2 0x20000), (.clist (hd 7) (cw 1 0 0 2 0x20000), .clist, cw 1 0 0 2 0x20000),
      (.cfill (hd 7) (cw 1 2 3 2 0), .cfill, cw 1 2 3 2 0)] : List (Instr × CopyKind × W6)).all fun p =>
    let s := copying p.1 0 4 0x100 64 65534
    s.reaches p.1 (hd 7) && (match s.copyPlan p.2.1 p.2.2 with | .ok _ => true | .error _ => false) &&
    (match (copying p.1 1 4 0x100 64 65535).copyPlan p.2.1 p.2.2 with | .ok _ => false | .error x => x == .wait)) = true := by decide +kernel
theorem witness_CopyAndBankCommandsStart_send : (let i : Instr := .xsend (hd 7) (cw 1 2 0 2 3)
    let s := copying i 2 8 5 0 65534
    s.reaches i (hd 7) && okIs (s.tileIdx s.cur.ck 3) 3 && okIs (s.rd 1 0) 0x8000 && okIs (s.rd 2 1) 5 && decide (Map.get 0 s.me.n 2 < 65535) &&
    tileState (s.tile s.cur.ck 3) == 2 && decide (blockBytes (sendSty 2) (sendNb 3) ≤ tileLen (s.tile s.cur.ck 3)) && isOk (s.check 0x8000)) = true := by decide +kernel
theorem witness_CopyAndBankCommandsStart_window : (let i : Instr := .xsend (hd 7) (cw 1 2 0 2 3)
    let s := (copying i 2 8 5 0 0).dput 0 (ttabOff 0 3) (w64 (2 + 0xFFFF0 / 64 * 2 ^ 8 + 8 * 2 ^ 25))
    s.reaches i (hd 7) && okIs (s.tileIdx s.cur.ck 3) 3 && okIs (s.rd 1 0) 0x8000 && okIs (s.rd 2 1) 5 && tileState (s.tile s.cur.ck 3) == 2 &&
    decide (blockBytes (sendSty 2) (sendNb 3) ≤ tileLen (s.tile s.cur.ck 3)) && !s.inWindow s.cur.ck (tileBase (s.tile s.cur.ck 3)) (blockBytes (sendSty 2) (sendNb 3)) &&
    (copying i 2 8 5 0 65534).inWindow 0 (tileBase ((copying i 2 8 5 0 65534).tile 0 3)) (blockBytes (sendSty 2) (sendNb 3))) = true := by decide +kernel
/-- A bank command of a D-core with operands 0x40, `b` and 0, `bout` commands outstanding, KVB `kvb`. -/
def banking (i : Instr) (b : Word) (bout kvb : Nat) : State :=
  standAt 2 0 .b i (fun st => { st with s := [(1, 0x40), (2, b), (3, 0)], bout }) (fun s => s.dput 2 0x330000000000 (w64 kvb))
def bankWords7 : List (Instr × BankKind × W6 × Word × Bool × Bool) :=
  [(.bqry (hd 7) (cw 1 2 3 1 2), .bqry, cw 1 2 3 1 2, 0, true, true), (.bapp (hd 7) (cw 1 2 0 0 0), .bapp, cw 1 2 0 0 0, 5, true, false),
   (.bmv (hd 7) (cw 1 2 3 0 0), .bmv, cw 1 2 3 0 0, 0, true, true), (.bflt (hd 7) (cw 1 2 3 0 0), .bflt, cw 1 2 3 0 0, 0, true, true),
   (.bsk (hd 7) (cw 1 2 3 0 0), .bsk, cw 1 2 3 0 0, 0, true, true), (.bmap (hd 7) (cw 1 0 0 0 0), .bmap, cw 1 0 0 0 0, 0, false, false),
   (.berr (hd 7) (cw 1 0 0 0 0), .berr, cw 1 0 0 0 0, 0, false, false)]
theorem witness_CopyAndBankCommandsStart_bank : (bankWords7.all fun p =>
    let b := p.2.2.2.1
    let s := banking p.1 b 15 1
    s.reaches p.1 (hd 7) && (banking p.1 b 16 1).reaches p.1 (hd 7) && okIs (s.rd 1 0) 0x40 && okIs (s.rd 2 1) b && okIs (s.rd 3 2) 0 && decide (s.me.bout < 16) &&
    (match s.bankPlan s.cur.ck p.2.1 p.2.2.1 0x40 (if p.2.2.2.2.1 then b else 0) 0 0 true with
     | .ok o => s.columnRoom s.cur.ck o && (p.2.1 == .bqry) == (p.2.1 == .bqry && o.items == []) | .error _ => false)) = true := by decide +kernel
theorem witness_CopyAndBankCommandsStart_refused : (let i : Instr := .bapp (hd 7) (cw 1 2 0 0 0)
    let s := banking i 64 0 1
    s.reaches i (hd 7) && (match s.bankPlan s.cur.ck .bapp (cw 1 2 0 0 0) 0x40 64 0 0 true with | .ok _ => false | .error _ => true)) = true := by decide +kernel
theorem witness_CopyAndBankCommandsStart_full : (let i : Instr := .bapp (hd 7) (cw 1 2 0 0 0)
    let s := banking i 5 0 1
    match s.bankPlan s.cur.ck .bapp (cw 1 2 0 0 0) 0x40 5 0 0 true with
    | .ok o => !({ s with ops := List.replicate 64 { s.newOp false 0 (.bank o) with ck := s.cur.ck } } : State).columnRoom s.cur.ck o
    | .error _ => false) = true := by decide +kernel
theorem witness_CopyAndBankCommandsStart_wait : ([0, 16].all fun n => let i : Instr := .bwait (hd 0) (cw 0 0 0 0 5)
    (banking i 0 n 0).reaches i (hd 0)) = true := by decide +kernel
theorem witness_HubAndDieCommandsStart_tables : (([.l2mode (hd 0) (cw 0x61 2 0 0 3), .rqstat (hd 3) (cw 9 2 0 0 0), .tbind (hd 0) (cw 0 2 0 1 0), .tbind (hd 0) (cw 0 0 0 0 0)] : List Instr).all fun i =>
    let s := with3 0 .s i 0 5 0 id
    open3 s i 0 5 0 && !s.frz && !s.pathBusy s.cur.ck 0x3F 3 && ({ s with tgen := 0x100000001 } : State).frz && ({ s with tgen := 0x100000001 } : State).reaches (.tbind (hd 0) (cw 0 0 0 0 0)) (hd 0)) = true := by decide +kernel
theorem witness_HubAndDieCommandsStart_roots : (([.kvrootAdd (hd 0) (cw 0x63 2 3 0 0), .kvrootDel (hd 0) (cw 0x63 2 0 1 0)] : List Instr).all fun i =>
    ([2, 7] : List Nat).all fun d => let b := w64 (d * 2 ^ 46 + 0x7000)
    let s := with3 0 .s i 0 b 0x77 id
    open3 s i 0 b 0x77 && published s && fld b 63 50 == 0 && fld b 49 46 == d && b.toNat % 4096 == 0) = true := by decide +kernel
theorem witness_HubAndDieCommandsStart_counter : ([3, 4].all fun n => let i : Instr := .cwait (hd 0) (cw 0x62 0 0 0 3)
    (copying i 0 4 0 0 n).reaches i (hd 0)) = true := by decide +kernel
theorem witness_HubAndDieCommandsStart_tile : (([.tset (hd 0) (cw 0 2 3 0 0x203), .tset (hd 0) (cw 0 0 0 0 0x603)] : List Instr).all fun i =>
    let s := copying i 0 4 0xC0 0xFF40 0
    s.reaches i (hd 0) && okIs (s.tileIdx s.cur.ck 3) 3 && okIs (s.rd 2 1) 0xC0 && okIs (s.rd 3 2) 0xFF40 && isOk (s.vrange s.cur.ck 0xC0 0xFF40)) = true := by decide +kernel

/-- An access-engine word; A register 2 holds `base`, A register 3 `idx`, S register 7 `x`; memory `m`; a second translation to die registers. -/
def acc (i : Instr) (base idx x : Word) (m : List Host.Cell) : State :=
  standAt 0 0 .a i (fun st => { st with a := [(2, base), (3, idx)], s := [(7, x)] }) (fun s => { s with mem := m }.modDie 0 (fun d =>
    { d with tlb := { asid := 0, part := 0, page := 0x10, size := 0x10000, frame := 0x340000000000, w := true } :: d.tlb }))
/-- The access is of memory, and what the address check says. -/
def memAt (s : State) (ea : Word) (n : Nat) (wr : Bool) : Bool := isOk (s.check ea) && (match s.devPlace ea n wr with | .ok none => true | _ => false)
def devAt (s : State) (ea : Word) (n : Nat) (wr : Bool) : Bool := isOk (s.check ea) && (match s.devPlace ea n wr with | .ok (some _) => true | _ => false)
def loads (s : State) (ea : Word) (n : Nat) : Bool := match s.loadRange s.cur.ck ea.toNat n with | .ok _ => true | _ => false
theorem witness_ScalarLoadsAndStores_load : (([mw 5 0x42 0x43 0 0, mw 5 0x42 0x43 3 0x38, { mw 6 0x42 0x43 2 0xFFFFFFFFFFFC with x := true, pi := true, sc := true }] : List W2).all fun w =>
    let i : Instr := .ld (hd 3) { w with d := 0x40 + w.d }
    let s := acc i 0x800 0x10 0 (Mem.writeLE [] 0x800 0x8877665544332211 8)
    let t := acc i 0x100000 0x10 0 []
    match s.ea w (2 ^ w.sz.toNat), t.ea w (2 ^ w.sz.toNat) with
    | .ok ea, .ok eb => s.reaches i (hd 3) && okIs (s.rd w.base 0) 0x800 && memAt s ea (2 ^ w.sz.toNat) false && loads s ea (2 ^ w.sz.toNat) &&
        (match s.place s.myAsid s.myPart ea.toNat false with
         | .ok (.mem _ _ key) => (List.range (2 ^ w.sz.toNat)).all (fun j => !s.foreign (key + j) s.myPart) | _ => false) &&
        decide (ea.toNat % 64 + 2 ^ w.sz.toNat ≤ 64) && s.me.pbuf == [] && s.posted == [] && s.shadows == [] && s.slotFree s.cur.ck && !s.late && t.reaches i (hd 3) && t.slotFree t.cur.ck && (w.sz == 0 || devAt t eb (2 ^ w.sz.toNat) false) &&
        (let u : State := { s with late := true }
         u.reaches i (hd 3) && u.slotFree u.cur.ck && memAt u ea (2 ^ w.sz.toNat) false && destOf (0x40 + w.d) != .none) &&
        (let u := noSlot s; u.reaches i (hd 3) && !u.slotFree u.cur.ck)
    | _, _ => false) = true := by decide +kernel
theorem witness_ScalarLoadsAndStores_store : (([mw 7 0x42 0x43 0 0, mw 7 0x42 0x43 3 0x3C, { mw 7 0x42 0x43 2 0xFFFFFFFFFFFC with pi := true, sc := true }] : List W2).all fun w =>
    let i : Instr := .st (hd 0) w
    let s := acc i 0x800 0x10 0x1122334455667788 []
    let t := acc i 0x100000 0x10 5 []
    match s.ea w (2 ^ w.sz.toNat), t.ea w (2 ^ w.sz.toNat) with
    | .ok ea, .ok eb => s.reaches i (hd 0) && okIs (s.rd w.base 0) 0x800 && okIs (s.rd w.d 2) 0x1122334455667788 && memAt s ea (2 ^ w.sz.toNat) true &&
        decide (s.me.pbuf.length < 256) && t.reaches i (hd 0) && (w.sz != 2 || devAt t eb 4 true) &&
        isOkS (s.bufferStore ea.toNat (2 ^ w.sz.toNat) 0x1122334455667788) &&
        (let u := s.modMe (fun st => { st.modEng .a (fun x => { x with flight := [⟨.s 1, .word 1 false, 100, 6, 0, 0, 0, false, true, false⟩] }) with
             pbuf := (List.range 256).map (fun j => { line := 0x1000 + j, bytes := 0, valid := 1, pub := 0, dead := 0, gen := 1, tabs := 0 }) })
         u.reaches i (hd 0) && memAt u ea (2 ^ w.sz.toNat) true && decide (256 < u.me.pbuf.length + u.newLines ea.toNat (2 ^ w.sz.toNat)) && u.loadsComing) &&
        (w.sz != 0 || (isOk (t.check eb) && (match t.devPlace eb 1 true with | .error (.fatal _) => true | _ => false)))
    | _, _ => false) = true := by decide +kernel
/-- The pod that 0x8080000000000000 names may be reached, and an earlier copy to it is outstanding. -/
def behindCopy (s : State) : State :=
  let s := (((s.dput 8 (fabOff 0x2000) 2).dput 8 (fabOff 0x2020) (w64 (1 + 2 ^ 36))).dput 8 (fabOff 0x1008) 1).modMe (fun st => { st with tgb := s.gen })
  { s with nextId := 9, ops := [s.newOp false 0 (.copy { kind := .cpy, fn := 0, imm := 0, a := 0x8080000000000000, b := 0x1000, c := 64, done := 0, gen := s.me.tgb, tabs := s.tabs })].map (fun o => { o with id := 3 }) }
theorem witness_ScalarLoadsAndStores_later : (let w := mw 0x45 0x42 0x43 3 0
    let i : Instr := .ld (hd 3) w
    let far := behindCopy (acc i 0x8080000000000000 0 0 [])
    let gone := acc i 0x300000 0 0 []
    let dev := acc i 0x100004 0 0 []
    (([(far, 0x8080000000000000), (gone, 0x300000), (dev, 0x100004)] : List (State × Word)).all fun p =>
      p.1.reaches i (hd 3) && okIs (p.1.ea w 8) p.2 && okIs (p.1.rd 0x42 0) p.2 && isOk (p.1.check p.2) && p.1.slotFree 0 && p.1.me.pbuf == []) &&
    memAt far 0x8080000000000000 8 false && far.mustFollow 0 0x8080000000000000 &&
    memAt gone 0x300000 8 false && (match gone.loadRange 0 0x300000 8 with | .error (.fatal _) => true | _ => false) &&
    (match dev.devPlace 0x100004 8 false with | .error (.fatal _) => true | _ => false)) = true := by decide +kernel
theorem witness_ScalarLoadsAndStores_absent : (let w := mw 7 0x42 0x43 3 0
    let i : Instr := .st (hd 0) w
    let s := acc i 0x100004 0 5 []
    s.reaches i (hd 0) && okIs (s.ea w 8) 0x100004 && okIs (s.rd w.base 0) 0x100004 && okIs (s.rd w.d 2) 5 && isOk (s.check 0x100004) &&
    (match s.devPlace 0x100004 8 true with | .error (.fatal _) => true | _ => false)) = true := by decide +kernel
/-- A pattern of one dimension: `ext` entries with stride `str`. -/
def pat1 (str ext : Nat) : Nat := str + ext * 2 ^ 256 + 2 ^ 448
/-- Stream 5 in the state `x`, at word `i`; the pattern block stands at 0x840. -/
def binding (i : Instr) (x : Stream) (hdl : Bool) : State :=
  standAt 0 0 .a i (fun st => { st with a := [(2, 0x840), (3, 0x1000)], q := [(5, x)], hdl }) (fun s => { s with mem := Mem.writeLE [] 0x840 (pat1 8 64) 64 })
/-- An array operation that still pops from stream 5 is outstanding. -/
def taking (s : State) : State := { s with ops := [s.newOp false 0 (.mat {
  kind := .mma, w := { zd := 0, zs := 0, qa := 5, bv := 6, ms := 0, ks := 0x3F, ty := 3, acc := false, gz := 0, voff := 0, rsv := 0 },
  lb := 7, bv := 0, ms := 0, ashape := 0x11, kdone := 0, got := 0, abits := 0, alen := 0, need := 64, flags := 0, dsec := 0, widx := 0, text := 8 })] }
theorem witness_StreamBindingsAndEntries_bind : (([(0, 0, 0), (1, 2, 0xFFFFFFFFFF)] : List (BitVec 2 × BitVec 2 × BitVec 40)).all fun p =>
    let i : Instr := .qbind (hd 0) { q := 5, dir := p.1, ety := 4, base := 0x43, pat := 0x42, scope := p.2.1, rsv := 0, imm := p.2.2 }
    let s := binding i Stream.init false
    s.reaches i (hd 0) && !s.me.hdl && (s.me.stream 5).state == .unbound && okIs (s.rd 0x42 1) 0x840 && okIs (s.rd 0x43 0) 0x1000 && isOk (s.check 0x840) &&
    (match s.loadRange s.cur.ck 0x840 64 with
     | .ok v => !v.2 && patOk (BitVec.ofNat 512 v.1) && decide (bindCount p.2.2 (BitVec.ofNat 512 v.1) ≤ 2 ^ 40 - 1) | .error _ => false) &&
    s.me.laterQ == [] && !s.streamTaken s.cur.ck 5 && s.slotFree s.cur.ck && (binding i { Stream.init with state := .inS } false).reaches i (hd 0) && (taking (binding i Stream.init false)).reaches i (hd 0) && (taking (binding i Stream.init false)).streamTaken 0 5 && (binding i Stream.init true).reaches i (hd 0)) = true := by decide +kernel
theorem witness_StreamBindingsAndEntries_pattern : (let w : W4 := { q := 5, dir := 0, ety := 4, base := 0x43, pat := 0x42, scope := 0, rsv := 0, imm := 0 }
    let i : Instr := .qbind (hd 0) w
    let s := binding i Stream.init false
    let odd := s.modMe (fun st => { st with a := [(2, 0x848), (3, 0x1000)] })
    let bad := s.mark 0x840
    let nil : State := { s with mem := [] }
    let big : State := { s with mem := Mem.writeLE [] 0x840 (pat1 8 0xFFFFFFFF + 0xFFFFFFFF * 2 ^ 288 + 2 ^ 448) 64 }
    (([odd, bad, nil, noSlot s] : List State).all fun s =>
      s.reaches i (hd 0) && !s.me.hdl && !s.streamTaken s.cur.ck 5 && (s.me.stream 5).state == .unbound && isOk (s.check (if s.me.a == odd.me.a then 0x848 else 0x840))) &&
    okIs (odd.rd 0x42 1) 0x848 && okIs (bad.rd 0x42 1) 0x840 && !(noSlot s).slotFree 0 &&
    (match bad.loadRange 0 0x840 64 with | .ok v => v.2 | .error _ => false) &&
    (match nil.loadRange 0 0x840 64 with | .ok v => !v.2 && !patOk (BitVec.ofNat 512 v.1) | .error _ => false) &&
    (match big.loadRange 0 0x840 64 with | .ok v => !v.2 && (!patOk (BitVec.ofNat 512 v.1) || decide (2 ^ 40 - 1 < bindCount 0 (BitVec.ofNat 512 v.1))) | .error _ => false)) = true := by decide +kernel
theorem witness_StreamBindingsAndEntries_free : (let i : Instr := .qfree (hd 0) { q := 5, dir := 0, ety := 0, base := 0, pat := 0, scope := 0, rsv := 0, imm := 0 }
    let e : Entry := { bits := 5, mark := false }
    (binding i Stream.init true).reaches i (hd 0) && (binding i Stream.init true).me.hdl &&
    (let s := binding i Stream.init false; s.reaches i (hd 0) && !s.me.hdl && !s.streamTaken s.cur.ck 5 && s.me.bindingFree 5) &&
    (let s := binding i { Stream.init with state := .outS, count := 3, done := 1 } false; s.reaches i (hd 0) && !s.streamTaken s.cur.ck 5 && s.me.bindingFree 5) &&
    (let s := binding i { Stream.init with state := .outS, count := 3, done := 1, buf := [e] } false; s.reaches i (hd 0) && !s.me.bindingFree 5)) = true := by decide +kernel
theorem witness_StreamBindingsAndEntries_move : (([0, 4, 7] : List (BitVec 4)).all fun ety =>
    let x : Stream := { Stream.init with ety, base := 0x1000, count := 3, pattern := BitVec.ofNat 512 (pat1 2048 64) }
    let i : Instr := .nop (hd 0) (rr 0 0 0)
    let s := binding i { x with state := .inS } false
    let e : Entry := { bits := 5, mark := false }
    let t := binding i { x with state := .outS, done := 1, buf := [e] } false
    let n := (entryBits ety + 7) / 8
    s.running? 0 && !s.me.hdl && !s.me.full && decide ((0 : Nat) < 32768 / entryBits ety) && isOk (s.checkOf 0 0x1000) && !s.global 0x1000 &&
    (match s.loadRange 0 0x1000 n with | .ok _ => true | .error _ => false) && s.slotFree 0 && x.tabs == s.tabs && s.posted == [] && !s.probing 0 &&
    t.running? 0 && t.slotFree 0 && t.posted == [] && ((t.modStrand 0 (fun st => st.setStream 5 { x with state := .outS, done := 1, buf := [] })).wrRange (t.me? 0) 0x1000 n 5).2.isNone) = true := by
  decide +kernel
theorem witness_StreamBindingsAndEntries_fails : (let x (b : Word) (o : Bool) : Stream := { Stream.init with
        state := if o then .outS else .inS, ety := 4, base := b, count := 3, done := if o then 1 else 0, gen := 1,
        pattern := BitVec.ofNat 512 (pat1 2048 64), buf := if o then [{ bits := 5, mark := false }] else [] }
    let i : Instr := .nop (hd 0) (rr 0 0 0)
    (([0x300000, 0x4000000000000, 0x2400000000000] : List Word).all fun b => [false, true].all fun o =>
      let s := binding i (x b o) false
      let ea := (x b o).addr 0
      s.slotFree 0 && (x b o).tabs == s.tabs && s.posted == [] && s.running? 0 && !s.me.hdl && !s.me.full && !s.probing 0 && ea == b &&
      (match s.checkOf 0 ea with | .error (.trap _) => b != 0x300000 | .ok () => b == 0x300000 | _ => false) && !s.mustFollow 0 ea && !s.global ea &&
      (b != 0x300000 || (match s.loadRange 0 ea.toNat 8 with | .error (.fatal _) => true | _ => false) &&
        (match s.place (ctxAsid (s.ctx 0)) (ctxPart (s.ctx 0)) (ea.toNat / 64 * 64) true with | .error .fail => true | _ => false))) &&
    (let s := behindCopy (binding i { x 0x8080000000000000 false with gen := 0 } false)
     s.global 0x8080000000000000 && isOk (s.checkOf 0 0x8080000000000000) && s.gen != 0)) = true := by decide +kernel
theorem witness_ProbeAndAddressWait_probe : (let w := mw 0x62 0x42 0x43 3 0
    let i : Instr := .probe (hd 3) w
    let s := acc i 0x800 0x10 0 []
    let t := acc i 0xFFF8 0 0 []
    let u := acc i 0xFFFC 0 0 []
    let bytes (ea : Nat) : List Nat := (List.range 8).map (fun i => (ea + i) % 2 ^ 64)
    s.cur.eng == .a && s.reaches i (hd 3) && s.posted == [] && s.slotFree s.cur.ck && (s.me.eng .a).flight == [] && okIs (s.ea w 8) 0x810 && isOk (s.check 0x810) && (bytes 0x810).all (fun a => (s.mapped a).isSome) &&
    (bytes 0xFFF8).all (fun a => (t.mapped a).isSome) && okIs (u.ea w 8) 0xFFFC && isOk (u.check 0xFFFC) && u.reaches i (hd 3) && ((bytes 0xFFFC).find? (fun a => (u.mapped a).isNone)).isSome &&
    (let v := s.modMe (fun st => st.modEng .a (fun x => { x with flight := [⟨.s 1, .word 1 false, 100, 3, 0, 0, 0, false, false, false⟩] }))
     v.reaches i (hd 3) && (v.me.eng .a).flight != [])) = true := by decide +kernel
def atomics (w : W2) : List Instr := [.aswap (hd 5) w, .acas (hd 5) w, .aiadd (hd 5) w, .amin (hd 5) w, .amax (hd 5) w, .aandm (hd 5) w, .aorm (hd 5) w, .axorm (hd 5) w]
theorem witness_AtomicAccesses : ((([(2, 0x800), (2, 0x802), (3, 0x808), (3, 0x804)] : List (BitVec 3 × Word)).all fun p =>
    let w : W2 := { mw 0x46 0x42 0x07 p.1 0 with ord := 2 }
    (atomics w ++ (if p.1 = 2 then ([.afadd (hd 5) w] : List Instr) else [])).all fun i =>
    let s := acc i p.2 0 9 (Mem.writeLE [] 0x800 77 8)
    s.reaches i (hd 5) && okIs (s.eaAtomic w) p.2 && isOk (s.check p.2) && okIs (s.rd w.idx 1) 9 && okIs (s.rd w.d 2) 0 &&
    s.slotFree s.cur.ck && !s.posts p.2 (!w.ord.getLsbD 0) && s.posts 0x300000 true &&
    (let u : State := { s with late := true }; u.reaches i (hd 5) && u.slotFree u.cur.ck && u.posts p.2 (!w.ord.getLsbD 0)) &&
    (let u := noSlot s; u.reaches i (hd 5) && !u.slotFree u.cur.ck) &&
    (match s.atomicPublish w p.2 (2 ^ p.1.toNat) with
     | .ok q => !q.late && (match (q.behind q.agent p.2.toNat).place q.myAsid q.myPart p.2.toNat true with | .ok (.mem ..) => true | _ => false) | .error _ => false)) &&
    ([0x808, 0x80C] : List Word).all (fun ea =>
      let w := mw 0x46 0x42 0 3 0
      ([.aldacq (hd 3) w, .astrel (hd 0) w] : List Instr).all fun i =>
      let s := acc i ea 0 9 []
      (match i.head? with | some h => s.reaches i h | none => false) && okIs (s.ea w 8) ea && isOk (s.check ea) && okIs (s.rd w.d 2) 0 &&
      s.slotFree s.cur.ck && (match s.publishAt s.cur.ck w.scope.toNat with
        | .ok p => !p.posts ea true && ({ p with late := true } : State).posts ea true && isOkS ((p.settleOwn p.cur.ck ea.toNat 8).storeHome p.cur.ck ea 8 0) | .error _ => false) &&
      (match s.publishLine s.cur.ck ea.toNat 8 with | .ok p => (match p.rdPiece p.agent ea.toNat 4 with | .ok _ => true | _ => false) | .error _ => false) &&
      true)) = true := by decide +kernel
theorem witness_ProbeAndAddressWait_waits : (let w := mw 0x62 0x42 0x07 3 0
    let i : Instr := .waita (hd 0) w
    let odd := acc i 0x804 0 5 []
    let full := noSlot (acc i 0x808 0 5 [])
    let far := behindCopy (acc i 0x8080000000000000 0 5 [])
    odd.reaches i (hd 0) && okIs (odd.eaAtomic w) 0x804 && isOk (odd.check 0x804) &&
    full.reaches i (hd 0) && okIs (full.eaAtomic w) 0x808 && isOk (full.check 0x808) && okIs (full.rd w.idx 1) 5 && !full.slotFree 0 &&
    far.reaches i (hd 0) && okIs (far.eaAtomic w) 0x8080000000000000 && isOk (far.check 0x8080000000000000) && okIs (far.rd w.idx 1) 5 && far.mustFollow 0 0x8080000000000000) = true := by
  decide +kernel
theorem witness_AtomicAccesses_fails : (let w := mw 0x46 0x42 0 3 0
    let i : Instr := .aldacq (hd 3) w
    let none_ := acc i 0x300000 0 9 []
    let err : State := { acc i 0x808 0 9 [] with hstate := 4 }
    let far := behindCopy (acc i 0x8080000000000000 0 9 [])
    (([(none_, 0x300000), (err, 0x808), (far, 0x8080000000000000)] : List (State × Word)).all fun p =>
      p.1.reaches i (hd 3) && okIs (p.1.ea w 8) p.2 && isOk (p.1.check p.2) && p.1.slotFree 0 &&
      (match p.1.publishLine 0 p.2.toNat 8 with
       | .ok q => (match q.rdPiece q.agent p.2.toNat 8 with | .error .err => p.2 == 0x808 | .error .fail => p.2 == 0x300000 | .ok _ => false) || p.1.mustFollow 0 p.2
       | .error _ => false)) && !(noSlot none_).slotFree 0) = true := by decide +kernel
theorem witness_ProbeAndAddressWait_wait : (([(77, 0), (78, 0)] : List (Word × Nat)).all fun p =>
    let w := mw 0x62 0x42 0x07 3 0
    let i : Instr := .waita (hd 0) w
    let s := acc i 0x800 0 p.1 (Mem.writeLE [] 0x800 77 8)
    s.reaches i (hd 0) && okIs (s.eaAtomic w) 0x800 && isOk (s.check 0x800) && okIs (s.rd w.idx 1) p.1 &&
    s.slotFree s.cur.ck &&
    (match s.publishLine s.cur.ck 0x800 8 with
     | .ok q => (match q.waitaRead 0x800 8 with | .at_ k v => k == 0x800 && v == 77 | _ => false) &&
         (match q.waitaRead 0x300000 8 with | .fail => true | _ => false) &&
         (match ({ q with hstate := 4 } : State).waitaRead 0x800 8 with | .err => true | _ => false) | .error _ => false)) = true := by decide +kernel
/-- A `waita` parked on 8 bytes at key 0x800 since fabric time `born`, with value `b` seen. -/
def parked (b born : Nat) : State :=
  stand 0 0 .a 0 (fun st => st.modEng .a (fun x => { x with flight := [⟨.p 2, .waita 0x800 8 b born 0, 90, 0, 0, 0, 0, false, true, false⟩] })) (fun s =>
    { s with mem := Mem.writeLE [] 0x800 77 8, ftime := 65536 * 11 })
theorem witness_ProbeAndAddressWait_events : ((parked 76 1).running? 0 && (parked 76 1).watchFires (ctxPart ((parked 76 1).ctx 0)) 0x800 8 76 0 && !(parked 77 1).watchFires 0 0x800 8 77 0 &&
    decide (0 + 65536 * 11 ≤ (parked 77 0).ftime) && decide ((parked 77 1).ftime < 1 + 65536 * 11)) = true := by decide +kernel

/-- Type codes TD, TS with X and RC. -/
abbrev ty (td ts x rc : Nat) : BitVec 12 := BitVec.ofNat 12 (td * 128 + ts * 4 + x * 2 + rc)
/-- A vector word at shape `sh`, its registers v1 to v4 and mask m3 filled. -/
def vat (i : Instr) (sh : BitVec 13) : State :=
  standAt 0 0 .v i (fun st => { st with
    vshape := sh, s := [(9, 2)],
    v := [(1, 0x3F800000BF800000FF800001C0A00000), (2, 0x40000000C00000007FC000003F000000), (3, 0x00010002000300040005000600070000), (4, 0x0123456789ABCDEF)],
    m := [(3, 0x5A)], q := [(2, { Stream.init with state := .inS, ety := 7, count := 9, buf := [⟨0x3F80000040000000, false⟩, ⟨5, false⟩] }),
      (3, { Stream.init with state := .outS, ety := 7, count := 9 })] }) id
/-- Two rows of 16 lanes of 32 bits, and one row of 16. -/
abbrev shape2 : BitVec 13 := 0x1801
/-- The operands of a lane-wise word, where all can be read. -/
def laneIn (s : State) (w : W1) (bT cT keeps masked : Bool) : Option VIn :=
  match s.vopnd w.a 0 0, (if bT ∧ !vscalar w then s.vopnd w.b (countOf [w.a] w.b) 1 else .ok 0), (if bT ∧ vscalar w then (s.rd w.b 1).map (fun x => x.toNat) else .ok 0),
    (if cT then s.vopnd w.c (countOf (laneOperands w bT false) w.c) 2 else .ok 0), (if keeps then s.vopnd w.d 0 3 else .ok 0) with
  | .ok a, .ok b, .ok sb, .ok c, .ok old => some { a, b, c, old, mask := if masked then s.mget w.c 4 else 0, sb }
  | _, _, _, _, _ => none
/-- The hypotheses of a lane-wise statement hold. -/
def laneOpen (s : State) (i : Instr) (h : Head) (w : W1) (widths : List Nat) (inc : Nat) (bT cT cM rdD : Bool) : Bool :=
  let masked := cM && w.c != 0
  s.reaches i h && isOk (s.vopen inc widths (laneOperands w bT cT) (some w.d)) && (laneIn s w bT cT ((masked && Legal.vreg w.d) || rdD) masked).isSome
def vw (d a b c : BitVec 7) (fn : BitVec 12) : W1 := { d, a, b, c, fn, imm := 0 }
/-- Operand forms of a two-operand word: registers, a mask, a stream source, the scalar view. -/
def forms2 (td ts : Nat) : List W1 :=
  [vw 5 1 2 0 (ty td ts 0 0), vw 5 1 2 0x53 (ty td ts 0 0), vw 5 0x42 0x42 0 (ty td ts 0 0), vw 5 1 9 0x53 (ty td ts 1 0)]
def forms1 (td ts : Nat) : List W1 := [vw 5 1 0 0 (ty td ts 0 0), vw 5 1 0 0x53 (ty td ts 0 0), vw 5 0x42 0 0 (ty td ts 0 0)]
theorem witness_LaneArithmetic : (([(1, 1), (2, 1), (13, 13)] : List (Nat × Nat)).all (fun t => (forms2 t.1 t.2).all (fun w =>
    ([.vadd (hd 4) w, .vsub (hd 4) w, .vmul (hd 4) w, .vmin (hd 4) w, .vmax (hd 4) w] : List Instr).all (fun i =>
      laneOpen (vat i shape2) i (hd 4) w [wTD w, wTS w] 2 true false true false))) &&
    ([(1, 1), (3, 2), (9, 9)] : List (Nat × Nat)).all (fun t => (forms1 t.1 t.2).all (fun w =>
    ([.vabs (hd 4) w, .vneg (hd 4) w, .vclamp (hd 4) w] : List Instr).all (fun i => laneOpen (vat i shape2) i (hd 4) w [wTD w, wTS w] 2 false false true false))) &&
    ([vw 5 1 2 3 (ty 1 1 0 0), vw 5 1 9 1 (ty 3 1 1 0)] : List W1).all (fun w =>
      laneOpen (vat (.vfma (hd 4) w) shape2) (.vfma (hd 4) w) (hd 4) w [wTD w, wTS w] 3 true true false false)) = true := by decide +kernel
theorem witness_LaneLogicAndShifts : (([8, 14, 15] : List Nat).all (fun t => (forms2 t t).all (fun w =>
    ([.vand (hd 4) w, .vor (hd 4) w, .vxor (hd 4) w] : List Instr).all (fun i => laneOpen (vat i shape2) i (hd 4) w [wTD w] 2 true false true false)) &&
    (forms1 t t).all (fun w => laneOpen (vat (.vnot (hd 4) w) shape2) (.vnot (hd 4) w) (hd 4) w [wTD w] 2 false false true false) &&
    ([vw 5 1 2 0x53 (ty t t 0 0), { vw 5 1 0 0 (ty t t 0 0) with imm := 0x7F }] : List W1).all (fun w =>
    ([.vshl (hd 4) w, .vshr (hd 4) w, .vsar (hd 4) w] : List Instr).all (fun i =>
      laneOpen (vat i shape2) i (hd 4) w [wTD w] 2 (!w.imm.getLsbD 6) false true false)))) = true := by decide +kernel
theorem witness_LaneLogicAndShifts_whole : (([vw 5 1 2 0 0, vw 0x52 0x53 0x54 0 0] : List W1).all fun w => ([.vand (hd 4) w, .vor (hd 4) w, .vxor (hd 4) w, .vnot (hd 4) { w with b := 0 }] : List Instr).all fun i =>
    let s := vat i shape2
    s.reaches i (hd 4) && vTS w == 0 && (if Legal.mreg w.d then isOk (s.vopen 2 [] [] none) else
      isOk (s.vopen 2 [] [w.a, w.b] (some w.d)) && isOk (s.vopen 2 [] [w.a] (some w.d)) && (laneIn s w true false false false).isSome)) = true := by decide +kernel
theorem witness_LaneFunctionsAndConversions : ((forms1 1 3 ++ forms1 2 1).all (fun w =>
    ([.vexp2 (hd 4) w, .vlog2 (hd 4) w, .vrcp (hd 4) w, .vrsq (hd 4) w, .vtanh (hd 4) w] : List Instr).all (fun i =>
      laneOpen (vat i shape2) i (hd 4) w [wTD w, wTS w] 3 false false true false)) &&
    (forms1 9 1 ++ forms1 1 4 ++ forms1 15 2).all (fun w => laneOpen (vat (.vcvt (hd 4) w) shape2) (.vcvt (hd 4) w) (hd 4) w [wTD w, wTS w] 2 false false true false) &&
    (forms1 4 1 ++ forms1 6 2).all (fun w => laneOpen (vat (.vscexp (hd 4) w) shape2) (.vscexp (hd 4) w) (hd 4) w [8, wTS w] 2 false false true false) &&
    ([vw 5 1 2 0x53 (ty 4 1 0 0), vw 5 1 9 0 (ty 9 2 1 0), vw 5 1 2 3 (ty 18 1 0 0)] : List W1).all (fun w =>
      let zq := zeroPt (vTD w) && w.c != 0
      laneOpen (vat (.vqnt (hd 4) w) shape2) (.vqnt (hd 4) w) (hd 4) w ([wTD w, wTS w] ++ (if vscalar w then [] else [32]) ++ (if zq then [8] else [])) 2 true zq (!zeroPt (vTD w)) false) &&
    ([vw 5 1 2 0x53 (ty 1 4 0 0), vw 5 1 2 3 (ty 2 18 0 0)] : List W1).all (fun w =>
      let zd := zeroPt (vTS w) && w.c != 0
      laneOpen (vat (.vdq (hd 4) w) shape2) (.vdq (hd 4) w) (hd 4) w ([wTD w, wTS w, 32] ++ (if zd then [8] else [])) 2 true zd (!zeroPt (vTS w)) false) &&
    ([vw 5 1 2 3 (ty 1 1 0 0), vw 5 1 2 0 (ty 1 11 0 0)] : List W1).all (fun w =>
      laneOpen (vat (.vscacc (hd 4) w) shape2) (.vscacc (hd 4) w) (hd 4) w [32, wTS w] 2 true (w.c != 0) false true)) = true := by decide +kernel
theorem witness_CompareAndSelectLanes : (([vw 0x53 1 2 0 (ty 0 1 0 0), vw 0x53 1 9 0x53 (ty 0 13 1 0)] : List W1).all (fun w =>
      let i : Instr := .vcmp (hd 4) { w with imm := 6 }
      let s := vat i shape2
      s.reaches i (hd 4) && isOk (s.vopen 2 [wTS w] ([w.a] ++ (if vscalar w then [] else [w.b])) none) && (laneIn s w true false false false).isSome) &&
    ([vw 5 1 2 0x53 (ty 12 12 0 0), vw 5 1 9 0x53 (ty 8 8 1 0)] : List W1).all (fun w =>
      let i : Instr := .vsel (hd 4) w
      let s := vat i 0x0001
      s.reaches i (hd 4) && (laneIn s w true false false false).isSome && (wTD w == 64 || isOk (s.vopen 2 [wTD w, wTS w] ([w.a] ++ (if vscalar w then [] else [w.b])) (some w.d))))) = true := by
  decide +kernel
theorem witness_LaneMovementRowsAndColumns_moves : (([8, 1] : List Nat).all (fun t => (forms1 t t).all (fun w =>
    ([.vmov (hd 4) w, .vbcast (hd 4) w, .vtrans (hd 4) w] : List Instr).all (fun i => laneOpen (vat i shape2) i (hd 4) w [wTD w] 2 false false true false))) &&
    ([vw 5 0 9 0 (ty 1 1 1 0), vw 5 0 9 0x53 (ty 8 8 1 0)] : List W1).all (fun w => let s := vat (.vmov (hd 4) w) shape2
      s.reaches (.vmov (hd 4) w) (hd 4) && isOk (s.vopen 2 [wTD w] [] (some w.d)) && okIs (s.rd 9 1) 2 && (laneIn s { w with a := 1 } false false true false).isSome) &&
    ([vw 5 1 0 0 0, vw 5 0x42 0 0 0] : List W1).all (fun w => let s := vat (.vmov (hd 4) w) shape2
      s.reaches (.vmov (hd 4) w) (hd 4) && isOk (s.vopen 2 [] [w.a] (some w.d)) && (laneIn s w false false false false).isSome) &&
    (let w := vw 0x52 0x53 0 0 0; let s := vat (.vmov (hd 4) w) shape2; s.reaches (.vmov (hd 4) w) (hd 4) && isOk (s.vopen 2 [] [] none)) &&
    ([vw 5 1 2 0 (ty 1 1 0 0), { vw 5 1 0 0 (ty 1 1 0 0) with imm := 0xF01 }, { vw 5 1 0 0 (ty 1 1 0 0) with imm := 0x102 }] : List W1).all (fun w =>
      let mode := w.imm.toNat % 4
      let k := w.imm.toNat / 256 % 4096
      let s := vat (.vperm (hd 4) w) shape2
      s.reaches (.vperm (hd 4) w) (hd 4) && isOk (s.vopen 2 ([wTD w] ++ (if mode = 0 then [16] else [])) ([w.a] ++ (if mode = 0 then [w.b] else [])) (some w.d)) &&
      (laneIn s w true false false false).isSome && (mode != 1 || decide (k < shNc shape2)) && (mode != 2 || decide (k < shNr shape2)) && decide (shNr shape2 * shNc shape2 ≤ 1024))) = true := by
  decide +kernel
theorem witness_Reductions : (([0, 1] : List Nat).all fun rc => ([vw 5 1 0 0 (ty 1 1 0 rc), vw 5 0x42 0 0x53 (ty 2 2 0 rc)] : List W1).all fun w =>
    ([.vredsum (hd 4) w, .vredmax (hd 4) w, .vredmin (hd 4) w, .vamax (hd 4) w] : List Instr).all fun i =>
    let s := vat i shape2
    s.reaches i (hd 4) && isOk (s.vopen 2 [wTD w, wTS w] [w.a] (some w.d)) && (laneIn s w false false false false).isSome) = true := by decide +kernel
theorem witness_LaneMovementRowsAndColumns_perm : (([{ vw 5 1 0 0x53 (ty 1 1 0 0) with imm := 0xF01 }, { vw 0x43 1 0 0x53 (ty 1 1 0 0) with imm := 0x102 }, vw 5 1 2 0x53 (ty 1 1 0 0)] : List W1).all (fun w =>
      let mode := w.imm.toNat % 4
      let k := w.imm.toNat / 256 % 4096
      let s := vat (.vperm (hd 4) w) shape2
      s.reaches (.vperm (hd 4) w) (hd 4) && isOk (s.vopen 2 ([wTD w] ++ (if mode = 0 then [16] else [])) ([w.a] ++ (if mode = 0 then [w.b] else [])) (some w.d)) &&
      (laneIn s w (mode == 0) false (Legal.vreg w.d) true).isSome && (mode != 1 || decide (k < shNc shape2)) && (mode != 2 || decide (k < shNr shape2))) &&
    (([({ vw 5 1 0 0 (ty 1 1 0 0) with imm := 0x1001 }, shape2), ({ vw 5 1 0 0 (ty 1 1 0 0) with imm := 0x202 }, shape2), (vw 5 1 2 0 (ty 14 14 0 0), 0x1DF8)] : List (W1 × BitVec 13)).all fun p =>
      let w := p.1
      let mode := w.imm.toNat % 4
      let k := w.imm.toNat / 256 % 4096
      let s := vat (.vperm (hd 4) w) p.2
      s.reaches (.vperm (hd 4) w) (hd 4) && isOk (s.vopen 2 ([wTD w] ++ (if mode = 0 then [16] else [])) ([w.a] ++ (if mode = 0 then [w.b] else [])) (some w.d)) &&
      decide ((mode = 0 ∧ 1024 < shNr p.2 * shNc p.2) ∨ (mode = 1 ∧ shNc p.2 ≤ k) ∨ (mode = 2 ∧ shNr p.2 ≤ k)))) = true := by decide +kernel
/-- The waits that come before the traps of a vector word are over. -/
def readyV (s : State) (inc : Nat) (xs : List (BitVec 7)) (d : Option (BitVec 7)) : Bool :=
  xs.all (fun x => isOk (s.vwait x (countOf xs x))) && isOk (s.powerCheck inc) &&
  (match d with
   | some x => if Legal.qreg x then (match s.pushCheck (x.toNat - 0x40) 1 with | .error .wait => false | _ => true) else isOk (s.vwait x 0)
   | none => true)
/-- Stream 2 or 3 as it stands in `vat` but unbound, of the other direction, or used up. -/
def rebound (s : State) (f : Stream → Stream) : State := s.modMe (fun st => { st with q := st.q.map (fun p => (p.1, f p.2)) })
theorem witness_TrapsAcrossFamiliesAndDependenceWaits_vector :
    (let narrow : BitVec 13 := 0x1001
     let w := vw 5 1 2 0 (ty 1 1 0 0)
     let u := vw 5 1 0 0 (ty 1 1 0 0)
     ([(.vadd (hd 4) w, true), (.vcmp (hd 4) { vw 0x53 1 2 0 (ty 0 1 0 0) with imm := 6 }, true), (.vabs (hd 4) u, false), (.vexp2 (hd 4) u, false), (.vcvt (hd 4) u, false)] : List (Instr × Bool)).all (fun p =>
       let s := vat p.1 narrow
       s.reaches p.1 (hd 4) && readyV s 2 (if p.2 then [1, 2] else [1]) (some 5) && isOk (s.powerCheck 3) && decide (shEw narrow < 32)) &&
     (let i : Instr := .vadd (hd 4) (vw 5 0x42 0x42 0 (ty 1 1 0 0))
      ([(fun q => { q with state := .unbound }), (fun q => { q with state := .outS }), (fun q => { q with count := 1 })] : List (Stream → Stream)).all (fun f =>
        let s := rebound (vat i shape2) f
        let q := s.me.stream 2
        s.reaches i (hd 4) && readyV s 2 [0x42, 0x42] (some 5) && decide (32 ≤ shEw shape2) && (q.state != .inS || decide (q.count < q.done + 2)))) &&
     (let i : Instr := .vadd (hd 4) (vw 0x43 1 2 0 (ty 1 1 0 0))
      ([(fun q => { q with state := .unbound }), (fun q => { q with count := 0 })] : List (Stream → Stream)).all (fun f =>
        let s := rebound (vat i shape2) f
        let q := s.me.stream 3
        s.reaches i (hd 4) && readyV s 2 [1, 2] (some 0x43) && (q.state != .outS || decide (q.count ≤ q.done)))) &&
     (let i : Instr := .vabs (hd 4) (vw 5 1 0 0 (ty 1 1 0 0))
      let s := (vat i shape2).modMe (fun st => { st with vmark := 2 })
      s.reaches i (hd 4) && isOk (s.vopen 2 [32, 32] [1] (some 5)) && bit s.me.vmark (s.vphys 1) && !s.undefined s.me .v (.v (s.vphys 1))) &&
     (let i : Instr := .vabs (hd 4) (vw 5 0x42 0 0 (ty 1 1 0 0))
      let s := rebound (vat i shape2) (fun q => { q with buf := q.buf.map (fun e => { e with mark := true }) })
      s.reaches i (hd 4) && isOk (s.vopen 2 [32, 32] [0x42] (some 5)) && ((s.me.stream 2).buf[0]?).any (fun e => e.mark)) &&
     (let i : Instr := .vabs (hd 4) (vw 5 0x58 0 0 (ty 1 1 0 0))
      let s := (stand 0 0 .v 0x401A000000000000 (fun st => { st with vshape := shape2 }) id).modMyEng (fun e => { e with
        widx := 1, bypass := [{ widx := 0, val := some (5, true) }], sec := { e.sec with begun := true } })
      (match s.bypassed 1 with | .ok v => v.2 | .error _ => false) && isOk (s.vopen 2 [32, 32] [0x58] (some 5)) && s.reaches i (hd 4))) = true := by decide +kernel
theorem witness_TrapsAcrossFamiliesAndDependenceWaits_scalar :
    (let f (s : State) : State := s.modMe (fun st => { st with amark := 2 ^ 5, a := [(5, 9)] })
     let w := rr 3 0x45 2
     let i : Instr := .add (hd 6) w
     let s := f (atS i 5 7)
     let j : Instr := .ld (hd 3) (mw 0x46 0x45 0 3 0)
     let t := f (acc j 0 0 0 [])
     s.reaches i (hd 6) && bit s.me.amark 5 && !s.undefined s.me .a (.a 5) && t.reaches j (hd 3) && bit t.me.amark 5 && !t.undefined t.me .a (.a 5)) = true := by decide +kernel
theorem witness_TrapsAcrossFamiliesAndDependenceWaits_waits :
    (let s := (atS (.nop (hd 0) (rr 0 0 0)) 0 0).modMe (fun st => st.modEng .s (fun x => { x with sec := { x.sec with waits := [(.v, 3)] } }))
     let x := (s.strand 0).eng .s
     x.pos == .words && !x.sec.begun && decide (((s.strand 0).eng .v).retc ≤ 3) && (atS (.nop (hd 0) (rr 0 0 0)) 0 0).stands 0 .s) = true := by decide +kernel

/-- A vector word at a row or column `b`, shape `sh`, with the accumulators of the strand marked F. -/
def atRow (i : Instr) (b : Word) : State :=
  standAt 0 0 .v i (fun st => { st with
    vshape := 0x1801, s := [(9, b)], v := [(1, 0x0000000400000003000000020000000140000000), (5, 0x123456789)], accp := true, ashape := 0x3FF,
    z := [(zKey 0 256, 0x3F80), (zKey 1 3, 0x4000)], ztag := [(0, .i), (1, .f)] }) id
theorem witness_LaneMovementRowsAndColumns_traps : (([false, true] : List Bool).all fun c => ([0x800, 0xFFFF] : List Word).all fun b =>
    ([(vw 5 1 9 0 (ty 1 1 1 (b2n c)), false), (vw 5 0x5C 9 0 (ty 11 11 1 (b2n c)), false), (vw 5 1 9 0 (ty 1 1 1 (b2n c)), true), (vw 0x5D 1 9 0 (ty 11 11 1 (b2n c)), true)] : List (W1 × Bool)).all fun p =>
    let w := p.1
    let i : Instr := if p.2 then (if c then .vcolput (hd 4) w else .vrowput (hd 4) w) else (if c then .vcol (hd 4) w else .vrow (hd 4) w)
    let s := atRow i b
    let x := if p.2 then w.d else w.a
    let k := b.toNat % 65536
    s.reaches i (hd 4) && okIs (s.rd 9 1) b &&
    (if Legal.zreg x then isOk (s.zwait (zOf x)) && isOk (s.vopen 2 [wTD w] (if p.2 then [w.a] else []) (if p.2 then none else some w.d)) &&
        decide ((if c then (accDims s.myProfile).2 else (accDims s.myProfile).1) ≤ k)
     else isOk (s.vopen 2 [wTD w] [w.a] (some w.d)) && decide ((if c then shNc s.me.vshape else shNr s.me.vshape) ≤ k))) = true := by decide +kernel
theorem witness_LaneMovementRowsAndColumns_get : (([false, true] : List Bool).all fun c => ([0, 1, 0x10001, 0xFFFF] : List Word).all fun b =>
    ([vw 5 1 9 0 (ty 1 1 1 (b2n c)), vw 5 0x5C 9 0 (ty 11 11 1 (b2n c))] : List W1).all fun w =>
    let i : Instr := if c then .vcol (hd 4) w else .vrow (hd 4) w
    let s := atRow i b
    s.reaches i (hd 4) && okIs (s.rd 9 1) b && (if Legal.zreg w.a then isOk (s.zwait (zOf w.a)) && isOk (s.vopen 2 [wTD w] [] (some w.d)) &&
      (decide ((accDims s.myProfile).1 ≤ b.toNat % 65536) || decide (b.toNat % 65536 < (accDims s.myProfile).2))
     else isOk (s.vopen 2 [wTD w] [w.a] (some w.d)) && (laneIn s w false false false false).isSome &&
      (b == 0xFFFF) == decide ((if c then shNc s.me.vshape else shNr s.me.vshape) ≤ b.toNat % 65536))) = true := by decide +kernel
theorem witness_LaneMovementRowsAndColumns_put : (([false, true] : List Bool).all fun c => ([0, 1, 0x10001] : List Word).all fun b =>
    ([vw 5 1 9 0 (ty 1 1 1 (b2n c)), vw 0x5D 1 9 0 (ty 11 11 1 (b2n c))] : List W1).all fun w =>
    let i : Instr := if c then .vcolput (hd 4) w else .vrowput (hd 4) w
    let s := atRow i b
    s.reaches i (hd 4) && okIs (s.rd 9 1) b && (laneIn s w false false (!Legal.zreg w.d) false).isSome &&
    (if Legal.zreg w.d then isOk (s.zwait (zOf w.d)) && isOk (s.vopen 2 [wTD w] [w.a] none) else isOk (s.vopen 2 [wTD w] [w.a] (some w.d)))) = true := by decide +kernel
/-- A vault access at offset `o` of a strand with tile 2 ready over 0x400 to 0x7FF. -/
def atVault (i : Instr) (o : Word) : State :=
  standAt 0 0 .v i (fun st => { st with vshape := 0x1801, s := [(4, o)], v := [(8, 0x123456789)] }) (fun s =>
    (s.dput 0 (ttabOff 0 2) (w64 (2 + 0x10 * 2 ^ 8 + 16 * 2 ^ 25))).vwrite 0 0x400 0xCAFE 2)
theorem witness_VaultLoadsAndStores : (([(4, 0x400, 64, true), (5, 0x400, 128, true), (5, 0xFFF80, 128, true), (4, 0x100000, 64, false), (5, 0xFFFC0, 128, false)] :
    List (BitVec 3 × Word × Nat × Bool)).all fun p =>
    let w := mw 8 4 0 p.1 0
    ([.vld (hd 4) w, .vst (hd 0) w] : List Instr).all fun i =>
    let s := atVault i p.2.1
    (match i.head? with | some h => s.reaches i h | none => false) && isOk (s.vwait 8 0) && okIs (s.ea w p.2.2.1) p.2.1 && s.posted == [] && s.shadows == [] && !s.tileBusy 0 p.2.1.toNat p.2.2.1 && isOk (s.powerCheck 2) &&
    s.inWindow 0 p.2.1.toNat p.2.2.1 == p.2.2.2 && (match s.vopnd 8 0 0 with | .ok _ => true | .error _ => false)) = true := by decide +kernel
theorem witness_VaultLoadsAndStores_got : (([none, some (7, true)] : List (Option (Nat × Bool))).all fun g =>
    let i : Instr := .nop (hd 0) (rr 0 0 0)
    let o := (atVault i 0x400).newOp false 0 (.vld 0x400 128 8 2 true g)
    let s := { atVault i 0x400 with ops := [{ o with born := 90 }] }
    (match s.op? o.id with | some x => s.ready x && x.live && !x.dead && x.kind == .vld 0x400 128 8 2 true g | none => false) && s.posted == [] && s.shadows == []) = true := by decide +kernel
theorem witness_VaultLoadsAndStores_async : (let w := mw 8 4 0 5 0
    let i : Instr := .vld (hd 7) w
    let s := atVault i 0x400
    let t := { s with ops := [{ s.newOp false 0 (.vld 0x400 128 8 2 true none) with born := 90 }] }
    s.reaches i (hd 7) && isOk (s.vwait 8 0) && okIs (s.ea w 128) 0x400 && s.posted == [] && s.shadows == [] && isOk (s.powerCheck 2) && s.inWindow 0 0x400 128 &&
    !s.tileBusy 0 0x400 128 && okIs (s.oneTile 0x400 128) 2 && (match t.op? s.nextId with | some o => t.ready o && o.live && o.kind == .vld 0x400 128 8 2 true none | none => false)) = true := by decide +kernel
/-- Stream words: q2 IN with four entries of 32 bits, q3 OUT of 32 bits, mask m3 = 0b1011. -/
def atStream (i : Instr) : State :=
  standAt 0 0 .v i (fun st => { st with
    vshape := 0x1801, m := [(3, 0xB)], v := [(1, 0x0000000300000002000000013F800000), (5, 7)],
    q := [(2, { Stream.init with state := .inS, ety := 3, count := 20, buf := [⟨1, false⟩, ⟨2, false⟩, ⟨3, false⟩, ⟨4, false⟩] }),
      (3, { Stream.init with state := .outS, ety := 3, count := 20 }), (4, { Stream.init with state := .inS, ety := 3, count := 4, buf := [⟨1, false⟩] })] }) id
theorem witness_VectorStreamsAndFifos_streams : ((let w := vw 0x43 1 0 0x53 (ty 1 1 0 0)
      let s := atStream (.vcpush (hd 4) w)
      s.reaches (.vcpush (hd 4) w) (hd 4) && isOk (s.pushCheck 3 3) && isOk (s.vopen 2 [32] [1] none) && entryBits (s.me.stream 3).ety == wTS w && (laneIn s w false false false false).isSome) &&
    (let w := vw 5 0x42 0 0x53 (ty 1 1 0 0)
      let s := atStream (.vcpop (hd 4) w)
      s.reaches (.vcpop (hd 4) w) (hd 4) && isOk (s.popCheck 2 3) && isOk (s.vopen 2 [32] [] (some 5)) && entryBits (s.me.stream 2).ety == wTS w &&
      ((s.me.stream 2).buf.take 3).all (fun e => !e.mark) && (laneIn s { w with a := 1 } false false true false).isSome) &&
    (let w := vw 0x54 0x44 0 0 (ty 1 1 0 0)
      let s := atStream (.vcbal (hd 5) w)
      s.reaches (.vcbal (hd 5) w) (hd 5) && isOk (s.vopen 2 [32] [] none) && entryBits (s.me.stream 4).ety == wTS w &&
      isOk (({ s with time := 101 }.modMe (fun st => st.setStream 4 { st.stream 4 with buf := List.replicate 4 ⟨1, false⟩ })).popCheck 4 4)) &&
    (let w := vw 5 1 0 0 (ty 1 1 0 0)
      let s := atStream (.vacomb (hd 4) w)
      s.reaches (.vacomb (hd 4) w) (hd 4) && isOk (s.vopen 2 [] [1] (some 5)) && (laneIn s w false false true false).isSome)) = true := by decide +kernel
/-- A FIFO word of core `c` of a pair with VFCTL `en`, `n` entries in each direction pushed at aclk `at_`, closed or not. -/
def atFifo (i : Instr) (c en n at_ : Nat) (closed : Bool) : State :=
  let f : Fifo := { entries := List.replicate n (⟨5, false⟩, at_), freed := [], closed }
  standAt 0 c .v i (fun st => { st with v := [(7, 0x99)] }) (fun s => ((s.dput 0 (vfctlOff 0) (w64 en)).setFifo 0 0 true f).setFifo 0 0 false f)
theorem witness_VectorStreamsAndFifos_fifo : (([0, 16] : List Nat).all fun c =>
    let p : Instr := .vfput (hd 0) (vw 0 7 0 0 0)
    let g : Instr := .vfget (hd 2) (vw 9 0 0 0 0)
    let at_ (i : Instr) (en n x : Nat) (cl : Bool) := atFifo i c en n x cl
    let denied (s : State) : Bool := isOk (s.vwait 7 0) && isOk (s.vwait 9 0) && isOk (s.powerCheck 2) && (match s.fifoPermit with | .ok _ => false | .error _ => true)
    (at_ p 0 0 0 false).reaches p (hd 0) && denied (at_ p 0 0 0 false) && (at_ g 0 0 0 false).reaches g (hd 2) && denied (at_ g 0 0 0 false) &&
    isOk (at_ p 1 8 0 false).fifoPermit && (at_ p 1 8 0 false).reaches p (hd 0) && ((at_ p 1 8 0 false).fifo 0 0 (decide (c < 16))).ofree 100 == 0 &&
    ((at_ p 1 7 0 false).fifo 0 0 (decide (c < 16))).ofree 100 != 0 && isOk ((at_ p 1 7 0 false).vwait 7 0) && isOk ((at_ p 1 7 0 false).powerCheck 2) &&
    (laneIn (at_ p 1 7 0 false) (vw 0 7 0 0 0) false false false false).isSome && !bit (at_ p 1 7 0 false).me.vmark ((at_ p 1 7 0 false).vphys 7) &&
    ((at_ p 1 0 0 true).fifo 0 0 (decide (c < 16))).closed && isOk ((at_ p 1 0 0 true).vwait 7 0) && isOk ((at_ p 1 0 0 true).powerCheck 2) && isOk ((at_ g 1 0 0 true).vwait 9 0) && isOk ((at_ g 1 0 0 true).powerCheck 2) && ((at_ g 1 0 0 true).fifo 0 0 (decide (16 ≤ c))).closed &&
    ((at_ g 1 3 98 false).fifo 0 0 (decide (16 ≤ c))).iocc 100 == 0 && ((at_ g 1 3 96 false).fifo 0 0 (decide (16 ≤ c))).iocc 100 != 0 &&
    (at_ g 1 3 96 false).reaches g (hd 2) && isOk ((at_ g 1 3 96 false).vwait 9 0)) = true := by decide +kernel
theorem witness_ShapeWords : (([(0, 0x1801), (1, 0x1801), (1, 0x2000), (1, 5)] : List (BitVec 11 × Word)).all (fun p =>
      let i : Instr := .vshape (hd 0) (if p.1 = 0 then cw 0 0 0 0 (BitVec.ofNat 48 p.2.toNat) else cw 9 0 0 1 0)
      let s := atRow i p.2
      s.reaches i (hd 0) && isOk (s.powerCheck 2) && okIs (s.rd 9 0) p.2 && (decide (p.2.toNat < 2 ^ 13) && Legal.shape p.2.toNat) == (p.2 == 0x1801)) &&
    ([(0, 0xFF, false), (1, 0x11, true), (1, 0x400, false), (1, 0x10, false), (1, 0xF, false)] : List (BitVec 11 × Word × Bool)).all (fun p =>
      let i : Instr := .mshape (hd 0) (if p.1 = 0 then cw 0 0 0 0 (BitVec.ofNat 48 p.2.1.toNat) else cw 9 0 0 1 0)
      let s := standAt 0 0 .m i (fun st => { st with s := [(9, p.2.1)] }) (fun s => if p.2.2 then s.modDie 0 (fun d => { d with bandOff := [0] }) else s)
      s.reaches i (hd 0) && okIs (s.rd 9 0) p.2.1 && s.bandsOff p.2.1.toNat == p.2.2 && !s.taskHolds s.cur.ck)) = true := by decide +kernel
/-- `mstat` after one covered operation. -/
def atStat : State := standAt 0 0 .m (.mstat (hd 0) (cw 5 11 0 0 0)) (fun st => { st with
  s := [(5, 0x440), (11, 0x808)], mstat := { MStat.init with nops := 2, flags := 3 } }) id
theorem witness_ShapeWords_status : (atStat.reaches (.mstat (hd 0) (cw 5 11 0 0 0)) (hd 0) && atStat.asyncMats atStat.cur.ck == 0 && !atStat.taskHolds atStat.cur.ck && okIs (atStat.rd 5 0) 0x440 && okIs (atStat.rd 11 1) 0x808 &&
    isOk (atStat.check 0x440) && isOk (atStat.check 0x808) &&
    (match atStat.storeHome atStat.cur.ck 0x808 8 0x203, atStat.enter.storeHome atStat.cur.ck 0x808 8 0x203 with | .ok _, .ok _ => true | _, _ => false)) = true := by decide +kernel
abbrev mw5 (zd : BitVec 2) (qa : BitVec 4) (bv : BitVec 7) (ty : BitVec 5) (acc : Bool) : W5 :=
  { zd, zs := 0, qa, bv, ms := 0, ks := 0, ty, acc, gz := 0, voff := 0, rsv := 0 }
/-- The matrix words, with a stream, a B operand and types that each may use. -/
def matWords : List (Instr × MatKind × W5) :=
  [(.mma (hd 6) (mw5 0 2 6 4 true), .mma, mw5 0 2 6 4 true), (.mma (hd 7) (mw5 1 2 6 9 false), .mma, mw5 1 2 6 9 false),
   (.mmaz (hd 6) (mw5 1 2 6 17 true), .mmaz, mw5 1 2 6 17 true), (.msp (hd 6) { mw5 0 2 6 4 false with ms := 7 }, .msp, { mw5 0 2 6 4 false with ms := 7 }),
   (.mscacc (hd 5) { mw5 0 0 0 1 true with zs := 1 }, .mscacc, { mw5 0 0 0 1 true with zs := 1 }), (.mdrain (hd 6) (mw5 0 0 6 1 false), .mdrain, mw5 0 0 6 1 false),
   (.mload (hd 6) (mw5 0 0 6 11 false), .mload, mw5 0 0 6 11 false), (.mzero (hd 1) (mw5 1 0 0 0 false), .mzero, mw5 1 0 0 0 false)]
/-- A matrix word of core `c` of die `d` with one row band and one column group; stream q2 of 64-byte entries. -/
def atMat (d : Nat) (i : Instr) (e : Nat) : State :=
  standAt d 0 .m i (fun st => { st with
    ashape := if d < 2 then 0x011 else 0, accp := true, s := [(6, 0x1000), (7, 0x800)], ztag := [(0, .f), (1, .i)], z := [(zKey 0 0, 0x3F800000), (zKey 1 5, 3)],
    q := [(2, { Stream.init with state := .inS, ety := 5, count := 4, done := 0, buf := List.replicate e ⟨0x0102030438404850, false⟩ })] })
    (fun s => s.vwrite (ckOf d 0 0) 0x1000 0x38404850C8 5)
theorem witness_MatrixOperations_start : (matWords.all (fun p =>
      let s := atMat 0 p.1 1
      (match p.1.head? with
       | some h => s.reaches p.1 h && (match s.matPlan p.2.1 h p.2.2 with | .ok _ => true | .error _ => false) | none => false)) &&
    (let i : Instr := .mmv (hd 6) (mw5 0 2 6 4 false)
     let s := atMat 2 i 1
     s.reaches i (hd 6) && (match s.matPlan .mmv (hd 6) (mw5 0 2 6 4 false) with | .ok _ => true | .error _ => false)) &&
    (let i : Instr := .mma (hd 6) (mw5 0 2 6 9 true)
     (match (atMat 0 i 1).matPlan .mma (hd 6) (mw5 0 2 6 9 true) with | .ok _ => false | .error _ => true))) = true := by decide +kernel
/-- The operation that the word starts, with all its stream entries collected. -/
def runningMat (d : Nat) (i : Instr) (k : MatKind) (w : W5) (full : Bool) : State :=
  let s := atMat d i 2
  match i.head? with
  | some h => match s.matPlan k h w with
    | .ok m => { s with ops := [{ s.newOp false 0 (.mat (if full then { m with got := m.need, abits := 0x38404850, alen := 512 * m.need } else m)) with born := 50 }] }
    | .error _ => s
  | none => s
theorem witness_MatrixOperations_complete : ((matWords.map (fun p => (0, p)) ++ ([(2, (.mmv (hd 6) (mw5 0 2 6 4 false), .mmv, mw5 0 2 6 4 false))] : List (Nat × Instr × MatKind × W5))).all fun p =>
    let s := runningMat p.1 p.2.1 p.2.2.1 p.2.2.2 true
    match s.ops with
    | [o] => (match s.op? o.id with | some x => x == o | none => false) && s.ready o && s.matHead o.ck == some o.id && !(s.strand o.ck).mstat.poiss && decide (ckProfile o.ck = Profile.p ∨ ckProfile o.ck = Profile.d) &&
      (match o.kind with
       | .mat m => !s.bandsOffAt (ckDie o.ck) (ckCore o.ck) m.ashape.toNat && m.kind == p.2.2.1 && m.got == m.need && (List.range m.groups).all (fun g => !s.groupPoisoned o.ck m g) && !s.vpoisoned o.ck m.ms (m.msBytes (ckProfile o.ck)) | _ => false)
    | _ => false) = true := by decide +kernel

/-- Stream S of core `c` of die `d` with the operations `os` outstanding. -/
def withOps (d c : Nat) (os : List Op) (g : State → State) : State := stand d c .s 0 id (fun s => g { s with ops := os, nextId := 20 })
/-- Operation `id` of context `ck`, issued at aclk 50. -/
def opOf (id ck : Nat) (k : OpKind) : Op :=
  { id, born := 50, ck, sid := Strand.init.sid, core := ck / 8, asid := 0, part := 0, saved := none, held := false, dead := false, sp := false, hn := 0, fin := false, kind := k }
/-- Context 1 of core 0 is free and in the pool of kernel 5; `rs` wait. -/
def launching (rs : List QRec) : State :=
  stand 0 0 .s 0 id (fun s => { (s.dput 8 (poolOff 1) (w64 (5 + 2 ^ 16 + 2 ^ 17))) with queues := rs })
def rec5 (prio : Nat) : QRec := { data := BitVec.ofNat 512 (5 + prio * 2 ^ 19 + 7 * 2 ^ 192), asid := 0, part := 0, rq := none, tag := 0 }
theorem witness_LaunchAndTileTaskEvents_bind : ((let s := launching [rec5 0, rec5 2]
    s.freeForLaunch 1 && s.bindChoice 1 == some 1 && s.queues[1]? == some (rec5 2) && (rec5 2).rq.isNone && s.toLaunch == [] &&
    ((List.range 1).all fun k => fld (s.pool k) 9 0 != fld (s.pool 1) 9 0 || !s.freeForLaunch k || (s.bindChoice k).isNone)) &&
    ((launching []).bindChoice 1).isNone) = true := by decide +kernel
def task1 (cl : Nat) : Task := { die := 0, cluster := cl, data := 0, asid := 0, part := 0 }
/-- Core 1 of die 0 has no strand; the tasks `ts` wait. -/
def tasking (ts : List Task) : State := stand 0 0 .s 0 id (fun s => { s with tasks := ts })
def taskRunning : State := { tasking [] with running := [(coreKey 0 1, { task := task1 0, ctx := 0, st := taskStrand 0, phase := .staging, done := 0 })] }
/-- A task at its first word, an `mma` whose A stream lies in another package, while the pod is frozen. -/
def taskWaiting : State :=
  let i : Instr := .mma (hd 6) { zd := 0, zs := 0, qa := 0, bv := 6, ms := 0, ks := 0, ty := 4, acc := false, gz := 0, voff := 0, rsv := 0 }
  let x : Stream := { Stream.init with state := .inS, ety := 5, base := 0x8080000000000000, count := 4 }
  let st := (taskStrand 0x10100).modEng .m (fun e => { e with sec := { e.sec with hdr := headerFor .m (some i) } })
  let s := ((((tasking []).dput 8 (fabOff 0x2000) 2).dput 8 (fabOff 0x2020) (w64 (1 + 2 ^ 36))).dput 8 (fabOff 0x1008) 1)
  { s with
    tgen := 0x100000001, mem := Mem.writeLE [] 0x10108 (encode i).toNat 12,
    dies := [(0, { Die.init with tlb := { asid := 0, part := 0, page := 1, size := 0x10000, frame := 0x10000, w := false } :: tlb0 })],
    running := [(coreKey 0 1, { task := { task1 0 with data := 0x10100 }, ctx := 0, st := { st with q := [(0, x)] }, phase := .words, done := 0 })] }
theorem witness_LaunchAndTileTaskEvents_tasks : ((tasking [task1 0]).freePair 0 1 == some 0 && ((tasking [task1 0]).die 0).bandOff == [] &&
    (tasking [task1 0]).mIdle 0 1 && (tasking [task1 0]).readyTask 0 0 == some (task1 0) &&
    (tasking [task1 1]).mIdle 0 1 && decide (Map.get 0 (tasking []).idle (coreKey 0 1) + 64 ≤ (tasking []).time) &&
    ((tasking [task1 1]).readyTask 0 0).isNone && (tasking [task1 1]).readyTask 0 (nextCluster 0 0) == some (task1 1) &&
    !taskRunning.mIdle 0 1 && !taskRunning.dieDown 0 && !taskRunning.supplyHold && !taskWaiting.dieDown 0 && !taskWaiting.supplyHold && !taskWaiting.mBusy 0 1 &&
    ({ taskWaiting with issued := [(coreKey 0 1, 8)] } : State).mBusy 0 1 &&
    (match Map.get? taskRunning.running (coreKey 0 1) with
     | some r => (((taskRunning.taskView r 0 1).taskRest (taskRunning.mBusy 0 1) (ckOf 0 1 r.ctx) r.task.data r.phase r.done 8320).2).isNone | none => false) &&
    (match Map.get? taskWaiting.running (coreKey 0 1) with
     | some r => r.phase == .words && ((taskWaiting.taskView r 0 1).taskRest false (ckOf 0 1 r.ctx) r.task.data r.phase r.done 8320).2 == some (.words, 0) | none => false)) = true := by decide +kernel

/-- A copy of 256 bytes of memory to the vault, `n` elements of it performed; the source lies at `b`. -/
def copyAt (b : Word) (n : Nat) : CopyOp :=
  { kind := .cpy, fn := 8, imm := 0, a := 0, b, c := 256, done := n, gen := 0, tabs := 0 }
theorem witness_CopiesAndSendsComplete_copy : ((let c := copyAt 0x1000 0
    let o := opOf 3 0 (.copy c)
    let s := withOps 0 0 [o] id
    s.op? 3 == some o && s.ready o && decide (c.done < c.total) && s.slotFree o.ck && (s.copyUnit 0 c).isSome) &&
    (let c := copyAt 0x1000 0
     let o := opOf 3 0 (.copy c)
     let s := withOps 0 0 [o] id
     let r := s.copyRun 0 c c.units
     s.op? 3 == some o && s.ready o && decide (r.2.total ≤ r.2.done))) = true := by decide +kernel
def send1 (gone acked : Bool) (begun : Option Nat) (fills : Option (Nat × Nat × Nat × Nat) := none) : SendOp :=
  { fn := 2, imm := BitVec.ofNat 48 (1 * 2 ^ 0 + 2 * 2 ^ 8), a := 0x8000, t0 := 0, tile := 0, key := 2 ^ 45, gen := 1, tabs := 0, gone, begun, fills, acked, failed := false }
/-- The destination address lies in the vault of core 1, whose tile 2 has the entry `e`. -/
def sending (t0 : Word) (x : SendOp) (e : Word) : State :=
  withOps 0 0 [opOf 3 0 (.send { x with t0 })] (fun s => (s.setDie 0 { s.die 0 with tlb := [{ asid := 0, part := 0, page := 0, size := 0x10000, frame := 0x200001000000, w := true }] }).dput 0 (ttabOff 1 2) e)
theorem witness_CopiesAndSendsComplete_depart : ((let s := sending 0 (send1 false false none) 0
    let o := opOf 3 0 (.send (send1 false false none))
    s.send? 3 == some (o, send1 false false none) && decide (o.born < s.time) && decide ((0 : Nat) ≤ s.fabricTime) && !s.global 0x8000 && s.ops.length == 1) &&
    (let s := sending 0xFFFFFFFF (send1 false false none) 0
     (s.send? 3).isSome && decide (s.fabricTime < 0xFFFFFFFF))) = true := by decide +kernel
def tileEntry (base len st : Nat) : Word := w64 (base / 64 * 2 ^ 8 + len / 64 * 2 ^ 25 + st)
theorem witness_CopiesAndSendsComplete_arrive : ((let x := send1 true false none
    let o := opOf 3 0 (.send x)
    let ok (e : Word) : Bool := !(sending 0 x e).sendHeld o x && match (sending 0 x e).sendTarget o x with | .ok (some p) => p.1 == 0 && p.2.1 == 1 && p.2.2.1 == 0x8000 && (sending 0 x e).send? 3 == some (o, x) | _ => false
    (match (withOps 0 0 [o] id).sendTarget o { x with a := 0xFFFFFFFFFF } with | .error _ => true | _ => false) && ok 0 && tileBase 0 != 0x8000) &&
    (let x := send1 true false none
     let n := blockBytes x.finTy (sendNb x.imm)
     ([0, 2] : List Nat).all fun st => ([64, 256, 512] : List Nat).all fun len =>
       let e := tileEntry 0x8000 len st
       tileBase e == 0x8000 && tileLen e == len && tileState e == st && (decide (256 ≤ n) && decide (n ≤ 512)) &&
       (sending 0 x e).badBlocks x == []) &&
    (let x := send1 true false (some 1) (some (0, 1, 0x200001008000, 0))
     let o := opOf 3 0 (.send x)
     let s := sending 0 x (tileEntry 0x8000 512 1)
     s.send? 3 == some (o, x) && !s.sendHeld o x && s.badBlocks x == [] && (match s.sendTarget o x with | .ok (some _) => true | _ => false) &&
     (match ({ s with hstate := 4 } : State).sendTarget o x with | .error .err => true | _ => false)) &&
    (let x := send1 true false none
     let y := { opOf 4 0 (.send x) with born := 51 }
     let s := sending 0 x 0
     (({ s with ops := s.ops ++ [y] } : State).send? 4) == some (y, x) && ({ s with ops := s.ops ++ [y] } : State).sendHeld y x) &&
    (opOf 3 0 (.send (send1 true true none))).live && decide (1 + 1100000 ≤ ({ sending 0 (send1 true false (some 1)) 0 with ftime := 2000000 } : State).ftime) &&
    (sending 0 (send1 true true none) 0).send? 3 == some (opOf 3 0 (.send (send1 true true none)), send1 true true none) &&
    (sending 0 (send1 true false (some 1)) 0).ftime == 1000) = true := by decide +kernel
theorem witness_LaunchAndTileTaskEvents_request : ((let r : QRec := { rec5 1 with rq := some (5, 0), tag := 3 }
    let s : State := { launching [r] with rqTag := [(5, 3)] }.setRq 5 (BitVec.ofNat 1024 (1 + 2 ^ 64))
    s.freeForLaunch 1 && s.bindChoice 1 == some 0 && s.queues[0]? == some r && s.toLaunch == [] && r.tag == Map.get 0 s.rqTag 5)) = true := by decide +kernel
theorem witness_CopiesAndSendsComplete_held : ((let far (n : Nat) : CopyOp := { kind := .cpy, fn := 0, imm := 0, a := 0x8080000000000000, b := 0x1000, c := 64, done := 0, gen := BitVec.ofNat 32 n, tabs := 0 }
    let s (n : Nat) := withOps 0 0 [opOf 3 0 (.copy (far 1)), opOf 4 0 (.copy (far n))] id
    let o (n : Nat) := opOf 4 0 (.copy (far n))
    (s 1).op? 4 == some (o 1) && (s 1).ready (o 1) && decide ((far 1).done < (far 1).total) && (s 1).copyHeld (o 1) (far 1) && !(s 2).copyHeld (o 2) (far 2))) = true := by decide +kernel
theorem witness_CopiesAndSendsComplete_later : ((let x := send1 true false (some 1) (some (0, 1, 0x200001008000, 0))
    let o := opOf 3 0 (.send x)
    let s := { sending 0 x (tileEntry 0x8000 512 1) with issued := [(coreKey 0 1, 4)] }
    s.send? 3 == some (o, x) && !s.sendHeld o x && Map.get 0 s.issued (coreKey 0 1) != 0) &&
    (let x := send1 true true none
     let o := opOf 3 0 (.send x)
     let s := sending 0 x 0
     s.send? 3 == some (o, x) && s.ready o && !o.dead && o.live && !({ s with issued := [(0, 1)] } : State).ready o)) = true := by decide +kernel

/-- Command 3 of the D-core with one item in block `blk`; token 0 of the mask is in it. -/
def bankOp1 (k : BankKind) (blk : BitVec 22) (opt : Bool) : BankOp :=
  let w : W6 := cw 0x40 0x41 0x42 (if opt then 2 else 0) 0
  let it : List BankItem := match k with | .bqry | .bapp | .bmv => [{ idx := 0, blk, mask := 1 }] | _ => []
  { kind := k, w, a := 0x1000, b := 0x2000, c := 0x4000, res := 0x4000, items := it, doneI := 0, data := 0x3F80 }
/-- The command outstanding; `st` is the status of bank 0, `h` the header of block 0, `bad` poisons it. -/
def banked (b : BankOp) (st : Nat) (h : Nat) (bad : Bool) : State :=
  withOps 2 0 [opOf 3 (ckOf 2 0 0) (.bank b)] (fun s =>
    let s := ((s.dput 2 0x330000000000 8).setBankst 2 0 (w64 st)).wrKey 0 (headerKey 2 0) h 64
    if bad then s.mark (headerKey 2 0) else s)
/-- The same with the first token of block 0 poisoned. -/
def quiet1 (s : State) : State := s.mark (blockKey 2 0 0)
theorem witness_BankItemsComplete : (([.bqry, .bapp, .bmv] : List BankKind).all fun k => [false, true].all fun opt =>
    let b := bankOp1 k 0 opt
    [false, true].all fun bad => ([0, 64, 65, 0x80 + 1] : List Nat).all fun n => ([0, 1, 2] : List Nat).all fun st =>
    let s := banked b st (n * 2 ^ 64 + 127 * 2 ^ 72) bad
    s.bankItem? 3 0 == some (opOf 3 (ckOf 2 0 0) (.bank b), b, { idx := 0, blk := 0, mask := 1 }) && s.bankRetired 2 0 == (st == 2) &&
    s.poisoned (headerKey 2 0) == bad && s.poisonedRun (blockKey 2 0 0) 16384 == false &&
    (bad || (quiet1 s).poisonedRun (blockKey 2 0 0) 128 && !(quiet1 s).poisoned (headerKey 2 0))) = true := by decide +kernel
theorem witness_BankItemsComplete_append : ((banked (bankOp1 .bapp 0 false) 0 0 false).appendCause 2 0 false 1 == none &&
    (banked (bankOp1 .bapp 0 false) 0 (64 * 2 ^ 64) false).appendCause 2 0 false 1 == some 1 &&
    (banked (bankOp1 .bapp 0 true) 0 (64 * 2 ^ 64) false).appendCause 2 0 true 1 == none &&
    (banked (bankOp1 .bapp 0 true) 1 0 false).appendCause 2 0 true 1 == some 3 &&
    (banked (bankOp1 .bapp 0 false) 0 0 true).appendCause 2 0 false 1 == some 2 &&
    (banked (bankOp1 .bapp 0 false) 0 (0x80 * 2 ^ 64) false).appendCause 2 0 false 1 == some 4) = true := by decide +kernel
theorem witness_BankCommandsComplete : ((([.bqry, .bapp, .bmv, .bsk, .bflt, .bmap, .berr] : List BankKind).all fun k =>
    let b := { bankOp1 k 0 false with items := [] }
    let o := opOf 3 (ckOf 2 0 0) (.bank b)
    let s := banked b 0 0 false
    s.op? 3 == some o && s.bankReady o b) && (bankOp1 .bqry 0 false).items != []) = true := by decide +kernel

theorem witness_DieUnitsComplete_tlbinv : (([0, 1, 2] : List Nat).all fun kind =>
    let o := opOf 3 0 (.tlbinv 0 kind 0 0xFFFF)
    let s := withOps 0 0 [o] id
    s.op? 3 == some o && s.ready o && (s.die 0).tlb.length == 1) = true := by decide +kernel
/-- ASID 0 of die 2 has a page of 64 KiB at offset 0, in frame 0x20000; its tables lie at 0x1000, 0x2000, 0x3000 and 0x4000. -/
def paged (s : State) : State :=
  ([(0, 0x1001), (0x1000, 0x2001), (0x2000, 0x3001), (0x3000, 0x4001), (0x4000, 0x20005)] : List (Nat × Nat)).foldl (fun s p => s.wrPhys 2 p.1 p.2 8) (s.dput 2 0x340000000010 1)
theorem witness_DieUnitsComplete_moves : ((let va : Word := w64 (2 * 2 ^ 46 + 0x1000)
    let o (dst : Nat) (busy : Bool) := opOf 3 0 (.mpage va dst 0 0x800 busy)
    let m : Mover := { src := 0x20000, dst := 0x30000, n := 0x10000, leaf := 0x4000, marked := 0, todo := 1, rounds := 0, ended := false }
    let s (dst : Nat) (busy : Bool) := paged (withOps 0 0 [o dst busy] id)
    ((s 0x30000 false).movePlan va 0x30000 0) == some (0x20000, 0x30000, 0x10000, 0x4000) && ((s 0x30000 true).movePlan va 0x30000 0).isSome && ((s 0x1000 false).movePlan va 0x1000 0).isNone &&
    ([(0x30000, false), (0x30000, true), (0x1000, false)] : List (Nat × Bool)).all (fun p =>
      (s p.1 p.2).op? 3 == some (o p.1 p.2) && (s p.1 p.2).ready (o p.1 p.2) && (((s p.1 p.2).movesOf 2).head?.map (fun x => x.id)) == some 3 && ((s p.1 p.2).die 2).move.isNone &&
      ((s p.1 p.2).die 2).mover.isNone && (((s p.1 p.2).setMover 2 (some m)).die 2).mover == some m && (((s p.1 p.2).setMover 2 (some { m with ended := true })).die 2).mover == some { m with ended := true }))) = true := by
  decide +kernel
theorem witness_DieUnitsComplete_mpage : (([0, 0x800] : List Word).all fun st =>
    let va : Word := w64 (2 * 2 ^ 46 + 0x1000)
    let o := opOf 3 0 (.mpage va 0x2000 0 st false)
    let s := withOps 0 0 [o] id
    s.op? 3 == some o && s.ready o && ((s.movesOf 2).head?.map (fun x => x.id)) == some 3 && (s.die 2).move.isNone &&
    ((s.asidRoot 2 0).bind (fun r => s.leafFrom 2 0x1000 4 r)).isNone) = true := by decide +kernel
theorem witness_DieUnitsComplete_kvfind : (let o := opOf 3 0 (.kvfind 5 2 0x800 1)
    let s := withOps 0 0 [o] id
    s.op? 3 == some o && s.ready o) = true := by decide +kernel

/-- Context 0 of core 0 of die 0 runs; `g` sets the rest. -/
def quiet (g : State → State) : State := stand 0 0 .s 0 id g
def dieIs (d : Nat) (f : Die → Die) (s : State) : State := s.modDie d f
theorem witness_BankRetirementAndRemap : (([(0, 2), (2047, 7)] : List (Nat × Nat)).all fun p =>
    let n := p.1
    let d := p.2
    let live := quiet id
    let asked := quiet (fun s => s.setBankst d n 1)
    let busy := quiet (fun s => ((s.dput d 0x330000000000 8).setBankst d n 1).wrKey 0 (headerKey d (BitVec.ofNat 22 (n % 64 * 2 ^ 11 + n / 64 * 2 ^ 17))) (5 * 2 ^ 64) 64)
    live.bankLive d n && !asked.bankLive d n && !(live.die d).remap && fld (live.bankst d n) 1 0 != 1 && fld (asked.bankst d n) 1 0 == 1 &&
    busy.bankInUse d n && ((quiet (dieIs d (fun x => { x with remap := true }))).die d).remap &&
    ((quiet (dieIs d (fun x => { x with tlb := [{ asid := 0, part := 0, page := 0, size := 0x10000, frame := 2 ^ 43, w := true }] }))).dput d 0x330000000008 2).capNamed d) = true := by
  decide +kernel
/-- With no ASID table a die has no root table. -/
theorem asidRoot_none {s : State} {d : Nat} (h : bit (s.dget d 0x340000000010) 0 = false) (a : Nat) : s.asidRoot d a = none := by
  simp [State.asidRoot, h]
theorem capNamed_none {s : State} {d : Nat} (h : bit (s.dget d 0x340000000010) 0 = false) (h' : (s.die d).tlb = []) : s.capNamed d = false := by
  simp [State.capNamed, asidRoot_none h, h']
theorem witness_BankRetirementAndRemap_starts : ((quiet id).dput 2 0x330000000008 2).capNamed 2 = false ∧ ((quiet id).die 2).remap = false :=
  ⟨capNamed_none (by decide +kernel) (by decide +kernel), by decide +kernel⟩
theorem witness_BankRetirementAndRemap_unused : (let s := quiet (fun s => s.setBankst 2 5 1)
    fld (s.bankst 2 5) 1 0 == 1 && !s.bankInUse 2 5) = true := by decide +kernel
theorem witness_BlockMovesAndKvBound : ((let s := quiet (fun s => ((s.dput 2 0x330000000000 8).dput 2 0x330000000010 0x1FF).dput 2 0x330000000018 0x201FF)
    (s.die 2).move.isNone && decide (bwSlot ((s.dget 2 0x330000000010).setWidth 22) < 64 * s.kvb 2) && decide (bwSlot ((s.dget 2 0x330000000018).setWidth 22) < 64 * s.kvb 2)) &&
    (let m : BlockMove := { src := 1, dst := 2, seq := 4 }
     let s := quiet (dieIs 2 (fun x => { x with move := some m }))
     !s.copyInto 2 m.src && s.movesOf 2 == [] && (s.die 2).mover.isNone &&
     (let n : Mover := { src := 0, dst := 0x8000, n := 0x4000, leaf := 0, marked := 0, todo := 1, rounds := 0, ended := false }
      ((s.setMover 2 (some n)).die 2).mover == some n && ((s.setMover 2 (some { n with ended := true })).die 2).mover == some { n with ended := true })) &&
    (let m : BlockMove := { src := 1, dst := 2, seq := 4 }
     (withOps 0 0 [opOf 3 0 (.copy { copyAt 0x1000 0 with kind := .clist })] (dieIs 2 (fun x => { x with move := some m }))).copyInto 2 m.src) &&
    !((quiet id).die 2).kvset && ((quiet (dieIs 7 (fun x => { x with kvset := true }))).die 7).kvset) = true := by decide +kernel
theorem witness_ReclaimerEvents : ((let s := quiet (dieIs 2 (fun x => { x with freeL := [(0, [3, 4])] }))
    ((Map.get [] (s.die 2).freeL 0).dropWhile (fun b => !s.bankLive 2 (bwNum (BitVec.ofNat 22 b)))) == [3, 4] && Map.get [] (s.die 2).freeL 1 == [] && s.rcPhase 2 == 0 && (s.die 2).roots == []) &&
    (let s := quiet (fun s => s.dput 2 0x340000000058 1)
     s.rcPhase 2 == 1 && (s.die 2).gray == [] && (s.die 2).work == []) &&
    (quiet (fun s => s.dput 2 0x340000000058 2)).rcPhase 2 == 2 &&
    (let s := quiet (fun s => s.dput 2 0x340000000050 2)
     bit (s.dget 2 0x340000000050) 1 && decide ((s.die 2).period + 11000000 * fld (s.dget 2 0x340000000050) 31 16 ≤ s.ftime)) &&
    (([0, 2, 3] : List Nat).all fun n =>
     let s := quiet (fun s => (s.dput 2 0x340000000058 (w64 (1 + n * 16))).modDie 2 (fun x => { x with gray := List.range 4097 }))
     s.rcPhase 2 == 1 && decide (4096 < (s.die 2).gray.length) && fld (s.dget 2 0x340000000058) 7 4 == n)) = true := by decide +kernel
theorem witness_PoisonAndNotificationEvents_kind3 : (let addr : Nat := 2 * 2 ^ 46 + 0x100000004000
    let q (c held : Nat) (kvb : Nat) : State := quiet (fun s => ((s.dput 2 nqCtl (w64 c)).dput 2 0x330000000000 (w64 kvb)).modDie 2 (fun x => { x with held := List.replicate held 5 }))
    match (q 0 0 1).homeKey 2 (addr % 2 ^ 46) with
    | some key => addr / 2 ^ 46 % 16 == 2 && !(q 0 0 1).poisoned key && keyDie key == 2 &&
        (let s := q (8 + 2 ^ 48) 0 1; bit (s.dget 2 nqCtl) 48 && decide (0 < nqFree (s.dget 2 nqCtl)) && (s.die 2).held == [] && s.homeKey 2 (addr % 2 ^ 46) == some key) &&
        (let s := q (8 + 2 ^ 48) 3 1; bit (s.dget 2 nqCtl) 48 && (s.die 2).held != [] && decide ((s.die 2).held.length < 64)) &&
        (let s := q (8 + 7 * 2 ^ 32 + 2 ^ 48) 0 0; bit (s.dget 2 nqCtl) 48 && nqFree (s.dget 2 nqCtl) == 0 && (keyBank? key).isSome) &&
        (let s := q (8 + 7 * 2 ^ 32 + 2 ^ 48) 64 0; nqFree (s.dget 2 nqCtl) == 0 && decide (64 ≤ (s.die 2).held.length)) &&
        !bit ((q 8 0 1).dget 2 nqCtl) 48 && decide ((q 8 0 1).scansBusy 2 < 64)
    | none => false) = true := by decide +kernel
theorem witness_PoisonAndNotificationEvents : ((let s := quiet id
    s.homeKey 0 0x1000 == some 0x1000 && !s.poisoned 0x1000 && !bit (s.dget (keyDie 0x1000) nqCtl) 48 && (s.die 0).scanQ == []) &&
    (let s := quiet (fun s => (s.dput 2 nqCtl (w64 (8 + 7 * 2 ^ 32))).modDie 2 (fun x => { x with held := [5] })); nqFree (s.dget 2 nqCtl) == 0) &&
    (quiet (fun s => s.mark 0x1000)).poisoned 0x1000 &&
    (let s := quiet (fun s => (s.dput 2 nqCtl (w64 (8 + 2 ^ 48))).modDie 2 (fun x => { x with held := [5], scanQ := [7] }))
     (s.die 2).held == [5] && bit (s.dget 2 nqCtl) 48 && decide (0 < nqFree (s.dget 2 nqCtl)) && (s.die 2).scanQ == [7])) = true := by decide +kernel

/-- Partition 1 owns the ids 0 to 7; its rings have 8 entries at host addresses 0x1000 and 0x2000, one submission waits. -/
def rings (e : Nat) (r : Nat) (full : Bool) (g : State → State) : State :=
  quiet (fun s =>
    let s := ((((s.dput 8 fwstOff 1).dput 8 (rqOff 0) 1).dput 8 (partOff 1 0) 0x1000).dput 8 (partOff 1 8) (w64 (8 + 2 ^ 32 + 2 ^ 48))).dput 8 (partOff 1 0x10) 0x2000
    let s := (s.dput 8 (partOff 1 0x18) (w64 (8 + (if full then 7 else 0) * 2 ^ 32 + 2 ^ 48))).dput 8 (partOff 1 0x28) (w64 (8 * 2 ^ 24))
    let s := { s with host := Mem.writeLE [] 0x1000 e 64 }
    g (if r = 0 then s else s.setRq 5 (BitVec.ofNat 1024 r)))
def submission (kind : Nat) : Nat := kind + 5 * 2 ^ 8 + 0xAB * 2 ^ 64
theorem witness_RequestRings_submit : ((rings 0 0 true id).sqEntry 1 == none && (rings 0 0 false id).sqEntry 0 == none &&
    (([submission 1, submission 1 + 1 * 2 ^ 28, submission 1 + 15 * 2 ^ 28, submission 1 + 2 * 2 ^ 28, submission 3, submission 1 + 2 ^ 32, submission 1 + 2 ^ 384] : List Nat).all fun e =>
      let s := rings e 0 false id
      s.sqEntry 1 == some (BitVec.ofNat 512 e) && fld (BitVec.ofNat 512 e) 25 8 == 5 && s.idPart 5 == some 1 && !s.rqLive 5) &&
    (let s := rings (submission 1 + 3 * 2 ^ 8) 0 false id
     s.idPart 8 == none && s.sqEntry 1 == some (BitVec.ofNat 512 (submission 1 + 3 * 2 ^ 8))) &&
    (let s := rings (submission 1) (1 + 2 ^ 64) false id
     (s.sqEntry 1).isSome && s.rqLive 5)) = true := by decide +kernel
theorem witness_RequestRings_cancel : (([0, 1, 2, 4] : List Nat).all fun st => ([0, 1, 15, 2] : List Nat).all fun pd =>
    let e := submission 2 + pd * 2 ^ 28
    let s := rings e (st + 2 ^ 64) false id
    (s.sqEntry 1 == some (BitVec.ofNat 512 e)) && fld (BitVec.ofNat 512 e) 31 28 == pd && s.idPart 5 == some 1 && (s.rqLive 5 == (st != 0)) && rqState (s.rq 5) == st) = true := by decide +kernel
theorem witness_RequestRings_cancel_final : (let s := rings (submission 2) (5 + 2 ^ 64) false (fun s => { s with cqHeld := [(2, BitVec.ofNat 256 (3 + 5 * 2 ^ 8))] })
    (s.sqEntry 1).isSome && s.rqLive 5 && decide (5 ≤ rqState (s.rq 5))) = true := by decide +kernel
theorem witness_RequestRings_completion : ([false, true].all fun full =>
    let s := rings 0 0 full (fun s => { s with cqHeld := [(0, 9), (1, 7)] })
    s.cqHeld.findIdx? (fun x => x.1 == 1) == some 1 && s.cqHeld[1]? == some (1, 7) && s.cqRoom 1 == !full &&
    (s.cqHeld.findIdx? (fun x => x.1 == 3)).isNone) = true := by decide +kernel

/-- Request 5 of partition 1 with record `r`; context 0 of die 0 runs its launch number 0. -/
def owning (r : Nat) (os : List Op) (g : State → State) : State :=
  rings 0 r false (fun s => g (({ s with ops := os, nextId := 20 } : State).modStrand 0 (fun st => { st with rq := some (5, 0), rqTag := 3 })))
def op1 (k : OpKind) : Op := { opOf 3 0 k with part := 1 }
theorem witness_RequestOwnership_bound : (([1, 2] : List Nat).all (fun st =>
    let s := owning (st + 2 ^ 64) [] (fun s => { s with rqTag := [(5, 3)] })
    s.rqEn && s.strands.any (fun x => ckDie x.1 == 0 && x.2.rqTag != 0 && x.2.rqTag == Map.get 0 s.rqTag 5) &&
    (let t := owning (st + 2 ^ 64) [] (fun s => { s with rqTag := [(5, 4)] }); t.rqEn && t.strands.all (fun x => x.2.rqTag != Map.get 0 t.rqTag 5)) && rqState (s.rq 5) == st) && !(quiet id).rqEn) = true := by decide +kernel
theorem witness_RequestOwnership_kills : (([(2, 0, true), (4, 0, false), (1, 0, true), (2, 1, false)] : List (Nat × Nat × Bool)).all fun p =>
    let s := owning (p.1 + 2 ^ 64) [] (fun s => { s with reports := [(5, p.2.1, p.2.2)] })
    s.reports.contains (5, p.2.1, p.2.2) && s.rqEn && rqLnum (s.rq 5) == 0 && rqState (s.rq 5) == p.1) = true := by decide +kernel
theorem witness_RequestOwnership_cancels : (([0, 1, 2, 4] : List Nat).all (fun st => [0, 0x80].all fun creq =>
    let o := op1 (.rqcan 5 0x800)
    let s := owning (st + creq + 2 ^ 64) [o] id
    s.op? 3 == some o && s.ready o && s.rqLive 5 == (st != 0) && rqPart (s.rq 5) == 1 && rqCreq (s.rq 5) == (creq != 0)) &&
    (let s := owning (6 + 2 ^ 64) [op1 (.rqcan 5 0)] (fun s => { s with cqHeld := [(2, BitVec.ofNat 256 (3 + 5 * 2 ^ 8))] })
     s.rqLive 5 && decide (5 ≤ rqState (s.rq 5)))) = true := by decide +kernel
theorem witness_RequestOwnership_done : (([(2, 0), (4, 0), (2, 0x80), (1, 0)] : List (Nat × Nat)).all fun p =>
    let o := op1 (.rqdone 5 9 (hd 0) 0x62)
    let s := owning (p.1 + p.2 + 2 ^ 64) [o] id
    s.op? 3 == some o && s.ready o && s.rqLive 5 && rqOwner (s.rq 5) == o.die && rqPart (s.rq 5) == 1 && rqState (s.rq 5) == p.1 && rqCreq (s.rq 5) == (p.2 != 0)) = true := by
  decide +kernel

/-- A hand-off of request 5 from die 0 to die 2: `n` blocks, `m` of them performed. -/
def hand1 (n m : Nat) (begun : Bool) (stop : Option Nat) : Handoff :=
  { rq := 5, kind := 0, ck := 0, desc := BitVec.ofNat 512 (n * 2 ^ 64 + 64 * 2 ^ 88 + 2 * 2 ^ 96), srcs := List.replicate n 0x1000, tdie := 2, pages := [0x4000, 0x5000],
    slots := (List.range n).map (BitVec.ofNat 22), moved := m, begun, stopAt := stop, sdie := 0, asid := 0, part := 0 }
theorem witness_HandoffEvents_taken : (([(2, 0, 0), (2, 0x80, 0), (1, 0, 0), (4, 0, 1), (4, 0, 2)] : List (Nat × Nat × Nat)).all fun p =>
    ([BitVec.ofNat 512 (0x1000 + 2 ^ 64 + 64 * 2 ^ 88 + 2 * 2 ^ 96), BitVec.ofNat 512 (2 ^ 87), BitVec.ofNat 512 (0x1000 + 2 ^ 64 + 64 * 2 ^ 88 + 2 ^ 100)] : List (BitVec 512)).all fun x =>
    let o := op1 (.rqhand 5 p.2.2 x 0x800)
    let s := owning (p.1 + p.2.1 + 2 ^ 64) [o] id
    s.op? 3 == some o && s.ready o && s.rqLive 5 && rqPart (s.rq 5) == 1 && rqOwner (s.rq 5) == o.die && rqState (s.rq 5) == p.1 && rqCreq (s.rq 5) == (p.2.1 != 0) &&
    (descBad p.2.2 x == (fld x 87 87 == 1))) = true := by decide +kernel
theorem witness_HandoffEvents_progress : (let s := owning (3 + 2 ^ 64) [] (fun s => { s with handoffs := [hand1 2 0 false none] })
    s.handoffs.find? (fun h => !h.begun) == some (hand1 2 0 false none) && (s.handoffs.filter (fun x => x.begun)).length == 0) = true ∧
    (([(0, none), (0, some 1), (1, some 1), (2, none)] : List (Nat × Option Nat)).all fun p => [0, 0x80].all fun creq =>
    let h := hand1 2 p.1 true p.2
    let s := owning (3 + creq + 2 ^ 64) [] (fun s => { s with handoffs := [h] })
    s.handoffs.find? (fun h => h.rq == 5 && h.begun) == some h && s.handoffs.find? (fun h => h.rq == 5) == some h && rqCreq (s.rq 5) == (creq != 0) &&
    h.slots.length == 2 && decide (h.tdie < 8) && (s.handoffs.find? (fun h => h.rq == 6)).isNone) = true := by decide +kernel
theorem witness_HandoffEvents_roots : ([false, true].all fun dup =>
    let h := hand1 1 1 true none
    let s := owning (3 + 2 ^ 64) [] (fun s => ({ s with handoffs := [h] } : State).modDie 2 (fun x => { x with roots := if dup then [(0x4000, 1)] else [(0x8000, 1)] }))
    ((s.die h.tdie).roots.any (fun p => p.1 == h.pages.headD 0)) == dup && decide ((s.die h.tdie).roots.length < 65536)) = true := by decide +kernel

theorem witness_ModulesAndPublication_modules : (let s := quiet id
    !NSet.mem s.modsDown 1 && (List.range (modules 0)).any (fun j => j != 1 && !NSet.mem s.modsDown j) &&
    (({ s with modsDown := NSet.add s.modsDown 1 } : State).health id).failed == false) = true ∧
    (let s : State := { quiet id with modsDown := [9] }
     !NSet.mem s.modsDown 8 && NSet.mem s.modsDown 9 && (List.range (modules 2)).all (fun j => j == 0 || NSet.mem s.modsDown (8 + j))) = true := by decide +kernel
theorem witness_ModulesAndPublication_publish : (([0, 0x800] : List Word).all fun c => [false, true].all fun busy =>
    let o := opOf 9 0 (.publish 3 c)
    let s := withOps 0 0 ((if busy then [opOf 3 0 (.copy (copyAt 0x1000 0))] else []) ++ [o]) id
    s.op? 9 == some o && s.ready o && s.earlierBusy o == busy) = true := by decide +kernel
theorem witness_PartitionsAndWindows : (([0, 15] : List Nat).all (fun p =>
    let s := quiet id
    !bit (s.partctl p) 0 && (p == 0 || !s.partBusy p) && bit ((quiet (fun s => s.dput 8 (partctlOff p) 1)).partctl p) 0) &&
    (quiet (fun s => s.setCtx 0 (w64 (0x11 + 2 ^ 24)))).partBusy 1 &&
    !(quiet id).ops.any (fun o => !o.fin && (match o.kind with | .publish g _ => g == 63 | _ => false)) &&
    (withOps 0 0 [opOf 9 0 (.publish 3 0)] id).ops.any (fun o => !o.fin && (match o.kind with | .publish g _ => g == 3 | _ => false))) = true := by decide +kernel
theorem witness_SupplyEmergencies : (let s := quiet (fun s => s.dput 8 supemOff 1)
    (!bit (quiet id).supem 0 && bit s.supem 0) && s.victim == some 0) = true := by decide +kernel
theorem witness_Monitors : (([0, 8] : List Nat).all fun d => ([0, 63] : List Nat).all fun u => [false, true].all fun en =>
    let src := ((List.range 256).find? (fun n => monSource d n)).getD 0
    let s := quiet (fun s => s.dput d (monOff u 0) (w64 ((if en then 2 ^ 13 else 0) + src)))
    let c := s.dget d (monOff u 0)
    bit c 13 == en && monSource d (fld c 7 0) && decide (s.monValue d (fld c 7 0) (fld c 12 8) 5 < 2 ^ 32)) = true := by decide +kernel
theorem witness_BootAndHealth : (([1, 2] : List Nat).all fun st =>
    let s := quiet (fun s => s.dput 8 fwstOff (w64 st))
    fld (s.dget 8 fwstOff) 1 0 == st && decide (s.attIdx < attLimit)) = true ∧
    (let i : FirmwareImage := { present := true, authOk := true, svn := 0xFFFF }
     i.present = true ∧ i.authOk = true ∧ Config.fusedMinimum.toNat ≤ i.svn.toNat) ∧
    (let i : FirmwareImage := { present := true, authOk := false, svn := 0xFFFF }
     ¬(i.present = true ∧ i.authOk = true ∧ Config.fusedMinimum.toNat ≤ i.svn.toNat)) :=
  ⟨by decide +kernel, ⟨rfl, rfl, Nat.le_of_lt_succ Config.fusedMinimum.isLt⟩, fun h => nomatch h.2.1⟩
theorem witness_FabricTimeAndLinks : (!(quiet id).fidSet && ({ quiet id with fidSet := true } : State).fidSet && !(quiet id).synced && ({ quiet id with synced := true } : State).synced &&
    decide ((quiet id).linksDown.length < 256)) = true := by decide +kernel
/-- The plan of one circuit: port 0 of package `k` to pod 3, port `g` of its package `q`. -/
def plan1 (i : Nat) (v : Nat) : List (BitVec 32) := (List.range 512).map (fun j => if j = i then BitVec.ofNat 32 v else 0)
theorem witness_CircuitPlanEvents_taken : (let o := opOf 3 0 (.recirc (plan1 0 (1 + 3 * 2)) 0x800 (hd 0) 0x62 .sent)
    let s := withOps 0 0 [o] (fun s => { s with ftime := 22000000 })
    s.op? 3 == some o && s.ready o && !s.planRunning && !s.frz && !s.planBad (plan1 0 0) && s.planBad (plan1 0 (2 ^ 18)) && ({ s with tgen := 2 ^ 32 } : State).frz &&
    s.planChanges 0 7 && !s.planChanges 1 0) = true := by decide +kernel
theorem witness_CircuitPlanEvents_frozen : (let f := opOf 3 0 (.recirc (plan1 0 (1 + 3 * 2)) 0x800 (hd 0) 0x62 (.frozen 5))
    let t := withOps 0 0 [f, opOf 4 0 (.send { send1 true false none with a := w64 (2 ^ 63 + 3 * 2 ^ 55) })] (fun s => { s with ftime := 22000000 })
    let q := withOps 0 0 [f] id
    t.op? 3 == some f && !f.fin && decide ((5 : Nat) + 11000000 ≤ t.ftime) && decide (q.ftime < 5 + 11000000) && t.planRunning &&
    q.op? 3 == some f && !q.undrained && t.undrained && (t.ops.any fun p => (t.globalSend p).isSome)) = true := by decide +kernel
/-- Stream `e` of context 0 at word 0 of a section with word `raw` in the launched text, chosen next. -/
def nextIs (pf : Nat) (e : Engine) (raw : TextWord) (g : State → State) : State :=
  stand pf 0 e (headerFor e none) (fun st => { st with text := some (0, 0x10000) })
    (fun s => g (({ s with agenda := [.issue pf 0 e] } : State).wrPhys pf 0 raw.toNat 12))
theorem witness_StepRunsDecodedInstruction : (([(.li (hd 0) { d := 5, a := 0, b := 0, c := 0, fn := 0, imm := 9 })] : List Instr).all fun i =>
    let s := nextIs 0 .s (encode i) (fun s => s.modMe (fun st => st.modEng .s (fun x => { x with walk := 0 })))
    let u : State := { s with free := s.free + 1, waited := false, agenda := [] }
    u.mayChoose 0 0 .s && u.pick 0 0 .s == some 0 &&
    (let v : State := { u.choice 0 0 .s 0 with cur := ⟨0, .s⟩, waited := false }
     (match v.fetch 0 ((v.strand 0).eng .s).walk.toNat 12 with | .ok b => BitVec.ofNat 96 b == encode i | .error _ => false) &&
     (match decode v.myProfile .s (encode i) with | .ok j => j == i | .error _ => false) &&
     u.must.isSome && ({ u with strands := [] } : State).must.isNone)) = true := by decide +kernel
theorem witness_StepRunsDecodedInstruction_other : ((parse .s 0xFF0000000000000000000000).isNone && (parse .s 0x1B000A00000000789ABCDEF0).isSome &&
    Instr.isEvent (.supplyEmergency) && (let s := nextIs 0 .v 0 id; s.mayChoose 0 0 .s && (s.pick 0 0 .s).isNone && !s.mayChoose 9 0 .s)) = true := by decide +kernel
theorem witness_Encodings : ((decode .p .s 0x1B000A00000000789ABCDEF0).toOption == some (.li (hd 0) { d := 5, a := 0, b := 0, c := 0, fn := 0, imm := 0x789ABCDEF0 })) = true := by
  decide +kernel
/-- The least turn that goes on: a host write into a state with bytes in memory. -/
def writing : State := { State.reset with mem := Mem.writeLE [] 0x800 77 8, agenda := [.hostWrite 5 9] }
theorem witness_StepKeepsCanonicalMemory : (writing.memWf && (match step writing with | .next t => Mem.read t.host 5 == 9 | _ => false)) = true := by decide +kernel
theorem witness_MemoryReadsWhatWasWritten : (let s : State := { quiet id with mem := Mem.writeLE [] 0x800 77 8 }
    Mem.wf s.mem && s.memWf && s.inWindow 0 0x38 8 && decide ((s.vaultKey 0 0x38) % 64 + 8 ≤ 64)) = true := by decide +kernel
theorem witness_RegisterWrites : ((0x320000000000 < 2 ^ 46) && !(quiet id).fidSet) = true := by decide +kernel

/-- The values on their way from the stream that has just issued. -/
def onTheWay (o : Host.Outcome State Fault Refusal) : List (Dest × Val) := match o with
  | .next t => t.myEng.flight.map (fun f => (f.dest, f.val))
  | _ => []
/-- 05 R114: the first word of the table, as the step after `withFetchWord` runs it. -/
theorem test_step_runs_li : onTheWay (step (State.reset.withFetchWord 96 0x1B000A00000000789ABCDEF0)) = [(.s 5, .word 0x000000789ABCDEF0 false)] := by decide +kernel
/-- 05 R114: the second word of the table, with s5 as the first leaves it. -/
theorem test_lih : onTheWay (exec (.lih (hd 0) { d := 5, a := 5, b := 0, c := 0, fn := 0, imm := 0x123456 })
    (standAt 0 0 .s (.lih (hd 0) (rr 5 5 0)) (fun st => { st with s := [(5, 0x000000789ABCDEF0)] }) id)) = [(.s 5, .word 0x123456789ABCDEF0 false)] := by decide +kernel
/-- 05 R109: a sum modulo 2^64. -/
theorem test_add_wraps : onTheWay (exec (.add (hd 0) (rr 3 1 2)) (atS (.add (hd 0) (rr 3 1 2)) 0xFFFFFFFFFFFFFFFF 2)) = [(.s 3, .word 1 false)] := by decide +kernel
/-- 05 R110: the least number over -1. -/
theorem test_div_least_by_minus_one : onTheWay (exec (.div (hd 6) (rr 3 1 2)) (atS (.div (hd 6) (rr 3 1 2)) 0x8000000000000000 0xFFFFFFFFFFFFFFFF)) =
    [(.s 3, .word 0x8000000000000000 false)] := by decide +kernel
/-- 05 R110: a remainder has the sign of the dividend: -7 rem 2 is -1. -/
theorem test_rem_sign : onTheWay (exec (.rem (hd 6) (rr 3 1 2)) (atS (.rem (hd 6) (rr 3 1 2)) 0xFFFFFFFFFFFFFFF9 2)) = [(.s 3, .word 0xFFFFFFFFFFFFFFFF false)] := by
  decide +kernel
/-- A write of s0 is discarded (02 R42): the destination of the word is none. -/
theorem test_s0_discards : onTheWay (exec (.add (hd 0) (rr 0 1 2)) (atS (.add (hd 0) (rr 0 1 2)) 5 2)) = [] := by decide +kernel

/-- The same while requests are late (13 R295). -/
def lateAcc (i : Instr) (base idx x : Word) (m : List Host.Cell) : State := { acc i base idx x m with late := true, nextId := 7 }
/-- The state that an outcome answers. -/
def outState (x : Out) : State := match x with | .next t => t | _ => State.reset
theorem witness_AtomicAccesses_posted : (([0x46, 0x40] : List (BitVec 7)).all fun d =>
    let w : W2 := { mw d 0x42 0x07 3 0 with ord := 2 }
    (atomics w).all fun i =>
    let s := lateAcc i 0x808 0 9 (Mem.writeLE [] 0x808 77 8)
    s.reaches i (hd 5) && okIs (s.eaAtomic w) 0x808 && isOk (s.check 0x808) && okIs (s.rd w.idx 1) 9 && okIs (s.rd w.d 2) 0 && !w.ord.getLsbD 0 &&
    s.slotFree s.cur.ck && s.posts 0x808 (!w.ord.getLsbD 0) && (match s.atomicPublish w 0x808 8 with | .ok _ => true | .error _ => false)) = true := by decide +kernel
/-- A posted request of the strand of context 0 at line 0x20, issued on its own die. -/
def request (id : Nat) (k : PostKind) : Posted :=
  { id, ck := 0, asid := 0, part := 0, die := 0, path := 0, line := 0x20, ea := 0x808, stage := 0, seq := id, glob := false, gen := 1, tabs := 0, kind := k }
/-- The strand at a `nop` with the requests `ps`, number 7 awaited by a result. -/
def waiting (ps : List Posted) : State :=
  standAt 0 0 .a (.nop (hd 0) (rr 0 0 0))
    (fun st => st.modEng .a (fun x => { x with flight := [⟨.a 6, .request 7 0 false, 99, 5, 3, 0, 0, false, true, false⟩, ⟨.a 5, .word 1 false, 99, 5, 3, 1, 0, false, true, false⟩] }))
    (fun s => { s with mem := Mem.writeLE [] 0x808 77 8, posted := ps, nextId := 20 })
/-- Request `p` is there, nothing of its context has failed, and it is of the generation and the tables that stand. -/
def posted? (s : State) (p : Posted) : Bool :=
  (s.op? p.id).isNone && s.posted.find? (fun x => x.id == p.id) == some p && (s.strand p.ck).failed.isNone && p.gen == s.gen && decide (s.tabs ≤ p.tabs)
theorem witness_PostedRequests_path : (let p := request 7 (.atom .addI false 8 5 0 true 0 0)
    let q := request 8 (.write 0x4200 0xFF00 false)
    let s := waiting [p, q]
    posted? s p && posted? s q && !s.blocked p && s.blocked q && decide (p.last ≤ p.stage) &&
    (([({ p with die := 2 } : Posted), { p with line := 2 ^ 80 }, { p with line := 2 ^ 80, stage := 1 }] : List Posted).all fun p =>
      posted? (waiting [p]) p && !(waiting [p]).blocked p && decide (p.stage < p.last)) &&
    (let g : Posted := { q with glob := true, gen := 0 }
     (waiting [g]).posted.find? (fun x => x.id == 8) == some g && !(waiting [g]).blocked g && decide (g.last ≤ g.stage) && g.gen != (waiting [g]).gen && !g.isLoad)) = true := by
  decide +kernel
theorem witness_PostedRequests_home : (([request 8 (.store 0x42 1), request 8 (.write 0x4200 2 false), request 8 (.entry 0x42 1)] : List Posted).all (fun p =>
      let s := waiting [p]
      posted? s p && !s.blocked p && decide (p.last ≤ p.stage) &&
      (match ({ s with posted := [] } : State).wrHome p.agent (p.ea / 64 * 64) 0x4200 2 with | .ok t => (t.strand p.ck).failed.isNone | .error _ => false)) &&
    (let m := { request 9 (.miss true) with ea := 0x300000, line := 0xC000 }
     let s := waiting [m]
     let u : State := { s with posted := [] }
     posted? s m && !s.blocked m && decide (m.last ≤ m.stage) && u.running? 0 && (match u.place 0 0 0x300000 true with | .error .fail => true | _ => false)) &&
    (let v := { request 9 (.vault 64 5 4 false) with line := nearLine, path := 1 }
     let s := waiting [v]
     posted? s v && !s.blocked v && decide (v.last ≤ v.stage) && (((({ s with posted := [] } : State).readVlds 0 9).vwrite 0 64 5 4).strand 0).failed.isNone) &&
    (([request 7 (.atom .addI false 8 5 0 true 0 0), request 12 (.load 7 0 8 8 true 0 0)] : List Posted).all fun p =>
      let s := waiting [p]
      let u : State := { s with posted := [] }
      posted? s p && !s.blocked p && decide (p.last ≤ p.stage) &&
      ((s.strand 0).eng .a).flight.any (fun f => f.val == .request 7 0 false) &&
      (match u.place 0 0 0x808 true, u.place 0 0 0x808 false with | .ok (.mem _ _ key), .ok (.mem ..) => !u.poisoned key | _, _ => false))) = true := by decide +kernel
/-- 07 R178, 13 R295: while requests are late an `aiadd` leaves memory alone until its request is performed, which gives it the old value. -/
theorem test_late_atomic : (let w : W2 := mw 0x46 0x42 0x07 3 0
    let s := lateAcc (.aiadd (hd 5) w) 0x808 0 9 (Mem.writeLE [] 0x808 77 8)
    let t := outState (execAiadd (hd 5) w s)
    let u := outState (execHomeRequest 7 t)
    Mem.readLE t.mem 0x808 8 == 77 && t.posted.length == 1 && Mem.readLE u.mem 0x808 8 == 86 && u.posted == [] &&
    u.myEng.flight.map (fun f => f.val) == [.word 77 false]) = true := by decide +kernel
/-- 13 R285, R286: at scope D a store to another die is complete in the egress; the die's own reads come behind it, those of another die need not. -/
theorem test_egress : (let p : PEntry := { line := 4 * 2 ^ 46 / 64, bytes := 0x5A, valid := 1, pub := 0, dead := 0, gen := 0, tabs := 0 }
    let s : State := { standAt 2 0 .a (.nop (hd 0) (rr 0 0 0)) (fun st => { st with pbuf := [p] }) (fun s => s.modDie 4 (fun d => { d with tlb := tlb0 })) with late := true }
    match s.publishAt s.cur.ck 1 with
    | .ok t =>
      let see (die : Nat) : Option Nat := match t.rdPiece { asid := 0, part := 0, die } (4 * 2 ^ 46) 1 with | .ok v => some v.1 | .error _ => none
      see 2 == some 0x5A && see 3 == some 0 && see 4 == some 0 && t.posted.length == 1
    | .error _ => false) = true := by decide +kernel
/-- 13 R295: a load on its way takes what its home holds when it is performed. -/
theorem test_late_load : (let w : W2 := mw 0x45 0x42 0 3 0
    let s := lateAcc (.ld (hd 3) w) 0x808 0 9 (Mem.writeLE [] 0x808 77 8)
    let t := outState (execLd (hd 3) w s)
    let u := outState (execHomeRequest 7 { t with mem := Mem.writeLE [] 0x808 78 8 })
    t.myEng.flight.map (fun f => f.val) == [.request 7 0 false] && u.myEng.flight.map (fun f => f.val) == [.word 78 false]) = true := by decide +kernel
/-- 07 R184: the strand's own load sees an `astrel` that has not been performed. -/
theorem test_late_release : (let w : W2 := mw 0x07 0x42 0 3 0
    let s := lateAcc (.astrel (hd 0) w) 0x808 0 9 (Mem.writeLE [] 0x808 77 8)
    let t := outState (execAstrel (hd 0) w s)
    Mem.readLE t.mem 0x808 8 == 77 && (match t.loadRange 0 0x808 8 with | .ok v => v == (9, false) | .error _ => false) &&
    Mem.readLE (outState (execHomeRequest 7 t)).mem 0x808 8 == 9) = true := by decide +kernel

end Sys2Proof.Tests
end

section
/-! What the sequencer and the access engine compute (05 R109 to R112, 07 R161): the value of each function of the model, as arithmetic on the
operands' numbers or bit by bit. -/

namespace Sys2Proof.Machine

theorem sub_eq_ofInt (a b : Word) : a - b = BitVec.ofInt 64 (a.toInt - b.toInt) := by
  rw [← BitVec.toInt_inj, BitVec.toInt_sub, BitVec.toInt_ofInt]
theorem mul_eq_ofNat (a b : Word) : a * b = BitVec.ofNat 64 (a.toNat * b.toNat) := by
  rw [BitVec.ofNat_mul, BitVec.ofNat_toNat, BitVec.ofNat_toNat, BitVec.setWidth_eq, BitVec.setWidth_eq]
/-- The upper half of the signed product, by the product of the operands at twice the width. -/
theorem mulhS_eq_extract (a b : Word) : mulhS a b = (a.signExtend 128 * b.signExtend 128).extractLsb' 64 64 := by
  have hp : a.signExtend 128 * b.signExtend 128 = BitVec.ofInt 128 (a.toInt * b.toInt) := by
    rw [BitVec.ofInt_mul]; rfl
  apply BitVec.eq_of_toNat_eq
  rw [hp, mulhS, BitVec.extractLsb'_toNat, BitVec.toNat_ofInt, BitVec.toNat_ofInt, Nat.shiftRight_eq_div_pow]
  omega
/-- The upper half of the unsigned product. -/
theorem mulhU_eq_extract (a b : Word) : mulhU a b = (a.zeroExtend 128 * b.zeroExtend 128).extractLsb' 64 64 := by
  have hlt : a.toNat * b.toNat < 2 ^ 128 := (Nat.mul_lt_mul'' a.isLt b.isLt).trans_eq (by decide)
  have ha : (a.zeroExtend 128).toNat = a.toNat := BitVec.toNat_setWidth_of_le (by omega)
  have hb : (b.zeroExtend 128).toNat = b.toNat := BitVec.toNat_setWidth_of_le (by omega)
  apply BitVec.eq_of_toNat_eq
  rw [mulhU, w64, BitVec.extractLsb'_toNat, BitVec.toNat_mul, ha, hb, BitVec.toNat_ofNat, Nat.mod_eq_of_lt hlt, Nat.shiftRight_eq_div_pow]

theorem shiftLeft_eq_ofNat (a : Word) (n : Nat) : a <<< n = BitVec.ofNat 64 (a.toNat * 2 ^ n) := by
  apply BitVec.eq_of_toNat_eq
  rw [BitVec.toNat_shiftLeft, BitVec.toNat_ofNat, Nat.shiftLeft_eq]
theorem shiftRight_eq_ofNat (a : Word) (n : Nat) : a >>> n = BitVec.ofNat 64 (a.toNat / 2 ^ n) := by
  rw [← Nat.shiftRight_eq_div_pow, ← BitVec.toNat_ushiftRight, BitVec.ofNat_toNat, BitVec.setWidth_eq]
theorem sshiftRight_eq_ofInt (a : Word) (n : Nat) : a.sshiftRight n = BitVec.ofInt 64 (a.toInt / 2 ^ n) := by
  rw [← BitVec.ofInt_toInt (x := a.sshiftRight n), BitVec.toInt_sshiftRight, Int.shiftRight_eq_div_pow]
  rfl
theorem shAmt_lt (b : Word) : shAmt b < 64 := Nat.mod_lt _ (by decide)
theorem rotateLeft_eq_ofNat (a : Word) {n : Nat} (hn : n < 64) :
    a.rotateLeft n = BitVec.ofNat 64 ((a.toNat * 2 ^ n) ||| (a.toNat / 2 ^ (64 - n))) := by
  rw [BitVec.rotateLeft_def, Nat.mod_eq_of_lt hn, shiftLeft_eq_ofNat, shiftRight_eq_ofNat, BitVec.ofNat_or]

theorem min_signed (a b : Word) : (if b.slt a then b else a) = if a.toInt ≤ b.toInt then a else b := by
  simp only [BitVec.slt_eq_decide, decide_eq_true_eq, ← Int.not_le, ite_not]
theorem min_unsigned (a b : Word) : (if b.ult a then b else a) = if a.toNat ≤ b.toNat then a else b := by
  simp only [BitVec.ult_eq_decide, decide_eq_true_eq, ← Nat.not_le, ite_not]
theorem max_signed (a b : Word) : (if a.slt b then b else a) = if a.toInt ≤ b.toInt then b else a := by
  rw [BitVec.slt_eq_decide]
  rcases Int.lt_trichotomy a.toInt b.toInt with hlt | heq | hgt
  · simp [hlt, Int.le_of_lt hlt]
  · simp [BitVec.toInt_inj.1 heq]
  · simp [Int.not_le.2 hgt, Int.not_lt.2 (Int.le_of_lt hgt)]
theorem max_unsigned (a b : Word) : (if a.ult b then b else a) = if a.toNat ≤ b.toNat then b else a := by
  rw [BitVec.ult_eq_decide]
  rcases Nat.lt_trichotomy a.toNat b.toNat with hlt | heq | hgt
  · simp [hlt, Nat.le_of_lt hlt]
  · simp [BitVec.eq_of_toNat_eq heq]
  · simp [Nat.not_le.2 hgt, Nat.not_lt.2 (Nat.le_of_lt hgt)]

/-- The quotient of the least number by -1 wraps to the least number (05 R110). -/
theorem divS_eq (a b : Word) : divS a b = if b = 0 then 0 else if a = BitVec.intMin 64 ∧ b = BitVec.allOnes 64 then BitVec.intMin 64
    else BitVec.ofInt 64 (a.toInt.tdiv b.toInt) := by
  unfold divS
  split
  · rfl
  · split
    · next h => rw [h.1, h.2]; decide
    · rfl
/-- Its remainder is zero (05 R110). -/
theorem remS_eq (a b : Word) : remS a b = if b = 0 then a else if a = BitVec.intMin 64 ∧ b = BitVec.allOnes 64 then 0
    else BitVec.ofInt 64 (a.toInt - b.toInt * a.toInt.tdiv b.toInt) := by
  unfold remS
  split
  · rfl
  · split
    · next h => rw [h.1, h.2]; decide
    · rw [Int.tmod_def]

theorem toNat_ne_zero {a : Word} (ha : a ≠ 0) : a.toNat ≠ 0 := by simpa using BitVec.toNat_ne.1 ha
theorem clz64_le (a : Word) : clz64 a ≤ 64 := by
  unfold clz64
  split <;> omega
theorem getMsbD_of_lt_clz64 {a : Word} {i : Nat} (hi : i < clz64 a) : a.getMsbD i = false := by
  by_cases ha : a = 0
  · simp [ha]
  · rw [clz64, if_neg ha] at hi
    rw [BitVec.getMsbD_eq_getLsbD, ← BitVec.testBit_toNat, Nat.testBit_lt_two_pow, Bool.and_false]
    exact Nat.lt_log2_self.trans_le (Nat.pow_le_pow_right (by omega) (by omega))
theorem getMsbD_clz64 {a : Word} (h : clz64 a < 64) : a.getMsbD (clz64 a) = true := by
  have ha : a ≠ 0 := fun ha => by simp [clz64, ha] at h
  have hlog : Nat.log2 a.toNat < 64 := (Nat.log2_lt (toNat_ne_zero ha)).2 a.isLt
  have hpos : 64 - 1 - clz64 a = Nat.log2 a.toNat := by rw [clz64, if_neg ha]; omega
  rw [BitVec.getMsbD_eq_getLsbD, hpos, ← BitVec.testBit_toNat, Nat.testBit_log2 (toNat_ne_zero ha)]
  simpa using h

theorem ctzFrom_le (x n : Nat) : ctzFrom x n ≤ n := by
  induction n generalizing x with
  | zero => exact Nat.le_refl 0
  | succ n ih =>
    have := ih (x / 2)
    unfold ctzFrom
    split <;> omega
theorem testBit_of_lt_ctzFrom {x n i : Nat} (hi : i < ctzFrom x n) : x.testBit i = false := by
  induction n generalizing x i with
  | zero => exact absurd hi (Nat.not_lt_zero i)
  | succ n ih =>
    unfold ctzFrom at hi
    split at hi
    · exact absurd hi (Nat.not_lt_zero i)
    · next hx =>
      cases i with
      | zero => simpa using hx
      | succ i => rw [Nat.testBit_succ]; exact ih (by omega)
theorem testBit_ctzFrom {x n : Nat} (h : ctzFrom x n < n) : x.testBit (ctzFrom x n) = true := by
  induction n generalizing x with
  | zero => exact absurd h (Nat.not_lt_zero _)
  | succ n ih =>
    unfold ctzFrom at h ⊢
    split at h
    · next hx => simp [hx]
    · next hx => rw [if_neg hx, Nat.add_comm, Nat.testBit_succ]; exact ih (by omega)
theorem ctz64_le (a : Word) : ctz64 a ≤ 64 := ctzFrom_le _ _
theorem getLsbD_of_lt_ctz64 {a : Word} {i : Nat} (hi : i < ctz64 a) : a.getLsbD i = false := by
  rw [← BitVec.testBit_toNat]
  exact testBit_of_lt_ctzFrom hi
theorem getLsbD_ctz64 {a : Word} (h : ctz64 a < 64) : a.getLsbD (ctz64 a) = true := by
  rw [← BitVec.testBit_toNat]
  exact testBit_ctzFrom h

theorem popcount_toNat (a : Word) (n : Nat) : popcount a.toNat n = ((List.range n).filter (fun i => a.getLsbD i)).length := by
  induction n with
  | zero => rfl
  | succ n ih =>
    have hbit : (a.toNat >>> n) % 2 = (a.getLsbD n).toNat := by
      rw [← BitVec.testBit_toNat, Nat.toNat_testBit, Nat.shiftRight_eq_div_pow]
    rw [popcount, ih, hbit, List.range_succ, List.filter_append, List.length_append]
    cases h : a.getLsbD n <;> simp [h, Nat.add_comm]

theorem sval_toNat {n : Nat} (x : BitVec n) : sval n x.toNat = x.toInt := by
  simp only [sval, Nat.mod_eq_of_lt x.isLt, BitVec.toInt_eq_toNat_cond]
  rfl
/-- `bfx` extends the field (05 R112). -/
theorem bfx64_eq_extend (a : Word) (pos width : Nat) (sxt : Bool) :
    bfx64 a pos width sxt = if sxt then (a.extractLsb' pos width).signExtend 64 else (a.extractLsb' pos width).setWidth 64 := by
  have hv : a.toNat / 2 ^ pos % 2 ^ width = (a.extractLsb' pos width).toNat := by
    rw [BitVec.extractLsb'_toNat, Nat.shiftRight_eq_div_pow]
  simp only [bfx64, hv, sval_toNat, w64, BitVec.ofNat_toNat, BitVec.signExtend]
theorem getLsbD_bfx64_of_lt (a : Word) {pos width i : Nat} (sxt : Bool) (hw : pos + width ≤ 64) (hi : i < width) :
    (bfx64 a pos width sxt).getLsbD i = a.getLsbD (pos + i) := by
  have h64 : i < 64 := by omega
  cases sxt with
  | false => simp [bfx64_eq_extend, hi, h64]
  | true => simp [bfx64_eq_extend, BitVec.getElem_signExtend, hi, h64]
theorem getLsbD_bfx64_of_le (a : Word) {pos width i : Nat} (sxt : Bool) (hw : 0 < width) (hi : width ≤ i) (h64 : i < 64) :
    (bfx64 a pos width sxt).getLsbD i = (sxt && a.getLsbD (pos + width - 1)) := by
  have hlt : ¬ i < width := Nat.not_lt.2 hi
  have htop : pos + (width - 1) = pos + width - 1 := by omega
  cases sxt with
  | false => simp [bfx64_eq_extend, hlt, h64]
  | true => simp [bfx64_eq_extend, BitVec.getElem_signExtend, BitVec.msb_eq_getLsbD_last, hlt, h64, hw, htop]

/-- A field replaced: the bits of the new value in it, the old ones outside. -/
theorem getLsbD_setFld {n : Nat} (x : BitVec n) {hi lo : Nat} (v : Nat) (hhi : hi < n) (i : Nat) :
    (setFld x hi lo v).getLsbD i = if lo ≤ i ∧ i ≤ hi then v.testBit (i - lo) else x.getLsbD i := by
  have hmask : 2 ^ (hi + 1 - lo) - 1 + 1 = 2 ^ (hi + 1 - lo) := Nat.sub_add_cancel Nat.one_le_two_pow
  simp only [setFld, hmask, BitVec.getLsbD_or, BitVec.getLsbD_and, BitVec.getLsbD_not, BitVec.getLsbD_ofNat, Nat.testBit_shiftLeft,
    Nat.testBit_two_pow_sub_one, Nat.testBit_mod_two_pow]
  by_cases hlo : lo ≤ i
  · have hin : i - lo < hi + 1 - lo ↔ i ≤ hi := by omega
    by_cases hle : i ≤ hi
    · have hn : i < n := by omega
      simp [hlo, hin, hle, hn]
    · simpa [hlo, hin, hle] using BitVec.lt_of_getLsbD
  · simpa [hlo] using BitVec.lt_of_getLsbD
theorem getLsbD_bfi64 (a b : Word) {pos width : Nat} (hw : pos + width ≤ 64) (h0 : 0 < width) (i : Nat) :
    (bfi64 a b pos width).getLsbD i = if pos ≤ i ∧ i < pos + width then a.getLsbD (i - pos) else b.getLsbD i := by
  have hlast : i ≤ pos + width - 1 ↔ i < pos + width := by omega
  simp only [bfi64, getLsbD_setFld b a.toNat (show pos + width - 1 < 64 by omega), hlast, BitVec.testBit_toNat]

end Sys2Proof.Machine
end

section
/-! The reserved fields of well-formed sequencer and access words (02 R46, 05 R109 to R113), and words whose whole effect is one scalar result. -/

namespace Sys2Proof.Machine

/-- The two-operand form leaves C, CC, FN[45:40] and the operand that I does not choose at zero (05 R109). -/
theorem reserved_of_s2 {w : W1} (hs : Legal.s2 w = true) :
    w.c = 0 ∧ w.fn.toNat % 2048 = 0 ∧ (w.fn.getLsbD 11 = true → w.b = 0) ∧ (w.fn.getLsbD 11 = false → w.imm = 0) := by
  simp only [Legal.s2, Legal.immForm, Legal.none7, Legal.fnCC, Legal.fnLow, Bool.and_eq_true, beq_iff_eq] at hs
  obtain ⟨⟨-, ⟨hcc, hlow⟩, hop⟩, hc⟩ := hs
  refine ⟨hc, by omega, fun hi => ?_, fun hi => ?_⟩
  · simpa [show Legal.fnI w.fn = true from hi] using hop
  · have hb : Legal.sv w.b = true ∧ w.imm = 0 := by simpa [show Legal.fnI w.fn = false from hi] using hop
    exact hb.2
theorem reserved_of_s1 {w : W1} (hs : Legal.s1 w = true) : w.b = 0 ∧ w.c = 0 ∧ w.fn = 0 ∧ w.imm = 0 := by
  simp only [Legal.s1, Legal.none7, Bool.and_eq_true, beq_iff_eq] at hs
  obtain ⟨⟨⟨⟨-, hb⟩, hc⟩, hfn⟩, himm⟩ := hs
  exact ⟨hb, hc, hfn, himm⟩
theorem bfPos_eq (w : W1) : (w.imm.extractLsb' 0 6).toNat = Legal.bfPos w := BitVec.extractLsb'_toNat 0 6 w.imm
theorem bfWidth_eq (w : W1) : (w.imm.extractLsb' 6 6).toNat + 1 = Legal.bfWidth w := by
  rw [BitVec.extractLsb'_toNat, Nat.shiftRight_eq_div_pow]; rfl
theorem reserved_of_bfx {pf : Profile} {h : Head} {w : W1} (hw : (Instr.bfx h w).WellFormed pf) :
    w.b = 0 ∧ w.c = 0 ∧ w.fn = 0 ∧ w.imm.toNat < 2 ^ 13 ∧ Legal.bfPos w + Legal.bfWidth w ≤ 64 := by
  have hf : (Instr.bfx h w).fieldsOk pf = true := Laws.RoundTrip.fieldsOk_of_wellFormed hw
  simp only [Instr.fieldsOk, Legal.none7, Bool.and_eq_true, beq_iff_eq, decide_eq_true_eq] at hf
  obtain ⟨⟨⟨⟨⟨-, hb⟩, hc⟩, hfn⟩, himm⟩, hlen⟩ := hf
  exact ⟨hb, hc, hfn, himm, hlen⟩
theorem reserved_of_bfi {pf : Profile} {h : Head} {w : W1} (hw : (Instr.bfi h w).WellFormed pf) :
    w.c = 0 ∧ w.fn = 0 ∧ w.imm.toNat < 2 ^ 12 ∧ Legal.bfPos w + Legal.bfWidth w ≤ 64 := by
  have hf : (Instr.bfi h w).fieldsOk pf = true := Laws.RoundTrip.fieldsOk_of_wellFormed hw
  simp only [Instr.fieldsOk, Legal.none7, Bool.and_eq_true, beq_iff_eq, decide_eq_true_eq] at hf
  obtain ⟨⟨⟨⟨-, hc⟩, hfn⟩, himm⟩, hlen⟩ := hf
  exact ⟨hc, hfn, himm, hlen⟩
theorem pred_of_sel {pf : Profile} {h : Head} {w : W1} (hw : (Instr.sel h w).WellFormed pf) : 0x60 ≤ w.c.toNat ∧ w.c.toNat < 0x70 := by
  have hf : (Instr.sel h w).fieldsOk pf = true := Laws.RoundTrip.fieldsOk_of_wellFormed hw
  simp only [Instr.fieldsOk, Legal.pred, Bool.and_eq_true, decide_eq_true_eq] at hf
  obtain ⟨-, hc⟩ := hf
  exact hc

/-- A two-operand word, a row of the tables of 05 R109 and 07 R161: its function `f` has the row's value `v` on the operands. -/
theorem exec_gives_of_alu {h : Head} {w : W1} {s : State} {a b v : Word} (i : Instr) (f : Word → Word → Word) (hx : exec i s = alu i h w s f)
    (ha : s.rd w.a 0 = .ok a) (hb : s.rdB w = .ok b) (hv : f a b = v) (hr : s.reaches i h = true) :
    ∃ t, exec i s = .next t ∧ s.Gives t h (destOf w.d) (.word v false) 0 := by
  rw [hx, ← hv]
  exact alu_next hr ha hb
/-- A one-operand word likewise (05 R111, R112, R114). -/
theorem exec_gives_of_alu1 {h : Head} {w : W1} {s : State} {a v : Word} (i : Instr) (f : Word → Word) (hx : exec i s = alu1 i h w s f)
    (ha : s.rd w.a 0 = .ok a) (hv : f a = v) (hr : s.reaches i h = true) :
    ∃ t, exec i s = .next t ∧ s.Gives t h (destOf w.d) (.word v false) 0 := by
  rw [hx, ← hv]
  exact alu1_next hr ha

section
variable {h : Head} {w : W1} {s : State} {a b : Word}

theorem bfi_gives (hr : s.reaches (.bfi h w) h = true) (ha : s.rd w.a 0 = .ok a) (hb : s.rd w.b 1 = .ok b) :
    ∃ t, exec (.bfi h w) s = .next t ∧
      s.Gives t h (destOf w.d) (.word (bfi64 a b (Legal.bfPos w) (Legal.bfWidth w)) false) 0 := by
  have hx : execBfi h w s = _ := word_next hr (x := (a, b)) (by rw [ha, hb]; rfl)
  exact ⟨_, hx, s.gives_result h _ _ _⟩
theorem sel_gives (hr : s.reaches (.sel h w) h = true) (ha : s.rd w.a 0 = .ok a) (hb : s.rdB w = .ok b) :
    ∃ t, exec (.sel h w) s = .next t ∧
      s.Gives t h (destOf w.d) (.word (if s.readP (w.c.toNat - 0x60) = true then a else b) false) 0 := by
  have hx : execSel h w s = _ := word_next hr (by rw [ha, hb]; rfl)
  exact ⟨_, hx, s.gives_result h _ _ _⟩
theorem li_gives (hr : s.reaches (.li h w) h = true) :
    ∃ t, exec (.li h w) s = .next t ∧ s.Gives t h (destOf w.d) (.word (w.imm.signExtend 64) false) 0 := by
  have hx : execLi h w s = _ := word_next hr rfl
  exact ⟨_, hx, s.gives_result h _ _ _⟩
theorem ali_gives (hr : s.reaches (.ali h w) h = true) :
    ∃ t, exec (.ali h w) s = .next t ∧ s.Gives t h (destOf w.d) (.word (w.imm.signExtend 64) false) 0 := by
  have hx : execAli h w s = _ := word_next hr rfl
  exact ⟨_, hx, s.gives_result h _ _ _⟩

end

end Sys2Proof.Machine
end

section
/-! The statements of the sequencer's integer, logic and field words and of the access engine's arithmetic. -/

namespace Sys2Proof.Machine

/-- Settles O1: each row is `alu` with the row's function, and that function has the table's value. -/
theorem scalarAluResult : Obligations.ScalarAluResult := by
  refine ⟨⟨fun pf h w => ?_, fun _ _ => rfl, fun h w s a b ha hb => ?_⟩, fun h w s a b ha hb => ⟨?_, ?_, ?_⟩⟩
  · have reserved {i : Instr} (hi : i.fieldsOk pf = Legal.s2 w) (hw : i.WellFormed pf) :=
      reserved_of_s2 (hi ▸ Laws.RoundTrip.fieldsOk_of_wellFormed hw)
    simp only [List.forall_mem_cons, List.not_mem_nil, false_imp_iff, implies_true, and_true]
    and_intros <;> exact reserved rfl
  · simp only [List.forall_mem_cons, List.not_mem_nil, false_imp_iff, implies_true, and_true]
    exact ⟨
      exec_gives_of_alu (.add h w) (· + ·) rfl ha hb (BitVec.add_def a b),
      exec_gives_of_alu (.sub h w) (· - ·) rfl ha hb (sub_eq_ofInt a b),
      exec_gives_of_alu (.mul h w) (· * ·) rfl ha hb (mul_eq_ofNat a b),
      exec_gives_of_alu (.mulh h w) mulhS rfl ha hb (mulhS_eq_extract a b),
      exec_gives_of_alu (.mulhn h w) mulhU rfl ha hb (mulhU_eq_extract a b),
      exec_gives_of_alu (.andS h w) (· &&& ·) rfl ha hb rfl,
      exec_gives_of_alu (.orS h w) (· ||| ·) rfl ha hb rfl,
      exec_gives_of_alu (.xorS h w) (· ^^^ ·) rfl ha hb rfl,
      exec_gives_of_alu (.andn h w) (fun a b => a &&& ~~~b) rfl ha hb rfl,
      exec_gives_of_alu (.shl h w) (fun a b => a <<< shAmt b) rfl ha hb (shiftLeft_eq_ofNat a (shAmt b)),
      exec_gives_of_alu (.shr h w) (fun a b => a >>> shAmt b) rfl ha hb (shiftRight_eq_ofNat a (shAmt b)),
      exec_gives_of_alu (.sar h w) (fun a b => a.sshiftRight (shAmt b)) rfl ha hb (sshiftRight_eq_ofInt a (shAmt b)),
      exec_gives_of_alu (.rot h w) (fun a b => a.rotateLeft (shAmt b)) rfl ha hb (rotateLeft_eq_ofNat a (shAmt_lt b)),
      exec_gives_of_alu (.minS h w) (fun a b => if b.slt a then b else a) rfl ha hb (min_signed a b),
      exec_gives_of_alu (.maxS h w) (fun a b => if a.slt b then b else a) rfl ha hb (max_signed a b),
      exec_gives_of_alu (.minn h w) (fun a b => if b.ult a then b else a) rfl ha hb (min_unsigned a b),
      exec_gives_of_alu (.maxn h w) (fun a b => if a.ult b then b else a) rfl ha hb (max_unsigned a b)⟩
  · exact exec_gives_of_alu (.div h w) divS rfl ha hb (divS_eq a b)
  · exact exec_gives_of_alu (.divn h w) divU rfl ha hb rfl
  · exact exec_gives_of_alu (.rem h w) remS rfl ha hb (remS_eq a b)

/-- Settles O2: each word is one result of its operands, of which the laws of the bit counts and fields tell every bit. -/
theorem bitCountsAndFields : Obligations.BitCountsAndFields := by
  unfold Obligations.BitCountsAndFields
  simp only [Nat.add_assoc, bfPos_eq, bfWidth_eq]
  refine ⟨⟨fun pf h w => ?_, fun h w s a ha => ⟨fun hr => ?_, fun hr => ?_, ?_⟩⟩,
    fun pf h w => ⟨reserved_of_bfx, reserved_of_bfi⟩, fun h w s a b ha hb hlen => ?_⟩
  · have reserved {i : Instr} (hi : i.fieldsOk pf = Legal.s1 w) (hw : i.WellFormed pf) :=
      reserved_of_s1 (hi ▸ Laws.RoundTrip.fieldsOk_of_wellFormed hw)
    simp only [List.forall_mem_cons, List.not_mem_nil, false_imp_iff, implies_true, and_true]
    and_intros <;> exact reserved rfl
  · obtain ⟨t, hx, hg⟩ := exec_gives_of_alu1 (.clz h w) (fun a => w64 (clz64 a)) rfl ha rfl hr
    exact ⟨t, clz64 a, hx, hg, clz64_le a, fun _ => getMsbD_of_lt_clz64, getMsbD_clz64⟩
  · obtain ⟨t, hx, hg⟩ := exec_gives_of_alu1 (.ctz h w) (fun a => w64 (ctz64 a)) rfl ha rfl hr
    exact ⟨t, ctz64 a, hx, hg, ctz64_le a, fun _ => getLsbD_of_lt_ctz64, getLsbD_ctz64⟩
  · exact exec_gives_of_alu1 (.popc h w) (fun a => w64 (popcount a.toNat 64)) rfl ha (congrArg w64 (popcount_toNat a 64))
  · have hpos : 0 < Legal.bfWidth w := Nat.succ_pos _
    refine ⟨fun hr => ?_, fun hr => ?_⟩
    · obtain ⟨t, hx, hg⟩ := exec_gives_of_alu1 (.bfx h w) (fun a => bfx64 a (Legal.bfPos w) (Legal.bfWidth w) (bit w.imm 12)) rfl ha rfl hr
      exact ⟨t, _, hx, hg, fun _ => getLsbD_bfx64_of_lt a _ hlen, fun _ => getLsbD_bfx64_of_le a _ hpos⟩
    · obtain ⟨t, hx, hg⟩ := bfi_gives hr ha hb
      exact ⟨t, _, hx, hg, getLsbD_bfi64 a b hlen hpos⟩

/-- Settles O3: the rows of 07 R161 are `alu` with the sequencer's functions; the moves read their operands at issue. -/
theorem addressAndMoveResults : Obligations.AddressAndMoveResults := by
  refine ⟨fun h w s a b ha hb => ?_, fun _ _ _ => pred_of_sel, fun h w s a b ha hb => ⟨fun hr => sel_gives hr ha hb, ?_, ?_⟩⟩
  · simp only [List.forall_mem_cons, List.not_mem_nil, false_imp_iff, implies_true, and_true]
    exact ⟨
      exec_gives_of_alu (.aadd h w) (· + ·) rfl ha hb (BitVec.add_def a b),
      exec_gives_of_alu (.asub h w) (· - ·) rfl ha hb (sub_eq_ofInt a b),
      exec_gives_of_alu (.amul h w) (· * ·) rfl ha hb (mul_eq_ofNat a b),
      exec_gives_of_alu (.ashl h w) (fun a b => a <<< shAmt b) rfl ha hb (shiftLeft_eq_ofNat a (shAmt b)),
      exec_gives_of_alu (.ashr h w) (fun a b => a >>> shAmt b) rfl ha hb (shiftRight_eq_ofNat a (shAmt b)),
      exec_gives_of_alu (.aand h w) (· &&& ·) rfl ha hb rfl,
      exec_gives_of_alu (.aor h w) (· ||| ·) rfl ha hb rfl⟩
  · simp only [List.forall_mem_cons, List.not_mem_nil, false_imp_iff, implies_true, and_true]
    exact ⟨li_gives, ali_gives⟩
  · exact exec_gives_of_alu1 (.lih h w) (fun a => (w.imm.extractLsb' 0 24 ++ a.extractLsb' 0 40 : BitVec 64)) rfl ha rfl

end Sys2Proof.Machine
end
